-- ==== Sys2Proof/Word.lean ====
section
/-! DEFINITION. The words of the part: bytes of the command link, 24-bit colours, the frame number and the
generation count. Counts and coordinates are natural numbers (00_scope.md, Conventions). -/

namespace Sys2Proof

/-- A byte of the command link. -/
abbrev Byte := BitVec 8

/-- A 24-bit RGB colour, red in the most significant byte. -/
abbrev Colour := BitVec 24

/-- The frame number, which wraps at 65,536 (R139). -/
abbrev FrameNo := BitVec 16

/-- The generation count of a region, which wraps at 256 (R9). -/
abbrev Generation := BitVec 8

end Sys2Proof
end

