-- ==== Sys2Proof/Syntax.lean ====
section
/-! DEFINITION. The commands: one constructor for each row of spec/opcode_table.json. -/

namespace Sys2Proof

/-- The four host ports; port 0 is the plan port. -/
inductive PortId where
  | p0 | p1 | p2 | p3
  deriving DecidableEq, Repr

/-- The number of a port. -/
def PortId.toNat : PortId → Nat
  | .p0 => 0
  | .p1 => 1
  | .p2 => 2
  | .p3 => 3

/-- The port with a number, if there is one. -/
def PortId.ofNat? : Nat → Option PortId
  | 0 => some .p0
  | 1 => some .p1
  | 2 => some .p2
  | 3 => some .p3
  | _ => none

/-- The ports in port order. -/
def PortId.all : List PortId := [.p0, .p1, .p2, .p3]

/-- The part of a transaction that a command carries out (R172, log 5). Bytes are whole bytes: a partial byte is
discarded and has no effect. -/
inductive LinkPart where
  /-- A whole transaction: chip select falls, the kind byte of the command and then these bytes are clocked, chip select
  rises. -/
  | whole (bytes : List Byte)
  /-- Chip select falls. The part knows no kind yet, so this part is the same for the five kinds. -/
  | select
  /-- The kind byte of the command is clocked. -/
  | kind
  /-- These further bytes are clocked. For the reading kinds their values are ignored and only their number counts. -/
  | clock (bytes : List Byte)
  /-- Chip select rises. -/
  | release
  deriving DecidableEq, Repr

/-- One block's work at a frame start (R139). -/
inductive FrameWork where
  /-- The commit of the Layout Store (R69). -/
  | commit
  /-- The Source Unit of a port takes the frame start: the judgement, and FSYNC (R113, R117). -/
  | unit (p : PortId)
  /-- The Scan Timer's count and change of state (R143); at PANEL-ON its PANEL_STATE notice (R147). -/
  | timer
  deriving DecidableEq, Repr

/-- The blocks' work in the table order of R139. -/
def FrameWork.usual : List FrameWork :=
  [.commit, .unit .p0, .unit .p1, .unit .p2, .unit .p3, .timer]

/-- The commands of the part. A request row is the taking of the request at the head of the named port's queue by
that port's engine (R156); its tag and parameters are those of the request record. `now` is the order in which the
blocks take a frame start, which the spec leaves open (R139, log 7); work it does not list comes after the work it lists,
or, where a count is reached, at the row of that count (log 8). -/
inductive Instr where
  /-- DEVICE_RESET (R152). -/
  | deviceReset
  /-- WRITE_REQUEST (R154, R174). -/
  | writeRequest (p : PortId) (part : LinkPart)
  /-- READ_RESPONSE (R175, R158). -/
  | readResponse (p : PortId) (part : LinkPart)
  /-- READ_NOTICE (R176, R160). -/
  | readNotice (p : PortId) (part : LinkPart)
  /-- STATUS (R177). -/
  | status (p : PortId) (part : LinkPart)
  /-- UNKNOWN_KIND_BYTE (R172): the kind byte is none of 01h to 04h. -/
  | unknownKindByte (p : PortId) (kind : Byte) (part : LinkPart)
  /-- UNKNOWN_CODE (R156). -/
  | unknownCode (p : PortId)
  /-- HELLO (R162). -/
  | hello (p : PortId)
  /-- BYE (R163). -/
  | bye (p : PortId)
  /-- READ_PORT (R170). -/
  | readPort (p : PortId)
  /-- EJECT (R164). -/
  | eject (p : PortId)
  /-- RESTART (R168). -/
  | restart (p : PortId)
  /-- READ_REGION (R18). -/
  | readRegion (p : PortId)
  /-- READ_ORDER (R19). -/
  | readOrder (p : PortId)
  /-- HIT (R37). -/
  | hit (p : PortId)
  /-- BEGIN (R44). -/
  | beginDraft (p : PortId)
  /-- CREATE (R45). -/
  | create (p : PortId)
  /-- PLACE (R46). -/
  | place (p : PortId)
  /-- SOURCE (R47). -/
  | source (p : PortId)
  /-- STYLE (R48). -/
  | style (p : PortId)
  /-- ORDER (R49). -/
  | order (p : PortId)
  /-- RETIRE (R50). -/
  | retire (p : PortId)
  /-- DISCARD (R51). -/
  | discard (p : PortId)
  /-- READ_DRAFT (R52). -/
  | readDraft (p : PortId)
  /-- PUBLISH (R53). -/
  | publish (p : PortId)
  /-- PLAN_SET (R93). -/
  | planSet (p : PortId)
  /-- READ_PLAN (R105). -/
  | readPlan (p : PortId)
  /-- SOURCE_FORMAT (R123). -/
  | sourceFormat (p : PortId)
  /-- MARK (R126). -/
  | mark (p : PortId)
  /-- UNMARK (R127). -/
  | unmark (p : PortId)
  /-- READ_MARKS (R128). -/
  | readMarks (p : PortId)
  /-- PANEL_SETUP (R148). -/
  | panelSetup (p : PortId)
  /-- PANEL_ON (R142); `now` orders the work of the frame start it raises. -/
  | panelOn (p : PortId) (now : List FrameWork)
  /-- PANEL_OFF (R145). -/
  | panelOff (p : PortId)
  /-- READ_PANEL (R149). -/
  | readPanel (p : PortId)
  /-- FRAME_BEGIN_MARKER (R110). -/
  | frameBeginMarker (p : PortId)
  /-- LINE_PACKET (R111): its line index and its pixels, leftmost first. -/
  | linePacket (p : PortId) (index : Nat) (pixels : List Colour)
  /-- FRAME_END_MARKER (R112). -/
  | frameEndMarker (p : PortId)
  /-- DAMAGED_PACKET (R109). -/
  | damagedPacket (p : PortId)
  /-- FRAME_START (R139). -/
  | frameStart (now : List FrameWork)
  /-- MARK_REPORTS_TAKEN (R132). -/
  | markReportsTaken
  /-- LOCK_COUNT_REACHED (R114). -/
  | lockCountReached (p : PortId)
  /-- LOSS_TOLERANCE_REACHED (R114). -/
  | lossToleranceReached (p : PortId)
  /-- WARM_COUNT_REACHED (R143). -/
  | warmCountReached
  /-- ENTRY_INTO_DARK (R146); `noticeFirst` says whether PANEL_STATE is sent before the commit (R147). -/
  | entryIntoDark (noticeFirst : Bool)
  /-- LINE_START (R140), of the line after the one the scan stands at. -/
  | lineStart
  /-- LEAVING_EXIT (R166). -/
  | leavingExit (p : PortId)
  deriving DecidableEq, Repr

end Sys2Proof
end

