-- ==== Sys2Proof/Config.lean ====
section
/-! DEFINITION. The fixed numbers of the part, and its one free value. -/

namespace Sys2Proof.Config

/-- Region slots of the table (R1; ids 0 to 23). -/
def slotCount : Nat := 24

/-- Requests a request queue holds (R154). -/
def requestDepth : Nat := 4

/-- The response credit of a port (R154, R155). -/
def creditLimit : Nat := 8

/-- Entries a notice queue holds (R159). -/
def noticeDepth : Nat := 8

/-- The ceiling of a notice's repeat count (R159). -/
def repeatCeiling : Nat := 15

/-- Marks a mark list holds (R125). -/
def marksPerPort : Nat := 4

/-- The longest parameter list of a request frame (R174). -/
def maxParams : Nat := 64

/-- The ceiling of the good-frame count (R114). -/
def goodCeiling : Nat := 7

/-- The ceiling of the missed-frame count (R114). -/
def missedCeiling : Nat := 15

/-- The most pixels a declared source frame may have (R122). -/
def maxSourcePixels : Nat := 262144

/-- Pixel clocks of the horizontal blank (R138). -/
def horizontalBlank : Nat := 80

/-- FREE VALUE. The colour taken for the source pixel at a line and a column that the SHOWING bank does not hold.
The laws R4 and R118 make every pixel that is asked for one the bank holds, so no run reads this (log 18). -/
opaque absentPixel : Nat → Nat → Colour

end Sys2Proof.Config
end

