-- ==== Sys2Proof/Machine/State.lean ====
section
/-! DEFINITION. The state of the part, block by block, as plain data; the closed lists of faults and refusals; the
state after device reset. -/

namespace Sys2Proof.Machine

/-- One thing for each of the four ports. -/
structure PerPort (α : Type) where
  p0 : α
  p1 : α
  p2 : α
  p3 : α
  deriving DecidableEq, Repr

/-- The thing of one port. -/
def PerPort.get {α : Type} (v : PerPort α) : PortId → α
  | .p0 => v.p0
  | .p1 => v.p1
  | .p2 => v.p2
  | .p3 => v.p3

/-- The four things with that of one port replaced. -/
def PerPort.set {α : Type} (v : PerPort α) (p : PortId) (x : α) : PerPort α :=
  match p with
  | .p0 => { v with p0 := x }
  | .p1 => { v with p1 := x }
  | .p2 => { v with p2 := x }
  | .p3 => { v with p3 := x }

/-- The same thing for every port. -/
def PerPort.const {α : Type} (x : α) : PerPort α := ⟨x, x, x, x⟩

/-! ### Port Controllers (09) -/

/-- Why a port is LEAVING (R165). -/
inductive LeaveReason where
  | bye | eject | plan
  deriving DecidableEq, Repr

/-- The attach state; the leave reason and the regions-retired indication are present while LEAVING (R152). -/
inductive Attach where
  | disabled
  | detached
  | attached
  | leaving (reason : LeaveReason) (retired : Bool)
  deriving DecidableEq, Repr

/-- The request engine (R157). -/
inductive EngineState where
  | ready | blocked
  deriving DecidableEq, Repr

/-- The refusal reason of the status byte (R173). -/
inductive Refused where
  | none | full | form | state
  deriving DecidableEq, Repr

/-- A request record (R152). -/
structure Request where
  tag : Byte
  code : Byte
  params : List Byte
  deriving DecidableEq, Repr

/-- The result codes (R183). -/
inductive Result where
  | done | already | cancelled | draftVoid | empty | notAttached | notPlanPort | notOwner | unknownCode | badLength
  | range | noDraft | draftOpen | quota | notLive | noSource | territory | rowShare | guard | sourceWindow | inUse
  | planInvalid | planOrphans | wrongState | markFull
  deriving DecidableEq, Repr

/-- A response record (R152). -/
structure Response where
  tag : Byte
  code : Byte
  result : Result
  fields : List Byte
  deriving DecidableEq, Repr

/-- The notice kinds (R184). -/
inductive NoticeKind where
  | sourceLocked | sourceLost | regionEvicted | draftVoid | planChanged | markReached | markVoid | panelState | portLeft
  deriving DecidableEq, Repr

/-- A notice entry (R159): kind, subject, frame number, repeat count, detail. -/
structure Notice where
  kind : NoticeKind
  subject : Byte
  frame : FrameNo
  count : Nat
  detail : Byte
  deriving DecidableEq, Repr

/-- A Port Controller (table 9.1). The credit in use and the NOTE line are computed (Machine/Flags.lean). -/
structure PortController where
  attach : Attach
  requests : List Request
  engine : EngineState
  deferred : List Request
  responses : List Response
  notices : List Notice
  noticeLost : Bool
  refusal : Refused
  deriving DecidableEq, Repr

/-- The transaction under way on a command link (R172 to R177). -/
inductive LinkState where
  /-- Chip select is high. -/
  | idle
  /-- Chip select fell and fixed this status byte; the kind byte is not taken yet (R173). -/
  | selected (status : Byte)
  /-- WRITE_REQUEST: the bytes of the frame taken so far, and whether the rest of the transaction is ignored (R174). -/
  | writing (taken : List Byte) (ended : Bool)
  /-- READ_RESPONSE: the fixed frame, whether it is that of an entry still in the queue, the bytes clocked (R175). -/
  | sendingResponse (frame : List Byte) (carries : Bool) (clocked : Nat)
  /-- READ_NOTICE: the fixed frame, the notices coalesced since into the entry it carries if that entry is still in
  the queue, the bytes clocked (R176, R160). -/
  | sendingNotice (frame : List Byte) (carries : Option Nat) (clocked : Nat)
  /-- STATUS (R177). -/
  | sendingStatus
  /-- A kind byte of another value: the rest is ignored (R172). -/
  | ignoring
  /-- Device reset abandoned the transaction and chip select has not risen (R172). -/
  | abandoned
  deriving DecidableEq, Repr

/-- A command link: the transaction under way, and the bytes clocked out in it or in the latest one, status byte
first. -/
structure Link where
  state : LinkState
  dout : List Byte
  deriving DecidableEq, Repr

/-! ### The Layout Store (01 to 05) -/

/-- The kind of a region (R5). -/
inductive RegionKind where
  | linked | solid
  deriving DecidableEq, Repr

/-- What a LINKED region does while its source is not LOCKED (R7). -/
inductive Loss where
  | fill | hide
  deriving DecidableEq, Repr

/-- The fields that a copy carries and that the table holds for LIVE slots (R2, R42). sx and sy are those of a LINKED
region; a SOLID record has none, and its copy keeps 0 there, which nothing reads (log 22). -/
structure Copy where
  x : Nat
  y : Nat
  w : Nat
  h : Nat
  sx : Nat
  sy : Nat
  visible : Bool
  loss : Loss
  fill : Colour
  guarded : Bool
  deriving DecidableEq, Repr

/-- A slot of the region table (R1, R2). The generation of a RESERVED slot is 0. -/
inductive Slot where
  | free
  | reserved (owner : PortId) (kind : RegionKind)
  | live (owner : PortId) (kind : RegionKind) (gen : Generation) (copy : Copy)
  deriving DecidableEq, Repr

/-- One region of a proposal. -/
structure DraftEntry where
  id : Nat
  copy : Copy
  deriving DecidableEq, Repr

/-- A draft or a sealed set: its copies in its proposed order, bottom entry first, so that the list names each region
that has a copy once and no other (R42). -/
abbrev Proposal := List DraftEntry

/-- What the Layout Store holds for one port: the live order list, the open draft, the waiting sealed set. The edit
state is computed (R41; Machine/Flags.lean). -/
structure PortLayout where
  order : List Nat
  draft : Option Proposal
  sealedSet : Option Proposal
  deriving DecidableEq, Repr

/-- An entry of the territory plan (table 5.1). -/
structure PlanEntry where
  enabled : Bool
  tx : Nat
  ty : Nat
  tw : Nat
  th : Nat
  quota : Nat
  share : Nat
  rank : Nat
  guard : Bool
  lockCount : Nat
  tolerance : Nat
  deriving DecidableEq, Repr

/-- The territory plan (R88). -/
structure Plan where
  entries : PerPort PlanEntry
  background : Colour
  deriving DecidableEq, Repr

/-- The mode of a PLAN-SET. -/
inductive PlanMode where
  | keep | evict
  deriving DecidableEq, Repr

/-- A sealed plan with its mode (R93). -/
structure SealedPlan where
  plan : Plan
  mode : PlanMode
  deriving DecidableEq, Repr

/-- The Layout Store. -/
structure LayoutStore where
  slots : List Slot
  ports : PerPort PortLayout
  plan : Plan
  sealedPlan : Option SealedPlan
  retiring : List PortId
  deriving DecidableEq, Repr

/-! ### Source Units (06) -/

/-- One of the two banks. -/
inductive BankName where
  | a | b
  deriving DecidableEq, Repr

/-- The other bank. -/
def BankName.other : BankName → BankName
  | .a => .b
  | .b => .a

/-- Lines of pixels, line 0 first, leftmost pixel first. -/
abbrev Picture := List (List Colour)

/-- The state of the FILLING bank. The next expected line of a RECEIVING bank is the number of lines it holds. -/
inductive Filling where
  | empty
  | receiving (lines : Picture)
  | ready (lines : Picture)
  deriving DecidableEq, Repr

/-- The monitor state (R114). -/
inductive Monitor where
  | noSignal | acquiring | locked | lost
  deriving DecidableEq, Repr

/-- A Source Unit (table 6.1). `showing` is the SHOWING bank's content: none is EMPTY. `frameWaiting` is the model's
own: a raised frame start that the unit has not yet taken, its judgement being one that reaches a count (log 8). `fsync` is
the level of the line, and `pulsed`, the model's own, says that the line has pulsed at the latest raised frame start, also
where the pulse has ended since (R117, log 21). -/
structure SourceUnit where
  sw : Nat
  sh : Nat
  showingBank : BankName
  showing : Option Picture
  filling : Filling
  monitor : Monitor
  good : Nat
  missed : Nat
  fsync : Bool
  pulsed : Bool
  frameWaiting : Bool
  deriving DecidableEq, Repr

/-! ### The Scan Timer (08) -/

/-- The panel state. -/
inductive PanelState where
  | dark | warming | live | cooling
  deriving DecidableEq, Repr

/-- The panel setup (8.2). -/
structure Setup where
  w : Nat
  h : Nat
  vblank : Nat
  warm : Nat
  cool : Nat
  divider : Nat
  deriving DecidableEq, Repr

/-- The Scan Timer (R137). The scan position is none for BLANK. `coolingFrame` says whether the frame under way began
in COOLING (R145, R146, log 13); `warmWaiting` is the model's own: a frame start raised in WARMING that the warm count, which it
completes, has not yet taken (log 8). -/
structure ScanTimer where
  panel : PanelState
  setup : Setup
  warm : Nat
  cool : Nat
  frame : FrameNo
  pos : Option Nat
  coolingFrame : Bool
  warmWaiting : Bool
  deriving DecidableEq, Repr

/-! ### The Compositor (02) -/

/-- What an entry of the line list gives: the source line and the source column origin, a colour, or nothing. -/
inductive EntryContent where
  | source (line origin : Nat)
  | fill (colour : Colour)
  | none
  deriving DecidableEq, Repr

/-- An entry of the line list (2.4). -/
structure LineEntry where
  region : Nat
  owner : PortId
  first : Nat
  last : Nat
  content : EntryContent
  deriving DecidableEq, Repr

/-- The panel output link: idle, in the vertical blank, or the pixels of the line under way (2.5, log 19). -/
inductive PanelOutput where
  | idle
  | blank
  | line (pixels : List Colour)
  deriving DecidableEq, Repr

/-- The Compositor. -/
structure Compositor where
  list : List LineEntry
  output : PanelOutput
  deriving DecidableEq, Repr

/-! ### The Mark Unit (07) -/

/-- A mark (7.1). -/
structure Mark where
  id : Nat
  region : Nat
  offset : Nat
  remaining : Nat
  deriving DecidableEq, Repr

/-- A report of the Layout Store to the Mark Unit, with the former owner and the frame number its commit reports
(R79, R132). -/
inductive Report where
  | withdrawn (owner : PortId) (region : Nat) (frame : FrameNo)
  | reshaped (owner : PortId) (region : Nat) (height : Nat) (frame : FrameNo)
  deriving DecidableEq, Repr

/-- The Mark Unit: a mark list for each port, and the reports handed over and not yet taken. `withdrawn` is the model's
own: the regions that the latest commit withdrew, each with its former owner, for which R83 gives MARK's result
(log 30). -/
structure MarkUnit where
  lists : PerPort (List Mark)
  reports : List Report
  withdrawn : List (PortId × Nat)
  deriving DecidableEq, Repr

/-! ### The whole part -/

/-- The state of the part, and the queue of the commands that wait, first in first out. -/
structure State where
  ports : PerPort PortController
  links : PerPort Link
  layout : LayoutStore
  sources : PerPort SourceUnit
  scan : ScanTimer
  comp : Compositor
  marks : MarkUnit
  pending : List Instr
  deriving DecidableEq, Repr

/-- The faults of the part: there is none. The spec describes nothing that stops the part; every error is an answer,
a refusal at the link, a dropped notice or an EMPTY bank. Safe: nothing is stopped that the spec lets go on. -/
inductive Fault where
  deriving DecidableEq, Repr

/-- The refusals of the model. -/
inductive Refusal where
  /-- Raised by exec's arm of a command that has no meaning yet; no arm raises it now. Safe: nothing is claimed. -/
  | notModelled (mnemonic : String)
  deriving DecidableEq, Repr

/-! ### Values after device reset -/

/-- The setup after device reset (8.2). -/
def Setup.reset : Setup := { w := 800, h := 480, vblank := 20, warm := 4, cool := 2, divider := 4 }

/-- The default plan's entry of port 0 for a panel of w by h (table 5.1). -/
def PlanEntry.defaultZero (w h : Nat) : PlanEntry :=
  { enabled := true, tx := 0, ty := 0, tw := w, th := h, quota := 24, share := 8, rank := 3, guard := true,
    lockCount := 2, tolerance := 3 }

/-- The default plan's entry of a port 1 to 3 with a band rank (table 5.1). -/
def PlanEntry.defaultOther (rank : Nat) : PlanEntry :=
  { enabled := false, tx := 0, ty := 0, tw := 0, th := 0, quota := 0, share := 0, rank := rank, guard := false,
    lockCount := 2, tolerance := 3 }

/-- The default plan for a panel of w by h (R90): port n of 1 to 3 takes rank n - 1, the background is 000000h. -/
def Plan.default (w h : Nat) : Plan :=
  { entries := ⟨.defaultZero w h, .defaultOther 0, .defaultOther 1, .defaultOther 2⟩, background := 0 }

/-- A Port Controller after device reset, in an attach state (R152). -/
def PortController.reset (a : Attach) : PortController :=
  { attach := a, requests := [], engine := .ready, deferred := [], responses := [], notices := [], noticeLost := false,
    refusal := .none }

/-- A Source Unit after device reset (R108). -/
def SourceUnit.reset : SourceUnit :=
  { sw := 1, sh := 0, showingBank := .a, showing := none, filling := .empty, monitor := .noSignal, good := 0,
    missed := 0, fsync := false, pulsed := false, frameWaiting := false }

/-- The Layout Store's part of a port with nothing in it. -/
def PortLayout.reset : PortLayout := { order := [], draft := none, sealedSet := none }

/-- The Layout Store after device reset (R21, R68, R87, R90). -/
def LayoutStore.reset : LayoutStore :=
  { slots := List.replicate Config.slotCount .free, ports := PerPort.const .reset, plan := .default 800 480,
    sealedPlan := none, retiring := [] }

/-- The Scan Timer after device reset (R137). -/
def ScanTimer.reset : ScanTimer :=
  { panel := .dark, setup := .reset, warm := 0, cool := 0, frame := 0, pos := none, coolingFrame := false,
    warmWaiting := false }

/-- The part right after device reset, no command waiting. -/
def State.reset : State :=
  { ports := ⟨.reset .detached, .reset .disabled, .reset .disabled, .reset .disabled⟩
    links := PerPort.const { state := .idle, dout := [] }
    layout := .reset
    sources := PerPort.const .reset
    scan := .reset
    comp := { list := [], output := .idle }
    marks := { lists := PerPort.const [], reports := [], withdrawn := [] }
    pending := [] }

end Sys2Proof.Machine
end

