-- ==== Sys2Proof/Machine/Operands.lean ====
section
/-! DEFINITION. The byte layouts of the command link (10): codes, parameters, response field lists, the region record,
the plan entry, and the frames with their check bytes. -/

namespace Sys2Proof.Machine

/-! ### Numbers and bytes -/

/-- A number as one byte. -/
def byteOf (n : Nat) : Byte := BitVec.ofNat 8 n

/-- A number as two bytes, low byte first (00_scope.md, Conventions). -/
def le16 (n : Nat) : List Byte := [byteOf n, byteOf (n / 256)]

/-- A colour as three bytes, low byte first: blue, green, red (R179). -/
def rgbBytes (c : Colour) : List Byte := [c.extractLsb' 0 8, c.extractLsb' 8 8, c.extractLsb' 16 8]

/-- The frame number as two bytes, low byte first. -/
def frameBytes (f : FrameNo) : List Byte := le16 f.toNat

/-- The one-byte parameter at an offset. -/
def param8 (ps : List Byte) (i : Nat) : Nat := (ps.getD i 0).toNat

/-- The two-byte parameter at an offset, low byte first. -/
def param16 (ps : List Byte) (i : Nat) : Nat := param8 ps i + 256 * param8 ps (i + 1)

/-- The three-byte colour at an offset, low byte first (R179). -/
def paramColour (ps : List Byte) (i : Nat) : Colour :=
  BitVec.ofNat 24 (param8 ps i + 256 * param8 ps (i + 1) + 65536 * param8 ps (i + 2))

/-- The byte that brings the 8-bit sum of a frame to 00h (R174, R175). -/
def checkByte (bs : List Byte) : Byte := -(bs.foldl (· + ·) 0)

/-- The 8-bit sum of a frame. -/
def byteSum (bs : List Byte) : Byte := bs.foldl (· + ·) 0

/-! ### Codes of fields (R179) -/

/-- NO and YES. -/
def yesNo (b : Bool) : Byte := if b then 1 else 0

/-- The byte of a port number. -/
def portByte (p : PortId) : Byte := byteOf p.toNat

/-- An absent one-byte field. -/
def absentByte : Byte := 0xFF

/-- A port field, absent if there is none. -/
def portOrAbsent : Option PortId → Byte
  | none => absentByte
  | some p => portByte p

/-- A region field, absent if there is none. -/
def regionOrAbsent : Option Nat → Byte
  | none => absentByte
  | some id => byteOf id

/-- The code of a region kind. -/
def RegionKind.byte : RegionKind → Byte
  | .linked => 0
  | .solid => 1

/-- The kind a parameter byte names. -/
def RegionKind.ofByte? : Nat → Option RegionKind
  | 0 => some .linked
  | 1 => some .solid
  | _ => none

/-- The code of a loss field. -/
def Loss.byte : Loss → Byte
  | .fill => 0
  | .hide => 1

/-- The loss a parameter byte names. -/
def Loss.ofByte? : Nat → Option Loss
  | 0 => some .fill
  | 1 => some .hide
  | _ => none

/-- The choice a YES or NO parameter byte names. -/
def yesNoOf? : Nat → Option Bool
  | 0 => some false
  | 1 => some true
  | _ => none

/-- The op of ORDER (R49). -/
inductive OrderOp where
  | top | bottom | above | below
  deriving DecidableEq, Repr

/-- The op a parameter byte names. -/
def OrderOp.ofByte? : Nat → Option OrderOp
  | 0 => some .top
  | 1 => some .bottom
  | 2 => some .above
  | 3 => some .below
  | _ => none

/-- The mode a parameter byte names. -/
def PlanMode.ofByte? : Nat → Option PlanMode
  | 0 => some .keep
  | 1 => some .evict
  | _ => none

/-- The sealed-plan indication. -/
def sealedIndication : Option SealedPlan → Byte
  | none => 0
  | some sp => match sp.mode with
    | .keep => 1
    | .evict => 2

/-- The edit states (R41). -/
inductive EditState where
  | idle | drafting | sealed | sealedDrafting
  deriving DecidableEq, Repr

/-- The code of an edit state. -/
def EditState.byte : EditState → Byte
  | .idle => 0
  | .drafting => 1
  | .sealed => 2
  | .sealedDrafting => 3

/-- The code of a panel state. -/
def PanelState.byte : PanelState → Byte
  | .dark => 0
  | .warming => 1
  | .live => 2
  | .cooling => 3

/-- The showing kinds of HIT (2.6). -/
inductive Showing where
  | region | fill | background | foreign
  deriving DecidableEq, Repr

/-- The code of a showing kind. -/
def Showing.byte : Showing → Byte
  | .region => 0
  | .fill => 1
  | .background => 2
  | .foreign => 3

/-- The number of an attach state, as the status byte and responses carry it. -/
def Attach.code : Attach → Nat
  | .disabled => 0
  | .detached => 1
  | .attached => 2
  | .leaving _ _ => 3

/-- The code of a leave reason. -/
def LeaveReason.byte : LeaveReason → Byte
  | .bye => 1
  | .eject => 2
  | .plan => 3

/-- The leave reason field, absent outside LEAVING. -/
def Attach.reasonByte : Attach → Byte
  | .leaving r _ => r.byte
  | _ => absentByte

/-- The regions-retired field, absent outside LEAVING. -/
def Attach.retiredByte : Attach → Byte
  | .leaving _ b => yesNo b
  | _ => absentByte

/-- The code of an engine state. -/
def EngineState.byte : EngineState → Byte
  | .ready => 0
  | .blocked => 1

/-- The code of a monitor state. -/
def Monitor.byte : Monitor → Byte
  | .noSignal => 0
  | .acquiring => 1
  | .locked => 2
  | .lost => 3

/-- The code of the FILLING bank state. -/
def Filling.byte : Filling → Byte
  | .empty => 0
  | .receiving _ => 1
  | .ready _ => 2

/-- The next expected line field: FFFFh when the bank is not RECEIVING (R180). -/
def Filling.nextLineBytes : Filling → List Byte
  | .receiving lines => le16 lines.length
  | _ => [0xFF, 0xFF]

/-- The scan position field: FFFFh for BLANK. -/
def scanPosBytes : Option Nat → List Byte
  | none => [0xFF, 0xFF]
  | some l => le16 l

/-- The number of a refusal reason in the status byte (R173). -/
def Refused.code : Refused → Nat
  | .none => 0
  | .full => 1
  | .form => 2
  | .state => 3

/-- The result codes (R183). -/
def Result.code : Result → Byte
  | .done => 0x00
  | .already => 0x01
  | .cancelled => 0x02
  | .draftVoid => 0x03
  | .empty => 0x04
  | .notAttached => 0x05
  | .notPlanPort => 0x06
  | .notOwner => 0x07
  | .unknownCode => 0x08
  | .badLength => 0x09
  | .range => 0x0A
  | .noDraft => 0x0B
  | .draftOpen => 0x0C
  | .quota => 0x0D
  | .notLive => 0x0E
  | .noSource => 0x0F
  | .territory => 0x10
  | .rowShare => 0x11
  | .guard => 0x12
  | .sourceWindow => 0x13
  | .inUse => 0x14
  | .planInvalid => 0x15
  | .planOrphans => 0x16
  | .wrongState => 0x17
  | .markFull => 0x18

/-- The notice kind codes (R184). -/
def NoticeKind.byte : NoticeKind → Byte
  | .sourceLocked => 0x01
  | .sourceLost => 0x02
  | .regionEvicted => 0x03
  | .draftVoid => 0x04
  | .planChanged => 0x05
  | .markReached => 0x06
  | .markVoid => 0x07
  | .panelState => 0x08
  | .portLeft => 0x09

/-! ### Request codes (R178) -/

/-- The requests. -/
inductive RequestKind where
  | hello | bye | readPort | eject | restart | readRegion | readOrder | hit | beginDraft | create | place | source | style
  | order | retire | discard | publish | readDraft | planSet | readPlan | sourceFormat | mark | unmark | readMarks
  | panelSetup | panelOn | panelOff | readPanel
  deriving DecidableEq, Repr

/-- The requests in the order of the table. -/
def RequestKind.all : List RequestKind :=
  [.hello, .bye, .readPort, .eject, .restart, .readRegion, .readOrder, .hit, .beginDraft, .create, .place, .source,
   .style, .order, .retire, .discard, .publish, .readDraft, .planSet, .readPlan, .sourceFormat, .mark, .unmark,
   .readMarks, .panelSetup, .panelOn, .panelOff, .readPanel]

/-- The code of a request. -/
def RequestKind.code : RequestKind → Byte
  | .hello => 0x01
  | .bye => 0x02
  | .readPort => 0x03
  | .eject => 0x04
  | .restart => 0x05
  | .readRegion => 0x10
  | .readOrder => 0x11
  | .hit => 0x18
  | .beginDraft => 0x20
  | .create => 0x21
  | .place => 0x22
  | .source => 0x23
  | .style => 0x24
  | .order => 0x25
  | .retire => 0x26
  | .discard => 0x27
  | .publish => 0x28
  | .readDraft => 0x29
  | .planSet => 0x30
  | .readPlan => 0x31
  | .sourceFormat => 0x38
  | .mark => 0x40
  | .unmark => 0x41
  | .readMarks => 0x42
  | .panelSetup => 0x48
  | .panelOn => 0x49
  | .panelOff => 0x4A
  | .readPanel => 0x4B

/-- The parameter length of a request. -/
def RequestKind.length : RequestKind → Nat
  | .hello => 4
  | .bye => 0
  | .readPort => 1
  | .eject => 1
  | .restart => 0
  | .readRegion => 1
  | .readOrder => 1
  | .hit => 4
  | .beginDraft => 0
  | .create => 1
  | .place => 9
  | .source => 5
  | .style => 7
  | .order => 3
  | .retire => 1
  | .discard => 0
  | .publish => 0
  | .readDraft => 1
  | .planSet => 60
  | .readPlan => 0
  | .sourceFormat => 4
  | .mark => 4
  | .unmark => 1
  | .readMarks => 0
  | .panelSetup => 8
  | .panelOn => 0
  | .panelOff => 0
  | .readPanel => 0

/-- The request with a code, if the code is in the table. -/
def RequestKind.ofCode? (c : Byte) : Option RequestKind := RequestKind.all.find? fun k => k.code == c

/-- The plan-port requests (R156, row 4). -/
def RequestKind.planPort : RequestKind → Bool
  | .planSet | .panelSetup | .panelOn | .panelOff | .eject | .restart => true
  | _ => false

/-! ### The region record and the plan entry (R181, R182) -/

/-- The record of a region from offset 4 on. -/
def copyBytes (k : RegionKind) (c : Copy) : List Byte :=
  le16 c.x ++ le16 c.y ++ le16 c.w ++ le16 c.h ++
    (match k with
      | .linked => le16 c.sx ++ le16 c.sy
      | .solid => []) ++
    [yesNo c.visible, c.loss.byte] ++ rgbBytes c.fill ++ [yesNo c.guarded]

/-- The region record that READ-REGION carries (R18, R181). -/
def Slot.record : Slot → List Byte
  | .free => [0x00]
  | .reserved o k => [0x01, portByte o, k.byte, 0x00]
  | .live o k g c => [0x02, portByte o, k.byte, g] ++ copyBytes k c

/-- The region record that READ-DRAFT carries: offsets 0 to 3 from the table, the rest from the copy (R52, R181). -/
def Slot.draftRecord (s : Slot) (c : Copy) : List Byte :=
  match s with
  | .free => [0x00]
  | .reserved o k => [0x01, portByte o, k.byte, 0x00] ++ copyBytes k c
  | .live o k g _ => [0x02, portByte o, k.byte, g] ++ copyBytes k c

/-- A plan entry as READ-PLAN returns it (R182). -/
def PlanEntry.bytes (e : PlanEntry) : List Byte :=
  [yesNo e.enabled] ++ le16 e.tx ++ le16 e.ty ++ le16 e.tw ++ le16 e.th ++
    [byteOf e.quota, byteOf e.share, byteOf e.rank, yesNo e.guard, byteOf (16 * e.lockCount + e.tolerance)]

/-- A plan entry as PLAN-SET carries it: enabled and guard right are still bytes, to be judged by R91. -/
structure RawEntry where
  enabled : Nat
  tx : Nat
  ty : Nat
  tw : Nat
  th : Nat
  quota : Nat
  share : Nat
  rank : Nat
  guard : Nat
  lockCount : Nat
  tolerance : Nat
  deriving DecidableEq, Repr

/-- The plan entry at a parameter offset (R182). -/
def rawEntry (ps : List Byte) (i : Nat) : RawEntry :=
  { enabled := param8 ps i, tx := param16 ps (i + 1), ty := param16 ps (i + 3), tw := param16 ps (i + 5),
    th := param16 ps (i + 7), quota := param8 ps (i + 9), share := param8 ps (i + 10), rank := param8 ps (i + 11),
    guard := param8 ps (i + 12), lockCount := param8 ps (i + 13) / 16, tolerance := param8 ps (i + 13) % 16 }

/-- A valid entry as the plan holds it. -/
def RawEntry.entry (e : RawEntry) : PlanEntry :=
  { enabled := e.enabled == 1, tx := e.tx, ty := e.ty, tw := e.tw, th := e.th, quota := e.quota, share := e.share,
    rank := e.rank, guard := e.guard == 1, lockCount := e.lockCount, tolerance := e.tolerance }

/-- The four entries of a PLAN-SET (R182). -/
def rawEntries (ps : List Byte) : PerPort RawEntry :=
  ⟨rawEntry ps 1, rawEntry ps 15, rawEntry ps 29, rawEntry ps 43⟩

/-- The plan that valid parameters of a PLAN-SET carry. -/
def paramPlan (ps : List Byte) : Plan :=
  { entries := ⟨(rawEntry ps 1).entry, (rawEntry ps 15).entry, (rawEntry ps 29).entry, (rawEntry ps 43).entry⟩
    background := paramColour ps 57 }

/-- The setup of 8 bytes (R180). -/
def Setup.bytes (u : Setup) : List Byte :=
  le16 u.w ++ le16 u.h ++ [byteOf u.vblank, byteOf u.warm, byteOf u.cool, byteOf u.divider]

/-- The setup that the parameters of a PANEL-SETUP carry. -/
def paramSetup (ps : List Byte) : Setup :=
  { w := param16 ps 0, h := param16 ps 2, vblank := param8 ps 4, warm := param8 ps 5, cool := param8 ps 6,
    divider := param8 ps 7 }

/-! ### Frames (R174 to R176) -/

/-- A frame with its check byte. -/
def withCheck (bs : List Byte) : List Byte := bs ++ [checkByte bs]

/-- A response frame. -/
def Response.frame (r : Response) : List Byte :=
  withCheck ([r.tag, r.code, r.result.code, byteOf r.fields.length] ++ r.fields)

/-- The EMPTY response frame (R175). -/
def emptyResponseFrame : List Byte := withCheck [0x00, 0x00, Result.empty.code, 0x00]

/-- A notice frame. -/
def Notice.bytes (n : Notice) : List Byte :=
  withCheck ([n.kind.byte, n.subject] ++ frameBytes n.frame ++ [byteOf n.count, n.detail])

/-- The EMPTY notice frame: every byte 00h (R176). -/
def emptyNoticeFrame : List Byte := [0, 0, 0, 0, 0, 0, 0]

/-- A request frame, as a host forms it (R174). -/
def Request.frame (r : Request) : List Byte :=
  withCheck ([r.tag, r.code, byteOf r.params.length] ++ r.params)

end Sys2Proof.Machine
end

