-- ==== Sys2Proof/Machine/Flags.lean ====
section
/-! DEFINITION. The views that are computed from the state: the credit in use, the NOTE line, whether a request could be
accepted, the status byte, the edit state (log 20). -/

namespace Sys2Proof.Machine

/-- The credit in use: requests accepted and not answered, and responses not read (R155). -/
def PortController.credit (c : PortController) : Nat := c.requests.length + c.deferred.length + c.responses.length

/-- The NOTE line is asserted while a response or a notice waits (R161). -/
def PortController.noteAsserted (c : PortController) : Bool := !c.responses.isEmpty || !c.notices.isEmpty

/-- The link accepts WRITE_REQUEST in this attach state, within queue and credit (9.2). -/
def Attach.acceptsWrites : Attach → Bool
  | .detached | .attached => true
  | _ => false

/-- The three conditions of R154. -/
def PortController.couldAccept (c : PortController) : Bool :=
  c.attach.acceptsWrites && decide (c.requests.length < Config.requestDepth) && decide (c.credit < Config.creditLimit)

/-- One bit of the status byte. -/
def bitAt (i : Nat) (b : Bool) : Nat := if b then 2 ^ i else 0

/-- The status byte (R173). -/
def PortController.statusByte (c : PortController) : Byte :=
  byteOf (64 * c.attach.code + 16 * c.refusal.code + bitAt 3 (!c.responses.isEmpty) + bitAt 2 (!c.notices.isEmpty) +
    bitAt 1 c.noticeLost + bitAt 0 c.couldAccept)

/-- The edit state (R41). -/
def PortLayout.editState (l : PortLayout) : EditState :=
  match l.draft, l.sealedSet with
  | none, none => .idle
  | some _, none => .drafting
  | none, some _ => .sealed
  | some _, some _ => .sealedDrafting

/-- A Source Unit of an attached port runs while the declared height is at least 1 (R108). -/
def SourceUnit.runsWhen (u : SourceUnit) (a : Attach) : Bool := decide (a = .attached) && decide (1 ≤ u.sh)

end Sys2Proof.Machine
end

