-- ==== Sys2Proof/Machine/Ops.lean ====
section
/-! DEFINITION. The shared operations of the blocks: reading and changing one port's part of each block; requests and
responses; notices; slots; the Source Unit's judgement; marks and reports; entry into LEAVING and the exit from it. -/

namespace Sys2Proof.Machine

/-- The outcome of a command. -/
abbrev Out := Host.Outcome State Fault Refusal

/-! ### One port's part of a block -/

/-- The Port Controller of a port. -/
def State.port (s : State) (p : PortId) : PortController := s.ports.get p

/-- Replaces the Port Controller of a port. -/
def State.setPort (s : State) (p : PortId) (c : PortController) : State := { s with ports := s.ports.set p c }

/-- The command link of a port. -/
def State.link (s : State) (p : PortId) : Link := s.links.get p

/-- Replaces the command link of a port. -/
def State.setLink (s : State) (p : PortId) (l : Link) : State := { s with links := s.links.set p l }

/-- What the Layout Store holds for a port. -/
def State.lay (s : State) (p : PortId) : PortLayout := s.layout.ports.get p

/-- Replaces what the Layout Store holds for a port. -/
def State.setLay (s : State) (p : PortId) (l : PortLayout) : State :=
  { s with layout := { s.layout with ports := s.layout.ports.set p l } }

/-- Replaces the region table. -/
def State.setSlots (s : State) (t : List Slot) : State := { s with layout := { s.layout with slots := t } }

/-- Replaces the live plan. -/
def State.setPlan (s : State) (q : Plan) : State := { s with layout := { s.layout with plan := q } }

/-- Replaces the sealed plan. -/
def State.setSealedPlan (s : State) (q : Option SealedPlan) : State :=
  { s with layout := { s.layout with sealedPlan := q } }

/-- Replaces the retirement list. -/
def State.setRetiring (s : State) (ps : List PortId) : State := { s with layout := { s.layout with retiring := ps } }

/-- The Source Unit of a port. -/
def State.unit (s : State) (p : PortId) : SourceUnit := s.sources.get p

/-- Replaces the Source Unit of a port. -/
def State.setUnit (s : State) (p : PortId) (u : SourceUnit) : State := { s with sources := s.sources.set p u }

/-- Replaces the Scan Timer. -/
def State.setScan (s : State) (t : ScanTimer) : State := { s with scan := t }

/-- Replaces the Compositor. -/
def State.setComp (s : State) (c : Compositor) : State := { s with comp := c }

/-- The mark list of a port. -/
def State.markList (s : State) (p : PortId) : List Mark := s.marks.lists.get p

/-- Replaces the mark list of a port. -/
def State.setMarkList (s : State) (p : PortId) (ms : List Mark) : State :=
  { s with marks := { s.marks with lists := s.marks.lists.set p ms } }

/-- Replaces the reports that wait at the Mark Unit. -/
def State.setReports (s : State) (rs : List Report) : State := { s with marks := { s.marks with reports := rs } }

/-- Replaces what the Mark Unit keeps of the latest commit's withdrawals. -/
def State.setWithdrawn (s : State) (ws : List (PortId × Nat)) : State :=
  { s with marks := { s.marks with withdrawn := ws } }

/-- A port's entry in the live plan. -/
def State.entry (s : State) (p : PortId) : PlanEntry := s.layout.plan.entries.get p

/-- The edit state of a port (R41). -/
def State.editState (s : State) (p : PortId) : EditState := (s.lay p).editState

/-- The frame number of the latest raised frame start, as response bytes. -/
def State.frameField (s : State) : List Byte := frameBytes s.scan.frame

/-! ### Requests and responses (9.3, 9.4) -/

/-- The response to a request. -/
def Request.answer (r : Request) (res : Result) (fields : List Byte) : Response :=
  { tag := r.tag, code := r.code, result := res, fields := fields }

/-- Places a response in a port's response queue (R158). -/
def respond (p : PortId) (r : Request) (res : Result) (fields : List Byte) (s : State) : State :=
  s.setPort p { s.port p with responses := (s.port p).responses ++ [r.answer res fields] }

/-- The request leaves the head of the request queue (R156). -/
def dropHead (p : PortId) (s : State) : State :=
  s.setPort p { s.port p with requests := (s.port p).requests.tail }

/-- Makes the engine of a port READY or BLOCKED (R157). -/
def setEngine (p : PortId) (e : EngineState) (s : State) : State := s.setPort p { s.port p with engine := e }

/-- Keeps the record of a request whose response is deferred (R152). -/
def deferRequest (p : PortId) (r : Request) (s : State) : State :=
  s.setPort p { s.port p with deferred := (s.port p).deferred ++ [r] }

/-- Places the deferred response to the request of a kind, if one is owed, and forgets the request (R61, R77). -/
def placeDeferred (p : PortId) (k : RequestKind) (res : Result) (fields : List Byte) (s : State) : State :=
  match (s.port p).deferred.find? fun r => r.code == k.code with
  | none => s
  | some r =>
    respond p r res fields
      (s.setPort p { s.port p with deferred := (s.port p).deferred.eraseP fun r => r.code == k.code })

/-- The request that a port's engine can take: the head of the queue while the engine is READY and the port DETACHED or
ATTACHED (R156, R157, 9.2). -/
def headOf (p : PortId) (s : State) : Option Request :=
  match (s.port p).engine with
  | .blocked => none
  | .ready => if (s.port p).attach.acceptsWrites then (s.port p).requests.head? else none

/-- The universal results after UNKNOWN_CODE, in their order (R156). -/
def universalResult (k : RequestKind) (p : PortId) (a : Attach) (r : Request) : Option Result :=
  if r.params.length ≠ k.length then some .badLength
  else if a = .detached ∧ k ≠ .hello then some .notAttached
  else if p ≠ .p0 ∧ k.planPort = true then some .notPlanPort
  else none

/-- The engine of a port takes the request at the head of its queue, which must be one of kind k: a universal result is
placed at once; a request that must wait blocks the engine and stays at the head; any other leaves the queue and is
carried to its owning block, which `body` stands for. Where the head is no such request nothing happens (log 2). The universal
results come before the blocking (log 15). -/
def serve (k : RequestKind) (p : PortId) (blocks : Bool) (body : Request → State → State) (s : State) : State :=
  match headOf p s with
  | none => s
  | some r =>
    if r.code ≠ k.code then s
    else match universalResult k p (s.port p).attach r with
      | some res => respond p r res [] (dropHead p s)
      | none => if blocks then setEngine p .blocked s else body r (dropHead p s)

/-! ### Notices (9.5) -/

/-- Two notices coalesce when kind and subject agree (R159). -/
def Notice.agrees (n m : Notice) : Bool := n.kind == m.kind && n.subject == m.subject

/-- The entry after a further occurrence (R159). -/
def Notice.again (old new : Notice) : Notice :=
  { old with frame := new.frame, detail := new.detail, count := min Config.repeatCeiling (old.count + 1) }

/-- The queue with a notice coalesced into its matching entry, if it has one. -/
def coalesceInto (n : Notice) : List Notice → Option (List Notice)
  | [] => none
  | m :: ms => if m.agrees n then some (m.again n :: ms) else (coalesceInto n ms).map (m :: ·)

/-- A READ_NOTICE under way counts a notice that coalesced into the entry it carries (R160). -/
def Link.coalesced (l : Link) : Link :=
  match l.state with
  | .sendingNotice f (some k) c => { l with state := .sendingNotice f (some (k + 1)) c }
  | _ => l

/-- A READ_NOTICE under way carries an entry that has left the queue (R160). -/
def Link.noticesCleared (l : Link) : Link :=
  match l.state with
  | .sendingNotice f _ c => { l with state := .sendingNotice f none c }
  | _ => l

/-- A READ_RESPONSE under way carries a response that has left the queue (R158). -/
def Link.responsesFlushed (l : Link) : Link :=
  match l.state with
  | .sendingResponse f _ c => { l with state := .sendingResponse f false c }
  | _ => l

/-- The oldest entry of a notice queue coalesces with a notice. -/
def headAgrees (n : Notice) (q : List Notice) : Bool :=
  match q with
  | [] => false
  | m :: _ => m.agrees n

/-- A notice reaches a Port Controller (R159): stored only while ATTACHED; coalesced, added with repeat count 1, or
dropped with the notice-lost flag. -/
def storeNotice (p : PortId) (n : Notice) (s : State) : State :=
  let c := s.port p
  if c.attach ≠ .attached then s
  else match coalesceInto n c.notices with
    | some q =>
      let s := s.setPort p { c with notices := q }
      if headAgrees n c.notices then s.setLink p (s.link p).coalesced else s
    | none =>
      if c.notices.length < Config.noticeDepth then s.setPort p { c with notices := c.notices ++ [{ n with count := 1 }] }
      else s.setPort p { c with noticeLost := true }

/-- A notice with the frame number of the latest raised frame start. -/
def noticeNow (s : State) (k : NoticeKind) (subject detail : Byte) : Notice :=
  { kind := k, subject := subject, frame := s.scan.frame, count := 1, detail := detail }

/-- Sends notices in order, each to its port. -/
def storeNotices (ns : List (PortId × Notice)) (s : State) : State :=
  ns.foldl (fun s pn => storeNotice pn.1 pn.2 s) s

/-- Sends a notice to every port; those that are not ATTACHED do not store it. -/
def storeAll (n : Notice) (s : State) : State := storeNotices (PortId.all.map fun p => (p, n)) s

/-! ### Slots (01) -/

/-- The slot with an id; there is none above 23. -/
def State.slot (s : State) (id : Nat) : Slot := s.layout.slots.getD id .free

/-- The owner of a slot (R15). -/
def Slot.owner? : Slot → Option PortId
  | .free => none
  | .reserved o _ => some o
  | .live o _ _ _ => some o

/-- The kind of a slot. -/
def Slot.kind? : Slot → Option RegionKind
  | .free => none
  | .reserved _ k => some k
  | .live _ k _ _ => some k

/-- The live record of a slot. -/
def Slot.liveCopy? : Slot → Option Copy
  | .live _ _ _ c => some c
  | _ => none

/-- Changes every slot by its id. -/
def mapSlotsFrom (f : Nat → Slot → Slot) : Nat → List Slot → List Slot
  | _, [] => []
  | i, x :: xs => f i x :: mapSlotsFrom f (i + 1) xs

/-- The table with slots changed by their ids. -/
def State.mapSlots (s : State) (f : Nat → Slot → Slot) : State := s.setSlots (mapSlotsFrom f 0 s.layout.slots)

/-- The slots with these ids return to FREE: only the state field stays (R13). -/
def freeSlots (ids : List Nat) (s : State) : State := s.mapSlots fun i x => if ids.contains i then .free else x

/-- The owned-slot count of a port (R15). -/
def ownedCount (p : PortId) (s : State) : Nat := s.layout.slots.countP fun x => x.owner? == some p

/-- The lowest-numbered FREE slot (R10). -/
def lowestFree (s : State) : Option Nat := s.layout.slots.findIdx? fun x => x == .free

/-- The order list of a proposal. -/
def Proposal.ids (pr : Proposal) : List Nat := pr.map DraftEntry.id

/-- A proposal names a region. -/
def names (pr : Proposal) (id : Nat) : Bool := pr.any fun e => e.id == id

/-- A draft or sealed set that may be absent names a region. -/
def optNames (pr : Option Proposal) (id : Nat) : Bool :=
  match pr with
  | none => false
  | some pr => names pr id

/-- The copy a proposal holds of a region. -/
def copyIn (pr : Proposal) (id : Nat) : Option Copy := (pr.find? fun e => e.id == id).map DraftEntry.copy

/-- Every RESERVED slot of a port that neither its draft nor its sealed set names returns to FREE (R11). -/
def releaseUnnamed (p : PortId) (s : State) : State :=
  let l := s.lay p
  s.mapSlots fun i x =>
    match x with
    | .reserved o k => if o = p ∧ optNames l.draft i = false ∧ optNames l.sealedSet i = false then .free else .reserved o k
    | x => x

/-- A port's LIVE regions with their live records, in order-list order. -/
def liveEntries (p : PortId) (s : State) : Proposal :=
  (s.lay p).order.filterMap fun id => (s.slot id).liveCopy?.map fun c => { id := id, copy := c }

/-- The index of a region in its owner's order list (R9). -/
def listPosition (p : PortId) (id : Nat) (s : State) : Nat := (s.lay p).order.idxOf id

/-- The defaults of CREATE (table 1.2). -/
def defaultCopy (e : PlanEntry) : Copy :=
  { x := e.tx, y := e.ty, w := 1, h := 1, sx := 0, sy := 0, visible := false, loss := .fill, fill := 0, guarded := false }

/-- A region crosses a line (00_scope.md, Conventions). -/
def Copy.crosses (c : Copy) (l : Nat) : Bool := decide (c.y ≤ l) && decide (l < c.y + c.h)

/-- A rectangle lies within a territory (R55). -/
def Copy.within (c : Copy) (e : PlanEntry) : Bool :=
  decide (e.tx ≤ c.x) && decide (e.ty ≤ c.y) && decide (c.x + c.w ≤ e.tx + e.tw) && decide (c.y + c.h ≤ e.ty + e.th)

/-- The regions of a proposal that cross a line, bottom first. -/
def crossing (pr : Proposal) (l : Nat) : Proposal := pr.filter fun e => e.copy.crosses l

/-- The smallest of the lines 0 to h - 1 that more regions of a proposal cross than a share allows (R58, R97, R100). -/
def crowdedLine (share h : Nat) (pr : Proposal) : Option Nat :=
  (List.range h).find? fun l => decide (share < (crossing pr l).length)

/-- The region highest in the list among those crossing the smallest crowded line (R58). -/
def rowShareFault (share h : Nat) (pr : Proposal) : Option Nat :=
  match crowdedLine share h pr with
  | none => none
  | some l => (crossing pr l).getLast?.map DraftEntry.id

/-- The first region of a proposal outside a territory (R55). -/
def territoryFault (e : PlanEntry) (pr : Proposal) : Option Nat :=
  (pr.find? fun x => !x.copy.within e).map DraftEntry.id

/-- The first guarded region of a proposal whose port lacks the guard right (R57). -/
def guardFault (e : PlanEntry) (pr : Proposal) : Option Nat :=
  if e.guard then none else (pr.find? fun x => x.copy.guarded).map DraftEntry.id

/-! ### Source Units (06) -/

/-- The Source Unit of a port is running (R108). -/
def running (p : PortId) (s : State) : Bool := (s.unit p).runsWhen (s.port p).attach

/-- A Source Unit is forced (R121). -/
def SourceUnit.forced (u : SourceUnit) : SourceUnit :=
  { u with showing := none, filling := .empty, monitor := .noSignal, good := 0, missed := 0 }

/-- A Source Unit is forced because its port leaves ATTACHED: the level of FSYNC is quiet, and a frame start that waits is
ignored (R117, R121). That it has pulsed at the latest frame start stays so (log 21). -/
def SourceUnit.silenced (u : SourceUnit) : SourceUnit := { u.forced with fsync := false, frameWaiting := false }

/-- The declared size returns to 1 x 0 (R121). -/
def SourceUnit.undeclared (u : SourceUnit) : SourceUnit := { u with sw := 1, sh := 0 }

/-- The bank exchange of a fresh frame (R113). -/
def SourceUnit.exchanged (u : SourceUnit) (lines : Picture) : SourceUnit :=
  { u with showingBank := u.showingBank.other, showing := some lines, filling := .empty }

/-- The monitor's move on a fresh frame, and the notice it raises (R114). -/
def SourceUnit.onFresh (lockCount : Nat) (u : SourceUnit) : SourceUnit × Option NoticeKind :=
  match u.monitor with
  | .noSignal =>
    if lockCount = 1 then ({ u with monitor := .locked, good := 1, missed := 0 }, some .sourceLocked)
    else ({ u with monitor := .acquiring, good := 1, missed := 0 }, none)
  | .acquiring =>
    let good := min Config.goodCeiling (u.good + 1)
    if lockCount ≤ good then ({ u with monitor := .locked, good := good, missed := 0 }, some .sourceLocked)
    else ({ u with good := good }, none)
  | .locked => ({ u with missed := 0 }, none)
  | .lost => ({ u with monitor := .acquiring, good := 1, missed := 0 }, none)

/-- The monitor's move on a missed frame, and the notice it raises (R114). -/
def SourceUnit.onMissed (tolerance : Nat) (u : SourceUnit) : SourceUnit × Option NoticeKind :=
  match u.monitor with
  | .noSignal => ({ u with good := 0 }, none)
  | .acquiring => ({ u with monitor := .noSignal, good := 0, missed := 0 }, none)
  | .locked =>
    let missed := min Config.missedCeiling (u.missed + 1)
    if tolerance ≤ missed then ({ u with monitor := .lost, good := 0, missed := missed }, some .sourceLost)
    else ({ u with missed := missed }, none)
  | .lost => ({ u with missed := min Config.missedCeiling (u.missed + 1) }, none)

/-- The frame-start judgement of a running Source Unit (R113, R114). -/
def SourceUnit.judged (e : PlanEntry) (u : SourceUnit) : SourceUnit × Option NoticeKind :=
  match u.filling with
  | .ready lines => (u.exchanged lines).onFresh e.lockCount
  | _ => u.onMissed e.tolerance

/-- What the judgement of a port's Source Unit would give now: the unit after it and the notice it raises. -/
def judgement (p : PortId) (s : State) : SourceUnit × Option NoticeKind :=
  if running p s then (s.unit p).judged (s.entry p) else (s.unit p, none)

/-- The notices of a judgement (R116): SOURCE_LOCKED to the owner; SOURCE_LOST to the owner and to port 0. -/
def judgementNotices (p : PortId) (u : SourceUnit) (k : Option NoticeKind) (s : State) : List (PortId × Notice) :=
  match k with
  | some .sourceLocked => [(p, noticeNow s .sourceLocked (portByte p) (byteOf u.good))]
  | some .sourceLost =>
    let n := noticeNow s .sourceLost (portByte p) (byteOf u.missed)
    if p = .p0 then [(p, n)] else [(p, n), (.p0, n)]
  | _ => []

/-- A Source Unit after it has taken a frame start, its judgement made: FSYNC has pulsed if its port is ATTACHED (R117). -/
def SourceUnit.taking (attached : Bool) (u : SourceUnit) : SourceUnit :=
  { u with fsync := attached, pulsed := attached, frameWaiting := false }

/-- A Source Unit takes the raised frame start that waits at it: the judgement if it is running, and the FSYNC pulse if
its port is ATTACHED (R113, R117). -/
def takeFrameStart (p : PortId) (s : State) : State :=
  if (s.unit p).frameWaiting then
    let j := judgement p s
    let s := s.setUnit p (j.1.taking (decide ((s.port p).attach = .attached)))
    storeNotices (judgementNotices p j.1 j.2 s) s
  else s

/-- A frame start that waits at a Source Unit is taken as soon as its judgement would reach no count: only a judgement
that reaches a count waits, for its own row of the table (log 8). -/
def settleUnit (p : PortId) (s : State) : State := if (judgement p s).2 = none then takeFrameStart p s else s

/-- Every Source Unit whose judgement would reach no count takes the frame start that waits at it. -/
def settleUnits (s : State) : State := PortId.all.foldl (fun s p => settleUnit p s) s

/-! ### Marks (07) -/

/-- The lowest mark id a list does not hold (R126). -/
def lowestMarkId (ms : List Mark) : Option Nat :=
  (List.range Config.marksPerPort).find? fun i => !ms.any fun m => m.id == i

/-- A mark takes its place in a list ordered by id (R125). -/
def insertMark (m : Mark) : List Mark → List Mark
  | [] => [m]
  | x :: xs => if m.id < x.id then m :: x :: xs else x :: insertMark m xs

/-- The owner a report concerns. -/
def Report.owner : Report → PortId
  | .withdrawn o _ _ => o
  | .reshaped o _ _ _ => o

/-- The frame number of a report. -/
def Report.frame : Report → FrameNo
  | .withdrawn _ _ f => f
  | .reshaped _ _ _ f => f

/-- A report breaks a mark of its owner (R132). -/
def Report.breaks (r : Report) (m : Mark) : Bool :=
  match r with
  | .withdrawn _ id _ => m.region == id
  | .reshaped _ id h _ => m.region == id && decide (h ≤ m.offset)

/-- The Mark Unit takes one report: the marks it breaks are removed, each with MARK_VOID, in id order (R132). -/
def takeReport (s : State) (r : Report) : State :=
  let ms := s.markList r.owner
  storeNotices
    ((ms.filter r.breaks).map fun m =>
      (r.owner, { kind := .markVoid, subject := byteOf m.id, frame := r.frame, count := 1, detail := byteOf m.region }))
    (s.setMarkList r.owner (ms.filter fun m => !r.breaks m))

/-- The Mark Unit takes the reports that wait, in their order, as one claim (R132). -/
def takeReports (s : State) : State := s.marks.reports.foldl takeReport (s.setReports [])

/-- The layout hands reports to the Mark Unit (R79). -/
def handReports (rs : List Report) (s : State) : State := s.setReports (s.marks.reports ++ rs)

/-- The regions that reports withdraw, each with its former owner. -/
def withdrawnBy (rs : List Report) : List (PortId × Nat) :=
  rs.filterMap fun r => match r with
    | .withdrawn o id _ => some (o, id)
    | .reshaped _ _ _ _ => none

/-- A commit hands its reports to the Mark Unit, which keeps until the next commit what this one withdrew (R79, R83,
log 30). -/
def handCommitReports (rs : List Report) (s : State) : State := (handReports rs s).setWithdrawn (withdrawnBy rs)

/-- The mark's line is reached (R129): the line of a mark is y + offset in the live table. -/
def markAt (l : Nat) (s : State) (m : Mark) : Bool :=
  match (s.slot m.region).liveCopy? with
  | none => false
  | some c => c.y + m.offset == l

/-- A mark after firing, if it stays (R129). -/
def Mark.fired (m : Mark) : Option Mark :=
  if m.remaining = 0 then some m
  else if m.remaining = 1 then none
  else some { m with remaining := m.remaining - 1 }

/-- The marks of one port whose line is l fire: their notices in id order, their counts (R129). -/
def fireMarks (l : Nat) (s : State) (p : PortId) : State :=
  let ms := s.markList p
  storeNotices
    ((ms.filter (markAt l s)).map fun m => (p, noticeNow s .markReached (byteOf m.id) (byteOf m.region)))
    (s.setMarkList p (ms.filterMap fun m => if markAt l s m then m.fired else some m))

/-! ### LEAVING (9.8) -/

/-- A port leaves LEAVING if its regions are retired and its response queue is empty (R166). -/
def leaveIfDone (p : PortId) (s : State) : State :=
  match (s.port p).attach with
  | .leaving r true =>
    if (s.port p).responses.isEmpty then
      let s := s.setPort p { s.port p with attach := if (s.entry p).enabled then .detached else .disabled }
      let s := s.setUnit p (s.unit p).silenced.undeclared
      storeNotice .p0 (noticeNow s .portLeft (portByte p) r.byte) s
    else s
  | _ => s

/-- The regions-retired indication becomes yes. -/
def Attach.regionsRetired : Attach → Attach
  | .leaving r _ => .leaving r true
  | a => a

/-- The Layout Store tells a Port Controller that its port's regions are retired, and the port leaves LEAVING if its
response queue is empty (R70, R73, R166, log 17, log 29). -/
def tellRetired (p : PortId) (s : State) : State :=
  leaveIfDone p (s.setPort p { s.port p with attach := (s.port p).attach.regionsRetired })

/-- Every queued request is answered CANCELLED, the head first (R165). -/
def cancelQueued (p : PortId) (s : State) : State :=
  (s.port p).requests.foldl (fun s r => respond p r .cancelled [] s) (s.setPort p { s.port p with requests := [] })

/-- The sealed plan is dropped with its deferred response CANCELLED (R95, R90). -/
def dropSealedPlan (s : State) : State := (placeDeferred .p0 .planSet .cancelled [] s).setSealedPlan none

/-- A port's draft and sealed set are dropped and its slots released, its deferred PUBLISH answered (R66, R67). -/
def dropProposals (p : PortId) (res : Result) (fields : List Byte) (s : State) : State :=
  let s := releaseUnnamed p (s.setLay p { s.lay p with draft := none, sealedSet := none })
  placeDeferred p .publish res fields s

/-- A port enters LEAVING (R165). `own` is the response of the port's own BYE, if that caused the entry. The port's live
regions stay for the retirement list, or, where it has none, are retired at once (R70). -/
def enterLeaving (p : PortId) (reason : LeaveReason) (own : Option Response) (s : State) : State :=
  let s := s.setPort p { s.port p with attach := .leaving reason false, notices := [], noticeLost := false }
  let s := s.setLink p (s.link p).noticesCleared
  let s := if p = .p0 then dropSealedPlan s else s
  let s := dropProposals p .cancelled [] s
  let s := s.setPort p { s.port p with responses := (s.port p).responses ++ own.toList }
  let s := setEngine p .ready (cancelQueued p s)
  let s := s.setMarkList p []
  let s := s.setUnit p (s.unit p).silenced
  if (s.lay p).order.isEmpty then tellRetired p s else s.setRetiring (s.layout.retiring ++ [p])

/-- A port's live regions are retired (R73): the slots go to FREE with a withdrawn report each, bottom first, and the
Port Controller is told. -/
def retireOne (sr : State × List Report) (p : PortId) : State × List Report :=
  let s := sr.1
  let ids := (s.lay p).order
  (tellRetired p ((freeSlots ids s).setLay p { s.lay p with order := [] }),
   sr.2 ++ ids.map fun id => .withdrawn p id s.scan.frame)

/-- Step 2 of a commit: the live regions of every port on the retirement list are retired (R73), in the order in which the
ports joined the list, which orders the PORT_LEFT notices that follow (log 33). -/
def retireListed (s : State) : State × List Report :=
  s.layout.retiring.foldl retireOne (s.setRetiring [], [])

/-- While the panel is DARK, a port's entry into LEAVING retires its regions at once and the Mark Unit takes the reports
(R86). -/
def retireIfDark (s : State) : State :=
  if s.scan.panel = .dark then
    let sr := retireListed s
    takeReports (handReports sr.2 sr.1)
  else s

end Sys2Proof.Machine
end

