-- ==== Sys2Proof/Machine/Plan.lean ====
section
/-! DEFINITION. The territory plan (05): validity, the KEEP conflict check, the eviction passes, enablement, and the
settling of a plan, which is step 1 of a commit. -/

namespace Sys2Proof.Machine

/-! ### Validity (R91) -/

/-- The checks of one entry (R91, row 2), for a panel of w by h. -/
def RawEntry.ok (w h : Nat) (e : RawEntry) : Bool :=
  decide (e.enabled ≤ 1) && decide (e.guard ≤ 1) && decide (1 ≤ e.lockCount) && decide (e.lockCount ≤ 7) &&
    decide (1 ≤ e.tolerance) && decide (e.tolerance ≤ 15) && decide (e.quota ≤ 24) && decide (e.share ≤ 8) &&
    decide (e.rank ≤ 3) &&
    (if e.enabled = 1 then
      decide (1 ≤ e.tw) && decide (1 ≤ e.th) && decide (e.tx + e.tw ≤ w) && decide (e.ty + e.th ≤ h)
    else
      decide (e.quota = 0) && decide (e.share = 0) && decide (e.tx = 0) && decide (e.ty = 0) && decide (e.tw = 0) &&
        decide (e.th = 0) && decide (e.guard = 0))

/-- The port whose number brings the running sum above a limit (R91, rows 3 and 4). -/
def sumFault (limit : Nat) : Nat → List (PortId × Nat) → Option PortId
  | _, [] => none
  | acc, (p, n) :: rest => if limit < acc + n then some p else sumFault limit (acc + n) rest

/-- The lowest-numbered port whose number equals that of a lower-numbered port (R91, row 5). -/
def repeatFault : List Nat → List (PortId × Nat) → Option PortId
  | _, [] => none
  | seen, (p, n) :: rest => if seen.contains n then some p else repeatFault (n :: seen) rest

/-- The ports with their entries, in port order. -/
def entryList {α : Type} (es : PerPort α) : List (PortId × α) := PortId.all.map fun p => (p, es.get p)

/-- The port that a PLAN_INVALID names, or none for a valid plan (R91). -/
def planFault (w h : Nat) (es : PerPort RawEntry) : Option PortId :=
  if es.p0.enabled ≠ 1 then some .p0
  else match (entryList es).find? fun pe => !pe.2.ok w h with
  | some pe => some pe.1
  | none =>
    match sumFault 24 0 ((entryList es).map fun pe => (pe.1, pe.2.quota)) with
    | some p => some p
    | none =>
      match sumFault 8 0 ((entryList es).map fun pe => (pe.1, pe.2.share)) with
      | some p => some p
      | none =>
        match repeatFault [] ((entryList es).map fun pe => (pe.1, pe.2.rank)) with
        | some p => some p
        | none =>
          match (entryList es).filter fun pe => pe.2.guard == 1 with
          | [] => none
          | [pe] => if pe.2.rank = 3 then none else some pe.1
          | _ :: pe :: _ => some pe.1

/-! ### What a new plan changes (R96) -/

/-- The entry of a port differs between two plans. -/
def changed (old new : Plan) (p : PortId) : Bool := decide (old.entries.get p ≠ new.entries.get p)

/-- The detail of PLAN_CHANGED: bit n is set when port n's entry changed (R184). -/
def changedByte (old new : Plan) : Byte :=
  byteOf (bitAt 0 (changed old new .p0) + bitAt 1 (changed old new .p1) + bitAt 2 (changed old new .p2) +
    bitAt 3 (changed old new .p3))

/-! ### The KEEP check (R97) -/

/-- Checks 3 to 5 over the regions of a proposal: territory, guard, row share. -/
def proposalConflict (e : PlanEntry) (h : Nat) (pr : Proposal) : Option Nat :=
  match territoryFault e pr with
  | some id => some id
  | none => match guardFault e pr with
    | some id => some id
    | none => rowShareFault e.share h pr

/-- The attach state conflicts with a disabling entry (R97, check 1). -/
def Attach.staysEnabled : Attach → Bool
  | .attached => true
  | .leaving _ _ => true
  | _ => false

/-- The conflict of one port with its new entry, if there is one: the region named, or none where the region field reads
FFh. A port whose entry is unchanged passes every check (R97, log 16). -/
def portConflict (new : Plan) (s : State) (p : PortId) : Option (Option Nat) :=
  let e := new.entries.get p
  if changed s.layout.plan new p = false then none
  else if (s.port p).attach.staysEnabled && !e.enabled then some none
  else if e.quota < ownedCount p s then some none
  else match proposalConflict e s.scan.setup.h (liveEntries p s) with
    | some id => some (some id)
    | none => match (s.lay p).sealedSet with
      | none => none
      | some pr => (proposalConflict e s.scan.setup.h pr).map some

/-- The first conflict in port order: the port and the region named (R97). -/
def keepConflict (new : Plan) (s : State) : Option (PortId × Option Nat) :=
  PortId.all.findSome? fun p => (portConflict new s p).map fun r => (p, r)

/-! ### The eviction passes (R100) -/

/-- Pass 1: every region outside the territory, or guarded without the guard right. -/
def evictedByPlace (e : PlanEntry) (x : DraftEntry) : Bool := !x.copy.within e || (!e.guard && x.copy.guarded)

/-- Pass 3: at the smallest crowded line the region lowest in the list among those crossing it, until no line is
crowded. The count of regions bounds the repetitions. -/
def evictByShare (share h : Nat) : Nat → Proposal → Proposal × List Nat
  | 0, pr => (pr, [])
  | n + 1, pr =>
    match crowdedLine share h pr with
    | none => (pr, [])
    | some l =>
      match (crossing pr l).head? with
      | none => (pr, [])
      | some x =>
        let rest := evictByShare share h n (pr.filter fun y => y.id != x.id)
        (rest.1, x.id :: rest.2)

/-- The three passes: the regions that stay, and those evicted in order with the pass that evicted each. -/
def evict (e : PlanEntry) (h : Nat) (pr : Proposal) : Proposal × List (Nat × Nat) :=
  let out1 := pr.filter (evictedByPlace e)
  let in1 := pr.filter fun x => !evictedByPlace e x
  let excess := in1.length - e.quota
  let in2 := in1.drop excess
  let r3 := evictByShare e.share h in2.length in2
  (r3.1, out1.map (fun x => (x.id, 1)) ++ (in1.take excess).map (fun x => (x.id, 2)) ++ r3.2.map fun id => (id, 3))

/-! ### Enablement (R102, R167) -/

/-- The Source Unit of a port that becomes DETACHED or DISABLED is forced, its declared size 1 x 0 (R121). -/
def restUnit (p : PortId) (s : State) : State := s.setUnit p (s.unit p).silenced.undeclared

/-- A Port Controller is handed its new enablement. -/
def handEnablement (p : PortId) (enabled : Bool) (s : State) : State :=
  let c := s.port p
  match c.attach, enabled with
  | .disabled, true => restUnit p (s.setPort p { c with attach := .detached, noticeLost := false, refusal := .none })
  | .detached, false =>
    if c.requests.isEmpty && c.responses.isEmpty then restUnit p (s.setPort p { c with attach := .disabled })
    else enterLeaving p .plan none s
  | .attached, false => enterLeaving p .plan none s
  | _, _ => s

/-- A Port Controller is handed its enablement if the plan changed it. -/
def handIfChanged (old new : Plan) (s : State) (p : PortId) : State :=
  if (old.entries.get p).enabled = (new.entries.get p).enabled then s
  else handEnablement p (new.entries.get p).enabled s

/-! ### Settling (R98, R99) -/

/-- What a settling leaves to be handed on when the commit is whole: the notices of step 1 by kind, each kind in its
order, and the reports of the evicted regions (R79, R80). -/
structure Settled where
  voids : List (PortId × Notice)
  evictions : List (PortId × Notice)
  changes : List (PortId × Notice)
  reports : List Report
  deriving DecidableEq, Repr

/-- Nothing to hand on. -/
def Settled.nothing : Settled := { voids := [], evictions := [], changes := [], reports := [] }

/-- The notices of step 1 in the order of R80. -/
def Settled.notices (h : Settled) : List (PortId × Notice) := h.voids ++ h.evictions ++ h.changes

/-- The regions that the passes evict from a port leave the table and its order list (R100, R101). -/
def evictPort (p : PortId) (sh : State × Settled) : State × Settled :=
  let s := sh.1
  let r := evict (s.entry p) s.scan.setup.h (liveEntries p s)
  ((freeSlots (r.2.map Prod.fst) s).setLay p { s.lay p with order := r.1.ids },
   { sh.2 with
     evictions := sh.2.evictions ++ r.2.map fun x => (p, noticeNow s .regionEvicted (byteOf x.1) (byteOf x.2))
     reports := sh.2.reports ++ r.2.map fun x => .withdrawn p x.1 s.scan.frame })

/-- An EVICT plan acts on one port (R99): a changed port's draft and set are voided, its enablement is handed over, and
an ATTACHED port that stays enabled is evicted. R99 voids the set of a port that the plan disables before it hands over
the enablement, so its PUBLISH is answered DRAFT_VOID, where a row of R62 says CANCELLED (log 31); the response carries
IDLE, the edit state after the voiding (log 32). -/
def settleEvictPort (old new : Plan) (sh : State × Settled) (p : PortId) : State × Settled :=
  if changed old new p = false then sh
  else
    let s := sh.1
    let due := if s.editState p = .idle then [] else [(p, noticeNow s .draftVoid (portByte p) 0x00)]
    let s := dropProposals p .draftVoid [EditState.idle.byte] s
    let s := handIfChanged old new s p
    let h := { sh.2 with voids := sh.2.voids ++ due }
    if (new.entries.get p).enabled && decide ((s.port p).attach = .attached) then evictPort p (s, h) else (s, h)

/-- The fields of a PLAN-SET response (R180). -/
def planFields (s : State) (p : Option PortId) (region : Option Nat) : List Byte :=
  s.frameField ++ [portOrAbsent p, regionOrAbsent region]

/-- The PLAN_CHANGED notice of a plan that replaces another (R103). -/
def planChanged (old new : Plan) (s : State) : List (PortId × Notice) :=
  PortId.all.map fun p => (p, noticeNow s .planChanged 0x00 (changedByte old new))

/-- A plan is settled (R97 to R99). `answer` places the PLAN-SET response: the deferred one at a commit, the direct one
while the panel is DARK. -/
def settlePlan (answer : Result → List Byte → State → State) (new : Plan) (mode : PlanMode) (s : State) :
    State × Settled :=
  let old := s.layout.plan
  match mode with
  | .keep =>
    match keepConflict new s with
    | some (p, region) => (answer .planOrphans (planFields s (some p) region) s, .nothing)
    | none =>
      let t := PortId.all.foldl (handIfChanged old new) (s.setPlan new)
      (answer .done (planFields s none none) t, { Settled.nothing with changes := planChanged old new s })
  | .evict =>
    let t := answer .done (planFields s none none) (s.setPlan new)
    let r := PortId.all.foldl (settleEvictPort old new) (t, Settled.nothing)
    (r.1, { r.2 with changes := planChanged old new s })

end Sys2Proof.Machine
end

