-- ==== Sys2Proof/Machine/Commit.lean ====
section
/-! DEFINITION. The commit (04): its three steps, the generations, the responses, the notices and the reports; and the
immediate applications of a DARK panel. -/

namespace Sys2Proof.Machine

/-! ### Step 3: application of a sealed set (R74, R75) -/

/-- A slot after its owner's set is applied: a named slot becomes LIVE with the copy, a LIVE slot that left the order
list is FREE, any other slot stays (R75). The generation is settled by R76. -/
def applyToSlot (pr : Proposal) (gone : List Nat) (id : Nat) (x : Slot) : Slot :=
  match copyIn pr id with
  | some c =>
    match x with
    | .free => .free
    | .reserved o k => .live o k 0 c
    | .live o k g _ => .live o k g c
  | none => if gone.contains id then .free else x

/-- The height of a LIVE region. -/
def liveHeight (s : State) (id : Nat) : Option Nat := (s.slot id).liveCopy?.map Copy.h

/-- The reports of an application: withdrawn regions from the bottom of the old order list, then reshaped regions from
the bottom of the new one (R79). -/
def applyReports (p : PortId) (pr : Proposal) (s : State) : List Report :=
  (((s.lay p).order.filter fun id => !names pr id).map fun id => .withdrawn p id s.scan.frame) ++
    (pr.filter fun e => match liveHeight s e.id with
      | none => false
      | some h => h != e.copy.h).map fun e => .reshaped p e.id e.copy.h s.scan.frame

/-- A port's waiting sealed set is applied: the order list, the slots, the edit state (R74, R75). -/
def applySet (p : PortId) (s : State) : State × List Report :=
  match (s.lay p).sealedSet with
  | none => (s, [])
  | some pr =>
    let gone := (s.lay p).order.filter fun id => !names pr id
    ((s.mapSlots (applyToSlot pr gone)).setLay p { s.lay p with order := pr.ids, sealedSet := none },
     applyReports p pr s)

/-- Every waiting sealed set is applied, and the deferred PUBLISH responses are to be placed for the ports listed. -/
def applySets (s : State) : (State × List Report) × List PortId :=
  (PortId.all.foldl (fun sr p => let r := applySet p sr.1; (r.1, sr.2 ++ r.2)) (s, []),
   PortId.all.filter fun p => (s.lay p).sealedSet.isSome)

/-! ### Generations (R76) -/

/-- The generation of a region LIVE at the end of an application that began in state s0. -/
def nextGeneration (s0 s : State) (id : Nat) (o : PortId) (c : Copy) : Generation :=
  match s0.slot id with
  | .live _ _ g0 c0 => if c = c0 ∧ listPosition o id s = listPosition o id s0 then g0 else g0 + 1
  | _ => 1

/-- The generations advance over an application that began in state s0 (R76). -/
def advanceGenerations (s0 s : State) : State :=
  s.mapSlots fun id x =>
    match x with
    | .live o k _ c => .live o k (nextGeneration s0 s id o c) c
    | x => x

/-! ### The commit (R71) -/

/-- The deferred PUBLISH response of an applied set (R77). Its edit state is the one after the set has ended, as the last
column of R61's table gives it (log 32). -/
def answerApplied (s : State) (p : PortId) : State :=
  placeDeferred p .publish .done ((s.editState p).byte :: s.frameField) s

/-- A BLOCKED engine returns to READY when the commit is whole (R78). -/
def releaseEngines (s : State) : State := PortId.all.foldl (fun s p => setEngine p .ready s) s

/-- Step 1 of a commit: the sealed plan is settled, if one waits (R72). -/
def settleSealed (s : State) : State × Settled :=
  match s.layout.sealedPlan with
  | none => (s, .nothing)
  | some sp =>
    let r := settlePlan (placeDeferred .p0 .planSet) sp.plan sp.mode s
    (r.1.setSealedPlan none, r.2)

/-- The commit of the Layout Store (R71): the sealed plan, the leaving ports, the sealed sets; then the generations, the
responses of step 3, the notices, the reports, and the released engines. -/
def commit (s : State) : State :=
  let r1 := settleSealed s
  let r2 := retireListed r1.1
  let r3 := applySets r2.1
  let t := advanceGenerations s r3.1.1
  let t := r3.2.foldl answerApplied t
  let t := storeNotices r1.2.notices t
  let t := handCommitReports (r1.2.reports ++ r2.2 ++ r3.1.2) t
  releaseEngines t

/-! ### Immediate applications of a DARK panel (R85, R86) -/

/-- A sealed draft is applied at once for its one port, the Mark Unit taking the reports (R85, log 27). -/
def applyInDark (p : PortId) (pr : Proposal) (s : State) : State :=
  let r := applySet p (s.setLay p { s.lay p with draft := none, sealedSet := some pr })
  takeReports (handReports r.2 (advanceGenerations s r.1))

/-- A valid plan is settled at once: step 1, then the retirement of any port it sent into LEAVING (R86). -/
def settleInDark (r : Request) (new : Plan) (mode : PlanMode) (s : State) : State :=
  let r1 := settlePlan (respond .p0 r) new mode s
  let r2 := retireListed r1.1
  let t := storeNotices r1.2.notices (advanceGenerations s r2.1)
  takeReports (handReports (r1.2.reports ++ r2.2) t)

end Sys2Proof.Machine
end

