-- ==== Sys2Proof/Machine/Compose.lean ====
section
/-! DEFINITION. Stacking and composition (02): the displayed stack, the content of a region, the line list and the
pixels of a line, and the lookup of one point. -/

namespace Sys2Proof.Machine

/-- The ports of a band rank in the live plan; a plan that obeys R89 has one for each rank. -/
def portsOfRank (s : State) (r : Nat) : List PortId := PortId.all.filter fun p => (s.entry p).rank == r

/-- The displayed stack, bottom first (R23). -/
def displayedStack (s : State) : List Nat :=
  [0, 1, 2, 3].flatMap fun r => (portsOfRank s r).flatMap fun p => (s.lay p).order

/-- A LIVE region with its record. -/
structure LiveRegion where
  id : Nat
  owner : PortId
  kind : RegionKind
  copy : Copy
  deriving DecidableEq, Repr

/-- The region in a LIVE slot. -/
def liveRegion (s : State) (id : Nat) : Option LiveRegion :=
  match s.slot id with
  | .live o k _ c => some { id := id, owner := o, kind := k, copy := c }
  | _ => none

/-- The LIVE regions in stack order, lowest first. -/
def stackRegions (s : State) : List LiveRegion := (displayedStack s).filterMap (liveRegion s)

/-- The content of a LIVE region (R25). -/
inductive Content where
  | source | fill | none
  deriving DecidableEq, Repr

/-- The content by the table of R25. -/
def contentOf (m : Monitor) (k : RegionKind) (c : Copy) : Content :=
  if c.visible = false then .none
  else match k with
    | .solid => .fill
    | .linked =>
      match m with
      | .locked => .source
      | _ => match c.loss with
        | .fill => .fill
        | .hide => .none

/-- The content of a region as its owner's monitor stands. -/
def regionContent (s : State) (r : LiveRegion) : Content := contentOf (s.unit r.owner).monitor r.kind r.copy

/-- A region covers a pixel (R28). -/
def Copy.covers (c : Copy) (x y : Nat) : Bool :=
  decide (c.x ≤ x) && decide (x < c.x + c.w) && decide (c.y ≤ y) && decide (y < c.y + c.h)

/-- The giving region of a pixel: the topmost of the regions that cover it and show (R28). -/
def givingRegion (s : State) (x y : Nat) : Option LiveRegion :=
  ((stackRegions s).filter fun r => r.copy.covers x y && decide (regionContent s r ≠ .none)).getLast?

/-- The entry of the line list for a region that crosses line l (R30). -/
def lineEntry (s : State) (l : Nat) (r : LiveRegion) : LineEntry :=
  { region := r.id, owner := r.owner, first := r.copy.x, last := r.copy.x + r.copy.w - 1,
    content := match regionContent s r with
      | .source => .source (r.copy.sy + (l - r.copy.y)) r.copy.sx
      | .fill => .fill r.copy.fill
      | .none => .none }

/-- The line list of line l (R30). -/
def buildLineList (s : State) (l : Nat) : List LineEntry :=
  ((stackRegions s).filter fun r => r.copy.crosses l).map (lineEntry s l)

/-- The colour a SHOWING bank holds at a line and a column (R26); a pixel the bank lacks is the free value. -/
def bankPixel (u : SourceUnit) (line col : Nat) : Colour :=
  match u.showing with
  | none => Config.absentPixel line col
  | some lines => ((lines.getD line [])[col]?).getD (Config.absentPixel line col)

/-- What an entry of the line list gives at a column, if it covers it and shows (R28, R30). -/
def LineEntry.pixel (s : State) (e : LineEntry) (col : Nat) : Option Colour :=
  if e.first ≤ col ∧ col ≤ e.last then
    match e.content with
    | .source line origin => some (bankPixel (s.unit e.owner) line (origin + (col - e.first)))
    | .fill c => some c
    | .none => none
  else none

/-- The colour of a column by R28 restricted to the line list (R30). -/
def linePixel (s : State) (es : List LineEntry) (col : Nat) : Colour :=
  (es.reverse.findSome? fun e => e.pixel s col).getD s.layout.plan.background

/-- The W pixels of a line from its list. -/
def composeLine (s : State) (es : List LineEntry) : List Colour := (List.range s.scan.setup.w).map (linePixel s es)

/-- The Compositor takes the line start of line l: composed while LIVE, background while WARMING or COOLING (R30, R35,
R36). -/
def compose (s : State) (l : Nat) : Compositor :=
  match s.scan.panel with
  | .dark => { list := [], output := .idle }
  | .live => { list := buildLineList s l, output := .line (composeLine s (buildLineList s l)) }
  | _ => { list := [], output := .line (composeLine s []) }

/-- The showing kind and the region of HIT (R37, R39): a port 1 to 3 is told FOREIGN of another port's region. -/
def lookup (p : PortId) (s : State) (x y : Nat) : Showing × Option Nat :=
  match givingRegion s x y with
  | none => (.background, none)
  | some r =>
    if p ≠ .p0 ∧ r.owner ≠ p then (.foreign, none)
    else match regionContent s r with
      | .source => (.region, some r.id)
      | _ => (.fill, some r.id)

end Sys2Proof.Machine
end

