-- ==== Sys2Proof/Machine/TableReads.lean ====
section
/-! DEFINITION. The reads of the live table (01) and the lookup of a point (02): READ-REGION, READ-ORDER, HIT. -/

namespace Sys2Proof.Machine

/-- READ-REGION at the Layout Store, by the table of R18. -/
def readRegionBody (p : PortId) (r : Request) (s : State) : State :=
  let id := param8 r.params 0
  if Config.slotCount ≤ id then respond p r .range [] s
  else if p ≠ .p0 ∧ (s.slot id).owner? ≠ some p then respond p r .notOwner [] s
  else respond p r .done (s.frameField ++ (s.slot id).record) s

/-- READ_REGION (R18). -/
def execReadRegion (p : PortId) (s : State) : Out := .next (serve .readRegion p false (readRegionBody p) s)

/-- The length of an order list and its ids, bottom entry first. -/
def orderBytes (ids : List Nat) : List Byte := byteOf ids.length :: ids.map byteOf

/-- READ-ORDER at the Layout Store (R19). -/
def readOrderBody (p : PortId) (r : Request) (s : State) : State :=
  match PortId.ofNat? (param8 r.params 0) with
  | none => respond p r .range [] s
  | some q =>
    if p ≠ .p0 ∧ q ≠ p then respond p r .notOwner [] s
    else respond p r .done (s.frameField ++ orderBytes (s.lay q).order) s

/-- READ_ORDER (R19). -/
def execReadOrder (p : PortId) (s : State) : Out := .next (serve .readOrder p false (readOrderBody p) s)

end Sys2Proof.Machine
end

