-- ==== Sys2Proof/Machine/DraftRequests.lean ====
section
/-! DEFINITION. The draft requests and PUBLISH (03). -/

namespace Sys2Proof.Machine

/-- Replaces the open draft of a port. -/
def setDraft (p : PortId) (d : Option Proposal) (s : State) : State := s.setLay p { s.lay p with draft := d }

/-- A response that carries the port's edit state as it stands after the request, and further fields (R43). -/
def respondEdit (p : PortId) (r : Request) (res : Result) (fields : List Byte) (s : State) : State :=
  respond p r res ((s.editState p).byte :: fields) s

/-- Steps 2 to 4 of R43 for a region and an open draft: the first that fails gives the result. -/
def regionFault (p : PortId) (d : Proposal) (id : Nat) (s : State) : Option Result :=
  if Config.slotCount ≤ id then some .range
  else if (s.slot id).owner? ≠ some p then some .notOwner
  else if names d id then none
  else some .range

/-- A draft request that names a region (R43): the checks, then the request's own work on the open draft. -/
def onDraftRegion (p : PortId) (r : Request) (work : Proposal → Nat → State → State) (s : State) : State :=
  match (s.lay p).draft with
  | none => respondEdit p r .noDraft [] s
  | some d =>
    match regionFault p d (param8 r.params 0) s with
    | some res => respondEdit p r res [] s
    | none => work d (param8 r.params 0) s

/-- The draft with one region's copy changed. -/
def editCopy (d : Proposal) (id : Nat) (f : Copy → Copy) : Proposal :=
  d.map fun e => if e.id = id then { e with copy := f e.copy } else e

/-! ### BEGIN (R44) -/

/-- BEGIN at the Layout Store. -/
def beginBody (p : PortId) (r : Request) (s : State) : State :=
  match (s.lay p).draft, (s.lay p).sealedSet with
  | some _, _ => respondEdit p r .draftOpen [] s
  | none, none => respondEdit p r .done [] (setDraft p (some (liveEntries p s)) s)
  | none, some set => respondEdit p r .done [] (setDraft p (some set) s)

/-- BEGIN (R44). -/
def execBegin (p : PortId) (s : State) : Out := .next (serve .beginDraft p false (beginBody p) s)

/-! ### CREATE (R45, R10) -/

/-- A slot becomes RESERVED and a copy with the defaults goes to the top of the draft (R10). -/
def reserveSlot (p : PortId) (k : RegionKind) (id : Nat) (d : Proposal) (s : State) : State :=
  setDraft p (some (d ++ [{ id := id, copy := defaultCopy (s.entry p) }]))
    (s.setSlots (s.layout.slots.set id (.reserved p k)))

/-- CREATE at the Layout Store, by the table of R45. A table without a FREE slot, which the law R64 excludes below the
quota, is answered as the quota check is (log 28). -/
def createBody (p : PortId) (r : Request) (s : State) : State :=
  match (s.lay p).draft with
  | none => respondEdit p r .noDraft [] s
  | some d =>
    match RegionKind.ofByte? (param8 r.params 0) with
    | none => respondEdit p r .range [] s
    | some k =>
      if (s.entry p).quota ≤ ownedCount p s then respondEdit p r .quota [] s
      else if k = .linked ∧ (s.unit p).sh = 0 then respondEdit p r .noSource [] s
      else match lowestFree s with
        | none => respondEdit p r .quota [] s
        | some id => respondEdit p r .done [byteOf id] (reserveSlot p k id d s)

/-- CREATE (R45). -/
def execCreate (p : PortId) (s : State) : Out := .next (serve .create p false (createBody p) s)

/-! ### PLACE (R46) -/

/-- PLACE's own check and work. -/
def placeWork (p : PortId) (r : Request) (d : Proposal) (id : Nat) (s : State) : State :=
  let x := param16 r.params 1
  let y := param16 r.params 3
  let w := param16 r.params 5
  let h := param16 r.params 7
  if w = 0 ∨ h = 0 ∨ s.scan.setup.w < x + w ∨ s.scan.setup.h < y + h then respondEdit p r .range [] s
  else respondEdit p r .done []
    (setDraft p (some (editCopy d id fun c => { c with x := x, y := y, w := w, h := h })) s)

/-- PLACE (R46). -/
def execPlace (p : PortId) (s : State) : Out :=
  .next (serve .place p false (fun r => onDraftRegion p r (placeWork p r)) s)

/-! ### SOURCE (R47) -/

/-- SOURCE's own checks and work. -/
def sourceWork (p : PortId) (r : Request) (d : Proposal) (id : Nat) (s : State) : State :=
  let sx := param16 r.params 1
  let sy := param16 r.params 3
  if (s.slot id).kind? = some .solid then respondEdit p r .noSource [] s
  else if (s.unit p).sw ≤ sx ∨ (s.unit p).sh ≤ sy then respondEdit p r .range [] s
  else respondEdit p r .done [] (setDraft p (some (editCopy d id fun c => { c with sx := sx, sy := sy })) s)

/-- SOURCE (R47). -/
def execSource (p : PortId) (s : State) : Out :=
  .next (serve .source p false (fun r => onDraftRegion p r (sourceWork p r)) s)

/-! ### STYLE (R48) -/

/-- STYLE's own checks and work, by the table of R48. -/
def styleWork (p : PortId) (r : Request) (d : Proposal) (id : Nat) (s : State) : State :=
  match yesNoOf? (param8 r.params 1), Loss.ofByte? (param8 r.params 2), yesNoOf? (param8 r.params 6) with
  | some visible, some loss, some guarded =>
    if guarded = true ∧ (visible = false ∨ loss = .hide) then respondEdit p r .range [] s
    else if guarded = true ∧ (s.entry p).guard = false then respondEdit p r .guard [] s
    else respondEdit p r .done []
      (setDraft p (some (editCopy d id fun c =>
        { c with visible := visible, loss := loss, fill := paramColour r.params 3, guarded := guarded })) s)
  | _, _, _ => respondEdit p r .range [] s

/-- STYLE (R48). -/
def execStyle (p : PortId) (s : State) : Out :=
  .next (serve .style p false (fun r => onDraftRegion p r (styleWork p r)) s)

/-! ### ORDER (R49) -/

/-- An entry is inserted directly above or below another entry of the list. -/
def insertBeside (above : Bool) (other : Nat) (e : DraftEntry) : Proposal → Proposal
  | [] => [e]
  | x :: xs =>
    if x.id = other then (if above then x :: e :: xs else e :: x :: xs) else x :: insertBeside above other e xs

/-- The list after a move (R49): the region leaves its position and is inserted again. -/
def moveEntry (op : OrderOp) (id other : Nat) (d : Proposal) : Proposal :=
  match d.find? fun e => e.id == id with
  | none => d
  | some e =>
    let rest := d.filter fun x => x.id != id
    match op with
    | .top => rest ++ [e]
    | .bottom => e :: rest
    | .above => insertBeside true other e rest
    | .below => insertBeside false other e rest

/-- The check of the other region for ABOVE and BELOW (R49). -/
def otherFault (p : PortId) (op : OrderOp) (d : Proposal) (id other : Nat) (s : State) : Option Result :=
  match op with
  | .top | .bottom => none
  | .above | .below =>
    match regionFault p d other s with
    | some res => some res
    | none => if other = id then some .range else none

/-- ORDER's own checks and work. -/
def orderWork (p : PortId) (r : Request) (d : Proposal) (id : Nat) (s : State) : State :=
  match OrderOp.ofByte? (param8 r.params 1) with
  | none => respondEdit p r .range [] s
  | some op =>
    match otherFault p op d id (param8 r.params 2) s with
    | some res => respondEdit p r res [] s
    | none => respondEdit p r .done [] (setDraft p (some (moveEntry op id (param8 r.params 2) d)) s)

/-- ORDER (R49). -/
def execOrder (p : PortId) (s : State) : Out :=
  .next (serve .order p false (fun r => onDraftRegion p r (orderWork p r)) s)

/-! ### RETIRE, DISCARD (R50, R51) -/

/-- RETIRE's work: the copy and its list entry leave the draft; a RESERVED slot that nothing names any more is FREE. -/
def retireWork (p : PortId) (r : Request) (d : Proposal) (id : Nat) (s : State) : State :=
  respondEdit p r .done [] (releaseUnnamed p (setDraft p (some (d.filter fun e => e.id != id)) s))

/-- RETIRE (R50). -/
def execRetire (p : PortId) (s : State) : Out :=
  .next (serve .retire p false (fun r => onDraftRegion p r (retireWork p r)) s)

/-- DISCARD at the Layout Store. -/
def discardBody (p : PortId) (r : Request) (s : State) : State :=
  match (s.lay p).draft with
  | none => respondEdit p r .noDraft [] s
  | some _ => respondEdit p r .done [] (releaseUnnamed p (setDraft p none s))

/-- DISCARD (R51). -/
def execDiscard (p : PortId) (s : State) : Out := .next (serve .discard p false (discardBody p) s)

/-! ### READ-DRAFT (R52) -/

/-- READ-DRAFT's fields: the record, then the draft's order list. -/
def readDraftWork (p : PortId) (r : Request) (d : Proposal) (id : Nat) (s : State) : State :=
  match copyIn d id with
  | none => respondEdit p r .range [] s
  | some c => respondEdit p r .done ((s.slot id).draftRecord c ++ orderBytes d.ids) s

/-- READ_DRAFT (R52). -/
def execReadDraft (p : PortId) (s : State) : Out :=
  .next (serve .readDraft p false (fun r => onDraftRegion p r (readDraftWork p r)) s)

/-! ### PUBLISH (R53 to R60, R85) -/

/-- The first LINKED region whose window does not fit the declared source frame (R56). -/
def windowFault (s : State) (u : SourceUnit) (d : Proposal) : Option Nat :=
  (d.find? fun e => decide ((s.slot e.id).kind? = some .linked) &&
    (decide (u.sw < e.copy.sx + e.copy.w) || decide (u.sh < e.copy.sy + e.copy.h))).map DraftEntry.id

/-- Seal validation (R54): the result code and the region named, or none where the draft passes. -/
def sealFault (p : PortId) (d : Proposal) (s : State) : Option (Result × Nat) :=
  match territoryFault (s.entry p) d with
  | some id => some (.territory, id)
  | none =>
    match windowFault s (s.unit p) d with
    | some id => some (.sourceWindow, id)
    | none =>
      match guardFault (s.entry p) d with
      | some id => some (.guard, id)
      | none => (rowShareFault (s.entry p).share s.scan.setup.h d).map fun id => (.rowShare, id)

/-- A draft that passed becomes the sealed set, and the response is deferred (R59). -/
def sealDraft (p : PortId) (r : Request) (d : Proposal) (s : State) : State :=
  deferRequest p r (s.setLay p { s.lay p with draft := none, sealedSet := some d })

/-- PUBLISH at the Layout Store: NO_DRAFT, a seal failure, an application at once while DARK, or a sealed set. -/
def publishBody (p : PortId) (r : Request) (s : State) : State :=
  match (s.lay p).draft with
  | none => respondEdit p r .noDraft [] s
  | some d =>
    match sealFault p d s with
    | some (res, id) => respondEdit p r res [byteOf id] s
    | none =>
      if s.scan.panel = .dark then
        let s := applyInDark p d s
        respondEdit p r .done s.frameField s
      else sealDraft p r d s

/-- PUBLISH (R53); in SEALED_DRAFTING it blocks the engine (R60, log 15). -/
def execPublish (p : PortId) (s : State) : Out :=
  .next (serve .publish p (decide (s.editState p = .sealedDrafting)) (publishBody p) s)

end Sys2Proof.Machine
end

