-- ==== Sys2Proof/Machine/Link.lean ====
section
/-! DEFINITION. The command link (10) and device reset: the five kinds of transaction, each in parts, and DEVICE_RESET. -/

namespace Sys2Proof.Machine

/-- Bytes are clocked out to the host of a port. -/
def clockOut (p : PortId) (bs : List Byte) (s : State) : State :=
  s.setLink p { s.link p with dout := (s.link p).dout ++ bs }

/-- The transaction under way on a port's link. -/
def setTransaction (p : PortId) (t : LinkState) (s : State) : State := s.setLink p { s.link p with state := t }

/-- A refusal is recorded (R173): a new refusal replaces the reason held. -/
def refuse (p : PortId) (why : Refused) (s : State) : State := s.setPort p { s.port p with refusal := why }

/-! ### Chip select and the kind byte (R172, R173) -/

/-- A status byte has been clocked out whole, and the refusal reason returns to NONE (R173). No refusal can be recorded
between the fixing of the byte and its last bit: a port's refusals come from its own link, later in a transaction. -/
def sendStatus (p : PortId) (b : Byte) (s : State) : State := refuse p .none (clockOut p [b] s)

/-- A status byte is fixed and clocked out whole: one byte of a STATUS transaction (R177). -/
def clockStatus (p : PortId) (s : State) : State := sendStatus p (s.port p).statusByte s

/-- Chip select falls, which needs it to be high, and the status byte is fixed (R172, R173). -/
def selectLink (p : PortId) (s : State) : State :=
  match (s.link p).state with
  | .idle => s.setLink p { state := .selected (s.port p).statusByte, dout := [] }
  | _ => s

/-- The four transactions of table 10.1. -/
inductive Transaction where
  | writeRequest | readResponse | readNotice | status
  deriving DecidableEq, Repr

/-- The kind byte of a transaction (table 10.1). -/
def Transaction.kindByte : Transaction → Byte
  | .writeRequest => 0x01
  | .readResponse => 0x02
  | .readNotice => 0x03
  | .status => 0x04

/-- The transaction that a kind byte names, if the table gives it one. -/
def Transaction.ofByte? (k : Byte) : Option Transaction :=
  [.writeRequest, .readResponse, .readNotice, .status].find? fun t => t.kindByte == k

/-- The frame a READ_RESPONSE fixes (R175). -/
def fixResponse (p : PortId) (s : State) : LinkState :=
  match (s.port p).responses with
  | [] => .sendingResponse emptyResponseFrame false 0
  | r :: _ => .sendingResponse r.frame true 0

/-- The frame a READ_NOTICE fixes (R176). -/
def fixNotice (p : PortId) (s : State) : LinkState :=
  match (s.port p).notices with
  | [] => .sendingNotice emptyNoticeFrame none 0
  | n :: _ => .sendingNotice n.bytes (some 0) 0

/-- A transaction right after its kind byte. The frame that a reading transaction sends is fixed now (R175, R176). -/
def Transaction.begin (p : PortId) (s : State) : Transaction → LinkState
  | .writeRequest => .writing [] false
  | .readResponse => fixResponse p s
  | .readNotice => fixNotice p s
  | .status => .sendingStatus

/-- The kind byte is taken (R172): a byte of the table begins its transaction; any other is the refusal FORM, which the
status byte clocked out with it does not take away, and the rest is ignored. -/
def takeKind (p : PortId) (k : Byte) (s : State) : State :=
  match Transaction.ofByte? k with
  | some t => setTransaction p (t.begin p s) s
  | none => setTransaction p .ignoring (refuse p .form s)

/-- The kind byte is clocked in while the status byte fixed at the fall of chip select is clocked out (R172, R173). -/
def clockKind (p : PortId) (k : Byte) (s : State) : State :=
  match (s.link p).state with
  | .selected b => takeKind p k (sendStatus p b s)
  | _ => s

/-- Chip select rises before the kind byte is whole: nothing was taken and nothing clocked out whole (R172). -/
def releaseSelected (p : PortId) (s : State) : State :=
  match (s.link p).state with
  | .selected _ => setTransaction p .idle s
  | _ => s

/-! ### WRITE_REQUEST (R174, R154) -/

/-- The request record of a whole frame. -/
def requestOf (frame : List Byte) : Request :=
  { tag := frame.getD 0 0, code := frame.getD 1 0, params := (frame.drop 3).dropLast }

/-- A frame that passes the link's checks is offered to the Port Controller (R154). -/
def offer (p : PortId) (r : Request) (s : State) : State :=
  let c := s.port p
  if c.attach.acceptsWrites = false then refuse p .state s
  else if c.couldAccept then s.setPort p { c with requests := c.requests ++ [r] }
  else refuse p .full s

/-- The link takes one byte of a request frame (R174): the length byte, the check byte, or another. -/
def takeFrameByte (p : PortId) (taken : List Byte) (b : Byte) (s : State) : State :=
  let frame := taken ++ [b]
  if frame.length < 3 then setTransaction p (.writing frame false) s
  else
    let n := (frame.getD 2 0).toNat
    if Config.maxParams < n then setTransaction p (.writing frame true) (refuse p .form s)
    else if frame.length < n + 4 then setTransaction p (.writing frame false) s
    else if byteSum frame = 0 then setTransaction p (.writing frame true) (offer p (requestOf frame) s)
    else setTransaction p (.writing frame true) (refuse p .form s)

/-- A byte is clocked within a WRITE_REQUEST; the part clocks out 00h. -/
def clockWrite (p : PortId) (s : State) (b : Byte) : State :=
  match (s.link p).state with
  | .writing taken false => takeFrameByte p taken b (clockOut p [0x00] s)
  | .writing _ true => clockOut p [0x00] s
  | _ => s

/-- Chip select rises on a WRITE_REQUEST: before the check byte that is a FORM refusal, also before
the length byte (R174, log 23). -/
def releaseWrite (p : PortId) (s : State) : State :=
  match (s.link p).state with
  | .writing _ ended => setTransaction p .idle (if ended then s else refuse p .form s)
  | _ => s

/-! ### READ_RESPONSE (R175, R158) -/

/-- One byte of a fixed frame is clocked out, then 00h. -/
def clockResponse (p : PortId) (s : State) (_ : Byte) : State :=
  match (s.link p).state with
  | .sendingResponse f c n => clockOut p [f.getD n 0x00] (setTransaction p (.sendingResponse f c (n + 1)) s)
  | _ => s

/-- The oldest response leaves the queue; that may complete a departure (R155, R158, R166). -/
def removeResponse (p : PortId) (s : State) : State :=
  leaveIfDone p (s.setPort p { s.port p with responses := (s.port p).responses.tail })

/-- Chip select rises on a READ_RESPONSE: after the check byte the response leaves the queue, if it is still there. -/
def releaseResponse (p : PortId) (s : State) : State :=
  match (s.link p).state with
  | .sendingResponse f c n =>
    let s := setTransaction p .idle s
    if c && decide (f.length ≤ n) then removeResponse p s else s
  | _ => s

/-! ### READ_NOTICE (R176, R160) -/

/-- One byte of a fixed notice frame is clocked out, then 00h. -/
def clockNotice (p : PortId) (s : State) (_ : Byte) : State :=
  match (s.link p).state with
  | .sendingNotice f c n => clockOut p [f.getD n 0x00] (setTransaction p (.sendingNotice f c (n + 1)) s)
  | _ => s

/-- The entry delivered leaves the queue, or stays with the notices coalesced since its frame was fixed; the notice-lost
flag is cleared (R160). -/
def removeNotice (p : PortId) (since : Nat) (s : State) : State :=
  let c := s.port p
  let q := match c.notices with
    | [] => []
    | n :: rest => if since = 0 then rest else { n with count := min Config.repeatCeiling since } :: rest
  s.setPort p { c with notices := q, noticeLost := false }

/-- Chip select rises on a READ_NOTICE. -/
def releaseNotice (p : PortId) (s : State) : State :=
  match (s.link p).state with
  | .sendingNotice f c n =>
    let s := setTransaction p .idle s
    match c with
    | none => s
    | some since => if f.length ≤ n then removeNotice p since s else s
  | _ => s

/-! ### STATUS and an unknown kind (R177, R172) -/

/-- One fresh status byte for a byte clocked. -/
def clockStatusByte (p : PortId) (s : State) (_ : Byte) : State :=
  match (s.link p).state with
  | .sendingStatus => clockStatus p s
  | _ => s

/-- Chip select rises on a STATUS transaction. -/
def releaseStatus (p : PortId) (s : State) : State :=
  match (s.link p).state with
  | .sendingStatus => setTransaction p .idle s
  | _ => s

/-- A byte is clocked while the rest of the transaction is ignored: the part clocks out 00h. -/
def clockIgnored (p : PortId) (s : State) (_ : Byte) : State :=
  match (s.link p).state with
  | .ignoring => clockOut p [0x00] s
  | _ => s

/-- Chip select rises on an ignored transaction. -/
def releaseIgnored (p : PortId) (s : State) : State :=
  match (s.link p).state with
  | .ignoring => setTransaction p .idle s
  | _ => s

/-! ### A transaction that device reset abandoned (R172) -/

/-- Bytes of an abandoned transaction: the part takes none of them and clocks out 00h. -/
def clockAbandoned (p : PortId) (s : State) (_ : Byte) : State :=
  match (s.link p).state with
  | .abandoned => clockOut p [0x00] s
  | _ => s

/-- Chip select rises on an abandoned transaction. -/
def releaseAbandoned (p : PortId) (s : State) : State :=
  match (s.link p).state with
  | .abandoned => setTransaction p .idle s
  | _ => s

/-! ### Transactions in parts -/

/-- A part of a transaction of a command whose kind byte is k, from what the transaction does for each byte and when chip
select rises. A whole transaction begins only when chip select is high; a part that does not belong to the transaction
under way is no event (log 2, log 5). -/
def runPart (p : PortId) (k : Byte) (clock : State → Byte → State) (finish : State → State) (part : LinkPart)
    (s : State) : State :=
  match part with
  | .select => selectLink p s
  | .kind => clockAbandoned p (clockKind p k s) k
  | .clock bs => bs.foldl (clockAbandoned p) (bs.foldl clock s)
  | .release =>
    match (s.link p).state with
    | .abandoned => releaseAbandoned p s
    | .selected _ => releaseSelected p s
    | _ => finish s
  | .whole bs =>
    if (s.link p).state = .idle then finish (bs.foldl clock (clockKind p k (selectLink p s))) else s

/-- WRITE_REQUEST (R154, R174). -/
def execWriteRequest (p : PortId) (part : LinkPart) (s : State) : Out :=
  .next (runPart p Transaction.writeRequest.kindByte (clockWrite p) (releaseWrite p) part s)

/-- READ_RESPONSE (R175, R158). -/
def execReadResponse (p : PortId) (part : LinkPart) (s : State) : Out :=
  .next (runPart p Transaction.readResponse.kindByte (clockResponse p) (releaseResponse p) part s)

/-- READ_NOTICE (R176, R160). -/
def execReadNotice (p : PortId) (part : LinkPart) (s : State) : Out :=
  .next (runPart p Transaction.readNotice.kindByte (clockNotice p) (releaseNotice p) part s)

/-- STATUS (R177). -/
def execStatus (p : PortId) (part : LinkPart) (s : State) : Out :=
  .next (runPart p Transaction.status.kindByte (clockStatusByte p) (releaseStatus p) part s)

/-- UNKNOWN_KIND_BYTE (R172): the refusal FORM, and the rest of the transaction is ignored. A kind byte of the table is no
such event (log 2). -/
def execUnknownKindByte (p : PortId) (kind : Byte) (part : LinkPart) (s : State) : Out :=
  .next (if Transaction.ofByte? kind = none then runPart p kind (clockIgnored p) (releaseIgnored p) part s else s)

/-! ### DEVICE_RESET (R152, R172) -/

/-- Device reset abandons a transaction under way; the link waits for chip select to rise. -/
def Link.afterReset (l : Link) : Link :=
  match l.state with
  | .idle => { state := .idle, dout := [] }
  | _ => { state := .abandoned, dout := [] }

/-- DEVICE_RESET (R152): every block takes its reset values, every queue of the part is empty. The bank roles return to A
SHOWING, B FILLING as R108 and its table say, where R121 lists device reset among the events that do not change them (log
34). The commands that wait in the model's own queue come from outside the part and stay (log 25). -/
def execDeviceReset (s : State) : Out :=
  .next { State.reset with
    links := ⟨s.links.p0.afterReset, s.links.p1.afterReset, s.links.p2.afterReset, s.links.p3.afterReset⟩
    pending := s.pending }

end Sys2Proof.Machine
end

