-- ==== Sys2Proof/Machine/MarkRequests.lean ====
section
/-! DEFINITION. The Mark Unit's commands (07): MARK, UNMARK, READ-MARKS, and the taking of a commit's reports. Each of the
requests meets a Mark Unit that has taken the reports that wait at it (R128, R136, log 9). -/

namespace Sys2Proof.Machine

/-- MARK's checks 4 to 6 on a LIVE region of the sender, and its work (R126). -/
def markLive (p : PortId) (r : Request) (id : Nat) (c : Copy) (s : State) : State :=
  if c.h ≤ param16 r.params 1 then respond p r .range s.frameField s
  else match lowestMarkId (s.markList p) with
    | none => respond p r .markFull s.frameField s
    | some m =>
      respond p r .done (s.frameField ++ [byteOf m])
        (s.setMarkList p (insertMark
          { id := m, region := id, offset := param16 r.params 1, remaining := param8 r.params 3 } (s.markList p)))

/-- MARK at the Mark Unit, by the table of R126. For a region of the sender that the latest commit withdrew the result is
the NOT_LIVE of R83 and R136, to which R126 points, while its slot is FREE until the next commit: still FREE, or
FREE again after a CREATE of any port reserved it anew, which the spec leaves open (log 30). -/
def markBody (p : PortId) (r : Request) (s : State) : State :=
  let s := takeReports s
  let id := param8 r.params 0
  if Config.slotCount ≤ id then respond p r .range s.frameField s
  else match s.slot id with
    | .free => respond p r (if s.marks.withdrawn.contains (p, id) then .notLive else .notOwner) s.frameField s
    | .reserved o _ => respond p r (if o = p then .notLive else .notOwner) s.frameField s
    | .live o _ _ c => if o = p then markLive p r id c s else respond p r .notOwner s.frameField s

/-- MARK (R126). -/
def execMark (p : PortId) (s : State) : Out := .next (serve .mark p false (markBody p) s)

/-- UNMARK at the Mark Unit (R127). -/
def unmarkBody (p : PortId) (r : Request) (s : State) : State :=
  let s := takeReports s
  let m := param8 r.params 0
  if Config.marksPerPort ≤ m then respond p r .range s.frameField s
  else if (s.markList p).any fun x => x.id == m then
    respond p r .done s.frameField (s.setMarkList p ((s.markList p).filter fun x => x.id != m))
  else respond p r .already s.frameField s

/-- UNMARK (R127). -/
def execUnmark (p : PortId) (s : State) : Out := .next (serve .unmark p false (unmarkBody p) s)

/-- One mark of READ-MARKS (R180). -/
def Mark.bytes (m : Mark) : List Byte := [byteOf m.id, byteOf m.region] ++ le16 m.offset ++ [byteOf m.remaining]

/-- READ-MARKS at the Mark Unit (R128). -/
def readMarksBody (p : PortId) (r : Request) (s : State) : State :=
  let s := takeReports s
  respond p r .done (s.frameField ++ [byteOf (s.markList p).length] ++ (s.markList p).flatMap Mark.bytes) s

/-- READ_MARKS (R128). -/
def execReadMarks (p : PortId) (s : State) : Out := .next (serve .readMarks p false (readMarksBody p) s)

/-- MARK_REPORTS_TAKEN (R132). -/
def execMarkReportsTaken (s : State) : Out := .next (takeReports s)

end Sys2Proof.Machine
end

