-- ==== Sys2Proof/Machine/Panel.lean ====
section
/-! DEFINITION. The Scan Timer's commands (08): the panel requests, frame starts, line starts, the warm count, entry into
DARK; and HIT, which reads the Scan Timer. -/

namespace Sys2Proof.Machine

/-! ### Frame timing (R138) -/

/-- Pixel clocks of one line. -/
def Setup.lineClocks (u : Setup) : Nat := u.w + Config.horizontalBlank

/-- Lines of one frame. -/
def Setup.frameLines (u : Setup) : Nat := u.vblank + u.h

/-- Pixel clocks of one frame. -/
def Setup.frameClocks (u : Setup) : Nat := u.lineClocks * u.frameLines

/-- REFCLK periods of one frame: the pixel clock is REFCLK divided by the divider. -/
def Setup.frameRefClocks (u : Setup) : Nat := u.divider * u.frameClocks

/-! ### Changes of panel state -/

/-- A PANEL_STATE notice to every ATTACHED port: the new state, and the state left (R147). -/
def announcePanel (left : PanelState) (s : State) : State :=
  storeAll (noticeNow s .panelState s.scan.panel.byte left.byte) s

/-- The panel enters a state, and the notices go out. -/
def enterPanel (new : PanelState) (s : State) : State :=
  announcePanel s.scan.panel (s.setScan { s.scan with panel := new })

/-- The warm count of a frame start that waits for it (R143): the counter rises, and at the warm value the panel enters
LIVE and the counter returns to 0. -/
def takeWarmCount (s : State) : State :=
  if s.scan.warmWaiting then
    if s.scan.setup.warm ≤ s.scan.warm + 1 then
      enterPanel .live (s.setScan { s.scan with warm := 0, warmWaiting := false })
    else s.setScan { s.scan with warm := s.scan.warm + 1, warmWaiting := false }
  else s

/-! ### Frame starts (R139) -/

/-- One block's work at a frame start. -/
def doWork (s : State) : FrameWork → State
  | .commit => commit s
  | .unit p => takeFrameStart p s
  | .timer => takeWarmCount s

/-- The warm count of a frame start is taken at once where it does not complete the warm value: only the count that does
waits, for its own row of the table (log 8). -/
def settleWarm (s : State) : State := if s.scan.setup.warm ≤ s.scan.warm + 1 then s else takeWarmCount s

/-- The blocks' work in the order given. What the order does not list comes after the works listed (R69, R139): the
commit, then the units and the warm count, but for a judgement or a count that reaches its value, which waits (log 8). -/
def frameWork (now : List FrameWork) (s : State) : State :=
  let s := now.foldl doWork s
  settleWarm (settleUnits (if now.contains .commit then s else commit s))

/-- The Scan Timer raises a frame start (R139): the frame number advances, the scan position is BLANK, the line list is
cleared (log 19), the frame start waits at the Source Unit of every ATTACHED port, and no unit has pulsed for it yet. -/
def raiseFrame (s : State) : State :=
  let s := s.setScan { s.scan with frame := s.scan.frame + 1, pos := none }
  let s := s.setComp { list := [], output := .blank }
  PortId.all.foldl (fun s p =>
    s.setUnit p { s.unit p with pulsed := false, frameWaiting := decide ((s.port p).attach = .attached) }) s

/-- The frame under way has had the line start of its last line, H - 1. The next frame start, or in its place the entry
into DARK, follows the end of that line, and comes nowhere else (R138, R140). -/
def frameOver (t : ScanTimer) : Bool :=
  match t.pos with
  | none => false
  | some l => l + 1 == t.setup.h

/-- The frame start that comes at the end of this frame would complete the count of COOLING frames (R146). -/
def coolCountDue (s : State) : Bool :=
  decide (s.scan.panel = .cooling) && frameOver s.scan && s.scan.coolingFrame &&
    decide (s.scan.setup.cool ≤ s.scan.cool + 1)

/-- The Scan Timer's own count at a frame start it raises: in WARMING the warm count waits; in COOLING a frame that began
in COOLING is counted, and the frame that opens begins in COOLING (R143, R146). -/
def countFrame (t : ScanTimer) : ScanTimer :=
  match t.panel with
  | .warming => { t with warmWaiting := true }
  | .cooling => { t with cool := if t.coolingFrame then t.cool + 1 else t.cool, coolingFrame := true }
  | _ => t

/-! ### Entry into DARK (R146) -/

/-- Every Source Unit is forced (R121); its FSYNC line is quiet (R146). -/
def forceAll (s : State) : State :=
  PortId.all.foldl (fun s p => s.setUnit p { (s.unit p).forced with fsync := false, frameWaiting := false }) s

/-- The panel enters DARK in place of a frame start (R146): PANEL_STATE and the commit in the order given (log 7), every
Source Unit forced. -/
def enterDark (noticeFirst : Bool) (s : State) : State :=
  let s := takeReports s
  let s := s.setScan { s.scan with panel := .dark, cool := 0, pos := none, coolingFrame := false }
  let s := s.setComp { list := [], output := .idle }
  let s := if noticeFirst then commit (announcePanel .cooling s) else announcePanel .cooling (commit s)
  forceAll s

/-- ENTRY_INTO_DARK (R146). -/
def execEntryIntoDark (noticeFirst : Bool) (s : State) : Out :=
  .next (if coolCountDue s then enterDark noticeFirst s else s)

/-- FRAME_START (R139), at the end of the last line of the frame under way (R138). While DARK none is raised; at the moment
that completes the count of COOLING frames the panel enters DARK instead (R146, log 10). Elsewhere in a frame there is no
such event (log 2). -/
def execFrameStart (now : List FrameWork) (s : State) : Out :=
  .next (if s.scan.panel = .dark || !frameOver s.scan then s
    else if coolCountDue s then enterDark false s
    else
      let s := takeReports s
      frameWork now (raiseFrame (s.setScan (countFrame s.scan))))

/-- WARM_COUNT_REACHED (R143): the warm count that waits reaches the warm value. -/
def execWarmCountReached (s : State) : Out :=
  .next (if s.scan.warmWaiting && decide (s.scan.setup.warm ≤ s.scan.warm + 1) then takeWarmCount s else s)

/-! ### Line starts (R140) -/

/-- The line whose line start comes next in the frame, if one is left. -/
def nextLine (t : ScanTimer) : Option Nat :=
  let l := match t.pos with
    | none => 0
    | some l => l + 1
  if t.panel = .dark then none else if l < t.setup.h then some l else none

/-- Every FSYNC pulse has ended before the first line start (R117, log 21). -/
def endFsync (s : State) : State :=
  PortId.all.foldl (fun s p => s.setUnit p { s.unit p with fsync := false }) s

/-- The line start of line l: the Compositor produces the line, and while LIVE the marks of the line fire (R140, R30,
R129, R131). -/
def startLine (l : Nat) (s : State) : State :=
  let s := endFsync (s.setScan { s.scan with pos := some l })
  let s := s.setComp (compose s l)
  if s.scan.panel = .live then PortId.all.foldl (fireMarks l) s else s

/-- Work of the frame start waits: a unit's judgement or a warm count that reaches its value (log 8). -/
def workWaits (s : State) : Bool := s.scan.warmWaiting || PortId.all.any fun p => (s.unit p).frameWaiting

/-- LINE_START (R140). All work of the frame start is whole before the first line start (R139), so while some waits there is
no such event (log 2, log 8); the reports that wait are taken first (R79, log 9). -/
def execLineStart (s : State) : Out :=
  .next (match nextLine s.scan with
    | none => s
    | some l => if workWaits s then s else startLine l (takeReports s))

/-! ### The panel requests -/

/-- The port that PANEL-SETUP names: the first enabled territory outside the new active area (R148). -/
def setupFault (u : Setup) (s : State) : Option PortId :=
  PortId.all.find? fun p =>
    let e := s.entry p
    e.enabled && (decide (u.w < e.tx + e.tw) || decide (u.h < e.ty + e.th))

/-- The fields of a setup lie in their ranges (8.2). -/
def Setup.inRange (u : Setup) : Bool :=
  decide (64 ≤ u.w) && decide (u.w ≤ 1920) && decide (64 ≤ u.h) && decide (u.h ≤ 1200) && decide (16 ≤ u.vblank) &&
    decide (u.vblank ≤ 255) && decide (1 ≤ u.warm) && decide (u.warm ≤ 15) && decide (1 ≤ u.cool) &&
    decide (u.cool ≤ 15) && decide (1 ≤ u.divider) && decide (u.divider ≤ 16)

/-- The fields of PANEL-SETUP: frame, the port named or FFh, the setup as it stands (R148, R180). -/
def setupFields (q : Option PortId) (s : State) : List Byte := s.frameField ++ [portOrAbsent q] ++ s.scan.setup.bytes

/-- PANEL-SETUP at the Scan Timer, by the table of R148. -/
def panelSetupBody (p : PortId) (r : Request) (s : State) : State :=
  let u := paramSetup r.params
  if s.scan.panel ≠ .dark then respond p r .wrongState (setupFields none s) s
  else if u.inRange = false then respond p r .range (setupFields none s) s
  else match setupFault u s with
    | some q => respond p r .territory (setupFields (some q) s) s
    | none =>
      let s := s.setScan { s.scan with setup := u }
      respond p r .done (setupFields none s) s

/-- PANEL_SETUP (R148). -/
def execPanelSetup (p : PortId) (s : State) : Out := .next (serve .panelSetup p false (panelSetupBody p) s)

/-- The works of an order up to the Scan Timer's, and those after it. -/
def worksBefore (now : List FrameWork) : List FrameWork := now.takeWhile fun w => w != .timer

/-- The works of an order after the Scan Timer's. -/
def worksAfter (now : List FrameWork) : List FrameWork := (now.dropWhile fun w => w != .timer).filter fun w => w != .timer

/-- A DARK panel enters WARMING and raises a frame start at once (R142); the PANEL_STATE notice takes the Scan Timer's
place in the order of the work (R147). -/
def startWarming (now : List FrameWork) (s : State) : State :=
  let s := takeReports s
  let s := raiseFrame (s.setScan { s.scan with panel := .warming, warm := 0, coolingFrame := false, warmWaiting := false })
  let s := announcePanel .dark ((worksBefore now).foldl doWork s)
  let s := (worksAfter now).foldl doWork s
  settleUnits (if now.contains .commit then s else commit s)

/-- PANEL-ON at the Scan Timer (R142), which has taken a count that waits (log 8). -/
def panelOnBody (p : PortId) (now : List FrameWork) (r : Request) (s : State) : State :=
  let s := takeWarmCount s
  match s.scan.panel with
  | .dark =>
    let s := startWarming now s
    respond p r .done s.frameField s
  | .cooling => respond p r .wrongState s.frameField s
  | _ => respond p r .already s.frameField s

/-- PANEL_ON (R142). -/
def execPanelOn (p : PortId) (now : List FrameWork) (s : State) : Out :=
  .next (serve .panelOn p false (panelOnBody p now) s)

/-- PANEL-OFF at the Scan Timer (R145), which has taken a count that waits (R150, log 8). -/
def panelOffBody (p : PortId) (r : Request) (s : State) : State :=
  let s := takeWarmCount s
  match s.scan.panel with
  | .warming | .live =>
    let s := enterPanel .cooling (s.setScan { s.scan with warm := 0, cool := 0, coolingFrame := false })
    respond p r .done s.frameField s
  | _ => respond p r .already s.frameField s

/-- PANEL_OFF (R145). -/
def execPanelOff (p : PortId) (s : State) : Out := .next (serve .panelOff p false (panelOffBody p) s)

/-- The counter of READ-PANEL (R149). -/
def ScanTimer.counter (t : ScanTimer) : Nat :=
  match t.panel with
  | .warming => t.warm
  | .cooling => t.cool
  | _ => 0

/-- The fields of READ-PANEL (R149, R180). -/
def readPanelFields (s : State) : List Byte :=
  [s.scan.panel.byte] ++ s.frameField ++ scanPosBytes s.scan.pos ++ [byteOf s.scan.counter] ++ s.scan.setup.bytes

/-- READ-PANEL at the Scan Timer, which has taken a count that waits (R150, log 8). -/
def readPanelBody (p : PortId) (r : Request) (s : State) : State :=
  let s := takeWarmCount s
  respond p r .done (readPanelFields s) s

/-- READ_PANEL (R149). -/
def execReadPanel (p : PortId) (s : State) : Out := .next (serve .readPanel p false (readPanelBody p) s)

/-! ### HIT (R37 to R39) -/

/-- The fields of HIT (R37, R180). -/
def hitFields (p : PortId) (x y : Nat) (s : State) : List Byte :=
  s.frameField ++ [s.scan.panel.byte, (lookup p s x y).1.byte, regionOrAbsent (lookup p s x y).2]

/-- HIT at the Compositor; the Scan Timer has taken a count that waits (log 8). -/
def hitBody (p : PortId) (r : Request) (s : State) : State :=
  let s := takeWarmCount s
  let x := param16 r.params 0
  let y := param16 r.params 2
  if s.scan.setup.w ≤ x ∨ s.scan.setup.h ≤ y then respond p r .range [] s
  else respond p r .done (hitFields p x y s) s

/-- HIT (R37). -/
def execHit (p : PortId) (s : State) : Out := .next (serve .hit p false (hitBody p) s)

end Sys2Proof.Machine
end

