-- ==== Sys2Proof/Machine/PlanRequests.lean ====
section
/-! DEFINITION. PLAN-SET and READ-PLAN (05). -/

namespace Sys2Proof.Machine

/-- PLAN-SET at the Layout Store (R92, R93, R86): RANGE with no field for another mode (R180, log 24), PLAN_INVALID with the port named, settled at
once while DARK, else sealed with its response deferred. -/
def planSetBody (p : PortId) (r : Request) (s : State) : State :=
  match PlanMode.ofByte? (param8 r.params 0) with
  | none => respond p r .range [] s
  | some mode =>
    match planFault s.scan.setup.w s.scan.setup.h (rawEntries r.params) with
    | some q => respond p r .planInvalid (planFields s (some q) none) s
    | none =>
      if s.scan.panel = .dark then settleInDark r (paramPlan r.params) mode s
      else deferRequest p r (s.setSealedPlan (some { plan := paramPlan r.params, mode := mode }))

/-- PLAN_SET (R93); while a sealed plan waits it blocks the engine (R94, log 15). -/
def execPlanSet (p : PortId) (s : State) : Out :=
  .next (serve .planSet p s.layout.sealedPlan.isSome (planSetBody p) s)

/-- The fields of READ-PLAN (R105, R182). -/
def readPlanFields (s : State) : List Byte :=
  let q := s.layout.plan
  s.frameField ++ [sealedIndication s.layout.sealedPlan] ++ rgbBytes q.background ++ q.entries.p0.bytes ++
    q.entries.p1.bytes ++ q.entries.p2.bytes ++ q.entries.p3.bytes

/-- READ-PLAN at the Layout Store. -/
def readPlanBody (p : PortId) (r : Request) (s : State) : State := respond p r .done (readPlanFields s) s

/-- READ_PLAN (R105). -/
def execReadPlan (p : PortId) (s : State) : Out := .next (serve .readPlan p false (readPlanBody p) s)

end Sys2Proof.Machine
end

