-- ==== Sys2Proof/Machine/PortRequests.lean ====
section
/-! DEFINITION. The requests that the Port Controller takes itself (09): an unknown code, HELLO, BYE, READ-PORT, EJECT,
RESTART; and the exit from LEAVING. -/

namespace Sys2Proof.Machine

/-- UNKNOWN_CODE (R156): the head of the queue carries a code that the table does not give. -/
def execUnknownCode (p : PortId) (s : State) : Out :=
  .next (match headOf p s with
    | none => s
    | some r =>
      match RequestKind.ofCode? r.code with
      | some _ => s
      | none => respond p r .unknownCode [] (dropHead p s))

/-! ### HELLO (R162, R122) -/

/-- A declared source size that HELLO and SOURCE-FORMAT accept (R122, R123). -/
def sizeOk (sw sh : Nat) : Bool :=
  decide (1 ≤ sw) && decide (sw ≤ 1024) && decide (sh ≤ 1024) && decide (sw * sh ≤ Config.maxSourcePixels)

/-- The fields of HELLO's success: frame, port, declared size (R180). -/
def helloFields (p : PortId) (s : State) : List Byte :=
  s.frameField ++ [portByte p] ++ le16 (s.unit p).sw ++ le16 (s.unit p).sh

/-- The port becomes ATTACHED with its declared size; its notice queue opens, empty, with the flag clear (R162). -/
def attach (p : PortId) (sw sh : Nat) (s : State) : State :=
  (s.setPort p { s.port p with attach := .attached, notices := [], noticeLost := false }).setUnit p
    { (s.unit p) with sw := sw, sh := sh }

/-- HELLO at the Port Controller. -/
def helloBody (p : PortId) (r : Request) (s : State) : State :=
  if (s.port p).attach = .attached then respond p r .already (helloFields p s) s
  else if sizeOk (param16 r.params 0) (param16 r.params 2) then
    let s := attach p (param16 r.params 0) (param16 r.params 2) s
    respond p r .done (helloFields p s) s
  else respond p r .range [] s

/-- HELLO (R162). -/
def execHello (p : PortId) (s : State) : Out := .next (serve .hello p false (helloBody p) s)

/-! ### BYE (R163) -/

/-- BYE at the Port Controller: LEAVING with reason BYE, its own DONE after the CANCELLED of a waiting plan and set, the
regions retired at once while DARK (R163, R165, R86). -/
def byeBody (p : PortId) (r : Request) (s : State) : State :=
  retireIfDark (enterLeaving p .bye (some (r.answer .done s.frameField)) s)

/-- BYE (R163). -/
def execBye (p : PortId) (s : State) : Out := .next (serve .bye p false (byeBody p) s)

/-! ### READ-PORT (R170) -/

/-- The 24 bytes of READ-PORT(q) sent by p (R170, R180). A request of p itself is in the credit in use, and no longer
among the requests waiting. -/
def readPortFields (p q : PortId) (s : State) : List Byte :=
  let c := s.port q
  let u := s.unit q
  s.frameField ++
    [byteOf c.attach.code, c.attach.reasonByte, c.attach.retiredByte, c.engine.byte, byteOf c.requests.length,
     byteOf (c.credit + if p = q then 1 else 0), byteOf c.responses.length, byteOf c.notices.length,
     yesNo c.noticeLost, (s.editState q).byte, byteOf (ownedCount q s), byteOf (s.markList q).length] ++
    le16 u.sw ++ le16 u.sh ++ [u.monitor.byte, byteOf u.good, byteOf u.missed, u.filling.byte] ++
    u.filling.nextLineBytes

/-- READ-PORT at the Port Controllers. The Mark Unit has taken the reports that wait at it first (R128, log 9). -/
def readPortBody (p : PortId) (r : Request) (s : State) : State :=
  match PortId.ofNat? (param8 r.params 0) with
  | none => respond p r .range [] s
  | some q =>
    if p ≠ .p0 ∧ q ≠ p then respond p r .notOwner [] s
    else
      let s := takeReports s
      respond p r .done (readPortFields p q s) s

/-- READ_PORT (R170). -/
def execReadPort (p : PortId) (s : State) : Out := .next (serve .readPort p false (readPortBody p) s)

/-! ### EJECT (R164) -/

/-- The fields of EJECT's success: frame and the attach state of the named port (R180). -/
def ejectFields (a : Attach) (s : State) : List Byte := s.frameField ++ [byteOf a.code]

/-- EJECT at the Port Controllers. The response of an ejection carries LEAVING (R164, R188, log 14). -/
def ejectBody (p : PortId) (r : Request) (s : State) : State :=
  match PortId.ofNat? (param8 r.params 0) with
  | none => respond p r .range [] s
  | some q =>
    if q = .p0 then respond p r .range [] s
    else if (s.port q).attach ≠ .attached then respond p r .already (ejectFields (s.port q).attach s) s
    else
      respond p r .done (ejectFields (.leaving .eject false) s) (retireIfDark (enterLeaving q .eject none s))

/-- EJECT (R164). -/
def execEject (p : PortId) (s : State) : Out := .next (serve .eject p false (ejectBody p) s)

/-! ### RESTART (R168, R169) -/

/-- One of ports 1 to 3 becomes DISABLED: queues flushed, flags and reason clear, engine READY (R169). A transaction
under way carries the frame it began and removes nothing at its end. -/
def disablePort (s : State) (p : PortId) : State :=
  let s := s.setPort p (.reset .disabled)
  let s := s.setLink p (s.link p).noticesCleared.responsesFlushed
  s.setUnit p (s.unit p).silenced.undeclared

/-- The Layout Store on RESTART: every slot FREE, the order lists empty, no draft, set, sealed plan or retirement, the
default plan for the current panel (R22, R68, R87, R90). -/
def restartLayout (s : State) : State :=
  { s with layout := { LayoutStore.reset with plan := .default s.scan.setup.w s.scan.setup.h } }

/-- Every mark is removed, without notices (R135). -/
def removeAllMarks (s : State) : State :=
  { s with marks := { lists := PerPort.const [], reports := [], withdrawn := [] } }

/-- RESTART as one claim across the blocks (R168): port 0's responses in the order of R168, then PLAN_CHANGED to it. The
reports that a commit before it left are taken first (log 9). A frame start that waits at port 0's unit is taken where the
default plan's counts leave it no count to reach (log 8). -/
def restartBody (p : PortId) (r : Request) (s : State) : State :=
  let s := takeReports s
  let old := s.layout.plan
  let s := dropSealedPlan s
  let s := placeDeferred .p0 .publish .cancelled [] s
  let s := removeAllMarks (restartLayout s)
  let s := [PortId.p1, .p2, .p3].foldl disablePort s
  let s := setEngine .p0 .ready s
  let s := respond p r .done s.frameField s
  settleUnit .p0 (storeNotice .p0 (noticeNow s .planChanged 0x00 (changedByte old s.layout.plan)) s)

/-- RESTART (R168). -/
def execRestart (p : PortId) (s : State) : Out := .next (serve .restart p false (restartBody p) s)

/-! ### LEAVING_EXIT (R166) -/

/-- LEAVING_EXIT (R166): the departure of a port whose regions are retired and whose response queue is empty. -/
def execLeavingExit (p : PortId) (s : State) : Out := .next (leaveIfDone p s)

end Sys2Proof.Machine
end

