-- ==== Sys2Proof/Machine/SourceLink.lean ====
section
/-! DEFINITION. The Source Unit's commands (06): SOURCE-FORMAT, the packets of the pixel link, and the judgements that
reach the lock count and the loss tolerance. -/

namespace Sys2Proof.Machine

/-! ### SOURCE-FORMAT (R123) -/

/-- A LINKED region of the port that is LIVE or RESERVED. A region that a draft or a sealed set names is one of these
slots (R42, log 26). -/
def holdsLinked (p : PortId) (s : State) : Bool :=
  s.layout.slots.any fun x => decide (x.owner? = some p) && decide (x.kind? = some .linked)

/-- The fields of SOURCE-FORMAT: the declared size (R180). -/
def sizeFields (p : PortId) (s : State) : List Byte := le16 (s.unit p).sw ++ le16 (s.unit p).sh

/-- SOURCE-FORMAT at the Source Unit. A frame start that waits finds the unit forced, so it is missed and taken (R124,
log 8). -/
def sourceFormatBody (p : PortId) (r : Request) (s : State) : State :=
  let sw := param16 r.params 0
  let sh := param16 r.params 2
  if sizeOk sw sh = false then respond p r .range (sizeFields p s) s
  else if holdsLinked p s then respond p r .inUse (sizeFields p s) s
  else
    let s := settleUnit p (s.setUnit p { (s.unit p).forced with sw := sw, sh := sh })
    respond p r .done (sizeFields p s) s

/-- SOURCE_FORMAT (R123). -/
def execSourceFormat (p : PortId) (s : State) : Out := .next (serve .sourceFormat p false (sourceFormatBody p) s)

/-! ### Packets (R109 to R112) -/

/-- The FILLING bank after a line packet that does not match, or a damaged packet (R111). -/
def Filling.malformed : Filling → Filling
  | .empty => .empty
  | _ => .empty

/-- The FILLING bank after a line packet, for a declared size (R111). -/
def Filling.line (sw sh index : Nat) (pixels : List Colour) (f : Filling) : Filling :=
  match f with
  | .receiving lines =>
    if index = lines.length ∧ lines.length < sh ∧ pixels.length = sw then .receiving (lines ++ [pixels])
    else f.malformed
  | f => f.malformed

/-- The FILLING bank after a frame-end marker (R112). -/
def Filling.frameEnd (sh : Nat) (f : Filling) : Filling :=
  match f with
  | .receiving lines => if lines.length = sh then .ready lines else .empty
  | f => f

/-- A packet reaches a Source Unit, which ignores it while not running (R108). A frame start that waits meets the bank the
packet leaves (R120), and is taken where it has no count to reach any more (log 8). -/
def packet (p : PortId) (f : SourceUnit → Filling) (s : State) : State :=
  if running p s then settleUnit p (s.setUnit p { s.unit p with filling := f (s.unit p) }) else s

/-- FRAME_BEGIN_MARKER (R110). -/
def execFrameBeginMarker (p : PortId) (s : State) : Out := .next (packet p (fun _ => .receiving []) s)

/-- LINE_PACKET (R111). -/
def execLinePacket (p : PortId) (index : Nat) (pixels : List Colour) (s : State) : Out :=
  .next (packet p (fun u => u.filling.line u.sw u.sh index pixels) s)

/-- FRAME_END_MARKER (R112). -/
def execFrameEndMarker (p : PortId) (s : State) : Out := .next (packet p (fun u => u.filling.frameEnd u.sh) s)

/-- DAMAGED_PACKET (R109, R111). -/
def execDamagedPacket (p : PortId) (s : State) : Out := .next (packet p (fun u => u.filling.malformed) s)

/-! ### The judgements that cross a count (R114, R116) -/

/-- A frame start waits at a port's Source Unit and its judgement would raise this notice. -/
def crossingDue (p : PortId) (k : NoticeKind) (s : State) : Bool :=
  (s.unit p).frameWaiting && decide ((judgement p s).2 = some k)

/-- LOCK_COUNT_REACHED (R114): the unit takes the frame start, the good-frame count reaches the lock count, and the
monitor enters LOCKED with SOURCE_LOCKED. -/
def execLockCountReached (p : PortId) (s : State) : Out :=
  .next (if crossingDue p .sourceLocked s then takeFrameStart p s else s)

/-- LOSS_TOLERANCE_REACHED (R114): the unit takes the frame start, the missed-frame count reaches the loss tolerance, and
the monitor enters LOST with SOURCE_LOST. -/
def execLossToleranceReached (p : PortId) (s : State) : Out :=
  .next (if crossingDue p .sourceLost s then takeFrameStart p s else s)

end Sys2Proof.Machine
end

