-- ==== Sys2Proof/Machine/Dispatch.lean ====
section
/-! DEFINITION. The meaning of every command: one arm for each constructor of Instr. -/

namespace Sys2Proof.Machine

def exec (i : Instr) (s : State) : Host.Outcome State Fault Refusal :=
  match i with
  | .deviceReset => Sys2Proof.Machine.execDeviceReset s
  | .writeRequest p part => Sys2Proof.Machine.execWriteRequest p part s
  | .readResponse p part => Sys2Proof.Machine.execReadResponse p part s
  | .readNotice p part => Sys2Proof.Machine.execReadNotice p part s
  | .status p part => Sys2Proof.Machine.execStatus p part s
  | .unknownKindByte p kind part => Sys2Proof.Machine.execUnknownKindByte p kind part s
  | .unknownCode p => Sys2Proof.Machine.execUnknownCode p s
  | .hello p => Sys2Proof.Machine.execHello p s
  | .bye p => Sys2Proof.Machine.execBye p s
  | .readPort p => Sys2Proof.Machine.execReadPort p s
  | .eject p => Sys2Proof.Machine.execEject p s
  | .restart p => Sys2Proof.Machine.execRestart p s
  | .readRegion p => Sys2Proof.Machine.execReadRegion p s
  | .readOrder p => Sys2Proof.Machine.execReadOrder p s
  | .hit p => Sys2Proof.Machine.execHit p s
  | .beginDraft p => Sys2Proof.Machine.execBegin p s
  | .create p => Sys2Proof.Machine.execCreate p s
  | .place p => Sys2Proof.Machine.execPlace p s
  | .source p => Sys2Proof.Machine.execSource p s
  | .style p => Sys2Proof.Machine.execStyle p s
  | .order p => Sys2Proof.Machine.execOrder p s
  | .retire p => Sys2Proof.Machine.execRetire p s
  | .discard p => Sys2Proof.Machine.execDiscard p s
  | .readDraft p => Sys2Proof.Machine.execReadDraft p s
  | .publish p => Sys2Proof.Machine.execPublish p s
  | .planSet p => Sys2Proof.Machine.execPlanSet p s
  | .readPlan p => Sys2Proof.Machine.execReadPlan p s
  | .sourceFormat p => Sys2Proof.Machine.execSourceFormat p s
  | .mark p => Sys2Proof.Machine.execMark p s
  | .unmark p => Sys2Proof.Machine.execUnmark p s
  | .readMarks p => Sys2Proof.Machine.execReadMarks p s
  | .panelSetup p => Sys2Proof.Machine.execPanelSetup p s
  | .panelOn p now => Sys2Proof.Machine.execPanelOn p now s
  | .panelOff p => Sys2Proof.Machine.execPanelOff p s
  | .readPanel p => Sys2Proof.Machine.execReadPanel p s
  | .frameBeginMarker p => Sys2Proof.Machine.execFrameBeginMarker p s
  | .linePacket p index pixels => Sys2Proof.Machine.execLinePacket p index pixels s
  | .frameEndMarker p => Sys2Proof.Machine.execFrameEndMarker p s
  | .damagedPacket p => Sys2Proof.Machine.execDamagedPacket p s
  | .frameStart now => Sys2Proof.Machine.execFrameStart now s
  | .markReportsTaken => Sys2Proof.Machine.execMarkReportsTaken s
  | .lockCountReached p => Sys2Proof.Machine.execLockCountReached p s
  | .lossToleranceReached p => Sys2Proof.Machine.execLossToleranceReached p s
  | .warmCountReached => Sys2Proof.Machine.execWarmCountReached s
  | .entryIntoDark noticeFirst => Sys2Proof.Machine.execEntryIntoDark noticeFirst s
  | .lineStart => Sys2Proof.Machine.execLineStart s
  | .leavingExit p => Sys2Proof.Machine.execLeavingExit p s

end Sys2Proof.Machine
end

