-- ==== Sys2Proof/Safety.lean ====
section
/-! DEFINITION. What a safe run of the part is: the laws that the spec says always hold, and the words in which the
statements speak of a request that is taken and of the response it receives. -/

namespace Sys2Proof.Machine

/-! ### A request that is taken, and its response -/

/-- The engine of port p takes a request of kind k that passes the universal checks (R156): the engine is READY, the
port ATTACHED, the request r at the head of the queue with `rest` behind it, its code and parameter length those of the
kind, and a plan-port request comes from port 0. -/
structure Takes (k : RequestKind) (p : PortId) (r : Request) (rest : List Request) (s : State) : Prop where
  ready : (s.port p).engine = .ready
  attached : (s.port p).attach = .attached
  head : (s.port p).requests = r :: rest
  code : r.code = k.code
  length : r.params.length = k.length
  plan : k.planPort = true → p = .p0

/-- The request left the queue of port p: `rest` remains. -/
def taken (p : PortId) (rest : List Request) (s : State) : State :=
  { s with ports := s.ports.set p { s.ports.get p with requests := rest } }

/-- Port p has one response more, to request r. -/
def replied (p : PortId) (r : Request) (res : Result) (fields : List Byte) (s : State) : State :=
  { s with ports := s.ports.set p { s.ports.get p with
      responses := (s.ports.get p).responses ++ [{ tag := r.tag, code := r.code, result := res, fields := fields }] } }

/-- The request r of port p was answered and nothing else changed. -/
def answered (p : PortId) (r : Request) (rest : List Request) (res : Result) (fields : List Byte) (s : State) : State :=
  replied p r res fields (taken p rest s)

/-- The low and the high byte of the frame number of the latest raised frame start. -/
def State.frameLow (s : State) : Byte := s.scan.frame.extractLsb' 0 8

/-- The high byte of the frame number. -/
def State.frameHigh (s : State) : Byte := s.scan.frame.extractLsb' 8 8

/-- The frame number as a response carries it. -/
def State.frameNow (s : State) : List Byte := [s.frameLow, s.frameHigh]

/-- The draft of port p is d. -/
def withDraft (p : PortId) (d : Option Proposal) (s : State) : State :=
  { s with layout := { s.layout with ports := s.layout.ports.set p { s.layout.ports.get p with draft := d } } }

/-- A whole transaction on port p ended with this Port Controller and these bytes clocked out. -/
def afterTransaction (p : PortId) (c : PortController) (out : List Byte) (s : State) : State :=
  { s with ports := s.ports.set p c, links := s.links.set p { state := .idle, dout := out } }

/-- The outcome of a second command after the first one's. -/
def Out.andThen (o : Out) (f : State → Out) : Out :=
  match o with
  | .next t => f t
  | .fault e => .fault e
  | .refused e => .refused e

/-- Port q's part of every block is the same in two states, but for its command link. -/
def samePart (q : PortId) (s t : State) : Prop :=
  t.port q = s.port q ∧ t.lay q = s.lay q ∧ t.unit q = s.unit q ∧ t.markList q = s.markList q ∧
    ∀ id, (s.slot id).owner? = some q ∨ (t.slot id).owner? = some q → t.slot id = s.slot id

/-- A region covers a point and shows there (R25, R28). -/
def showsAt (s : State) (x y : Nat) (r : LiveRegion) : Prop :=
  r.copy.x ≤ x ∧ x < r.copy.x + r.copy.w ∧ r.copy.y ≤ y ∧ y < r.copy.y + r.copy.h ∧ regionContent s r ≠ .none

/-- Region g gives the point: it shows there, and no region above it in the displayed stack does (R28). -/
def givesPoint (s : State) (x y : Nat) (g : LiveRegion) : Prop :=
  ∃ below above, stackRegions s = below ++ g :: above ∧ showsAt s x y g ∧ ∀ r ∈ above, ¬showsAt s x y r

/-- The colour a giving region shows at a point (R26, R28). -/
def shownColour (s : State) (x y : Nat) (g : LiveRegion) (c : Colour) : Prop :=
  (regionContent s g = .fill → c = g.copy.fill) ∧
    (regionContent s g = .source →
      ∀ pic row px, (s.unit g.owner).showing = some pic → pic[g.copy.sy + (y - g.copy.y)]? = some row →
        row[g.copy.sx + (x - g.copy.x)]? = some px → c = px)

/-- What a port's entry into LEAVING leaves of its own parts (R165): the queues, the draft and the set, the marks, the
notices and the source. `own` is the response of the request that caused it, if that is the port's own. -/
def leftParts (p : PortId) (own : List Response) (requests : List Request) (s t : State) : Prop :=
  let cancelled (r : Request) : Response := { tag := r.tag, code := r.code, result := .cancelled, fields := [] }
  let owed (k : RequestKind) : List Response :=
    ((s.port p).deferred.find? fun r => r.code == k.code).toList.map cancelled
  (t.port p).responses = (s.port p).responses ++ (if p = .p0 then owed .planSet else []) ++ owed .publish ++ own ++
      requests.map cancelled ∧
    (t.port p).requests = [] ∧ (t.port p).engine = .ready ∧ (t.port p).notices = [] ∧
    (t.port p).noticeLost = false ∧ (t.port p).refusal = (s.port p).refusal ∧
    (t.lay p).draft = none ∧ (t.lay p).sealedSet = none ∧ t.markList p = [] ∧
    t.unit p = { s.unit p with
      showing := none, filling := .empty, monitor := .noSignal, good := 0, missed := 0,
      fsync := false, frameWaiting := false }

/-- A draft passes seal validation (R54 to R58): every region within the territory, every LINKED window within the source
frame, no guarded region without the guard right, no line with more regions than the share. -/
def passesSeal (p : PortId) (d : Proposal) (s : State) : Prop :=
  (∀ e ∈ d, (s.entry p).tx ≤ e.copy.x ∧ (s.entry p).ty ≤ e.copy.y ∧
    e.copy.x + e.copy.w ≤ (s.entry p).tx + (s.entry p).tw ∧ e.copy.y + e.copy.h ≤ (s.entry p).ty + (s.entry p).th) ∧
  (∀ e ∈ d, (s.slot e.id).kind? = some .linked →
    e.copy.sx + e.copy.w ≤ (s.unit p).sw ∧ e.copy.sy + e.copy.h ≤ (s.unit p).sh) ∧
  (∀ e ∈ d, e.copy.guarded = true → (s.entry p).guard = true) ∧
  ∀ l < s.scan.setup.h,
    (d.filter fun e => decide (e.copy.y ≤ l) && decide (l < e.copy.y + e.copy.h)).length ≤ (s.entry p).share

/-- The FILLING bank of one Source Unit is replaced and nothing else changes. -/
def withFilling (p : PortId) (f : Filling) (s : State) : State :=
  { s with sources := s.sources.set p { s.unit p with filling := f } }

/-- The frame under way has had the line start of its last line: the next frame start comes now (R138, R140). -/
def frameEnds (s : State) : Prop := ∃ l, s.scan.pos = some l ∧ l + 1 = s.scan.setup.h

/-- The frame start that comes now would complete the cool count (R146). -/
def coolEnds (s : State) : Prop :=
  frameEnds s ∧ s.scan.panel = .cooling ∧ s.scan.coolingFrame = true ∧ s.scan.setup.cool ≤ s.scan.cool + 1

/-- No work of the frame start waits: no warm count, and no judgement of a unit (log 8). -/
def frameWhole (s : State) : Prop := s.scan.warmWaiting = false ∧ ∀ p, (s.unit p).frameWaiting = false

/-! ### The words of the checks over a proposal (R54 to R58, R97, R100) -/

/-- A rectangle lies within the territory of an entry (R55). -/
def insideTerritory (e : PlanEntry) (c : Copy) : Prop :=
  e.tx ≤ c.x ∧ e.ty ≤ c.y ∧ c.x + c.w ≤ e.tx + e.tw ∧ c.y + c.h ≤ e.ty + e.th

/-- The regions of a proposal that cross a line, bottom first. -/
def crossersOf (d : Proposal) (l : Nat) : Proposal :=
  d.filter fun e => decide (e.copy.y ≤ l) && decide (l < e.copy.y + e.copy.h)

/-- The first region of a proposal, bottom first, with a property, by its id. -/
def firstWith (bad : DraftEntry → Prop) (d : Proposal) (id : Nat) : Prop :=
  ∃ a x b, d = a ++ x :: b ∧ x.id = id ∧ bad x ∧ ∀ y ∈ a, ¬bad y

/-- The smallest line of the active area that more regions of a proposal cross than a share allows (R58). -/
def firstCrowded (share h : Nat) (d : Proposal) (l : Nat) : Prop :=
  l < h ∧ share < (crossersOf d l).length ∧ ∀ k < l, (crossersOf d k).length ≤ share

/-- The region highest in the list among those crossing the smallest crowded line (R58). -/
def crowdNames (share h : Nat) (d : Proposal) (id : Nat) : Prop :=
  ∃ l a x, firstCrowded share h d l ∧ crossersOf d l = a ++ [x] ∧ x.id = id

/-- The window of a LINKED region of port p does not fit the declared source frame (R56). -/
def windowMisfits (p : PortId) (s : State) (x : DraftEntry) : Prop :=
  (s.slot x.id).kind? = some .linked ∧
    ¬(x.copy.sx + x.copy.w ≤ (s.unit p).sw ∧ x.copy.sy + x.copy.h ≤ (s.unit p).sh)

/-! ### The words of the plan's validity (R91) -/

/-- The entry checks of R91 for a panel of w by h. -/
def RawEntry.Valid (w h : Nat) (e : RawEntry) : Prop :=
  e.enabled ≤ 1 ∧ e.guard ≤ 1 ∧ 1 ≤ e.lockCount ∧ e.lockCount ≤ 7 ∧ 1 ≤ e.tolerance ∧ e.tolerance ≤ 15 ∧ e.quota ≤ 24 ∧
    e.share ≤ 8 ∧ e.rank ≤ 3 ∧
    (e.enabled = 0 → e.quota = 0 ∧ e.share = 0 ∧ e.tx = 0 ∧ e.ty = 0 ∧ e.tw = 0 ∧ e.th = 0 ∧ e.guard = 0) ∧
    (e.enabled = 1 → 1 ≤ e.tw ∧ 1 ≤ e.th ∧ e.tx + e.tw ≤ w ∧ e.ty + e.th ≤ h)

/-- A number of each port, added from port 0 up to a port. -/
def sumUpTo (f : PortId → Nat) : PortId → Nat
  | .p0 => f .p0
  | .p1 => f .p0 + f .p1
  | .p2 => f .p0 + f .p1 + f .p2
  | .p3 => f .p0 + f .p1 + f .p2 + f .p3

/-- The port whose number brings the running sum above a limit. -/
def breaksSum (limit : Nat) (f : PortId → Nat) (q : PortId) : Prop :=
  limit < sumUpTo f q ∧ ∀ j : PortId, j.toNat < q.toNat → sumUpTo f j ≤ limit

/-- Row i of R91's table fails for a plan and names port q. -/
def planCheck (w h : Nat) (es : PerPort RawEntry) (i : Nat) (q : PortId) : Prop :=
  match i with
  | 1 => es.p0.enabled ≠ 1 ∧ q = .p0
  | 2 => ¬(es.get q).Valid w h ∧ ∀ j : PortId, j.toNat < q.toNat → (es.get j).Valid w h
  | 3 => breaksSum 24 (fun p => (es.get p).quota) q
  | 4 => breaksSum 8 (fun p => (es.get p).share) q
  | 5 => (∃ j : PortId, j.toNat < q.toNat ∧ (es.get j).rank = (es.get q).rank) ∧
      ∀ i j : PortId, i.toNat < q.toNat → j.toNat < i.toNat → (es.get j).rank ≠ (es.get i).rank
  | 6 => (es.get q).guard = 1 ∧ ∃ j : PortId, j.toNat < q.toNat ∧ (es.get j).guard = 1 ∧
      ∀ i : PortId, i.toNat < q.toNat → (es.get i).guard = 1 → i = j
  | 7 => (es.get q).guard = 1 ∧ (es.get q).rank ≠ 3
  | _ => False

/-! ### The words of a plan's settling (R97 to R103) -/

/-- The checks 3 to 5 of R97 over a proposal fail and name a region. -/
def breaksEntry (e : PlanEntry) (h : Nat) (d : Proposal) (id : Nat) : Prop :=
  firstWith (fun x => ¬insideTerritory e x.copy) d id ∨
    ((∀ x ∈ d, insideTerritory e x.copy) ∧ e.guard = false ∧ firstWith (fun x => x.copy.guarded = true) d id) ∨
    ((∀ x ∈ d, insideTerritory e x.copy) ∧ (e.guard = false → ∀ x ∈ d, x.copy.guarded = false) ∧
      crowdNames e.share h d id)

/-- The port is ATTACHED or LEAVING. -/
def inUse (p : PortId) (s : State) : Prop :=
  (s.port p).attach = .attached ∨ ∃ why done, (s.port p).attach = .leaving why done

/-- A new plan conflicts with the state of port p (R97): the region named, or none where the field reads FFh. -/
def orphans (new : Plan) (s : State) (p : PortId) (region : Option Nat) : Prop :=
  let e := new.entries.get p
  let disables : Prop := inUse p s ∧ e.enabled = false
  e ≠ s.entry p ∧
    ((disables ∧ region = none) ∨ (¬disables ∧ e.quota < ownedCount p s ∧ region = none) ∨
      (¬disables ∧ ownedCount p s ≤ e.quota ∧ ∃ id, region = some id ∧
        (breaksEntry e s.scan.setup.h (liveEntries p s) id ∨
          ((∀ j, ¬breaksEntry e s.scan.setup.h (liveEntries p s) j) ∧
            ∃ d, (s.lay p).sealedSet = some d ∧ breaksEntry e s.scan.setup.h d id))))

/-- Pass 3 of an eviction (R100): from a proposal to the ids evicted in order and the regions that stay. -/
inductive SharePass (share h : Nat) : Proposal → List Nat → Proposal → Prop where
  /-- No line is crowded. -/
  | done (d : Proposal) (fits : ∀ l < h, (crossersOf d l).length ≤ share) : SharePass share h d [] d
  /-- The lowest region that crosses the smallest crowded line goes. -/
  | evict (d : Proposal) (l : Nat) (x : DraftEntry) (more : Proposal) (ids : List Nat) (out : Proposal)
      (crowded : firstCrowded share h d l) (lowest : crossersOf d l = x :: more)
      (rest : SharePass share h (d.filter fun y => y.id != x.id) ids out) : SharePass share h d (x.id :: ids) out

/-- The three passes of R100 over a port's live regions: those that stay, and those that go, each with its pass. -/
def evictionPasses (e : PlanEntry) (h : Nat) (live kept : Proposal) (gone : List (Nat × Nat)) : Prop :=
  ∃ (bad good : Proposal) (gone3 : List Nat), (∀ x ∈ bad, ¬insideTerritory e x.copy ∨ (e.guard = false ∧ x.copy.guarded = true)) ∧
    (∀ x ∈ good, insideTerritory e x.copy ∧ (x.copy.guarded = true → e.guard = true)) ∧
    bad.Sublist live ∧ good.Sublist live ∧ bad.length + good.length = live.length ∧
    SharePass e.share h (good.drop (good.length - e.quota)) gone3 kept ∧
    gone = bad.map (fun x => (x.id, 1)) ++ (good.take (good.length - e.quota)).map (fun x => (x.id, 2)) ++
      gone3.map fun id => (id, 3)

/-- The PLAN-SET response stands next in port 0's queue (R93, R180). -/
def planAnswered (r : Request) (f : FrameNo) (res : Result) (port region : Byte) (s t : State) : Prop :=
  ∃ more, (t.port .p0).responses = (s.port .p0).responses ++
    { tag := r.tag, code := r.code, result := res,
      fields := [f.extractLsb' 0 8, f.extractLsb' 8 8, port, region] } :: more

/-- The enablement of port p under a plan that changed its enabled field (R102, R167), for ports 1 to 3. -/
def enablementHanded (new : Plan) (s t : State) (p : PortId) : Prop :=
  let on := (new.entries.get p).enabled
  ((s.port p).attach = .disabled → on = true →
    (t.port p).attach = .detached ∧ (t.port p).noticeLost = false ∧ (t.port p).refusal = .none) ∧
  ((s.port p).attach = .detached → on = false →
    ((s.port p).requests = [] → (s.port p).responses = [] → (t.port p).attach = .disabled) ∧
    ((s.port p).requests ≠ [] ∨ (s.port p).responses ≠ [] →
      (t.port p).attach = .leaving .plan true ∧ (t.port p).requests = [] ∧
        (t.port p).responses = (s.port p).responses ++
          (s.port p).requests.map fun r => { tag := r.tag, code := r.code, result := .cancelled, fields := [] })) ∧
  ((s.port p).attach = .attached → on = false →
    (t.port p).requests = [] ∧ (t.lay p).order = [] ∧ t.markList p = [] ∧ (t.unit p).monitor = .noSignal ∧
      (((t.port p).attach = .leaving .plan true ∧ (t.port p).responses ≠ []) ∨
        ((t.port p).attach = .disabled ∧ (t.port p).responses = []))) ∧
  ∀ why done, (s.port p).attach = .leaving why done →
    (∃ d, (t.port p).attach = .leaving why d) ∨ (t.port p).attach = if on then .detached else .disabled

/-- What an applied EVICT plan does to a port whose entry changed (R99, R66, R100): no draft and no set, DRAFT_VOID for a
deferred PUBLISH, and the three passes over the regions of an ATTACHED port that stays enabled. -/
def evicted (new : Plan) (s t : State) (p : PortId) : Prop :=
  (t.lay p).draft = none ∧ (t.lay p).sealedSet = none ∧
    (∀ x, ((s.port p).deferred.find? fun x => x.code == RequestKind.publish.code) = some x →
      ({ tag := x.tag, code := x.code, result := .draftVoid, fields := [0x00] } : Response) ∈ (t.port p).responses) ∧
    ((s.port p).attach = .attached → (new.entries.get p).enabled = true →
      ∃ kept gone, evictionPasses (new.entries.get p) s.scan.setup.h (liveEntries p s) kept gone ∧
        (t.lay p).order = kept.ids ∧ (∀ x ∈ gone, t.slot x.1 = .free) ∧
        ∀ x ∈ kept, (t.slot x.id).liveCopy? = some x.copy)

/-- Notices reach port p in an order (R159): its Port Controller then. -/
def withNotices (p : PortId) (ns : List Notice) (s : State) : PortController :=
  (storeNotices (ns.map fun n => (p, n)) s).port p

/-- A PLAN_CHANGED detail n: bit i is set exactly where the entry of port i is not that of the new plan (R103, R184). -/
def changedBits (new : Plan) (s : State) (n : Nat) : Prop :=
  n < 16 ∧ ∀ i < 4, n.testBit i = true ↔ ∃ q : PortId, q.toNat = i ∧ new.entries.get q ≠ s.entry q

/-- The notices of an applied plan to a port that is ATTACHED before and after (R80, R99, R101, R103): `first`, then
DRAFT_VOID, REGION_EVICTED for each region evicted, PLAN_CHANGED, then `last`. Before DRAFT_VOID port 0 has the PORT_LEFT of
ports that leave in the same step (log 17). -/
def planNotices (new : Plan) (mode : PlanMode) (f : FrameNo) (first last : List Notice) (s t : State) (p : PortId) :
    Prop :=
  let change : Prop := new.entries.get p ≠ s.entry p
  let evicts : Prop := mode = .evict ∧ change ∧ (new.entries.get p).enabled = true
  ∀ kept gone,
    (evicts → evictionPasses (new.entries.get p) s.scan.setup.h (liveEntries p s) kept gone) →
    (¬evicts → gone = []) → ∀ n : Nat, changedBits new s n →
    ∃ lefts, (∀ m ∈ lefts, m.kind = .portLeft) ∧ (p ≠ .p0 → lefts = []) ∧ ∀ drafts : List Notice,
      (mode = .evict ∧ change ∧ s.editState p ≠ .idle →
        drafts = [{ kind := .draftVoid, subject := byteOf p.toNat, frame := f, count := 1, detail := 0x00 }]) →
      (¬(mode = .evict ∧ change ∧ s.editState p ≠ .idle) → drafts = []) →
      let c := withNotices p
        (first ++ lefts ++ drafts ++
          gone.map (fun x =>
            { kind := .regionEvicted, subject := byteOf x.1, frame := f, count := 1, detail := byteOf x.2 }) ++
          [{ kind := .planChanged, subject := 0x00, frame := f, count := 1, detail := byteOf n }] ++ last) s
      (t.port p).notices = c.notices ∧ (t.port p).noticeLost = c.noticeLost

/-- A plan is settled between two states with its answer to request r and the frame number f (R97 to R102). -/
def planSettled (r : Request) (new : Plan) (mode : PlanMode) (f : FrameNo) (s t : State) : Prop :=
  (mode = .keep →
    (∀ p region, orphans new s p region → (∀ (j : PortId) x, j.toNat < p.toNat → ¬orphans new s j x) →
      planAnswered r f .planOrphans (byteOf p.toNat) (match region with
        | none => 0xFF
        | some id => byteOf id) s t ∧ t.layout.plan = s.layout.plan ∧ ∀ q, (t.lay q).draft = (s.lay q).draft) ∧
    ((∀ p x, ¬orphans new s p x) →
      planAnswered r f .done 0xFF 0xFF s t ∧ t.layout.plan = new ∧ ∀ q, (t.lay q).draft = (s.lay q).draft)) ∧
  (mode = .evict →
    planAnswered r f .done 0xFF 0xFF s t ∧ t.layout.plan = new ∧
      ∀ p, new.entries.get p ≠ s.entry p → evicted new s t p) ∧
  ((mode = .evict ∨ ∀ p x, ¬orphans new s p x) →
    ∀ p, p ≠ .p0 → (new.entries.get p).enabled ≠ (s.entry p).enabled → enablementHanded new s t p)

/-! ### The words of a commit (R73 to R77, R80) -/

/-- The Mark Unit keeps exactly the regions that the commit withdrew, each with its former owner (R79, log 30). -/
def withdrawnKept (s t : State) : Prop :=
  ∀ p id, (p, id) ∈ t.marks.withdrawn ↔ (∃ k g c, s.slot id = .live p k g c) ∧ t.slot id = .free

/-- Step 3 of a commit at port p (R74, R75, R77), behind responses `before` that step 1 placed: a waiting set is applied, its
order list and each named slot LIVE with its copy, the draft stays, and the deferred PUBLISH is answered DONE with the edit
state after the set has ended (log 32) and the frame number; a port without a set keeps what it has. -/
def setApplied (p : PortId) (before : List Response) (s t : State) : Prop :=
  ((s.lay p).sealedSet = none → t.lay p = s.lay p ∧ (t.port p).responses = (s.port p).responses ++ before) ∧
    ∀ pr, (s.lay p).sealedSet = some pr →
      t.lay p = { order := pr.ids, draft := (s.lay p).draft, sealedSet := none } ∧
      (∀ e ∈ pr, (t.slot e.id).liveCopy? = some e.copy) ∧
      ∃ r ∈ (s.port p).deferred, r.code = RequestKind.publish.code ∧
        (t.port p).responses = (s.port p).responses ++ before ++
          [{ tag := r.tag, code := r.code, result := .done,
             fields := [if (s.lay p).draft = none then 0x00 else 0x01] ++ t.frameNow }]

/-- A commit with no plan to settle applies every waiting set (R74). -/
def setsApplied (s t : State) : Prop :=
  t.layout.plan = s.layout.plan ∧ withdrawnKept s t ∧ ∀ p, p ∉ s.layout.retiring → setApplied p [] s t

/-- Step 1 of a commit leaves the sets and the connection of port p as they are (R98, R99): the new plan does not change its
entry; or the mode is KEEP, and the plan is refused or does not change whether p is enabled. -/
def keptByPlan (new : Plan) (mode : PlanMode) (p : PortId) (s : State) : Prop :=
  new.entries.get p = s.entry p ∨
    (mode = .keep ∧ ((new.entries.get p).enabled = (s.entry p).enabled ∨ ∃ q x, orphans new s q x))

/-- A commit that settles a plan applies the sets that still wait after step 1 (R71, R74, R98, R99); at port 0 the answer to
the PLAN-SET stands before that to the PUBLISH (R77). -/
def setsStillApplied (new : Plan) (mode : PlanMode) (s t : State) : Prop :=
  withdrawnKept s t ∧ ∀ p, p ∉ s.layout.retiring → keptByPlan new mode p s →
    ∃ before : List Response, before.length = (if p = .p0 then 1 else 0) ∧ setApplied p before s t

/-- The generations after an application (R76, R9): a region LIVE after it keeps its generation if it was LIVE before with
the same fields at the same place of its owner's order list, has one more (wrapping at 256) if it was LIVE before
otherwise, and 1 if it was not LIVE before. -/
def generationsAdvanced (s t : State) : Prop :=
  ∀ (id : Nat) (o : PortId) (k : RegionKind) (g : Generation) (c : Copy), t.slot id = .live o k g c →
    (∀ o0 k0 g0 c0, s.slot id = .live o0 k0 g0 c0 →
      (c = c0 ∧ (t.lay o).order.idxOf id = (s.lay o).order.idxOf id → g = g0) ∧
      (¬(c = c0 ∧ (t.lay o).order.idxOf id = (s.lay o).order.idxOf id) → g = g0 + 1)) ∧
    ((s.slot id).liveCopy? = none → g = 0x01)

/-- Step 2 of a commit at each port on the retirement list (R73, R166): its regions are FREE and its order list is empty;
while responses wait it is LEAVING with its regions retired and its declared size kept; else it is DETACHED or DISABLED as
the live plan says, its source silent with size 1 x 0. -/
def portsRetired (s t : State) : Prop :=
  ∀ p ∈ s.layout.retiring, ∀ why, (s.port p).attach = .leaving why false →
    (t.lay p).order = [] ∧ (∀ id k g c, s.slot id = .live p k g c → t.slot id = .free) ∧
      (p ≠ .p0 → (t.port p).responses = (s.port p).responses) ∧
      ((t.port p).responses ≠ [] → (t.port p).attach = .leaving why true ∧ (t.unit p).sw = (s.unit p).sw ∧
        (t.unit p).sh = (s.unit p).sh) ∧
      ((t.port p).responses = [] →
        (t.port p).attach = (if (t.entry p).enabled then .detached else .disabled) ∧ (t.unit p).sw = 1 ∧
          (t.unit p).sh = 0 ∧ (t.unit p).showing = none ∧ (t.unit p).filling = .empty ∧
          (t.unit p).monitor = .noSignal ∧ (t.unit p).good = 0 ∧ (t.unit p).missed = 0 ∧ (t.unit p).fsync = false)

/-- The PORT_LEFT notice of a port at frame number f (R166, R184). -/
def portLeftNotice (f : FrameNo) (p : PortId) (why : LeaveReason) : Notice :=
  { kind := .portLeft, subject := byteOf p.toNat, frame := f, count := 1,
    detail := match why with
      | .bye => 0x01
      | .eject => 0x02
      | .plan => 0x03 }

/-- The PORT_LEFT notices of a commit that settles no plan (R73, R166): one for each port on the retirement list with no
response left, in the order of the list (log 33), with the frame number f. -/
def portsLeft (f : FrameNo) (s : State) : List Notice :=
  s.layout.retiring.filterMap fun p =>
    match (s.port p).attach, (s.port p).responses with
    | .leaving why _, [] => some (portLeftNotice f p why)
    | _, _ => none

/-! ### The words of a judgement (R113, R114, R117) -/

/-- The judgement of a running unit by an entry reaches the lock count or the loss tolerance (R114). -/
def reachesCount (e : PlanEntry) (u : SourceUnit) : Prop :=
  ((∃ pic, u.filling = .ready pic) ∧ (u.monitor = .noSignal ∧ e.lockCount = 1 ∨
      u.monitor = .acquiring ∧ e.lockCount ≤ min 7 (u.good + 1))) ∨
    ((∀ pic, u.filling ≠ .ready pic) ∧ u.monitor = .locked ∧ e.tolerance ≤ min 15 (u.missed + 1))

/-- The notices to port q of the judgement of the running unit of port p by an entry, at frame number f (R116): SOURCE_LOCKED
to its own port where a fresh frame reaches the lock count, SOURCE_LOST to its own port and to port 0 where a missed one
reaches the loss tolerance. -/
def judgedNotices (f : FrameNo) (p : PortId) (e : PlanEntry) (u : SourceUnit) (q : PortId) : List Notice :=
  let note (k : NoticeKind) (n : Nat) : Notice :=
    { kind := k, subject := byteOf p.toNat, frame := f, count := 1, detail := byteOf n }
  match u.filling, u.monitor with
  | .ready _, .noSignal => if q = p ∧ e.lockCount = 1 then [note .sourceLocked 1] else []
  | .ready _, .acquiring =>
    if q = p ∧ e.lockCount ≤ min 7 (u.good + 1) then [note .sourceLocked (min 7 (u.good + 1))] else []
  | .ready _, _ => []
  | _, .locked =>
    if (q = p ∨ q = .p0) ∧ e.tolerance ≤ min 15 (u.missed + 1) then [note .sourceLost (min 15 (u.missed + 1))] else []
  | _, _ => []

/-- The notices to port q of one block's work at a frame start raised in state s that settles no plan (R116, R147, R166). -/
def workNotices (s : State) (q : PortId) : FrameWork → List Notice
  | .commit => if q = .p0 then portsLeft (s.scan.frame + 1) s else []
  | .unit p =>
    if (s.port p).attach = .attached ∧ 1 ≤ (s.unit p).sh then
      judgedNotices (s.scan.frame + 1) p (s.entry p) (s.unit p) q
    else []
  | .timer =>
    if s.scan.panel = .warming ∧ s.scan.setup.warm ≤ s.scan.warm + 1 then
      [{ kind := .panelState, subject := 0x02, frame := s.scan.frame + 1, count := 1, detail := 0x01 }]
    else []

/-- The unit after a frame start that it has taken while its port is ATTACHED: judged by the table of R114 where it runs,
and FSYNC pulsed (R113, R117). -/
def judgedTo (e : PlanEntry) (u v : SourceUnit) : Prop :=
  let becomes (x : SourceUnit) : Prop := v = { x with fsync := true, pulsed := true, frameWaiting := false }
  (u.sh = 0 → becomes u) ∧
  (1 ≤ u.sh →
    (∀ pic, u.filling = .ready pic →
      let x : SourceUnit := { u with showingBank := u.showingBank.other, showing := some pic, filling := .empty }
      (u.monitor = .noSignal →
        becomes { x with monitor := if e.lockCount = 1 then .locked else .acquiring, good := 1, missed := 0 }) ∧
      (u.monitor = .acquiring →
        (e.lockCount ≤ min 7 (u.good + 1) → becomes { x with monitor := .locked, good := min 7 (u.good + 1), missed := 0 }) ∧
        (min 7 (u.good + 1) < e.lockCount → becomes { x with good := min 7 (u.good + 1) })) ∧
      (u.monitor = .locked → becomes { x with missed := 0 }) ∧
      (u.monitor = .lost → becomes { x with monitor := .acquiring, good := 1, missed := 0 })) ∧
    ((∀ pic, u.filling ≠ .ready pic) →
      (u.monitor = .noSignal → becomes { u with good := 0 }) ∧
      (u.monitor = .acquiring → becomes { u with monitor := .noSignal, good := 0, missed := 0 }) ∧
      (u.monitor = .locked →
        (e.tolerance ≤ min 15 (u.missed + 1) →
          becomes { u with monitor := .lost, good := 0, missed := min 15 (u.missed + 1) }) ∧
        (min 15 (u.missed + 1) < e.tolerance → becomes { u with missed := min 15 (u.missed + 1) })) ∧
      (u.monitor = .lost → becomes { u with missed := min 15 (u.missed + 1) })))

/-- A packet leaves the FILLING bank of one running Source Unit at f, and nothing else changes but for a frame start that
waits at the unit: where it has no count to reach any more, the unit takes it (log 8). -/
def filled (p : PortId) (f : Filling) (s t : State) : Prop :=
  let u : SourceUnit := { s.unit p with filling := f }
  ((s.unit p).frameWaiting = false ∨ reachesCount (s.entry p) u → t = withFilling p f s) ∧
    ((s.unit p).frameWaiting = true → ¬reachesCount (s.entry p) u →
      ∃ v, judgedTo (s.entry p) u v ∧ t = { s with sources := s.sources.set p v })

/-- The command by which the engine of port p takes a request of kind k. -/
def requestCommand (k : RequestKind) (p : PortId) : Instr :=
  match k with
  | .hello => .hello p
  | .bye => .bye p
  | .readPort => .readPort p
  | .eject => .eject p
  | .restart => .restart p
  | .readRegion => .readRegion p
  | .readOrder => .readOrder p
  | .hit => .hit p
  | .beginDraft => .beginDraft p
  | .create => .create p
  | .place => .place p
  | .source => .source p
  | .style => .style p
  | .order => .order p
  | .retire => .retire p
  | .discard => .discard p
  | .publish => .publish p
  | .readDraft => .readDraft p
  | .planSet => .planSet p
  | .readPlan => .readPlan p
  | .sourceFormat => .sourceFormat p
  | .mark => .mark p
  | .unmark => .unmark p
  | .readMarks => .readMarks p
  | .panelSetup => .panelSetup p
  | .panelOn => .panelOn p FrameWork.usual
  | .panelOff => .panelOff p
  | .readPanel => .readPanel p

/-! ### The queues (R154, R155, R159) -/

/-- The queue law of one port: at most 4 requests, at most 8 places of credit, at most 8 notices, no two of the same kind
and subject, each repeat count 1 to 15, and no notices outside ATTACHED. -/
def PortController.QueueLaw (c : PortController) : Prop :=
  c.requests.length ≤ 4 ∧ c.requests.length + c.deferred.length + c.responses.length ≤ 8 ∧ c.notices.length ≤ 8 ∧
    c.notices.Pairwise (fun n m => ¬(n.kind = m.kind ∧ n.subject = m.subject)) ∧
    (∀ n ∈ c.notices, 1 ≤ n.count ∧ n.count ≤ 15) ∧ (c.attach ≠ .attached → c.notices = [])

/-- The queue law of every port. -/
def State.QueueLaw (s : State) : Prop := ∀ p, (s.port p).QueueLaw

/-! ### What waits (R41, R84, R157) -/

/-- How many of a port's deferred requests are of a kind. -/
def deferredOf (k : RequestKind) (c : PortController) : Nat := c.deferred.countP fun r => r.code == k.code

/-- The reason for which a port's engine may be BLOCKED (R157): a PUBLISH at the head in SEALED_DRAFTING, or a PLAN-SET of
port 0 while a sealed plan waits. -/
def blockedFor (p : PortId) (s : State) : Prop :=
  (s.port p).attach = .attached ∧
    (((s.port p).requests.head?.map Request.code = some RequestKind.publish.code ∧ s.editState p = .sealedDrafting) ∨
      (p = .p0 ∧ (s.port p).requests.head?.map Request.code = some RequestKind.planSet.code ∧
        s.layout.sealedPlan.isSome = true))

/-- The waiting law: while DARK no sealed plan, sealed set or retirement waits; a port owes one deferred PUBLISH exactly
while its sealed set waits, port 0 one deferred PLAN-SET exactly while the sealed plan waits, and nothing else is
deferred; a BLOCKED engine has its reason. -/
def State.WaitingLaw (s : State) : Prop :=
  (s.scan.panel = .dark → s.layout.sealedPlan = none ∧ s.layout.retiring = [] ∧ ∀ p, (s.lay p).sealedSet = none) ∧
    ∀ p, deferredOf .publish (s.port p) = (if (s.lay p).sealedSet.isSome then 1 else 0) ∧
      deferredOf .planSet (s.port p) = (if p = .p0 ∧ s.layout.sealedPlan.isSome then 1 else 0) ∧
      (s.port p).deferred.length = deferredOf .publish (s.port p) + deferredOf .planSet (s.port p) ∧
      ((s.port p).engine = .blocked → blockedFor p s)

/-! ### The plan (R89) -/

/-- A field of the four entries, added up. -/
def Plan.sum (q : Plan) (f : PlanEntry → Nat) : Nat :=
  f q.entries.p0 + f q.entries.p1 + f q.entries.p2 + f q.entries.p3

/-- One entry lies in its ranges for a panel of w by h. -/
def PlanEntry.Lawful (w h : Nat) (e : PlanEntry) : Prop :=
  (e.enabled = false → e.quota = 0 ∧ e.share = 0 ∧ e.tx = 0 ∧ e.ty = 0 ∧ e.tw = 0 ∧ e.th = 0) ∧
    (e.enabled = true → 1 ≤ e.tw ∧ 1 ≤ e.th ∧ e.tx + e.tw ≤ w ∧ e.ty + e.th ≤ h) ∧
    (e.guard = true → e.enabled = true ∧ e.rank = 3) ∧
    1 ≤ e.lockCount ∧ e.lockCount ≤ 7 ∧ 1 ≤ e.tolerance ∧ e.tolerance ≤ 15

/-- A plan that may be the live plan of a panel of w by h (R89, with the ranges of table 5.1). -/
def Plan.Lawful (w h : Nat) (q : Plan) : Prop :=
  q.entries.p0.enabled = true ∧ q.sum PlanEntry.quota ≤ 24 ∧ q.sum PlanEntry.share ≤ 8 ∧
    (∀ p, (q.entries.get p).Lawful w h) ∧
    (∀ r < 4, ∃ p, (q.entries.get p).rank = r)

/-- The setup lies in the ranges of 8.2. -/
def Setup.Lawful (u : Setup) : Prop :=
  64 ≤ u.w ∧ u.w ≤ 1920 ∧ 64 ≤ u.h ∧ u.h ≤ 1200 ∧ 16 ≤ u.vblank ∧ u.vblank ≤ 255 ∧ 1 ≤ u.warm ∧ u.warm ≤ 15 ∧
    1 ≤ u.cool ∧ u.cool ≤ 15 ∧ 1 ≤ u.divider ∧ u.divider ≤ 16

/-- The plan law: the setup is in range, the live plan obeys R89 for it, a sealed plan does too and waits only while the
panel is not DARK. -/
def State.PlanLaw (s : State) : Prop :=
  s.scan.setup.Lawful ∧ s.layout.plan.Lawful s.scan.setup.w s.scan.setup.h ∧
    (∀ sp, s.layout.sealedPlan = some sp →
      sp.plan.Lawful s.scan.setup.w s.scan.setup.h ∧ s.scan.panel ≠ .dark)

/-- The enablement law: a port that is DETACHED or ATTACHED is enabled in the live plan, and one that is DISABLED is not
(R102, R166, R167, R169). -/
def State.EnablementLaw (s : State) : Prop :=
  ∀ p, ((s.port p).attach = .detached ∨ (s.port p).attach = .attached → (s.entry p).enabled = true) ∧
    ((s.port p).attach = .disabled → (s.entry p).enabled = false)

/-! ### The Scan Timer and the Compositor (R137, R33, R34) -/

/-- The scan law: the counters are below their setup values and 0 outside their states; the scan position is an active
line, and BLANK while DARK; while DARK the line list is empty and the output idle; an FSYNC pulse stands, and work of a
frame start waits, only in a panel that runs and before the first line of the frame, and a pulse that stands is one of the
latest raised frame start (R117, R139, R141). -/
def State.ScanLaw (s : State) : Prop :=
  s.scan.setup.Lawful ∧ s.scan.warm < s.scan.setup.warm ∧ s.scan.cool < s.scan.setup.cool ∧
    (s.scan.panel ≠ .warming → s.scan.warm = 0 ∧ s.scan.warmWaiting = false) ∧
    (s.scan.panel ≠ .cooling → s.scan.cool = 0 ∧ s.scan.coolingFrame = false) ∧
    (∀ l, s.scan.pos = some l → l < s.scan.setup.h) ∧
    (s.scan.panel = .dark → s.scan.pos = none ∧ s.comp = { list := [], output := .idle }) ∧
    (s.scan.warmWaiting = true → s.scan.pos = none) ∧
    (∀ p, (s.unit p).fsync = true ∨ (s.unit p).frameWaiting = true → s.scan.panel ≠ .dark ∧ s.scan.pos = none) ∧
    (∀ p, (s.unit p).fsync = true → (s.unit p).pulsed = true)

/-! ### The Source Units (R108, R114, R118, R121) -/

/-- A picture of sw by n pixels. -/
def Picture.Sized (sw n : Nat) (x : Picture) : Prop := x.length = n ∧ ∀ l ∈ x, l.length = sw

/-- The source law of one unit under an attach state: declared size and counts in range; the banks hold lines of the
declared size; LOCKED shows a whole frame; a unit that does not run is in NO_SIGNAL; a unit whose port is not ATTACHED
is forced and its FSYNC quiet. -/
def SourceUnit.SourceLaw (a : Attach) (u : SourceUnit) : Prop :=
  (1 ≤ u.sw ∧ u.sw ≤ 1024 ∧ u.sh ≤ 1024 ∧ u.sw * u.sh ≤ 262144) ∧ u.good ≤ 7 ∧ u.missed ≤ 15 ∧
    (∀ x, u.showing = some x → Picture.Sized u.sw u.sh x) ∧
    (match u.filling with
      | .empty => True
      | .receiving x => x.length ≤ u.sh ∧ ∀ l ∈ x, l.length = u.sw
      | .ready x => Picture.Sized u.sw u.sh x) ∧
    (u.monitor = .locked → u.showing.isSome = true) ∧
    (u.runsWhen a = false → u.monitor = .noSignal ∧ u.showing = none ∧ u.filling = .empty) ∧
    (a ≠ .attached → u.good = 0 ∧ u.missed = 0 ∧ u.fsync = false ∧ u.frameWaiting = false)

/-- The source law of every port; a port that is DETACHED or DISABLED declares 1 x 0. -/
def State.SourceLaw (s : State) : Prop :=
  ∀ p, (s.unit p).SourceLaw (s.port p).attach ∧
    ((s.port p).attach = .detached ∨ (s.port p).attach = .disabled → (s.unit p).sw = 1 ∧ (s.unit p).sh = 0)

/-! ### The region table (R1, R17, R42, R70, R153) -/

/-- A LIVE slot of a port. -/
def Slot.liveOf (p : PortId) : Slot → Bool
  | .live o _ _ _ => o == p
  | _ => false

/-- A RESERVED slot of a port. -/
def Slot.reservedOf (p : PortId) : Slot → Bool
  | .reserved o _ => o == p
  | _ => false

/-- A draft or sealed set of port p names each region once, and only slots that p owns (R42). -/
def Proposal.OwnedBy (p : PortId) (s : State) (pr : Proposal) : Prop :=
  pr.ids.Nodup ∧ ∀ id ∈ pr.ids, (s.slot id).owner? = some p

/-- The table law of one port: its order list holds each of its LIVE regions once and nothing else; its draft and set name
slots it owns; each of its RESERVED slots is named; a LIVE region of a draft opened over a set is named by that set; a
port that is not ATTACHED has no draft and no set; a port holds LIVE regions only while ATTACHED, or LEAVING on the
retirement list; and it is on that list exactly while it is LEAVING with its regions not retired. -/
def State.TableLawOf (s : State) (p : PortId) : Prop :=
  (s.lay p).order.Nodup ∧ (∀ id ∈ (s.lay p).order, (s.slot id).liveOf p = true) ∧
    (∀ id < 24, (s.slot id).liveOf p = true → id ∈ (s.lay p).order) ∧
    (∀ pr, (s.lay p).draft = some pr → pr.OwnedBy p s) ∧
    (∀ pr, (s.lay p).sealedSet = some pr → pr.OwnedBy p s) ∧
    (∀ id < 24, (s.slot id).reservedOf p = true →
      optNames (s.lay p).draft id = true ∨ optNames (s.lay p).sealedSet id = true) ∧
    (∀ d pr, (s.lay p).draft = some d → (s.lay p).sealedSet = some pr →
      ∀ id ∈ d.ids, (s.slot id).liveOf p = true → names pr id = true) ∧
    ((s.port p).attach ≠ .attached → (s.lay p).draft = none ∧ (s.lay p).sealedSet = none) ∧
    ((s.port p).attach ≠ .attached → p ∉ s.layout.retiring → (s.lay p).order = []) ∧
    (p ∈ s.layout.retiring ↔
      ((s.port p).attach = .leaving .bye false ∨ (s.port p).attach = .leaving .eject false ∨
        (s.port p).attach = .leaving .plan false))

/-- The table law: 24 slots, no port twice on the retirement list, and the law of every port. -/
def State.TableLaw (s : State) : Prop :=
  s.layout.slots.length = 24 ∧ s.layout.retiring.Nodup ∧ ∀ p, s.TableLawOf p

/-! ### Placement (R4, R8, R31, R64) -/

/-- A copy that may be live under an entry and a declared size: a rectangle that is not empty, within the territory; a
guarded one visible with loss FILL under the guard right; a LINKED window within the source frame (R4, R8). -/
def Copy.Lawful (e : PlanEntry) (u : SourceUnit) (k : Option RegionKind) (c : Copy) : Prop :=
  1 ≤ c.w ∧ 1 ≤ c.h ∧ c.within e = true ∧
    (c.guarded = true → e.guard = true ∧ c.visible = true ∧ c.loss = .fill) ∧
    (k = some .linked → c.sx + c.w ≤ u.sw ∧ c.sy + c.h ≤ u.sh)

/-- A copy as a draft may hold it: its rectangle is not empty, and a guarded one is visible with loss FILL (R46, R48). -/
def Copy.Drafted (c : Copy) : Prop :=
  1 ≤ c.w ∧ 1 ≤ c.h ∧ (c.guarded = true → c.visible = true ∧ c.loss = .fill)

/-- The copies of a proposal may be live for port p, and no line carries more of them than p's row share. -/
def Proposal.Placed (p : PortId) (s : State) (pr : Proposal) : Prop :=
  (∀ e ∈ pr, e.copy.Lawful (s.entry p) (s.unit p) (s.slot e.id).kind?) ∧
    ∀ l < s.scan.setup.h, (crossing pr l).length ≤ (s.entry p).share

/-- The placement law: every port owns at most its quota of slots; its LIVE regions and its sealed set are placed; its
draft's copies are as a draft may hold them. -/
def State.PlacementLaw (s : State) : Prop :=
  ∀ p, ownedCount p s ≤ (s.entry p).quota ∧ (liveEntries p s).Placed p s ∧
    (∀ pr, (s.lay p).sealedSet = some pr → pr.Placed p s) ∧
    (∀ d, (s.lay p).draft = some d → ∀ e ∈ d, e.copy.Drafted)

/-! ### The marks (R125) -/

/-- A mark names a LIVE region of its own port at an offset below its height. -/
def Mark.Fits (p : PortId) (s : State) (m : Mark) : Prop :=
  match s.slot m.region with
  | .live o _ _ c => o = p ∧ m.offset < c.h
  | _ => False

/-- The mark law: each list is ordered by mark id, ids 0 to 3, and every mark names a LIVE region of its own port at an
offset below its height, or a waiting report removes it. -/
def State.MarkLaw (s : State) : Prop :=
  ∀ p, (s.markList p).Pairwise (fun m n => m.id < n.id) ∧
    ∀ m ∈ s.markList p, m.id < 4 ∧
      (m.Fits p s ∨ ∃ r ∈ s.marks.reports, r.owner = p ∧ r.breaks m = true)

/-! ### The live state (R81) -/

/-- What of a slot the panel can show: the whole record of a LIVE slot, and nothing of another. -/
def Slot.liveView : Slot → Option Slot
  | .live o k g c => some (.live o k g c)
  | _ => none

/-- Two states agree in the LIVE regions, their records, the order lists and the live plan. -/
def State.sameLive (s t : State) : Prop :=
  t.layout.slots.map Slot.liveView = s.layout.slots.map Slot.liveView ∧
    (∀ p, (t.lay p).order = (s.lay p).order) ∧ t.layout.plan = s.layout.plan

/-! ### Safe runs -/

/-- Every law of the part. -/
def State.Lawful (s : State) : Prop :=
  s.QueueLaw ∧ s.WaitingLaw ∧ s.PlanLaw ∧ s.EnablementLaw ∧ s.ScanLaw ∧ s.SourceLaw ∧ s.TableLaw ∧ s.PlacementLaw ∧
    s.MarkLaw

/-- A safe outcome: the part goes on, and every law holds. -/
def Out.Safe : Out → Prop
  | .next t => t.Lawful
  | .fault _ => False
  | .refused _ => False

end Sys2Proof.Machine
end

