-- ==== Sys2Proof/WellFormed.lean ====
section
/-! DEFINITION. Which command terms are commands of the part: the operands lie in the ranges the spec gives. -/

namespace Sys2Proof

/-- No two entries of a list of frame work are equal: each block takes a frame start once (R139). -/
def FrameWork.distinct : List FrameWork → Bool
  | [] => true
  | w :: ws => !ws.contains w && FrameWork.distinct ws

/-- The operands of a command lie in their ranges: an unknown kind byte is none of 01h to 04h (R172), a line packet's
index is 0 to 1023 (6.2), and the order of a frame start's work names no work twice (R139). -/
def Instr.wellFormed : Instr → Bool
  | .unknownKindByte _ k _ => k == 0 || decide (4 < k.toNat)
  | .linePacket _ index _ => decide (index < 1024)
  | .panelOn _ now => FrameWork.distinct now
  | .frameStart now => FrameWork.distinct now
  | _ => true

end Sys2Proof
end

