-- ==== Sys2Proof/Certificates/Slice0/Obligations.lean ====
section
/-! DEFINITION. The statements for the provers. A statement about a request names its parameters byte by byte, and gives
the whole next state, or the whole of what changes in it: what it does not name is as before. -/

open Sys2Proof Sys2Proof.Machine

/-! ### The step and the commands as a whole -/

/-- A step takes the command at the front of the queue and runs it on the state with the queue's rest. -/
def Obligations.StepRunsFront : Prop :=
  ∀ (c : Instr) (rest : List Instr) (s : State),
    step { s with pending := c :: rest } = exec c { s with pending := rest }

/-- Every command answers a next state, and leaves the queue of waiting commands as it is. -/
def Obligations.CommandsGoOnAndLeaveQueue : Prop :=
  ∀ (c : Instr) (s : State), ∃ t, exec c s = .next t ∧ t.pending = s.pending

/-- Device reset, from every state: the values the spec gives each block (R21, R87, R90, R108, R125, R137, R152, R172).
The bank roles are those of R108 (log 34), the commands that wait stay (log 25), and the model's own fields are clear (log 8,
log 21, log 30). -/
def Obligations.DeviceResetValues : Prop :=
  ∀ s : State, exec .deviceReset s = .next
    { ports :=
        let c (a : Attach) : PortController :=
          { attach := a, requests := [], engine := .ready, deferred := [], responses := [], notices := [],
            noticeLost := false, refusal := .none }
        ⟨c .detached, c .disabled, c .disabled, c .disabled⟩
      links :=
        let l (x : Link) : Link := { state := if x.state = .idle then .idle else .abandoned, dout := [] }
        ⟨l s.links.p0, l s.links.p1, l s.links.p2, l s.links.p3⟩
      layout :=
        { slots := List.replicate 24 .free
          ports := PerPort.const { order := [], draft := none, sealedSet := none }
          plan :=
            { entries :=
                let d (r : Nat) : PlanEntry :=
                  { enabled := false, tx := 0, ty := 0, tw := 0, th := 0, quota := 0, share := 0, rank := r,
                    guard := false, lockCount := 2, tolerance := 3 }
                ⟨{ enabled := true, tx := 0, ty := 0, tw := 800, th := 480, quota := 24, share := 8, rank := 3,
                   guard := true, lockCount := 2, tolerance := 3 }, d 0, d 1, d 2⟩
              background := 0x000000 }
          sealedPlan := none
          retiring := [] }
      sources := PerPort.const
        { sw := 1, sh := 0, showingBank := .a, showing := none, filling := .empty, monitor := .noSignal, good := 0,
          missed := 0, fsync := false, pulsed := false, frameWaiting := false }
      scan :=
        { panel := .dark, setup := { w := 800, h := 480, vblank := 20, warm := 4, cool := 2, divider := 4 }, warm := 0,
          cool := 0, frame := 0, pos := none, coolingFrame := false, warmWaiting := false }
      comp := { list := [], output := .idle }
      marks := { lists := PerPort.const [], reports := [], withdrawn := [] }
      pending := s.pending }

/-! ### The command link (10) -/

/-- A whole request frame that meets the three conditions of R154 enters the queue; bytes after the check byte are
ignored; the status byte of the moment before goes out, and takes the refusal reason with it (R173, R174). -/
def Obligations.WriteRequestAccepted : Prop :=
  ∀ (p : PortId) (r : Request) (extra : List Byte) (s : State),
    (s.link p).state = .idle → ((s.port p).attach = .detached ∨ (s.port p).attach = .attached) →
    (s.port p).requests.length < 4 →
    (s.port p).requests.length + (s.port p).deferred.length + (s.port p).responses.length < 8 →
    r.params.length ≤ 64 →
    exec (.writeRequest p (.whole (r.frame ++ extra))) s = .next
      (afterTransaction p { s.port p with requests := (s.port p).requests ++ [r], refusal := .none }
        ((s.port p).statusByte :: List.replicate (r.params.length + 4 + extra.length) 0x00) s)

/-- A WRITE_REQUEST that is refused changes nothing but the refusal reason (R154, R174): a good frame gives STATE while
DISABLED or LEAVING, else FULL with 4 requests waiting or the credit at 8; a length byte above 64, a frame cut short and
a sum other than 00h give FORM, whatever the attach state. -/
def Obligations.WriteRequestRefused : Prop :=
  ∀ (p : PortId) (s : State), (s.link p).state = .idle →
    let refused (why : Refused) (n : Nat) : Out := .next
      (afterTransaction p { s.port p with refusal := why } ((s.port p).statusByte :: List.replicate n 0x00) s)
    (∀ (r : Request) (extra : List Byte), r.params.length ≤ 64 →
      ((s.port p).attach ≠ .detached → (s.port p).attach ≠ .attached →
        exec (.writeRequest p (.whole (r.frame ++ extra))) s =
          refused .state (r.params.length + 4 + extra.length)) ∧
      ((s.port p).attach = .detached ∨ (s.port p).attach = .attached →
        4 ≤ (s.port p).requests.length ∨
          8 ≤ (s.port p).requests.length + (s.port p).deferred.length + (s.port p).responses.length →
        exec (.writeRequest p (.whole (r.frame ++ extra))) s =
          refused .full (r.params.length + 4 + extra.length)) ∧
      ∀ k < r.params.length + 4, exec (.writeRequest p (.whole (r.frame.take k))) s = refused .form k) ∧
    (∀ (tag code len : Byte) (more : List Byte), 64 < len.toNat →
      exec (.writeRequest p (.whole (tag :: code :: len :: more))) s = refused .form (more.length + 3)) ∧
    ∀ (tag code check : Byte) (params extra : List Byte), params.length ≤ 64 →
      byteSum ([tag, code, byteOf params.length] ++ params ++ [check]) ≠ 0x00 →
      exec (.writeRequest p (.whole ([tag, code, byteOf params.length] ++ params ++ [check] ++ extra))) s =
        refused .form (params.length + 4 + extra.length)

/-- READ_RESPONSE (R158, R175): a transaction that reaches the check byte removes the oldest response (here one whose
reading does not end a departure); one cut short removes nothing; on an empty queue the EMPTY frame goes out. A transaction
in parts does the same when chip select rises, but removes nothing where its response has left the queue. The frame of a
response is the tag, the code, the result code (R183), the field length, the fields, and a check byte that makes its sum
00h. -/
def Obligations.ReadResponseTakesOldest : Prop :=
  ∀ (p : PortId) (bs : List Byte) (s : State), (s.link p).state = .idle →
    (∀ (x : Response) (rest : List Response), (s.port p).responses = x :: rest →
      (x.frame.length ≤ bs.length → (rest ≠ [] ∨ ∀ why, (s.port p).attach ≠ .leaving why true) →
        exec (.readResponse p (.whole bs)) s = .next
          (afterTransaction p { s.port p with responses := rest, refusal := .none }
            ((s.port p).statusByte :: (x.frame ++ List.replicate (bs.length - x.frame.length) 0x00)) s)) ∧
      (bs.length < x.frame.length →
        exec (.readResponse p (.whole bs)) s = .next
          (afterTransaction p { s.port p with refusal := .none }
            ((s.port p).statusByte :: x.frame.take bs.length) s))) ∧
    ((s.port p).responses = [] →
      exec (.readResponse p (.whole bs)) s = .next
        (afterTransaction p { s.port p with refusal := .none }
          ((s.port p).statusByte ::
            ((([0x00, 0x00, 0x04, 0x00, 0xFC] : List Byte) ++ List.replicate (bs.length - 5) 0x00).take bs.length)) s)) ∧
    (∀ (f out : List Byte) (carried : Bool) (clocked : Nat) (t : State),
      t.link p = { state := .sendingResponse f carried clocked, dout := out } →
      let ended (c : PortController) : Prop := exec (.readResponse p .release) t = .next (afterTransaction p c out t)
      (carried = false ∨ clocked < f.length → ended (t.port p)) ∧
      ∀ (x : Response) (rest : List Response), carried = true → f.length ≤ clocked → (t.port p).responses = x :: rest →
        (rest ≠ [] ∨ ∀ why, (t.port p).attach ≠ .leaving why true) → ended { t.port p with responses := rest }) ∧
    (∀ x : Response, ∃ check : Byte,
      x.frame = [x.tag, x.code, x.result.code, byteOf x.fields.length] ++ x.fields ++ [check] ∧
        byteSum x.frame = 0x00) ∧
    ([Result.done, .already, .cancelled, .draftVoid, .empty, .notAttached, .notPlanPort, .notOwner, .unknownCode,
      .badLength, .range, .noDraft, .draftOpen, .quota, .notLive, .noSource, .territory, .rowShare, .guard,
      .sourceWindow, .inUse, .planInvalid, .planOrphans, .wrongState, .markFull].map Result.code =
        (List.range 25).map byteOf)

/-- READ_NOTICE (R160, R176): a transaction that reaches the check byte removes the oldest notice and clears the
notice-lost flag; one cut short does neither; on an empty queue seven bytes 00h go out. A transaction in parts into whose
entry k notices coalesced since its frame was fixed leaves the entry with the repeat count k, at most 15, and clears the
flag; one whose entry has left the queue, as it does when LEAVING entry or RESTART clears the queue, changes neither,
whatever the queue holds. The frame of a notice is its kind (R184), subject, frame number,
repeat count, detail, and a check byte that makes its sum 00h. -/
def Obligations.ReadNoticeTakesOldest : Prop :=
  ∀ (p : PortId) (bs : List Byte) (s : State), (s.link p).state = .idle →
    (∀ (n : Notice) (rest : List Notice), (s.port p).notices = n :: rest →
      (7 ≤ bs.length →
        exec (.readNotice p (.whole bs)) s = .next
          (afterTransaction p { s.port p with notices := rest, noticeLost := false, refusal := .none }
            ((s.port p).statusByte :: (n.bytes ++ List.replicate (bs.length - 7) 0x00)) s)) ∧
      (bs.length < 7 →
        exec (.readNotice p (.whole bs)) s = .next
          (afterTransaction p { s.port p with refusal := .none }
            ((s.port p).statusByte :: n.bytes.take bs.length) s))) ∧
    ((s.port p).notices = [] →
      exec (.readNotice p (.whole bs)) s = .next
        (afterTransaction p { s.port p with refusal := .none }
          ((s.port p).statusByte :: List.replicate bs.length 0x00) s)) ∧
    (∀ (f out : List Byte) (since : Option Nat) (clocked : Nat) (t : State),
      t.link p = { state := .sendingNotice f since clocked, dout := out } →
      let ended (c : PortController) : Prop := exec (.readNotice p .release) t = .next (afterTransaction p c out t)
      (since = none ∨ clocked < f.length → ended (t.port p)) ∧
      ∀ (n : Notice) (rest : List Notice), f.length ≤ clocked → (t.port p).notices = n :: rest →
        (since = some 0 → ended { t.port p with notices := rest, noticeLost := false }) ∧
        ∀ k, since = some (k + 1) →
          ended { t.port p with notices := { n with count := min 15 (k + 1) } :: rest, noticeLost := false }) ∧
    (∀ n : Notice, n.bytes.length = 7 ∧ byteSum n.bytes = 0x00 ∧
      n.bytes.take 6 =
        [n.kind.byte, n.subject, n.frame.extractLsb' 0 8, n.frame.extractLsb' 8 8, byteOf n.count, n.detail]) ∧
    ([NoticeKind.sourceLocked, .sourceLost, .regionEvicted, .draftVoid, .planChanged, .markReached, .markVoid,
      .panelState, .portLeft].map NoticeKind.byte = (List.range' 1 9).map byteOf)

/-- STATUS gives a fresh status byte for each byte clocked, and the first takes the refusal reason with it (R173, R177).
A kind byte that is none of 01h to 04h leaves the refusal FORM and clocks out 00h (R172). The status byte is, from bit 7
down, the attach state, the refusal reason, a response waits, a notice waits, the notice-lost flag, and a request could be
accepted (R173); the NOTE line is asserted while a response or a notice waits (R161). -/
def Obligations.StatusAndUnknownKind : Prop :=
  (∀ (p : PortId) (bs : List Byte) (s : State), (s.link p).state = .idle →
    exec (.status p (.whole bs)) s = .next
      (afterTransaction p { s.port p with refusal := .none }
        ((s.port p).statusByte ::
          List.replicate bs.length ({ s.port p with refusal := .none } : PortController).statusByte) s) ∧
    ∀ kind : Byte, kind ≠ 0x01 → kind ≠ 0x02 → kind ≠ 0x03 → kind ≠ 0x04 →
      exec (.unknownKindByte p kind (.whole bs)) s = .next
        (afterTransaction p { s.port p with refusal := .form }
          ((s.port p).statusByte :: List.replicate bs.length 0x00) s)) ∧
  ∀ c : PortController,
    c.statusByte =
      (match c.attach with
        | .disabled => 0b00#2
        | .detached => 0b01#2
        | .attached => 0b10#2
        | .leaving _ _ => 0b11#2) ++
      (match c.refusal with
        | .none => 0b00#2
        | .full => 0b01#2
        | .form => 0b10#2
        | .state => 0b11#2) ++
      BitVec.ofBool (decide (c.responses ≠ [])) ++ BitVec.ofBool (decide (c.notices ≠ [])) ++
      BitVec.ofBool c.noticeLost ++
      BitVec.ofBool (decide ((c.attach = .detached ∨ c.attach = .attached) ∧ c.requests.length < 4 ∧
        c.requests.length + c.deferred.length + c.responses.length < 8)) ∧
    (c.noteAsserted = true ↔ c.responses ≠ [] ∨ c.notices ≠ [])

/-- A transaction in parts is the whole transaction: chip select falls, the kind byte is clocked, bytes are clocked in two
lots, chip select rises (R172). The status byte is fixed when chip select falls, and goes out with the kind byte as it was
fixed, whatever happened between; the kind bytes 01h to 04h begin their transactions, and a reading one fixes its frame
from the queue as it stands then (R172, R173, R175, R176). Chip select may rise before the kind byte. -/
def Obligations.TransactionInParts : Prop :=
  (∀ (p : PortId) (kind : Byte) (bs cs : List Byte) (s : State), (s.link p).state = .idle →
    ∀ cmd ∈ [Instr.writeRequest p, Instr.readResponse p, Instr.readNotice p, Instr.status p,
        Instr.unknownKindByte p kind],
      (Out.andThen (exec (cmd .select) s) fun t0 => Out.andThen (exec (cmd .kind) t0) fun t1 =>
        Out.andThen (exec (cmd (.clock bs)) t1) fun t2 =>
          Out.andThen (exec (cmd (.clock cs)) t2) (exec (cmd .release))) = exec (cmd (.whole (bs ++ cs))) s) ∧
  ∀ (p : PortId) (kind : Byte), kind ≠ 0x01 → kind ≠ 0x02 → kind ≠ 0x03 → kind ≠ 0x04 →
    ∀ cmd ∈ [Instr.writeRequest p, Instr.readResponse p, Instr.readNotice p, Instr.status p,
        Instr.unknownKindByte p kind],
      (∀ s : State, (s.link p).state = .idle →
        exec (cmd .select) s = .next
          { s with links := s.links.set p { state := .selected (s.port p).statusByte, dout := [] } }) ∧
      ∀ (b : Byte) (t : State), t.link p = { state := .selected b, dout := [] } →
        exec (cmd .release) t = .next { t with links := t.links.set p { state := .idle, dout := [] } } ∧
        let begun (why : Refused) (x : LinkState) : Out := .next
          { t with
            ports := t.ports.set p { t.port p with refusal := why }
            links := t.links.set p { state := x, dout := [b] } }
        (Transaction.ofByte? 0x01 = some .writeRequest ∧ Transaction.ofByte? 0x02 = some .readResponse ∧
          Transaction.ofByte? 0x03 = some .readNotice ∧ Transaction.ofByte? 0x04 = some .status ∧
          Transaction.ofByte? kind = none) ∧
        exec (.writeRequest p .kind) t = begun .none (.writing [] false) ∧
        ((t.port p).responses = [] →
          exec (.readResponse p .kind) t = begun .none (.sendingResponse [0x00, 0x00, 0x04, 0x00, 0xFC] false 0)) ∧
        (∀ (x : Response) (rest : List Response), (t.port p).responses = x :: rest →
          exec (.readResponse p .kind) t = begun .none (.sendingResponse x.frame true 0)) ∧
        ((t.port p).notices = [] →
          exec (.readNotice p .kind) t = begun .none (.sendingNotice (List.replicate 7 0x00) none 0)) ∧
        (∀ (x : Notice) (rest : List Notice), (t.port p).notices = x :: rest →
          exec (.readNotice p .kind) t = begun .none (.sendingNotice x.bytes (some 0) 0)) ∧
        exec (.status p .kind) t = begun .none .sendingStatus ∧
        exec (.unknownKindByte p kind .kind) t = begun .form .ignoring

/-! ### Notices (9.5) -/

/-- A notice reaches a port (R159): not ATTACHED, it is not stored; a waiting entry of its kind and subject takes its
frame number and detail, and one more repeat up to 15; else it is added with repeat count 1 while fewer than 8 wait;
else it is dropped and the notice-lost flag set. A READ_NOTICE under way counts what coalesces into its entry (R160). -/
def Obligations.NoticeStored : Prop :=
  ∀ (p : PortId) (n : Notice) (s : State),
    ((s.port p).attach ≠ .attached → storeNotice p n s = s) ∧
    ((s.port p).attach = .attached →
      (∀ (a : List Notice) (m : Notice) (b : List Notice), (s.port p).notices = a ++ m :: b →
        (m.kind = n.kind ∧ m.subject = n.subject) → (∀ x ∈ a, ¬(x.kind = n.kind ∧ x.subject = n.subject)) →
        storeNotice p n s =
          { s with
            ports := s.ports.set p { s.port p with
              notices := a ++
              { kind := m.kind, subject := m.subject, frame := n.frame, count := min 15 (m.count + 1),
                detail := n.detail } :: b }
            links :=
              match a, (s.link p).state with
              | [], .sendingNotice f (some k) c =>
                s.links.set p { s.link p with state := .sendingNotice f (some (k + 1)) c }
              | _, _ => s.links }) ∧
      ((∀ x ∈ (s.port p).notices, ¬(x.kind = n.kind ∧ x.subject = n.subject)) →
        ((s.port p).notices.length < 8 →
          storeNotice p n s =
            { s with
                ports := s.ports.set p
                  { s.port p with notices := (s.port p).notices ++ [{ n with count := 1 }] } }) ∧
        (8 ≤ (s.port p).notices.length →
          storeNotice p n s = { s with ports := s.ports.set p { s.port p with noticeLost := true } })))

/-! ### Requests at the engine (9.3) -/

/-- The universal results, in their order (R156): an unknown code, a wrong length, a DETACHED port that does not say HELLO,
a plan-port request of another port. The response has no fields, and nothing else changes. That the result stands also for
a PUBLISH or a PLAN-SET of a wrong length that would otherwise block the engine (R60, R94, R157) is the model's choice
(log 15). -/
def Obligations.UniversalResults : Prop :=
  ∀ (p : PortId) (r : Request) (rest : List Request) (s : State),
    (s.port p).engine = .ready → ((s.port p).attach = .detached ∨ (s.port p).attach = .attached) →
    (s.port p).requests = r :: rest →
    ((∀ k : RequestKind, r.code ≠ k.code) →
      exec (.unknownCode p) s = .next (answered p r rest .unknownCode [] s)) ∧
    ∀ (k : RequestKind) (c : Instr) (now : List FrameWork),
      (c = requestCommand k p ∨ (k = .panelOn ∧ c = .panelOn p now)) → r.code = k.code →
      (r.params.length ≠ k.length → exec c s = .next (answered p r rest .badLength [] s)) ∧
      (r.params.length = k.length → (s.port p).attach = .detached → k ≠ .hello →
        exec c s = .next (answered p r rest .notAttached [] s)) ∧
      (r.params.length = k.length → (s.port p).attach = .attached → p ≠ .p0 →
        k ∈ [.planSet, .panelSetup, .panelOn, .panelOff, .eject, .restart] →
        exec c s = .next (answered p r rest .notPlanPort [] s))

/-- HELLO(SW, SH) (R162, R122): a DETACHED port attaches with a size in range, its notice queue open and empty; a size out
of range leaves it DETACHED; an ATTACHED port receives ALREADY with the size declared. -/
def Obligations.HelloAttaches : Prop :=
  ∀ (p : PortId) (r : Request) (rest : List Request) (sw sh : Nat) (s : State),
    sw < 65536 → sh < 65536 → (s.port p).engine = .ready → (s.port p).requests = r :: rest →
    r.code = 0x01 → r.params = le16 sw ++ le16 sh →
    ((s.port p).attach = .detached → 1 ≤ sw → sw ≤ 1024 → sh ≤ 1024 → sw * sh ≤ 262144 →
      exec (.hello p) s = .next
        (replied p r .done (s.frameNow ++ [byteOf p.toNat] ++ le16 sw ++ le16 sh)
          { s with
            ports := s.ports.set p
              { s.port p with requests := rest, attach := .attached, notices := [], noticeLost := false }
            sources := s.sources.set p { s.unit p with sw := sw, sh := sh } })) ∧
    ((s.port p).attach = .detached → ¬(1 ≤ sw ∧ sw ≤ 1024 ∧ sh ≤ 1024 ∧ sw * sh ≤ 262144) →
      exec (.hello p) s = .next (answered p r rest .range [] s)) ∧
    ((s.port p).attach = .attached →
      exec (.hello p) s = .next
        (answered p r rest .already
          (s.frameNow ++ [byteOf p.toNat] ++ le16 (s.unit p).sw ++ le16 (s.unit p).sh) s))

/-- BYE of an ATTACHED port (R163, R165): the port enters LEAVING with reason BYE and loses its waiting work, its DONE
stands after the CANCELLED of a waiting plan and set and before those of its queue; its regions wait for the commit, or
are retired at once while DARK; the panel and the plan stay. -/
def Obligations.ByeEntersLeaving : Prop :=
  ∀ (p : PortId) (r : Request) (rest : List Request) (s : State), Takes .bye p r rest s →
    ∃ t, exec (.bye p) s = .next t ∧
      leftParts p [{ tag := r.tag, code := r.code, result := .done, fields := s.frameNow }] rest s t ∧
      (t.port p).attach = .leaving .bye (decide ((s.lay p).order = [] ∨ s.scan.panel = .dark)) ∧
      (s.scan.panel ≠ .dark → (t.lay p).order = (s.lay p).order ∧
        t.layout.retiring = s.layout.retiring ++ (if (s.lay p).order = [] then [] else [p]) ∧
        ∀ q, q ≠ p → samePart q s t) ∧
      (s.scan.panel = .dark → (t.lay p).order = [] ∧ t.layout.retiring = []) ∧
      t.scan = s.scan ∧ t.comp = s.comp ∧ t.layout.plan = s.layout.plan

/-- EJECT (R164, R165, R188): RANGE for port 0 and above 3; ALREADY with the attach state for a port that is not ATTACHED;
else DONE with LEAVING, and the named port enters LEAVING with reason EJECT, or has left it where no response waits and
its regions are gone (log 14). -/
def Obligations.EjectEntersLeaving : Prop :=
  ∀ (r : Request) (rest : List Request) (b : Byte) (s : State), Takes .eject .p0 r rest s → r.params = [b] →
    (b = 0 ∨ 3 < b.toNat → exec (.eject .p0) s = .next (answered .p0 r rest .range [] s)) ∧
    ∀ q, q ≠ .p0 → b.toNat = q.toNat →
      ((s.port q).attach ≠ .attached →
        exec (.eject .p0) s = .next
          (answered .p0 r rest .already (s.frameNow ++ [byteOf (s.port q).attach.code]) s)) ∧
      ((s.port q).attach = .attached →
        ∃ t, exec (.eject .p0) s = .next t ∧
          (t.port .p0).responses = (s.port .p0).responses ++
            [{ tag := r.tag, code := r.code, result := .done, fields := s.frameNow ++ [0x03] }] ∧
          (t.port .p0).requests = rest ∧
          ((t.port q).responses ≠ [] ∨ ((s.lay q).order ≠ [] ∧ s.scan.panel ≠ .dark) →
            leftParts q [] (s.port q).requests s t ∧
            (t.port q).attach = .leaving .eject (decide ((s.lay q).order = [] ∨ s.scan.panel = .dark))) ∧
          ((t.port q).responses = [] → (s.lay q).order = [] ∨ s.scan.panel = .dark →
            (t.port q).attach = if (s.entry q).enabled then .detached else .disabled) ∧
          (s.scan.panel ≠ .dark → (t.lay q).order = (s.lay q).order ∧
            t.layout.retiring = s.layout.retiring ++ (if (s.lay q).order = [] then [] else [q])) ∧
          (s.scan.panel = .dark → (t.lay q).order = [] ∧ t.layout.retiring = []) ∧
          (s.scan.panel ≠ .dark → ∀ j, j ≠ q → j ≠ .p0 → samePart j s t) ∧
          t.scan = s.scan ∧ t.comp = s.comp ∧ t.layout.plan = s.layout.plan)

/-- READ-PORT (R170): RANGE above 3, NOT_OWNER for another port from ports 1 to 3, else the 24 bytes of R180, after the
Mark Unit has taken the reports that wait (log 9). The READ-PORT itself is in the credit in use. -/
def Obligations.ReadPortReports : Prop :=
  ∀ (p : PortId) (r : Request) (rest : List Request) (b : Byte) (s : State),
    Takes .readPort p r rest s → r.params = [b] →
    (3 < b.toNat → exec (.readPort p) s = .next (answered p r rest .range [] s)) ∧
    ∀ q : PortId, b.toNat = q.toNat →
      (p ≠ .p0 → q ≠ p → exec (.readPort p) s = .next (answered p r rest .notOwner [] s)) ∧
      (p = .p0 ∨ q = p →
        ∃ u, exec .markReportsTaken (taken p rest s) = .next u ∧
          exec (.readPort p) s = .next
            (replied p r .done
              (s.frameNow ++
                [byteOf (u.port q).attach.code,
                 match (u.port q).attach with
                  | .leaving .bye _ => 0x01
                  | .leaving .eject _ => 0x02
                  | .leaving .plan _ => 0x03
                  | _ => 0xFF,
                 match (u.port q).attach with
                  | .leaving _ true => 0x01
                  | .leaving _ false => 0x00
                  | _ => 0xFF,
                 if (u.port q).engine = .blocked then 0x01 else 0x00,
                 byteOf (u.port q).requests.length,
                 byteOf ((u.port q).requests.length + (u.port q).deferred.length + (u.port q).responses.length +
                   if p = q then 1 else 0),
                 byteOf (u.port q).responses.length, byteOf (u.port q).notices.length,
                 if (u.port q).noticeLost then 0x01 else 0x00,
                 match (u.lay q).draft, (u.lay q).sealedSet with
                  | none, none => 0x00
                  | some _, none => 0x01
                  | none, some _ => 0x02
                  | some _, some _ => 0x03,
                 byteOf (ownedCount q u), byteOf (u.markList q).length] ++
                le16 (u.unit q).sw ++ le16 (u.unit q).sh ++
                [match (u.unit q).monitor with
                  | .noSignal => 0x00
                  | .acquiring => 0x01
                  | .locked => 0x02
                  | .lost => 0x03,
                 byteOf (u.unit q).good, byteOf (u.unit q).missed,
                 match (u.unit q).filling with
                  | .empty => 0x00
                  | .receiving _ => 0x01
                  | .ready _ => 0x02] ++
                match (u.unit q).filling with
                  | .receiving lines => le16 lines.length
                  | _ => [0xFF, 0xFF]) u))

/-- RESTART from port 0 (R168, R169, R22, R87, R90, R135, R151): the table, the drafts, the plan, the marks and ports 1 to 3
are reset, the panel runs on, and port 0 keeps its connection and its source and has its answers in order, and PLAN_CHANGED
with the ports whose entry changed. A transaction under way on ports 1 to 3 goes on and removes nothing at its end. The
reports that wait are taken first (log 9). A frame start that waits at port 0's unit is taken where the default plan leaves it
no count to reach (log 8). -/
def Obligations.RestartResets : Prop :=
  ∀ (r : Request) (rest : List Request) (s : State), Takes .restart .p0 r rest s →
    ∃ u t, exec .markReportsTaken (taken .p0 rest s) = .next u ∧ exec (.restart .p0) s = .next t ∧
      t.layout =
        { slots := List.replicate 24 .free
          ports := PerPort.const { order := [], draft := none, sealedSet := none }
          plan := Plan.default s.scan.setup.w s.scan.setup.h
          sealedPlan := none
          retiring := [] } ∧
      t.marks = { lists := PerPort.const [], reports := [], withdrawn := [] } ∧ t.scan = s.scan ∧ t.comp = s.comp ∧
      (∀ q, q ≠ .p0 →
        t.port q = { attach := .disabled, requests := [], engine := .ready, deferred := [], responses := [],
                     notices := [], noticeLost := false, refusal := .none } ∧
        t.unit q = { s.unit q with
          sw := 1, sh := 0, showing := none, filling := .empty, monitor := .noSignal,
          good := 0, missed := 0, fsync := false, frameWaiting := false }) ∧
      ((s.unit .p0).frameWaiting = false ∨ (1 ≤ (s.unit .p0).sh ∧ reachesCount (t.entry .p0) (s.unit .p0)) →
        t.unit .p0 = s.unit .p0) ∧
      ((s.unit .p0).frameWaiting = true → ¬(1 ≤ (s.unit .p0).sh ∧ reachesCount (t.entry .p0) (s.unit .p0)) →
        judgedTo (t.entry .p0) (s.unit .p0) (t.unit .p0)) ∧
      (t.port .p0).attach = .attached ∧ (t.port .p0).requests = rest ∧
      (t.port .p0).engine = .ready ∧ (t.port .p0).refusal = (s.port .p0).refusal ∧
      (t.port .p0).responses = (s.port .p0).responses ++
        (((s.port .p0).deferred.find? fun x => x.code == RequestKind.planSet.code).toList.map fun x =>
          { tag := x.tag, code := x.code, result := .cancelled, fields := [] }) ++
        (((s.port .p0).deferred.find? fun x => x.code == RequestKind.publish.code).toList.map fun x =>
          { tag := x.tag, code := x.code, result := .cancelled, fields := [] }) ++
        [{ tag := r.tag, code := r.code, result := .done, fields := s.frameNow }] ∧
      (∀ n, changedBits (Plan.default s.scan.setup.w s.scan.setup.h) s n →
        let v := storeNotice .p0
          { kind := .planChanged, subject := 0x00, frame := s.scan.frame, count := 1, detail := byteOf n } u
        (t.port .p0).notices = (v.port .p0).notices ∧ (t.port .p0).noticeLost = (v.port .p0).noticeLost ∧
          t.link .p0 = v.link .p0) ∧
      ∀ q, q ≠ .p0 → t.link q =
        { s.link q with
          state := match (s.link q).state with
            | .sendingNotice f _ c => .sendingNotice f none c
            | .sendingResponse f _ c => .sendingResponse f false c
            | x => x }

/-- A port whose regions are retired and whose response queue is empty leaves LEAVING (R166): DETACHED or DISABLED as the
live plan says, its source silent with size 1 x 0, and PORT_LEFT goes to port 0. The read that removes the last response
completes the departure in the same way. -/
def Obligations.LeavingExitDeparts : Prop :=
  ∀ (p : PortId) (why : LeaveReason) (s : State), (s.port p).attach = .leaving why true →
    let away (c : PortController) (u : State) : State :=
      storeNotice .p0
        { kind := .portLeft, subject := byteOf p.toNat, frame := s.scan.frame, count := 1, detail := why.byte }
        { u with
          ports := u.ports.set p { c with attach := if (s.entry p).enabled then .detached else .disabled }
          sources := u.sources.set p { s.unit p with
            sw := 1, sh := 0, showing := none, filling := .empty,
            monitor := .noSignal, good := 0, missed := 0, fsync := false, frameWaiting := false } }
    ((s.port p).responses = [] → exec (.leavingExit p) s = .next (away (s.port p) s)) ∧
    ((s.port p).responses ≠ [] → exec (.leavingExit p) s = .next s) ∧
    ∀ (x : Response) (bs : List Byte), (s.link p).state = .idle → (s.port p).responses = [x] →
      x.frame.length ≤ bs.length →
      exec (.readResponse p (.whole bs)) s = .next
        (away { s.port p with responses := [], refusal := .none }
          (afterTransaction p (s.port p)
            ((s.port p).statusByte :: (x.frame ++ List.replicate (bs.length - x.frame.length) 0x00)) s))

/-! ### Reading the table and the lookup (1.6, 2.6) -/

/-- READ-REGION and READ-ORDER (R18, R19): the record of a slot, byte by byte in the layout of R181; the live order list of a
port, bottom entry first. -/
def Obligations.ReadTableAnswers : Prop :=
  ∀ (p : PortId) (r : Request) (rest : List Request) (b : Byte) (s : State), r.params = [b] →
    (Takes .readRegion p r rest s →
      let answer (res : Result) (fields : List Byte) : Prop :=
        exec (.readRegion p) s = .next (answered p r rest res fields s)
      (23 < b.toNat → answer .range []) ∧
      (b.toNat ≤ 23 →
        (p ≠ .p0 → (s.slot b.toNat).owner? ≠ some p → answer .notOwner []) ∧
        (p = .p0 → s.slot b.toNat = .free → answer .done (s.frameNow ++ [0x00])) ∧
        (∀ o k, s.slot b.toNat = .reserved o k → (p = .p0 ∨ o = p) →
          answer .done (s.frameNow ++ [0x01, byteOf o.toNat, if k = .linked then 0x00 else 0x01, 0x00])) ∧
        ∀ o k g c, s.slot b.toNat = .live o k g c → (p = .p0 ∨ o = p) →
          answer .done
            (s.frameNow ++ [0x02, byteOf o.toNat, if k = .linked then 0x00 else 0x01, g] ++ le16 c.x ++ le16 c.y ++
              le16 c.w ++ le16 c.h ++ (if k = .linked then le16 c.sx ++ le16 c.sy else []) ++
              [if c.visible then 0x01 else 0x00, if c.loss = .hide then 0x01 else 0x00, c.fill.extractLsb' 0 8,
                c.fill.extractLsb' 8 8, c.fill.extractLsb' 16 8, if c.guarded then 0x01 else 0x00]))) ∧
    (Takes .readOrder p r rest s →
      (3 < b.toNat → exec (.readOrder p) s = .next (answered p r rest .range [] s)) ∧
      ∀ q : PortId, b.toNat = q.toNat →
        (p ≠ .p0 → q ≠ p → exec (.readOrder p) s = .next (answered p r rest .notOwner [] s)) ∧
        (p = .p0 ∨ q = p →
          exec (.readOrder p) s = .next
            (answered p r rest .done
              (s.frameNow ++ [byteOf (s.lay q).order.length] ++ (s.lay q).order.map byteOf) s)))

/-- HIT (R37, R39): the topmost region that shows at the point, told to its owner and to port 0, FOREIGN to another port;
BACKGROUND where none shows. A warm count that waits has been taken (log 8). -/
def Obligations.HitAnswers : Prop :=
  ∀ (p : PortId) (r : Request) (rest : List Request) (x y : Nat) (s u : State),
    Takes .hit p r rest s → x < 65536 → y < 65536 → r.params = le16 x ++ le16 y → u = takeWarmCount (taken p rest s) →
    let answer (kind id : Byte) : Prop :=
      exec (.hit p) s = .next (replied p r .done (s.frameNow ++ [u.scan.panel.byte, kind, id]) u)
    (s.scan.setup.w ≤ x ∨ s.scan.setup.h ≤ y → exec (.hit p) s = .next (replied p r .range [] u)) ∧
    (x < s.scan.setup.w → y < s.scan.setup.h →
      ((∀ g ∈ stackRegions s, ¬showsAt s x y g) → answer 0x02 0xFF) ∧
      ∀ g, givesPoint s x y g →
        (p ≠ .p0 → g.owner ≠ p → answer 0x03 0xFF) ∧
        (p = .p0 ∨ g.owner = p →
          (regionContent s g = .source → answer 0x00 (byteOf g.id)) ∧
          (regionContent s g = .fill → answer 0x01 (byteOf g.id))))

/-! ### Drafts and publication (3) -/

/-- The checks that a draft request makes on the region it names, in their order (R43). -/
def Obligations.DraftRegionChecks : Prop :=
  ∀ (k : RequestKind) (p : PortId) (r : Request) (rest : List Request) (b : Byte) (more : List Byte) (s : State),
    k ∈ [.place, .source, .style, .order, .retire, .readDraft] → Takes k p r rest s → r.params = b :: more →
    let answer (res : Result) : Prop :=
      exec (requestCommand k p) s = .next (answered p r rest res [(s.editState p).byte] s)
    ((s.lay p).draft = none → answer .noDraft) ∧
    ∀ d, (s.lay p).draft = some d →
      (23 < b.toNat → answer .range) ∧
      (b.toNat ≤ 23 → (s.slot b.toNat).owner? ≠ some p → answer .notOwner) ∧
      (b.toNat ≤ 23 → (s.slot b.toNat).owner? = some p → b.toNat ∉ d.ids → answer .range)

/-- BEGIN (R44): DRAFT_OPEN over an open draft; else a draft that copies the waiting set, or the LIVE records in
order-list order. -/
def Obligations.BeginOpensDraft : Prop :=
  ∀ (p : PortId) (r : Request) (rest : List Request) (s : State), Takes .beginDraft p r rest s →
    ((s.lay p).draft ≠ none →
      exec (.beginDraft p) s = .next (answered p r rest .draftOpen [(s.editState p).byte] s)) ∧
    ((s.lay p).draft = none →
      (∀ pr, (s.lay p).sealedSet = some pr →
        exec (.beginDraft p) s = .next (withDraft p (some pr) (answered p r rest .done [0x03] s))) ∧
      ((s.lay p).sealedSet = none →
        ∃ d, exec (.beginDraft p) s = .next (withDraft p (some d) (answered p r rest .done [0x01] s)) ∧
          (∀ e ∈ d, (s.slot e.id).liveCopy? = some e.copy) ∧
          ((∀ id ∈ (s.lay p).order, (s.slot id).liveCopy? ≠ none) → d.ids = (s.lay p).order)))

/-- CREATE(kind) (R45, R10): its checks in order; on DONE the lowest FREE slot is RESERVED, and a copy with the defaults
of table 1.2 is at the top of the draft. -/
def Obligations.CreateReserves : Prop :=
  ∀ (p : PortId) (r : Request) (rest : List Request) (b : Byte) (s : State),
    Takes .create p r rest s → r.params = [b] →
    let answer (res : Result) : Prop := exec (.create p) s = .next (answered p r rest res [(s.editState p).byte] s)
    ((s.lay p).draft = none → answer .noDraft) ∧
    ∀ d, (s.lay p).draft = some d →
      (1 < b.toNat → answer .range) ∧
      (b.toNat ≤ 1 → (s.entry p).quota ≤ ownedCount p s → answer .quota) ∧
      (b = 0x00 → ownedCount p s < (s.entry p).quota → (s.unit p).sh = 0 → answer .noSource) ∧
      (b.toNat ≤ 1 → ownedCount p s < (s.entry p).quota → (b = 0x01 ∨ (s.unit p).sh ≠ 0) →
        ∀ id < s.layout.slots.length, s.slot id = .free → (∀ j < id, s.slot j ≠ .free) →
          exec (.create p) s = .next
            (withDraft p
              (some (d ++ [{ id := id, copy := { x := (s.entry p).tx, y := (s.entry p).ty, w := 1, h := 1, sx := 0,
                                                 sy := 0, visible := false, loss := .fill, fill := 0x000000, guarded := false } }]))
              { answered p r rest .done [(s.editState p).byte, byteOf id] s with
                layout := { s.layout with
                  slots := s.layout.slots.set id (.reserved p (if b = 0x00 then .linked else .solid)) } }))

/-- PLACE(id, x, y, w, h) on a region that the open draft names (R46). -/
def Obligations.PlaceSetsRectangle : Prop :=
  ∀ (p : PortId) (r : Request) (rest : List Request) (id : Byte) (x y w h : Nat) (d : Proposal) (s : State),
    Takes .place p r rest s → x < 65536 → y < 65536 → w < 65536 → h < 65536 →
    r.params = id :: (le16 x ++ le16 y ++ le16 w ++ le16 h) → (s.lay p).draft = some d → id.toNat ≤ 23 →
    (s.slot id.toNat).owner? = some p → id.toNat ∈ d.ids →
    (w = 0 ∨ h = 0 ∨ s.scan.setup.w < x + w ∨ s.scan.setup.h < y + h →
      exec (.place p) s = .next (answered p r rest .range [(s.editState p).byte] s)) ∧
    (1 ≤ w → 1 ≤ h → x + w ≤ s.scan.setup.w → y + h ≤ s.scan.setup.h →
      exec (.place p) s = .next
        (withDraft p
          (some (d.map fun e => if e.id = id.toNat then
            { e with copy := { e.copy with x := x, y := y, w := w, h := h } } else e))
          (answered p r rest .done [(s.editState p).byte] s)))

/-- SOURCE(id, sx, sy) on a region that the open draft names (R47). -/
def Obligations.SourceSetsWindow : Prop :=
  ∀ (p : PortId) (r : Request) (rest : List Request) (id : Byte) (sx sy : Nat) (d : Proposal) (s : State),
    Takes .source p r rest s → sx < 65536 → sy < 65536 →
    r.params = id :: (le16 sx ++ le16 sy) → (s.lay p).draft = some d → id.toNat ≤ 23 →
    (s.slot id.toNat).owner? = some p → id.toNat ∈ d.ids →
    ((s.slot id.toNat).kind? = some .solid →
      exec (.source p) s = .next (answered p r rest .noSource [(s.editState p).byte] s)) ∧
    ((s.slot id.toNat).kind? = some .linked → ((s.unit p).sw ≤ sx ∨ (s.unit p).sh ≤ sy) →
      exec (.source p) s = .next (answered p r rest .range [(s.editState p).byte] s)) ∧
    ((s.slot id.toNat).kind? = some .linked → sx < (s.unit p).sw → sy < (s.unit p).sh →
      exec (.source p) s = .next
        (withDraft p
          (some (d.map fun e => if e.id = id.toNat then { e with copy := { e.copy with sx := sx, sy := sy } } else e))
          (answered p r rest .done [(s.editState p).byte] s)))

/-- STYLE(id, visible, loss, fill, guarded) on a region that the open draft names (R48). -/
def Obligations.StyleSetsFields : Prop :=
  ∀ (p : PortId) (r : Request) (rest : List Request) (id v l blue green red g : Byte) (d : Proposal) (s : State),
    Takes .style p r rest s → r.params = [id, v, l, blue, green, red, g] → (s.lay p).draft = some d →
    id.toNat ≤ 23 → (s.slot id.toNat).owner? = some p → id.toNat ∈ d.ids →
    let answer (res : Result) : Prop := exec (.style p) s = .next (answered p r rest res [(s.editState p).byte] s)
    (1 < v.toNat ∨ 1 < l.toNat ∨ 1 < g.toNat ∨ (g = 0x01 ∧ v = 0x00) ∨ (g = 0x01 ∧ l = 0x01) → answer .range) ∧
    (g = 0x01 → v = 0x01 → l = 0x00 → (s.entry p).guard = false → answer .guard) ∧
    (v.toNat ≤ 1 → l.toNat ≤ 1 → (g = 0x00 ∨ (g = 0x01 ∧ v = 0x01 ∧ l = 0x00 ∧ (s.entry p).guard = true)) →
      exec (.style p) s = .next
        (withDraft p
          (some (d.map fun e => if e.id = id.toNat then
            { e with
              copy := { e.copy with
                visible := v == 0x01, loss := if l = 0x01 then .hide else .fill,
                fill := red ++ green ++ blue, guarded := g == 0x01 } } else e))
          (answered p r rest .done [(s.editState p).byte] s)))

/-- ORDER(id, op, other) on a region e that the open draft a ++ e :: b names once (R49): RANGE for another op; the checks of
the other region for ABOVE and BELOW; else the region moves and the rest close up. -/
def Obligations.OrderMoves : Prop :=
  ∀ (p : PortId) (r : Request) (rest : List Request) (id op other : Byte) (a b : Proposal) (e : DraftEntry) (s : State),
    Takes .order p r rest s → r.params = [id, op, other] → (s.lay p).draft = some (a ++ e :: b) →
    (a ++ e :: b).ids.Nodup → e.id = id.toNat → id.toNat ≤ 23 → (s.slot id.toNat).owner? = some p →
    let answer (res : Result) : Prop := exec (.order p) s = .next (answered p r rest res [(s.editState p).byte] s)
    let moved (d : Proposal) : Prop :=
      exec (.order p) s = .next (withDraft p (some d) (answered p r rest .done [(s.editState p).byte] s))
    (3 < op.toNat → answer .range) ∧
    (op = 0x00 → moved (a ++ b ++ [e])) ∧
    (op = 0x01 → moved (e :: (a ++ b))) ∧
    (op = 0x02 ∨ op = 0x03 →
      (23 < other.toNat ∨ other = id → answer .range) ∧
      (other.toNat ≤ 23 → (s.slot other.toNat).owner? ≠ some p → answer .notOwner) ∧
      (other.toNat ≤ 23 → (s.slot other.toNat).owner? = some p → other.toNat ∉ (a ++ e :: b).ids → answer .range) ∧
      ∀ (c f : Proposal) (o : DraftEntry), a ++ b = c ++ o :: f → o.id = other.toNat → other.toNat ≤ 23 →
        (s.slot other.toNat).owner? = some p →
        (op = 0x02 → moved (c ++ [o, e] ++ f)) ∧ (op = 0x03 → moved (c ++ [e, o] ++ f)))

/-- RETIRE and DISCARD (R50, R51, R11): the region, or the whole draft, leaves; a RESERVED slot of the port that neither
the draft nor the set names any more is FREE, and every other slot stays. -/
def Obligations.RetireAndDiscard : Prop :=
  ∀ (p : PortId) (r : Request) (rest : List Request) (s : State),
    let after (x : Option Proposal) (slots : List Slot) : State :=
      withDraft p x
        { answered p r rest .done
            [match x, (s.lay p).sealedSet with
              | none, none => 0x00
              | some _, none => 0x01
              | none, some _ => 0x02
              | some _, some _ => 0x03] s with
          layout := { s.layout with slots := slots } }
    let freed (x : Option Proposal) (slots : List Slot) : Prop :=
      slots.length = s.layout.slots.length ∧ ∀ i < slots.length,
        slots[i]? = some (if (s.slot i).reservedOf p = true ∧ optNames x i = false ∧
          optNames (s.lay p).sealedSet i = false then .free else s.slot i)
    (∀ (d : Proposal) (id : Byte), Takes .retire p r rest s → r.params = [id] → (s.lay p).draft = some d →
      id.toNat ≤ 23 → (s.slot id.toNat).owner? = some p → id.toNat ∈ d.ids →
      ∃ slots, freed (some (d.filter fun e => e.id ≠ id.toNat)) slots ∧
        exec (.retire p) s = .next (after (some (d.filter fun e => e.id ≠ id.toNat)) slots)) ∧
    (Takes .discard p r rest s →
      ((s.lay p).draft ≠ none → ∃ slots, freed none slots ∧ exec (.discard p) s = .next (after none slots)) ∧
      ((s.lay p).draft = none →
        exec (.discard p) s = .next (answered p r rest .noDraft [(s.editState p).byte] s)))

/-- READ-DRAFT on a region e that the open draft names first at e (R52, R181): state, owner, kind and generation from the
table, the rest from the copy, then the draft's list. -/
def Obligations.ReadDraftAnswers : Prop :=
  ∀ (p : PortId) (r : Request) (rest : List Request) (id : Byte) (a b : Proposal) (e : DraftEntry) (k : RegionKind)
    (head : List Byte) (s : State),
    Takes .readDraft p r rest s → r.params = [id] → (s.lay p).draft = some (a ++ e :: b) → e.id = id.toNat →
    id.toNat ∉ a.ids → id.toNat ≤ 23 →
    ((s.slot id.toNat = .reserved p k ∧ head = [0x01, byteOf p.toNat, if k = .linked then 0x00 else 0x01, 0x00]) ∨
      (∃ g c, s.slot id.toNat = .live p k g c ∧
        head = [0x02, byteOf p.toNat, if k = .linked then 0x00 else 0x01, g])) →
    exec (.readDraft p) s = .next
      (answered p r rest .done
        ([(s.editState p).byte] ++ head ++ le16 e.copy.x ++ le16 e.copy.y ++ le16 e.copy.w ++ le16 e.copy.h ++
          (if k = .linked then le16 e.copy.sx ++ le16 e.copy.sy else []) ++
          [if e.copy.visible then 0x01 else 0x00, if e.copy.loss = .hide then 0x01 else 0x00,
            e.copy.fill.extractLsb' 0 8, e.copy.fill.extractLsb' 8 8, e.copy.fill.extractLsb' 16 8,
            if e.copy.guarded then 0x01 else 0x00] ++
          [byteOf (a ++ e :: b).length] ++ (a ++ e :: b).map fun x => byteOf x.id) s)

/-- PUBLISH (R53, R59, R60): NO_DRAFT without a draft; in SEALED_DRAFTING the engine is BLOCKED and nothing else changes;
a draft that fails is refused and stays open, the checks made in the order of R54, naming the first region of the list
outside the territory (R55), then the first whose window misfits (R56), then the first guarded without the guard right
(R57), then the highest on the smallest crowded line (R58); one that passes is sealed with its response deferred, or while
DARK is live at once, with DONE. -/
def Obligations.PublishSeals : Prop :=
  ∀ (p : PortId) (r : Request) (rest : List Request) (s : State), Takes .publish p r rest s →
    ((s.lay p).draft = none → exec (.publish p) s = .next (answered p r rest .noDraft [(s.editState p).byte] s)) ∧
    ∀ d, (s.lay p).draft = some d →
      ((s.lay p).sealedSet ≠ none →
        exec (.publish p) s = .next
          { s with ports := s.ports.set p { s.port p with engine := .blocked } }) ∧
      ((s.lay p).sealedSet = none →
        (¬passesSeal p d s → ∃ res ∈ [Result.territory, .sourceWindow, .guard, .rowShare], ∃ e ∈ d,
          exec (.publish p) s = .next (answered p r rest res [0x01, byteOf e.id] s)) ∧
        (let answer (res : Result) (id : Nat) : Prop :=
            exec (.publish p) s = .next (answered p r rest res [0x01, byteOf id] s)
          let outside (x : DraftEntry) : Prop := ¬insideTerritory (s.entry p) x.copy
          let unguarded (x : DraftEntry) : Prop := x.copy.guarded = true ∧ (s.entry p).guard = false
          ∀ id, (firstWith outside d id → answer .territory id) ∧
            ((∀ x ∈ d, ¬outside x) →
              (firstWith (windowMisfits p s) d id → answer .sourceWindow id) ∧
              ((∀ x ∈ d, ¬windowMisfits p s x) →
                (firstWith unguarded d id → answer .guard id) ∧
                ((∀ x ∈ d, ¬unguarded x) → crowdNames (s.entry p).share s.scan.setup.h d id →
                  answer .rowShare id)))) ∧
        (passesSeal p d s →
          (s.scan.panel ≠ .dark →
            exec (.publish p) s = .next
              { s with
                ports := s.ports.set p
                  { s.port p with requests := rest, deferred := (s.port p).deferred ++ [r] }
                layout := { s.layout with
                  ports := s.layout.ports.set p
                    { s.lay p with draft := none, sealedSet := some d } } }) ∧
          (s.scan.panel = .dark →
            ∃ t, exec (.publish p) s = .next t ∧
              (t.port p).responses = (s.port p).responses ++
                [{ tag := r.tag, code := r.code, result := .done, fields := [0x00] ++ s.frameNow }] ∧
              (t.port p).requests = rest ∧ t.lay p = { order := d.ids, draft := none, sealedSet := none } ∧
              (s.TableLaw → ∀ e ∈ d, (t.slot e.id).liveCopy? = some e.copy) ∧
              t.scan = s.scan ∧ t.comp = s.comp ∧ t.sources = s.sources ∧ t.layout.plan = s.layout.plan ∧
              ∀ q, q ≠ p → t.lay q = s.lay q)))

/-! ### The plan (5) -/

/-- PLAN-SET (R91 to R94, R86): it blocks behind a sealed plan; RANGE for another mode (without fields: log 24);
PLAN_INVALID for a plan that fails a row of R91's table, naming the port of the first row that fails; a plan that fails no
row is sealed with its mode and its response deferred while the panel runs, and while DARK it is settled at once, with its
answer, its evictions, its enablements and its notices, behind which come the MARK_VOID of the reports. -/
def Obligations.PlanSetSeals : Prop :=
  ∀ (r : Request) (rest : List Request) (s : State), Takes .planSet .p0 r rest s →
    (s.layout.sealedPlan ≠ none →
      exec (.planSet .p0) s = .next { s with ports := s.ports.set .p0 { s.port .p0 with engine := .blocked } }) ∧
    (s.layout.sealedPlan = none → ∀ (b : Byte) (more : List Byte), r.params = b :: more →
      (1 < b.toNat → exec (.planSet .p0) s = .next (answered .p0 r rest .range [] s)) ∧
      (b.toNat ≤ 1 →
        (∀ q, planFault s.scan.setup.w s.scan.setup.h (rawEntries r.params) = some q →
          exec (.planSet .p0) s = .next
            (answered .p0 r rest .planInvalid (s.frameNow ++ [byteOf q.toNat, 0xFF]) s)) ∧
        (∀ i q, planCheck s.scan.setup.w s.scan.setup.h (rawEntries r.params) i q →
          (∀ j < i, ∀ k, ¬planCheck s.scan.setup.w s.scan.setup.h (rawEntries r.params) j k) →
          exec (.planSet .p0) s = .next
            (answered .p0 r rest .planInvalid (s.frameNow ++ [byteOf q.toNat, 0xFF]) s)) ∧
        ((∀ i q, ¬planCheck s.scan.setup.w s.scan.setup.h (rawEntries r.params) i q) →
          planFault s.scan.setup.w s.scan.setup.h (rawEntries r.params) = none) ∧
        (planFault s.scan.setup.w s.scan.setup.h (rawEntries r.params) = none →
          (paramPlan r.params).Lawful s.scan.setup.w s.scan.setup.h ∧
          (s.scan.panel ≠ .dark →
            exec (.planSet .p0) s = .next
              { s with
                ports := s.ports.set .p0
                  { s.port .p0 with requests := rest, deferred := (s.port .p0).deferred ++ [r] }
                layout := { s.layout with
                  sealedPlan :=
                  some { plan := paramPlan r.params, mode := if b = 0x01 then .evict else .keep } } }) ∧
          (s.scan.panel = .dark → s.TableLaw → s.WaitingLaw →
            let mode : PlanMode := if b = 0x01 then .evict else .keep
            ∃ t, exec (.planSet .p0) s = .next t ∧
              planSettled r (paramPlan r.params) mode s.scan.frame (taken .p0 rest s) t ∧
              t.layout.sealedPlan = none ∧ t.layout.retiring = [] ∧ t.scan = s.scan ∧ t.comp = s.comp ∧
              t.marks.reports = [] ∧
              ((mode = .evict ∨ ∀ p x, ¬orphans (paramPlan r.params) s p x) → ∀ p, (s.port p).attach = .attached →
                (t.port p).attach = .attached → ∃ voids, (∀ m ∈ voids, m.kind = .markVoid) ∧
                  planNotices (paramPlan r.params) mode s.scan.frame [] voids s t p)))))

/-- READ-PLAN (R105, R182): the whole live plan and the indication of the sealed one. -/
def Obligations.ReadPlanAnswers : Prop :=
  ∀ (p : PortId) (r : Request) (rest : List Request) (s : State), Takes .readPlan p r rest s →
    let entry (e : PlanEntry) : List Byte :=
      [if e.enabled then 0x01 else 0x00] ++ le16 e.tx ++ le16 e.ty ++ le16 e.tw ++ le16 e.th ++
        [byteOf e.quota, byteOf e.share, byteOf e.rank, if e.guard then 0x01 else 0x00,
          byteOf (16 * e.lockCount + e.tolerance)]
    exec (.readPlan p) s = .next
      (answered p r rest .done
        (s.frameNow ++
          [match s.layout.sealedPlan with
            | none => 0x00
            | some sp => if sp.mode = .keep then 0x01 else 0x02] ++
          [s.layout.plan.background.extractLsb' 0 8, s.layout.plan.background.extractLsb' 8 8,
            s.layout.plan.background.extractLsb' 16 8] ++
          entry (s.entry .p0) ++ entry (s.entry .p1) ++ entry (s.entry .p2) ++ entry (s.entry .p3)) s)

/-! ### Source links (6) -/

/-- SOURCE-FORMAT(SW, SH) (R123, R121): RANGE and IN_USE change nothing; DONE takes the size and forces the unit, which
leaves a frame start that waits no count to reach, so that the unit takes it and pulses FSYNC (R124, log 8). -/
def Obligations.SourceFormatTakesSize : Prop :=
  ∀ (p : PortId) (r : Request) (rest : List Request) (sw sh : Nat) (s : State),
    Takes .sourceFormat p r rest s → sw < 65536 → sh < 65536 → r.params = le16 sw ++ le16 sh →
    let inRange : Prop := 1 ≤ sw ∧ sw ≤ 1024 ∧ sh ≤ 1024 ∧ sw * sh ≤ 262144
    let linked : Prop := ∃ x ∈ s.layout.slots, x.owner? = some p ∧ x.kind? = some .linked
    let size : List Byte := le16 (s.unit p).sw ++ le16 (s.unit p).sh
    (¬inRange → exec (.sourceFormat p) s = .next (answered p r rest .range size s)) ∧
    (inRange → linked → exec (.sourceFormat p) s = .next (answered p r rest .inUse size s)) ∧
    (inRange → ¬linked → exec (.sourceFormat p) s = .next
      { answered p r rest .done (le16 sw ++ le16 sh) s with
        sources := s.sources.set p { s.unit p with
          sw := sw, sh := sh, showing := none, filling := .empty,
          monitor := .noSignal, good := 0, missed := 0,
          fsync := (s.unit p).fsync || (s.unit p).frameWaiting,
          pulsed := (s.unit p).pulsed || (s.unit p).frameWaiting, frameWaiting := false } })

/-- A frame-begin marker (R110): whatever the state of the FILLING bank of a running unit, it becomes RECEIVING with next
next line 0, and the SHOWING bank, the monitor and the counts stay. A unit that does not run ignores it (R108). Where a
frame start waits at the unit, the marker may leave it no count to reach, and the unit then takes it (R120, log 8). -/
def Obligations.FrameBeginStartsReceiving : Prop :=
  ∀ (p : PortId) (s : State),
    ((s.port p).attach = .attached → 1 ≤ (s.unit p).sh →
      ((s.unit p).frameWaiting = false → exec (.frameBeginMarker p) s = .next (withFilling p (.receiving []) s)) ∧
      ∃ t, exec (.frameBeginMarker p) s = .next t ∧ filled p (.receiving []) s t) ∧
    ((s.port p).attach ≠ .attached ∨ (s.unit p).sh = 0 → exec (.frameBeginMarker p) s = .next s)

/-- Line packets, damaged packets and frame-end markers (R109, R111, R112) by the table of 6.2, for a running unit; one
that does not run ignores them (R108). Nothing but the FILLING bank changes, but for a frame start that waits at the unit
and that the packet leaves no count to reach: the unit then takes it (R120, log 8). -/
def Obligations.PacketsFillBank : Prop :=
  ∀ (p : PortId) (index : Nat) (pixels : List Colour) (s : State),
    let leaves (c : Instr) (f : Filling) : Prop :=
      ((s.unit p).frameWaiting = false → exec c s = .next (withFilling p f s)) ∧
        ∃ t, exec c s = .next t ∧ filled p f s t
    ((s.port p).attach = .attached → 1 ≤ (s.unit p).sh →
      (∀ lines, (s.unit p).filling = .receiving lines →
        (index = lines.length → lines.length < (s.unit p).sh → pixels.length = (s.unit p).sw →
          leaves (.linePacket p index pixels) (.receiving (lines ++ [pixels]))) ∧
        (index ≠ lines.length ∨ (s.unit p).sh ≤ lines.length ∨ pixels.length ≠ (s.unit p).sw →
          leaves (.linePacket p index pixels) .empty) ∧
        (lines.length = (s.unit p).sh → leaves (.frameEndMarker p) (.ready lines)) ∧
        (lines.length ≠ (s.unit p).sh → leaves (.frameEndMarker p) .empty)) ∧
      (∀ lines, (s.unit p).filling = .ready lines →
        leaves (.linePacket p index pixels) .empty ∧ leaves (.frameEndMarker p) (.ready lines)) ∧
      ((s.unit p).filling = .empty →
        leaves (.linePacket p index pixels) .empty ∧ leaves (.frameEndMarker p) .empty) ∧
      leaves (.damagedPacket p) .empty) ∧
    ((s.port p).attach ≠ .attached ∨ (s.unit p).sh = 0 →
      exec (.linePacket p index pixels) s = .next s ∧ exec (.frameEndMarker p) s = .next s ∧
        exec (.damagedPacket p) s = .next s)

/-- A frame start that waits at a running unit reaches the lock count on a fresh frame, or the loss tolerance on a missed
one (R113, R114, R116, R117): the banks exchange, the monitor moves, FSYNC pulses, and the notices go out. -/
def Obligations.LockAndLossReached : Prop :=
  ∀ (p : PortId) (s : State), (s.port p).attach = .attached → 1 ≤ (s.unit p).sh → (s.unit p).frameWaiting = true →
    let after (u : SourceUnit) : State := { s with sources := s.sources.set p u }
    let note (k : NoticeKind) (n : Nat) : Notice :=
      { kind := k, subject := byteOf p.toNat, frame := s.scan.frame, count := 1, detail := byteOf n }
    (∀ pic good, (s.unit p).filling = .ready pic →
      ((s.unit p).monitor = .noSignal ∧ (s.entry p).lockCount = 1 ∧ good = 1 ∨
        (s.unit p).monitor = .acquiring ∧ good = min 7 ((s.unit p).good + 1) ∧ (s.entry p).lockCount ≤ good) →
      exec (.lockCountReached p) s = .next
        (storeNotice p (note .sourceLocked good)
          (after { s.unit p with
            showingBank := (s.unit p).showingBank.other, showing := some pic, filling := .empty,
            monitor := .locked, good := good, missed := 0, fsync := true, pulsed := true, frameWaiting := false }))) ∧
    (∀ missed, (∀ pic, (s.unit p).filling ≠ .ready pic) → (s.unit p).monitor = .locked →
      missed = min 15 ((s.unit p).missed + 1) → (s.entry p).tolerance ≤ missed →
      exec (.lossToleranceReached p) s = .next
        (storeNotices ((p, note .sourceLost missed) :: if p = .p0 then [] else [(.p0, note .sourceLost missed)])
          (after { s.unit p with
            monitor := .lost, good := 0, missed := missed, fsync := true, pulsed := true,
            frameWaiting := false })))

/-- A frame start is judged at the unit of an ATTACHED port whose declared SH is at least 1, here as the first work of the
frame start, so by the plan of before (R113, R114, R115, R117): fresh, the READY bank is shown; missed, the banks stay;
the monitor and the counts move by the table of R114, unless the commit then takes the port away, and FSYNC has pulsed, also
where it does (log 21). Elsewhere in the order the unit judges by the same table, behind the commit by the plan it leaves.
Wherever the order has it, the judgement sends its SOURCE_LOCKED or SOURCE_LOST, among the other notices of the frame start
(R116). A unit that the order leaves out judges by the plan after the commit, or, where the judgement reaches a count, waits
(log 8). -/
def Obligations.FrameStartJudges : Prop :=
  ∀ (now : List FrameWork) (p : PortId) (s : State), s.scan.panel ≠ .dark → frameEnds s → ¬coolEnds s →
    (s.port p).attach = .attached → 1 ≤ (s.unit p).sh → (s.unit p).frameWaiting = false →
    (.unit p ∉ now → ∃ t, exec (.frameStart now) s = .next t ∧ ((t.port p).attach = .attached →
      (¬reachesCount (t.entry p) (s.unit p) → judgedTo (t.entry p) (s.unit p) (t.unit p)) ∧
      (reachesCount (t.entry p) (s.unit p) → t.unit p = { s.unit p with pulsed := false, frameWaiting := true }))) ∧
    (∃ t, exec (.frameStart (.unit p :: now)) s = .next t ∧ (t.unit p).pulsed = true ∧ ((t.port p).attach = .attached →
      let u := s.unit p
      let judged (x : SourceUnit) : Prop := t.unit p = { x with fsync := true, pulsed := true, frameWaiting := false }
      (∀ pic, u.filling = .ready pic →
        let x : SourceUnit := { u with showingBank := u.showingBank.other, showing := some pic, filling := .empty }
        (u.monitor = .noSignal →
          judged { x with
            monitor := if (s.entry p).lockCount = 1 then .locked else .acquiring, good := 1, missed := 0 }) ∧
        (u.monitor = .acquiring →
          ((s.entry p).lockCount ≤ min 7 (u.good + 1) →
            judged { x with monitor := .locked, good := min 7 (u.good + 1), missed := 0 }) ∧
          (min 7 (u.good + 1) < (s.entry p).lockCount → judged { x with good := min 7 (u.good + 1) })) ∧
        (u.monitor = .locked → judged { x with missed := 0 }) ∧
        (u.monitor = .lost → judged { x with monitor := .acquiring, good := 1, missed := 0 })) ∧
      ((∀ pic, u.filling ≠ .ready pic) →
        (u.monitor = .noSignal → judged { u with good := 0 }) ∧
        (u.monitor = .acquiring → judged { u with monitor := .noSignal, good := 0, missed := 0 }) ∧
        (u.monitor = .locked →
          ((s.entry p).tolerance ≤ min 15 (u.missed + 1) →
            judged { u with monitor := .lost, good := 0, missed := min 15 (u.missed + 1) }) ∧
          (min 15 (u.missed + 1) < (s.entry p).tolerance → judged { u with missed := min 15 (u.missed + 1) })) ∧
        (u.monitor = .lost → judged { u with missed := min 15 (u.missed + 1) })))) ∧
    ∀ a b, .unit p ∉ a → now = a ++ .unit p :: b →
      ∃ u t, exec .markReportsTaken s = .next u ∧ exec (.frameStart now) s = .next t ∧
        let e := if .commit ∈ a then t.entry p else s.entry p
        ((t.port p).attach = .attached → judgedTo e (s.unit p) (t.unit p)) ∧
        ((t.port p).attach = .attached ∨ .commit ∉ a →
          ∀ q, (s.port q).attach = .attached → (t.port q).attach = .attached → ∃ ns,
            (ns.filter fun n => (n.kind == .sourceLocked || n.kind == .sourceLost) && n.subject == byteOf p.toNat) =
              judgedNotices (s.scan.frame + 1) p e (s.unit p) q ∧
            (t.port q).notices = (withNotices q ns u).notices ∧ (t.port q).noticeLost = (withNotices q ns u).noticeLost)

/-! ### Scan marks (7) -/

/-- MARK(id, offset, count), after the reports that wait are taken (R126, log 9): its checks in order; on DONE a mark with
the lowest free id is in its place in the list. A FREE slot gives NOT_OWNER by R126, and NOT_LIVE where the latest commit
withdrew it from the sender (R83, R136; that this holds to the next commit is the model's choice, log 30). -/
def Obligations.MarkPlacesMark : Prop :=
  ∀ (p : PortId) (r : Request) (rest : List Request) (id count : Byte) (offset : Nat) (s : State),
    Takes .mark p r rest s → offset < 65536 → r.params = id :: (le16 offset ++ [count]) →
    ∃ u, exec .markReportsTaken (taken p rest s) = .next u ∧
      let answer (res : Result) : Prop := exec (.mark p) s = .next (replied p r res s.frameNow u)
      (23 < id.toNat → answer .range) ∧
      (id.toNat ≤ 23 → (s.slot id.toNat).owner? ≠ some p →
        ¬(s.slot id.toNat = .free ∧ (p, id.toNat) ∈ s.marks.withdrawn) → answer .notOwner) ∧
      (id.toNat ≤ 23 → s.slot id.toNat = .free → (p, id.toNat) ∈ s.marks.withdrawn → answer .notLive) ∧
      (id.toNat ≤ 23 → ∀ k, s.slot id.toNat = .reserved p k → answer .notLive) ∧
      (id.toNat ≤ 23 → ∀ k g c, s.slot id.toNat = .live p k g c →
        (c.h ≤ offset → answer .range) ∧
        (offset < c.h → (∀ m < 4, ∃ x ∈ u.markList p, x.id = m) → answer .markFull) ∧
        ∀ (m : Nat) (a b : List Mark), offset < c.h → m < 4 → u.markList p = a ++ b →
          (∀ x ∈ a, x.id < m) → (∀ x ∈ b, m < x.id) → (∀ j < m, ∃ x ∈ a, x.id = j) →
          exec (.mark p) s = .next
            { replied p r .done (s.frameNow ++ [byteOf m]) u with
              marks := { u.marks with
                lists := u.marks.lists.set p
                  (a ++ { id := m, region := id.toNat, offset := offset, remaining := count.toNat } :: b) } })

/-- UNMARK and READ-MARKS, after the reports that wait are taken (R127, R128, log 9): RANGE above 3, ALREADY for a mark
the list does not hold, else the mark is removed; and the list, mark by mark. -/
def Obligations.UnmarkAndReadMarks : Prop :=
  ∀ (p : PortId) (r : Request) (rest : List Request) (s : State),
    ∃ u, exec .markReportsTaken (taken p rest s) = .next u ∧
      (∀ b : Byte, Takes .unmark p r rest s → r.params = [b] →
        (3 < b.toNat → exec (.unmark p) s = .next (replied p r .range s.frameNow u)) ∧
        (b.toNat ≤ 3 → (∀ m ∈ u.markList p, m.id ≠ b.toNat) →
          exec (.unmark p) s = .next (replied p r .already s.frameNow u)) ∧
        (b.toNat ≤ 3 → (∃ m ∈ u.markList p, m.id = b.toNat) →
          exec (.unmark p) s = .next
            { replied p r .done s.frameNow u with
              marks := { u.marks with
                lists :=
                u.marks.lists.set p ((u.markList p).filter fun m => m.id ≠ b.toNat) } })) ∧
      (Takes .readMarks p r rest s →
        exec (.readMarks p) s = .next
          (replied p r .done
            (s.frameNow ++ [byteOf (u.markList p).length] ++
              (u.markList p).flatMap fun m => [byteOf m.id, byteOf m.region] ++ le16 m.offset ++ [byteOf m.remaining])
            u))

/-- The reports that wait are taken (R132), in their order: each sends MARK_VOID, with the frame number of its commit, for
every mark of its owner that it breaks, in list order, and removes those marks and no other. Beside the mark lists only
queues of notices and notice-lost flags change, and what a READ_NOTICE under way has counted. -/
def Obligations.ReportsRemoveMarks : Prop :=
  (∀ s : State, ∃ t, exec .markReportsTaken s = .next t ∧ t.marks.reports = [] ∧
    (∀ p, t.markList p = (s.markList p).filter fun m =>
      s.marks.reports.all fun x => !(decide (x.owner = p) && x.breaks m)) ∧
    t.marks.withdrawn = s.marks.withdrawn ∧
    t.layout = s.layout ∧ t.sources = s.sources ∧ t.scan = s.scan ∧ t.comp = s.comp ∧
    ∀ p, t.port p =
        { s.port p with notices := (t.port p).notices, noticeLost := (t.port p).noticeLost } ∧
      (t.link p).dout = (s.link p).dout ∧
      ((∀ f k n, (s.link p).state ≠ .sendingNotice f (some k) n) → t.link p = s.link p)) ∧
  (∀ s : State, s.marks.reports = [] → exec .markReportsTaken s = .next s) ∧
  ∀ (x : Report) (more : List Report) (s : State), s.marks.reports = x :: more →
    exec .markReportsTaken s = exec .markReportsTaken
      (storeNotices
        (((s.markList x.owner).filter fun m => x.breaks m).map fun m =>
          (x.owner, { kind := .markVoid, subject := byteOf m.id, frame := x.frame, count := 1,
                      detail := byteOf m.region }))
        { s with
          marks := { s.marks with
            lists := s.marks.lists.set x.owner ((s.markList x.owner).filter fun m => !x.breaks m)
            reports := more } })

/-! ### The panel (8) -/

/-- PANEL-SETUP (R148): its checks in order; on DONE the six fields take the new values together. -/
def Obligations.PanelSetupTakesFields : Prop :=
  ∀ (r : Request) (rest : List Request) (w h : Nat) (vblank warm cool divider : Byte) (s : State),
    Takes .panelSetup .p0 r rest s → w < 65536 → h < 65536 →
    r.params = le16 w ++ le16 h ++ [vblank, warm, cool, divider] →
    let new : Setup := { w := w, h := h, vblank := vblank.toNat, warm := warm.toNat, cool := cool.toNat,
                         divider := divider.toNat }
    let bytes (u : Setup) : List Byte :=
      le16 u.w ++ le16 u.h ++ [byteOf u.vblank, byteOf u.warm, byteOf u.cool, byteOf u.divider]
    let outside (q : PortId) : Prop := (s.entry q).enabled = true ∧
      (w < (s.entry q).tx + (s.entry q).tw ∨ h < (s.entry q).ty + (s.entry q).th)
    let answer (res : Result) (named : Byte) : Prop :=
      exec (.panelSetup .p0) s = .next (answered .p0 r rest res (s.frameNow ++ [named] ++ bytes s.scan.setup) s)
    (s.scan.panel ≠ .dark → answer .wrongState 0xFF) ∧
    (s.scan.panel = .dark → ¬new.Lawful → answer .range 0xFF) ∧
    (s.scan.panel = .dark → new.Lawful →
      (∀ q, outside q → (∀ j : PortId, j.toNat < q.toNat → ¬outside j) → answer .territory (byteOf q.toNat)) ∧
      ((∀ q, ¬outside q) →
        exec (.panelSetup .p0) s = .next
          { answered .p0 r rest .done (s.frameNow ++ [0xFF] ++ bytes new) s with
            scan := { s.scan with setup := new } }))

/-- PANEL-ON (R142): ALREADY while WARMING or LIVE, WRONG_STATE while COOLING; while DARK the panel enters WARMING with the
warm counter 0 and a frame start at once, whose number the DONE carries, and nothing waits after its commit. Where nothing
waited, which DARK promises (R41, R84), every unit of an ATTACHED port is judged and pulses FSYNC (R113, R117), but for one
that the order leaves out and that reaches a count, which waits (log 8); and PANEL_STATE WARMING, from DARK, reaches every
ATTACHED port (R147), alone where the order lists no unit. -/
def Obligations.PanelOnStartsWarming : Prop :=
  ∀ (now : List FrameWork) (r : Request) (rest : List Request) (s : State),
    Takes .panelOn .p0 r rest s → s.scan.warmWaiting = false →
    (s.scan.panel = .warming ∨ s.scan.panel = .live →
      exec (.panelOn .p0 now) s = .next (answered .p0 r rest .already s.frameNow s)) ∧
    (s.scan.panel = .cooling →
      exec (.panelOn .p0 now) s = .next (answered .p0 r rest .wrongState s.frameNow s)) ∧
    (s.scan.panel = .dark →
      ∃ t, exec (.panelOn .p0 now) s = .next t ∧
        t.scan = { s.scan with
          panel := .warming, warm := 0, frame := s.scan.frame + 1, pos := none,
          coolingFrame := false } ∧
        t.comp = { list := [], output := .blank } ∧ t.layout.sealedPlan = none ∧ t.layout.retiring = [] ∧
        (∀ p, (t.lay p).sealedSet = none) ∧
        (∃ rs, (t.port .p0).responses = rs ++
          [{ tag := r.tag, code := r.code, result := .done, fields := t.frameNow }]) ∧
        (s.layout.sealedPlan = none → s.layout.retiring = [] → (∀ p, (s.lay p).sealedSet = none) →
          t.layout.plan = s.layout.plan ∧ ∀ p, t.lay p = s.lay p ∧ (t.port p).attach = (s.port p).attach ∧
            ((s.port p).attach ≠ .attached → t.unit p = { s.unit p with pulsed := false, frameWaiting := false }) ∧
            ((s.port p).attach = .attached →
              (.unit p ∈ now ∨ (s.unit p).sh = 0 ∨ ¬reachesCount (s.entry p) (s.unit p) →
                judgedTo (s.entry p) (s.unit p) (t.unit p)) ∧
              (.unit p ∉ now → 1 ≤ (s.unit p).sh → reachesCount (s.entry p) (s.unit p) →
                t.unit p = { s.unit p with pulsed := false, frameWaiting := true }) ∧
              ((∃ n ∈ (t.port p).notices,
                  n.kind = .panelState ∧ n.subject = 0x01 ∧ n.frame = s.scan.frame + 1 ∧ n.detail = 0x00) ∨
                (t.port p).noticeLost = true) ∧
              ((∀ q, .unit q ∉ now) → s.marks.reports = [] →
                let c := withNotices p
                  [{ kind := .panelState, subject := 0x01, frame := s.scan.frame + 1, count := 1, detail := 0x00 }] s
                (t.port p).notices = c.notices ∧ (t.port p).noticeLost = c.noticeLost))))

/-- PANEL-OFF and READ-PANEL with no warm count waiting (R145, R147, R149): WARMING and LIVE go to COOLING at once with
both counters 0 and PANEL_STATE to every port; COOLING and DARK give ALREADY; and the Scan Timer's state, byte by byte. -/
def Obligations.PanelOffAndReadPanel : Prop :=
  ∀ (p : PortId) (r : Request) (rest : List Request) (s : State), s.scan.warmWaiting = false →
    (Takes .panelOff .p0 r rest s →
      (s.scan.panel = .warming ∨ s.scan.panel = .live →
        exec (.panelOff .p0) s = .next
          (replied .p0 r .done s.frameNow
            (storeNotices
              (PortId.all.map fun q => (q, { kind := .panelState, subject := 0x03, frame := s.scan.frame, count := 1,
                                             detail := if s.scan.panel = .warming then 0x01 else 0x02 }))
              { taken .p0 rest s with
                scan := { s.scan with panel := .cooling, warm := 0, cool := 0, coolingFrame := false } }))) ∧
      (s.scan.panel = .cooling ∨ s.scan.panel = .dark →
        exec (.panelOff .p0) s = .next (answered .p0 r rest .already s.frameNow s))) ∧
    (Takes .readPanel p r rest s →
      exec (.readPanel p) s = .next
        (answered p r rest .done
          ([match s.scan.panel with
              | .dark => 0x00
              | .warming => 0x01
              | .live => 0x02
              | .cooling => (0x03 : Byte)] ++ s.frameNow ++
            (match s.scan.pos with
              | none => [0xFF, 0xFF]
              | some l => le16 l) ++
            [match s.scan.panel with
              | .warming => byteOf s.scan.warm
              | .cooling => byteOf s.scan.cool
              | _ => (0x00 : Byte)] ++
            le16 s.scan.setup.w ++ le16 s.scan.setup.h ++
            [byteOf s.scan.setup.vblank, byteOf s.scan.setup.warm, byteOf s.scan.setup.cool,
              byteOf s.scan.setup.divider]) s))

/-- A frame start (R139, R69, R70, R78, R113, R117, R138, R143, R146) comes at the end of the frame's last line, and nowhere
else, in a panel that is not DARK; here one that does not end COOLING: the number advances, the position is BLANK, nothing
waits in the Layout Store, every engine is READY, the count of the panel state is kept, and each ATTACHED port's unit has
pulsed FSYNC. So has the unit of a port that the commit then takes away, where the order has the unit before the commit (log
21); a port that is not ATTACHED gets no pulse. The line list is empty after it (the model's choice, log 19). A warm count
that completes, and a judgement that reaches a count, wait where the order leaves them out (the model's choice, log 8); where
the order has the warm count, PANEL_STATE LIVE goes to every ATTACHED port (R147). The regions of the ports on the retirement
list are retired, and each such port leaves LEAVING if no response waits, PORT_LEFT going to port 0 (R73, R166). -/
def Obligations.FrameStartCommits : Prop :=
  ∀ (now : List FrameWork) (s : State),
    (s.scan.panel = .dark ∨ ¬frameEnds s → exec (.frameStart now) s = .next s) ∧
    (s.scan.panel ≠ .dark → frameEnds s → ¬coolEnds s → s.scan.warmWaiting = false →
    ∃ t, exec (.frameStart now) s = .next t ∧
      t.scan.frame = s.scan.frame + 1 ∧ t.scan.pos = none ∧ t.scan.setup = s.scan.setup ∧
      t.comp = { list := [], output := .blank } ∧ t.layout.sealedPlan = none ∧ t.layout.retiring = [] ∧
      (∀ p, (t.lay p).sealedSet = none ∧ (t.port p).engine = .ready) ∧
      (s.scan.panel = .live → t.scan.panel = .live ∧ t.scan.warm = s.scan.warm ∧ t.scan.cool = s.scan.cool) ∧
      (s.scan.panel = .cooling → t.scan.panel = .cooling ∧ t.scan.coolingFrame = true ∧
        t.scan.cool = s.scan.cool + if s.scan.coolingFrame then 1 else 0) ∧
      (s.scan.panel = .warming →
        (s.scan.warm + 1 < s.scan.setup.warm →
          t.scan.panel = .warming ∧ t.scan.warm = s.scan.warm + 1 ∧ t.scan.warmWaiting = false) ∧
        (s.scan.setup.warm ≤ s.scan.warm + 1 →
          (.timer ∈ now → t.scan.panel = .live ∧ t.scan.warm = 0 ∧ t.scan.warmWaiting = false) ∧
          (.timer ∉ now →
            t.scan.panel = .warming ∧ t.scan.warm = s.scan.warm ∧ t.scan.warmWaiting = true))) ∧
      (∀ p, (t.port p).attach = .attached →
        ((t.unit p).fsync = true ∧ (t.unit p).pulsed = true ∧ (t.unit p).frameWaiting = false) ∨
          (.unit p ∉ now ∧ (t.unit p).frameWaiting = true ∧ 1 ≤ (t.unit p).sh ∧
            reachesCount (t.entry p) (t.unit p))) ∧
      ∀ p, ((s.port p).attach ≠ .attached → (t.unit p).pulsed = false) ∧
        ((s.port p).attach = .attached → ∀ a b, now = a ++ .unit p :: b → .commit ∉ a → (t.unit p).pulsed = true)) ∧
    (s.scan.panel ≠ .dark → frameEnds s → ¬coolEnds s → s.TableLaw → s.WaitingLaw → s.scan.warmWaiting = false →
      ∃ u t, exec .markReportsTaken s = .next u ∧ exec (.frameStart now) s = .next t ∧ portsRetired s t ∧
        ∀ q, (s.port q).attach = .attached → (t.port q).attach = .attached → ∃ ns,
          (ns.filter fun n => n.kind == .panelState) =
            (if .timer ∈ now ∧ s.scan.panel = .warming ∧ s.scan.setup.warm ≤ s.scan.warm + 1 then
              [{ kind := .panelState, subject := 0x02, frame := s.scan.frame + 1, count := 1, detail := 0x01 }]
            else []) ∧
          (q = .p0 → ∀ p ∈ s.layout.retiring, ∀ why, (s.port p).attach = .leaving why false →
            (ns.filter fun n => n.kind == .portLeft && n.subject == byteOf p.toNat) =
              if (t.port p).responses = [] then [portLeftNotice (s.scan.frame + 1) p why] else []) ∧
          (t.port q).notices = (withNotices q ns u).notices ∧ (t.port q).noticeLost = (withNotices q ns u).noticeLost)

/-- A frame start applies every waiting set where no plan waits (R74, R75, R77): the order list is the set's, each named
slot is LIVE with the set's copy, the draft stays, the table of other ports is untouched by it, and the deferred PUBLISH
is answered DONE with the edit state after the set has ended (log 32) and the frame number. The Mark Unit keeps exactly
the regions that the commit withdrew (R79, log 30). The ports on the retirement list are retired (R73, R166). The notices to
an ATTACHED port, behind those of the reports that wait (log 9), are those of the works in the order, SOURCE_LOCKED,
SOURCE_LOST and PANEL_STATE LIVE, and PORT_LEFT where the commit stands, which comes last where the order leaves it out
(R116, R147, logs 7, 33). No block takes the frame start twice (R139). -/
def Obligations.FrameStartAppliesSets : Prop :=
  ∀ (now : List FrameWork) (s : State), FrameWork.distinct now = true → s.scan.panel ≠ .dark → frameEnds s →
    ¬coolEnds s → s.layout.sealedPlan = none → s.TableLaw → s.WaitingLaw →
    ∃ u t, exec .markReportsTaken s = .next u ∧ exec (.frameStart now) s = .next t ∧ setsApplied s t ∧
      portsRetired s t ∧
      (s.scan.warmWaiting = false → ∀ q, (s.port q).attach = .attached → (t.port q).attach = .attached ∧
        let works : List FrameWork := if .commit ∈ now then now else now ++ [.commit]
        let c := withNotices q (works.flatMap (workNotices s q)) u
        (t.port q).notices = c.notices ∧ (t.port q).noticeLost = c.noticeLost)

/-- A frame start settles the sealed plan (R72, R97 to R103, R66, R167). In KEEP mode it is refused whole with PLAN_ORPHANS,
naming the port and the region of the first conflict, and the live plan stays, else it is live. In EVICT mode it is live;
each port whose entry changed loses its draft and set, with DRAFT_VOID for its PUBLISH (also where the plan disables it: log
31; with edit state IDLE: log 32), and an ATTACHED one that stays enabled loses the regions of the three passes. The answer
carries the frame number of the commit, enablement is handed to the ports whose enabled field changed, and the notices
DRAFT_VOID, REGION_EVICTED and PLAN_CHANGED go in that order. The sets that still wait after that are applied by the same
commit (R71, R74, R98, R99). -/
def Obligations.FrameStartSettlesPlan : Prop :=
  ∀ (now : List FrameWork) (sp : SealedPlan) (s : State), s.scan.panel ≠ .dark → frameEnds s → ¬coolEnds s →
    s.layout.sealedPlan = some sp →
    ∃ t, exec (.frameStart now) s = .next t ∧
      (sp.mode = .evict → t.layout.plan = sp.plan ∧
        ∀ p, sp.plan.entries.get p ≠ s.entry p → (t.lay p).draft = none) ∧
      (sp.mode = .keep →
        (keepConflict sp.plan s = none → t.layout.plan = sp.plan) ∧
        (keepConflict sp.plan s ≠ none → t.layout.plan = s.layout.plan ∧
          ∀ r, ((s.port .p0).deferred.find? fun x => x.code == RequestKind.planSet.code) = some r →
            ∃ x ∈ (t.port .p0).responses, x.tag = r.tag ∧ x.code = r.code ∧ x.result = .planOrphans)) ∧
      (s.TableLaw → s.WaitingLaw → sp.plan.entries.p0.enabled = true → (s.port .p0).attach = .attached →
        (∀ r, ((s.port .p0).deferred.find? fun x => x.code == RequestKind.planSet.code) = some r →
          planSettled r sp.plan sp.mode (s.scan.frame + 1) s t) ∧
        (FrameWork.distinct now = true → setsStillApplied sp.plan sp.mode s t) ∧
        (now = [] → s.marks.reports = [] → (sp.mode = .evict ∨ ∀ p x, ¬orphans sp.plan s p x) →
          ∀ p, (s.port p).attach = .attached → (t.port p).attach = .attached →
            planNotices sp.plan sp.mode (s.scan.frame + 1) [] [] s t p))

/-- The generations of every application (R76, R9, R84, R85, R86): the commit of a frame start, the commit on entry into
DARK, and the immediate applications of a DARK panel by PUBLISH, PLAN-SET, BYE and EJECT. A region LIVE after it keeps its
generation if it was LIVE before with the same fields at the same place of its owner's order list, has one more (wrapping at
256) if it was LIVE before otherwise, and 1 if it was not LIVE before. -/
def Obligations.GenerationsAdvance : Prop :=
  (∀ (now : List FrameWork) (s : State), s.scan.panel ≠ .dark → frameEnds s → ¬coolEnds s →
    ∃ t, exec (.frameStart now) s = .next t ∧ generationsAdvanced s t) ∧
  (∀ (noticeFirst : Bool) (s : State), coolEnds s →
    ∃ t, exec (.entryIntoDark noticeFirst) s = .next t ∧ generationsAdvanced s t) ∧
  ∀ (p : PortId) (s : State), s.scan.panel = .dark → s.TableLaw →
    ∀ c ∈ [Instr.publish p, .planSet .p0, .bye p, .eject .p0],
      ∃ t, exec c s = .next t ∧ generationsAdvanced s t

/-- The warm count that waits reaches the warm value (R143, R147): the panel enters LIVE, the counter returns to 0 and
PANEL_STATE goes to every port; below the value the event does nothing (log 2). -/
def Obligations.WarmCountEntersLive : Prop :=
  ∀ s : State, s.scan.panel = .warming → s.scan.warmWaiting = true →
    (s.scan.setup.warm ≤ s.scan.warm + 1 →
      exec .warmCountReached s = .next
        (storeNotices
          (PortId.all.map fun q => (q, { kind := .panelState, subject := 0x02, frame := s.scan.frame, count := 1,
                                         detail := 0x01 }))
          { s with scan := { s.scan with panel := .live, warm := 0, warmWaiting := false } })) ∧
    (s.scan.warm + 1 < s.scan.setup.warm → exec .warmCountReached s = .next s)

/-- Entry into DARK (R146, R84, R121, R147), at the end of the frame that completes the cool count and nowhere else; a
FRAME_START there is the same event (log 10): no frame start is raised, the counter returns to 0, the output is idle, the
commit leaves nothing waiting, and every Source Unit is forced with FSYNC quiet, the size of an ATTACHED port kept. The
commit settles the waiting plan, retires the ports on the retirement list and applies the waiting sets (R71, R73, R166), its
answers and notices with the number of the latest raised frame start, and PANEL_STATE, DARK from COOLING, reaches every
ATTACHED port before the notices of the commit or after them (log 7). -/
def Obligations.EntryIntoDarkEnds : Prop :=
  ∀ (noticeFirst : Bool) (s : State),
    (¬coolEnds s → exec (.entryIntoDark noticeFirst) s = .next s) ∧
    (coolEnds s → (∀ now, exec (.frameStart now) s = exec (.entryIntoDark false) s) ∧
    ∃ t, exec (.entryIntoDark noticeFirst) s = .next t ∧
      t.scan.panel = .dark ∧ t.scan.frame = s.scan.frame ∧ t.scan.setup = s.scan.setup ∧ t.scan.pos = none ∧
      t.scan.cool = 0 ∧ t.comp = { list := [], output := .idle } ∧ t.layout.sealedPlan = none ∧
      t.layout.retiring = [] ∧
      (∀ p, (t.lay p).sealedSet = none ∧ (t.port p).engine = .ready ∧ (t.unit p).showing = none ∧
        (t.unit p).filling = .empty ∧ (t.unit p).monitor = .noSignal ∧ (t.unit p).good = 0 ∧
        (t.unit p).missed = 0 ∧ (t.unit p).fsync = false ∧
        ((t.port p).attach = .attached → (t.unit p).sw = (s.unit p).sw ∧ (t.unit p).sh = (s.unit p).sh)) ∧
      (s.TableLaw → s.WaitingLaw →
        (s.layout.sealedPlan = none → setsApplied s t) ∧
        (∀ sp, s.layout.sealedPlan = some sp → sp.plan.entries.p0.enabled = true → (s.port .p0).attach = .attached →
          setsStillApplied sp.plan sp.mode s t ∧
          ∀ r, ((s.port .p0).deferred.find? fun x => x.code == RequestKind.planSet.code) = some r →
            planSettled r sp.plan sp.mode s.scan.frame s t) ∧
        portsRetired s t ∧
        (s.marks.reports = [] → ∀ p, (s.port p).attach = .attached → (t.port p).attach = .attached →
          let told : List Notice :=
            [{ kind := .panelState, subject := 0x00, frame := s.scan.frame, count := 1, detail := 0x03 }]
          let first := if noticeFirst then told else []
          let last := if noticeFirst then [] else told
          ((∀ sp, s.layout.sealedPlan = some sp → sp.mode = .keep ∧ ∃ q x, orphans sp.plan s q x) →
            let c := withNotices p (first ++ (if p = .p0 then portsLeft s.scan.frame s else []) ++ last) s
            (t.port p).notices = c.notices ∧ (t.port p).noticeLost = c.noticeLost) ∧
          ∀ sp, s.layout.sealedPlan = some sp → sp.plan.entries.p0.enabled = true →
            (sp.mode = .evict ∨ ∀ q x, ¬orphans sp.plan s q x) →
            planNotices sp.plan sp.mode s.scan.frame first last s t p)))

/-- A line start (R140, R28, R30, R35, R36, R129): the next line l of the frame, with no work of the frame start left (R139)
and the reports that wait taken (R79, log 9). While LIVE each column shows what R28 gives and the marks of line l fire,
each with MARK_REACHED to its port, in the order of the list (R130); else the line is background and none fires. FSYNC is
quiet (R117). In a DARK panel, past the last line, and while work of the frame start waits there is no line start (log 2,
log 8). -/
def Obligations.LineStartShowsAndFires : Prop :=
  (∀ s : State, s.scan.panel = .dark ∨ frameEnds s ∨ ¬frameWhole s → exec .lineStart s = .next s) ∧
  ∀ (l : Nat) (s : State), s.scan.panel ≠ .dark → l < s.scan.setup.h →
    (s.scan.pos = none ∧ l = 0 ∨ ∃ k, s.scan.pos = some k ∧ l = k + 1) → frameWhole s → s.PlacementLaw →
    ∃ u t px, exec .markReportsTaken s = .next u ∧
      exec .lineStart s = .next t ∧ t.scan = { s.scan with pos := some l } ∧ t.layout = s.layout ∧
      t.comp.output = .line px ∧ px.length = s.scan.setup.w ∧
      (∀ p, t.unit p = { u.unit p with fsync := false }) ∧
      (∀ p, t.port p =
        { u.port p with notices := (t.port p).notices, noticeLost := (t.port p).noticeLost }) ∧
      (u.scan.panel ≠ .live → px = List.replicate s.scan.setup.w u.layout.plan.background ∧ t.comp.list = [] ∧
        ∀ p, t.markList p = u.markList p ∧ t.port p = u.port p) ∧
      (u.scan.panel = .live →
        (t.comp.list.map LineEntry.region =
          ((stackRegions u).filter fun g => decide (g.copy.y ≤ l) && decide (l < g.copy.y + g.copy.h)).map
            LiveRegion.id) ∧
        (∀ x < s.scan.setup.w, ∃ c, px[x]? = some c ∧
          ((∀ g ∈ stackRegions u, ¬showsAt u x l g) → c = u.layout.plan.background) ∧
          ∀ g, givesPoint u x l g → shownColour u x l g c) ∧
        ∀ p, (t.markList p = (u.markList p).filterMap fun m =>
            match u.slot m.region with
            | .live _ _ _ c =>
              if c.y + m.offset ≠ l then some m
              else if m.remaining = 0 then some m
              else if m.remaining = 1 then none
              else some { m with remaining := m.remaining - 1 }
            | _ => some m) ∧
          let fired := (u.markList p).filter fun m =>
            match u.slot m.region with
            | .live _ _ _ c => decide (c.y + m.offset = l)
            | _ => false
          let v := storeNotices
            (fired.map fun m =>
              (p, { kind := .markReached, subject := byteOf m.id, frame := s.scan.frame, count := 1,
                    detail := byteOf m.region })) u
          t.port p = v.port p ∧ t.link p = v.link p)

/-! ### The laws that every step keeps -/

/-- The queues keep their bounds (R154, R155, R159): at most 4 requests, 8 places of credit, 8 notices, and no two notices
of one kind and subject. -/
def Obligations.QueueLawKept : Prop :=
  ∀ s t : State, s.QueueLaw → step s = .next t → t.QueueLaw

/-- Nothing waits while DARK, a response is deferred exactly while its set or plan waits, and a BLOCKED engine has its
reason (R41, R84, R93, R157). -/
def Obligations.WaitingLawKept : Prop :=
  ∀ s t : State, s.WaitingLaw → step s = .next t → t.WaitingLaw

/-- The live plan obeys R89 for the current panel setup, and so does a sealed plan, which waits only while not DARK; a
DETACHED or ATTACHED port is enabled in the live plan, and a DISABLED one is not (R102, R166, R167, R169). -/
def Obligations.PlanLawKept : Prop :=
  (∀ s t : State, s.PlanLaw → step s = .next t → t.PlanLaw) ∧
  ∀ s t : State, s.EnablementLaw → step s = .next t → t.EnablementLaw

/-- The counters stay below the setup's values and at 0 outside their states, the scan position stays an active line, and a
DARK panel drives nothing (R137, R33, R34). -/
def Obligations.ScanLawKept : Prop :=
  ∀ s t : State, s.ScanLaw → step s = .next t → t.ScanLaw

/-- The Source Units keep their ranges; LOCKED means a whole frame of the declared size shows; a unit that does not run is
NO_SIGNAL with empty banks (R108, R114, R118, R121, R153). -/
def Obligations.SourceLawKept : Prop :=
  ∀ s t : State, s.SourceLaw → step s = .next t → t.SourceLaw

/-- The region table, the order lists, the drafts, the sets and the retirement list agree (R1, R17, R42, R70, R153). -/
def Obligations.TableLawKept : Prop :=
  ∀ s t : State, s.TableLaw → step s = .next t → t.TableLaw

/-- Every live region lies in its territory and its source frame, guarded ones under the guard right, no line above the row
share, no port above its quota (R4, R8, R31, R64), given that the table, plan and waiting laws hold. -/
def Obligations.PlacementLawKept : Prop :=
  ∀ s t : State, s.TableLaw → s.PlanLaw → s.WaitingLaw → s.PlacementLaw → step s = .next t → t.PlacementLaw

/-- Every mark names a LIVE region of its own port at an offset below its height, or a waiting report removes it, and the
lists are ordered by id (R125), given that the table law holds. -/
def Obligations.MarkLawKept : Prop :=
  ∀ s t : State, s.TableLaw → s.MarkLaw → step s = .next t → t.MarkLaw

/-- Every law holds right after device reset. -/
def Obligations.LawsHoldAtReset : Prop := State.reset.Lawful

/-- While the panel is not DARK, only a frame start, the entry into DARK, RESTART and device reset change the LIVE regions,
their records, the order lists or the live plan (R81). -/
def Obligations.LiveStateOnlyAtCommits : Prop :=
  ∀ (c : Instr) (s t : State), s.scan.panel ≠ .dark → exec c s = .next t →
    (∀ now, c ≠ .frameStart now) → (∀ b, c ≠ .entryIntoDark b) → (∀ p, c ≠ .restart p) → c ≠ .deviceReset →
    s.sameLive t

/-- A request of port 1, 2 or 3 changes no other port's queues, draft, set, order list, source, marks or slots, nor the
plan, nor the panel (R10, R16), where no report, no retirement and no warm count waits from before: the frame of the
requests of ports 1 to 3. -/
def Obligations.PortsAreIsolated : Prop :=
  ∀ (k : RequestKind) (p q : PortId) (s t : State), p ≠ .p0 → q ≠ p → s.marks.reports = [] →
    s.scan.warmWaiting = false → s.layout.retiring = [] → s.layout.slots.length = 24 →
    (∀ id ∈ (s.lay p).order, (s.slot id).owner? = some p) →
    (∀ d, (s.lay p).draft = some d → ∀ e ∈ d, (s.slot e.id).owner? = some p) →
    exec (requestCommand k p) s = .next t →
    samePart q s t ∧ t.link q = s.link q ∧ t.layout.plan = s.layout.plan ∧ t.layout.sealedPlan = s.layout.sealedPlan ∧
      t.scan = s.scan ∧ t.comp = s.comp
end

