-- ==== Sys2Proof/Laws/State.lean ====
section
/-! SUPPORT. What each update of the state leaves of each field and of each reading, true by unfolding. -/

namespace Sys2Proof.Machine

variable {α : Type}

/-- The thing of port q after that of port p was replaced. -/
@[simp] theorem PerPort.get_set (v : PerPort α) (p q : PortId) (x : α) :
    (v.set p x).get q = if q = p then x else v.get q := by
  cases p <;> cases q <;> rfl

@[simp] theorem PerPort.get_set_self (v : PerPort α) (p : PortId) (x : α) : (v.set p x).get p = x := by
  cases p <;> rfl

theorem PerPort.get_set_ne (v : PerPort α) {p q : PortId} (h : q ≠ p) (x : α) : (v.set p x).get q = v.get q := by
  simp [h]

@[simp] theorem PerPort.set_set (v : PerPort α) (p : PortId) (x y : α) : (v.set p x).set p y = v.set p y := by
  cases p <;> rfl

@[simp] theorem PerPort.set_get (v : PerPort α) (p : PortId) : v.set p (v.get p) = v := by
  cases p <;> rfl

@[simp] theorem PerPort.get_const (p : PortId) (x : α) : (PerPort.const x).get p = x := by
  cases p <;> rfl

/-- Two families that agree at every port are equal. -/
theorem PerPort.ext_get {v w : PerPort α} (h : ∀ p, v.get p = w.get p) : v = w := by
  have h0 := h .p0
  have h1 := h .p1
  have h2 := h .p2
  have h3 := h .p3
  cases v
  cases w
  simp_all [PerPort.get]

theorem PortId.mem_all (p : PortId) : p ∈ PortId.all := by cases p <;> decide

/-! A port's part set twice, and set to what it is -/

@[simp] theorem State.setPort_setPort (s : State) (p : PortId) (x y : PortController) :
    (s.setPort p x).setPort p y = s.setPort p y := by simp [State.setPort]
@[simp] theorem State.setLink_setLink (s : State) (p : PortId) (x y : Link) :
    (s.setLink p x).setLink p y = s.setLink p y := by simp [State.setLink]
@[simp] theorem State.setLay_setLay (s : State) (p : PortId) (x y : PortLayout) :
    (s.setLay p x).setLay p y = s.setLay p y := by simp [State.setLay]
@[simp] theorem State.setUnit_setUnit (s : State) (p : PortId) (x y : SourceUnit) :
    (s.setUnit p x).setUnit p y = s.setUnit p y := by simp [State.setUnit]
@[simp] theorem State.setPort_self (s : State) (p : PortId) : s.setPort p (s.port p) = s := by
  simp [State.setPort, State.port]
@[simp] theorem State.setLink_self (s : State) (p : PortId) : s.setLink p (s.link p) = s := by
  simp [State.setLink, State.link]
@[simp] theorem State.setLay_self (s : State) (p : PortId) : s.setLay p (s.lay p) = s := by
  simp [State.setLay, State.lay]
@[simp] theorem State.setUnit_self (s : State) (p : PortId) : s.setUnit p (s.unit p) = s := by
  simp [State.setUnit, State.unit]

/-! setPort -/

@[simp] theorem State.setPort_ports (s : State) (p : PortId) (c : PortController) : (s.setPort p c).ports = s.ports.set p c := rfl
@[simp] theorem State.setPort_links (s : State) (p : PortId) (c : PortController) : (s.setPort p c).links = s.links := rfl
@[simp] theorem State.setPort_layout_slots (s : State) (p : PortId) (c : PortController) : (s.setPort p c).layout.slots = s.layout.slots := rfl
@[simp] theorem State.setPort_layout_ports (s : State) (p : PortId) (c : PortController) : (s.setPort p c).layout.ports = s.layout.ports := rfl
@[simp] theorem State.setPort_layout_plan (s : State) (p : PortId) (c : PortController) : (s.setPort p c).layout.plan = s.layout.plan := rfl
@[simp] theorem State.setPort_layout_sealedPlan (s : State) (p : PortId) (c : PortController) : (s.setPort p c).layout.sealedPlan = s.layout.sealedPlan := rfl
@[simp] theorem State.setPort_layout_retiring (s : State) (p : PortId) (c : PortController) : (s.setPort p c).layout.retiring = s.layout.retiring := rfl
@[simp] theorem State.setPort_sources (s : State) (p : PortId) (c : PortController) : (s.setPort p c).sources = s.sources := rfl
@[simp] theorem State.setPort_scan (s : State) (p : PortId) (c : PortController) : (s.setPort p c).scan = s.scan := rfl
@[simp] theorem State.setPort_comp (s : State) (p : PortId) (c : PortController) : (s.setPort p c).comp = s.comp := rfl
@[simp] theorem State.setPort_marks_lists (s : State) (p : PortId) (c : PortController) : (s.setPort p c).marks.lists = s.marks.lists := rfl
@[simp] theorem State.setPort_marks_reports (s : State) (p : PortId) (c : PortController) : (s.setPort p c).marks.reports = s.marks.reports := rfl
@[simp] theorem State.setPort_marks_withdrawn (s : State) (p : PortId) (c : PortController) : (s.setPort p c).marks.withdrawn = s.marks.withdrawn := rfl
@[simp] theorem State.setPort_pending (s : State) (p : PortId) (c : PortController) : (s.setPort p c).pending = s.pending := rfl
@[simp] theorem State.port_setPort (s : State) (p : PortId) (c : PortController) (q : PortId) :
    (s.setPort p c).port q = if q = p then c else s.port q := PerPort.get_set _ _ _ _
@[simp] theorem State.link_setPort (s : State) (p : PortId) (c : PortController) (q : PortId) : (s.setPort p c).link q = s.link q := rfl
@[simp] theorem State.lay_setPort (s : State) (p : PortId) (c : PortController) (q : PortId) : (s.setPort p c).lay q = s.lay q := rfl
@[simp] theorem State.unit_setPort (s : State) (p : PortId) (c : PortController) (q : PortId) : (s.setPort p c).unit q = s.unit q := rfl
@[simp] theorem State.markList_setPort (s : State) (p : PortId) (c : PortController) (q : PortId) : (s.setPort p c).markList q = s.markList q := rfl
@[simp] theorem State.slot_setPort (s : State) (p : PortId) (c : PortController) (i : Nat) : (s.setPort p c).slot i = s.slot i := rfl
@[simp] theorem State.entry_setPort (s : State) (p : PortId) (c : PortController) (q : PortId) : (s.setPort p c).entry q = s.entry q := rfl
@[simp] theorem State.editState_setPort (s : State) (p : PortId) (c : PortController) (q : PortId) : (s.setPort p c).editState q = s.editState q := rfl
@[simp] theorem State.frameField_setPort (s : State) (p : PortId) (c : PortController) : (s.setPort p c).frameField = s.frameField := rfl

/-! setLink -/

@[simp] theorem State.setLink_ports (s : State) (p : PortId) (l : Link) : (s.setLink p l).ports = s.ports := rfl
@[simp] theorem State.setLink_links (s : State) (p : PortId) (l : Link) : (s.setLink p l).links = s.links.set p l := rfl
@[simp] theorem State.setLink_layout_slots (s : State) (p : PortId) (l : Link) : (s.setLink p l).layout.slots = s.layout.slots := rfl
@[simp] theorem State.setLink_layout_ports (s : State) (p : PortId) (l : Link) : (s.setLink p l).layout.ports = s.layout.ports := rfl
@[simp] theorem State.setLink_layout_plan (s : State) (p : PortId) (l : Link) : (s.setLink p l).layout.plan = s.layout.plan := rfl
@[simp] theorem State.setLink_layout_sealedPlan (s : State) (p : PortId) (l : Link) : (s.setLink p l).layout.sealedPlan = s.layout.sealedPlan := rfl
@[simp] theorem State.setLink_layout_retiring (s : State) (p : PortId) (l : Link) : (s.setLink p l).layout.retiring = s.layout.retiring := rfl
@[simp] theorem State.setLink_sources (s : State) (p : PortId) (l : Link) : (s.setLink p l).sources = s.sources := rfl
@[simp] theorem State.setLink_scan (s : State) (p : PortId) (l : Link) : (s.setLink p l).scan = s.scan := rfl
@[simp] theorem State.setLink_comp (s : State) (p : PortId) (l : Link) : (s.setLink p l).comp = s.comp := rfl
@[simp] theorem State.setLink_marks_lists (s : State) (p : PortId) (l : Link) : (s.setLink p l).marks.lists = s.marks.lists := rfl
@[simp] theorem State.setLink_marks_reports (s : State) (p : PortId) (l : Link) : (s.setLink p l).marks.reports = s.marks.reports := rfl
@[simp] theorem State.setLink_marks_withdrawn (s : State) (p : PortId) (l : Link) : (s.setLink p l).marks.withdrawn = s.marks.withdrawn := rfl
@[simp] theorem State.setLink_pending (s : State) (p : PortId) (l : Link) : (s.setLink p l).pending = s.pending := rfl
@[simp] theorem State.port_setLink (s : State) (p : PortId) (l : Link) (q : PortId) : (s.setLink p l).port q = s.port q := rfl
@[simp] theorem State.link_setLink (s : State) (p : PortId) (l : Link) (q : PortId) :
    (s.setLink p l).link q = if q = p then l else s.link q := PerPort.get_set _ _ _ _
@[simp] theorem State.lay_setLink (s : State) (p : PortId) (l : Link) (q : PortId) : (s.setLink p l).lay q = s.lay q := rfl
@[simp] theorem State.unit_setLink (s : State) (p : PortId) (l : Link) (q : PortId) : (s.setLink p l).unit q = s.unit q := rfl
@[simp] theorem State.markList_setLink (s : State) (p : PortId) (l : Link) (q : PortId) : (s.setLink p l).markList q = s.markList q := rfl
@[simp] theorem State.slot_setLink (s : State) (p : PortId) (l : Link) (i : Nat) : (s.setLink p l).slot i = s.slot i := rfl
@[simp] theorem State.entry_setLink (s : State) (p : PortId) (l : Link) (q : PortId) : (s.setLink p l).entry q = s.entry q := rfl
@[simp] theorem State.editState_setLink (s : State) (p : PortId) (l : Link) (q : PortId) : (s.setLink p l).editState q = s.editState q := rfl
@[simp] theorem State.frameField_setLink (s : State) (p : PortId) (l : Link) : (s.setLink p l).frameField = s.frameField := rfl

/-! setLay -/

@[simp] theorem State.setLay_ports (s : State) (p : PortId) (l : PortLayout) : (s.setLay p l).ports = s.ports := rfl
@[simp] theorem State.setLay_links (s : State) (p : PortId) (l : PortLayout) : (s.setLay p l).links = s.links := rfl
@[simp] theorem State.setLay_layout_slots (s : State) (p : PortId) (l : PortLayout) : (s.setLay p l).layout.slots = s.layout.slots := rfl
@[simp] theorem State.setLay_layout_ports (s : State) (p : PortId) (l : PortLayout) : (s.setLay p l).layout.ports = s.layout.ports.set p l := rfl
@[simp] theorem State.setLay_layout_plan (s : State) (p : PortId) (l : PortLayout) : (s.setLay p l).layout.plan = s.layout.plan := rfl
@[simp] theorem State.setLay_layout_sealedPlan (s : State) (p : PortId) (l : PortLayout) : (s.setLay p l).layout.sealedPlan = s.layout.sealedPlan := rfl
@[simp] theorem State.setLay_layout_retiring (s : State) (p : PortId) (l : PortLayout) : (s.setLay p l).layout.retiring = s.layout.retiring := rfl
@[simp] theorem State.setLay_sources (s : State) (p : PortId) (l : PortLayout) : (s.setLay p l).sources = s.sources := rfl
@[simp] theorem State.setLay_scan (s : State) (p : PortId) (l : PortLayout) : (s.setLay p l).scan = s.scan := rfl
@[simp] theorem State.setLay_comp (s : State) (p : PortId) (l : PortLayout) : (s.setLay p l).comp = s.comp := rfl
@[simp] theorem State.setLay_marks_lists (s : State) (p : PortId) (l : PortLayout) : (s.setLay p l).marks.lists = s.marks.lists := rfl
@[simp] theorem State.setLay_marks_reports (s : State) (p : PortId) (l : PortLayout) : (s.setLay p l).marks.reports = s.marks.reports := rfl
@[simp] theorem State.setLay_marks_withdrawn (s : State) (p : PortId) (l : PortLayout) : (s.setLay p l).marks.withdrawn = s.marks.withdrawn := rfl
@[simp] theorem State.setLay_pending (s : State) (p : PortId) (l : PortLayout) : (s.setLay p l).pending = s.pending := rfl
@[simp] theorem State.port_setLay (s : State) (p : PortId) (l : PortLayout) (q : PortId) : (s.setLay p l).port q = s.port q := rfl
@[simp] theorem State.link_setLay (s : State) (p : PortId) (l : PortLayout) (q : PortId) : (s.setLay p l).link q = s.link q := rfl
@[simp] theorem State.lay_setLay (s : State) (p : PortId) (l : PortLayout) (q : PortId) :
    (s.setLay p l).lay q = if q = p then l else s.lay q := PerPort.get_set _ _ _ _
@[simp] theorem State.unit_setLay (s : State) (p : PortId) (l : PortLayout) (q : PortId) : (s.setLay p l).unit q = s.unit q := rfl
@[simp] theorem State.markList_setLay (s : State) (p : PortId) (l : PortLayout) (q : PortId) : (s.setLay p l).markList q = s.markList q := rfl
@[simp] theorem State.slot_setLay (s : State) (p : PortId) (l : PortLayout) (i : Nat) : (s.setLay p l).slot i = s.slot i := rfl
@[simp] theorem State.entry_setLay (s : State) (p : PortId) (l : PortLayout) (q : PortId) : (s.setLay p l).entry q = s.entry q := rfl
@[simp] theorem State.editState_setLay (s : State) (p : PortId) (l : PortLayout) (q : PortId) :
    (s.setLay p l).editState q = if q = p then l.editState else s.editState q := by
  simp only [State.editState, State.lay_setLay]
  split <;> rfl
@[simp] theorem State.frameField_setLay (s : State) (p : PortId) (l : PortLayout) : (s.setLay p l).frameField = s.frameField := rfl

/-! setSlots -/

@[simp] theorem State.setSlots_ports (s : State) (x : List Slot) : (s.setSlots x).ports = s.ports := rfl
@[simp] theorem State.setSlots_links (s : State) (x : List Slot) : (s.setSlots x).links = s.links := rfl
@[simp] theorem State.setSlots_layout_slots (s : State) (x : List Slot) : (s.setSlots x).layout.slots = x := rfl
@[simp] theorem State.setSlots_layout_ports (s : State) (x : List Slot) : (s.setSlots x).layout.ports = s.layout.ports := rfl
@[simp] theorem State.setSlots_layout_plan (s : State) (x : List Slot) : (s.setSlots x).layout.plan = s.layout.plan := rfl
@[simp] theorem State.setSlots_layout_sealedPlan (s : State) (x : List Slot) : (s.setSlots x).layout.sealedPlan = s.layout.sealedPlan := rfl
@[simp] theorem State.setSlots_layout_retiring (s : State) (x : List Slot) : (s.setSlots x).layout.retiring = s.layout.retiring := rfl
@[simp] theorem State.setSlots_sources (s : State) (x : List Slot) : (s.setSlots x).sources = s.sources := rfl
@[simp] theorem State.setSlots_scan (s : State) (x : List Slot) : (s.setSlots x).scan = s.scan := rfl
@[simp] theorem State.setSlots_comp (s : State) (x : List Slot) : (s.setSlots x).comp = s.comp := rfl
@[simp] theorem State.setSlots_marks_lists (s : State) (x : List Slot) : (s.setSlots x).marks.lists = s.marks.lists := rfl
@[simp] theorem State.setSlots_marks_reports (s : State) (x : List Slot) : (s.setSlots x).marks.reports = s.marks.reports := rfl
@[simp] theorem State.setSlots_marks_withdrawn (s : State) (x : List Slot) : (s.setSlots x).marks.withdrawn = s.marks.withdrawn := rfl
@[simp] theorem State.setSlots_pending (s : State) (x : List Slot) : (s.setSlots x).pending = s.pending := rfl
@[simp] theorem State.port_setSlots (s : State) (x : List Slot) (q : PortId) : (s.setSlots x).port q = s.port q := rfl
@[simp] theorem State.link_setSlots (s : State) (x : List Slot) (q : PortId) : (s.setSlots x).link q = s.link q := rfl
@[simp] theorem State.lay_setSlots (s : State) (x : List Slot) (q : PortId) : (s.setSlots x).lay q = s.lay q := rfl
@[simp] theorem State.unit_setSlots (s : State) (x : List Slot) (q : PortId) : (s.setSlots x).unit q = s.unit q := rfl
@[simp] theorem State.markList_setSlots (s : State) (x : List Slot) (q : PortId) : (s.setSlots x).markList q = s.markList q := rfl
@[simp] theorem State.slot_setSlots (s : State) (x : List Slot) (i : Nat) : (s.setSlots x).slot i = x.getD i .free := rfl
@[simp] theorem State.entry_setSlots (s : State) (x : List Slot) (q : PortId) : (s.setSlots x).entry q = s.entry q := rfl
@[simp] theorem State.editState_setSlots (s : State) (x : List Slot) (q : PortId) : (s.setSlots x).editState q = s.editState q := rfl
@[simp] theorem State.frameField_setSlots (s : State) (x : List Slot) : (s.setSlots x).frameField = s.frameField := rfl

/-! setPlan -/

@[simp] theorem State.setPlan_ports (s : State) (x : Plan) : (s.setPlan x).ports = s.ports := rfl
@[simp] theorem State.setPlan_links (s : State) (x : Plan) : (s.setPlan x).links = s.links := rfl
@[simp] theorem State.setPlan_layout_slots (s : State) (x : Plan) : (s.setPlan x).layout.slots = s.layout.slots := rfl
@[simp] theorem State.setPlan_layout_ports (s : State) (x : Plan) : (s.setPlan x).layout.ports = s.layout.ports := rfl
@[simp] theorem State.setPlan_layout_plan (s : State) (x : Plan) : (s.setPlan x).layout.plan = x := rfl
@[simp] theorem State.setPlan_layout_sealedPlan (s : State) (x : Plan) : (s.setPlan x).layout.sealedPlan = s.layout.sealedPlan := rfl
@[simp] theorem State.setPlan_layout_retiring (s : State) (x : Plan) : (s.setPlan x).layout.retiring = s.layout.retiring := rfl
@[simp] theorem State.setPlan_sources (s : State) (x : Plan) : (s.setPlan x).sources = s.sources := rfl
@[simp] theorem State.setPlan_scan (s : State) (x : Plan) : (s.setPlan x).scan = s.scan := rfl
@[simp] theorem State.setPlan_comp (s : State) (x : Plan) : (s.setPlan x).comp = s.comp := rfl
@[simp] theorem State.setPlan_marks_lists (s : State) (x : Plan) : (s.setPlan x).marks.lists = s.marks.lists := rfl
@[simp] theorem State.setPlan_marks_reports (s : State) (x : Plan) : (s.setPlan x).marks.reports = s.marks.reports := rfl
@[simp] theorem State.setPlan_marks_withdrawn (s : State) (x : Plan) : (s.setPlan x).marks.withdrawn = s.marks.withdrawn := rfl
@[simp] theorem State.setPlan_pending (s : State) (x : Plan) : (s.setPlan x).pending = s.pending := rfl
@[simp] theorem State.port_setPlan (s : State) (x : Plan) (q : PortId) : (s.setPlan x).port q = s.port q := rfl
@[simp] theorem State.link_setPlan (s : State) (x : Plan) (q : PortId) : (s.setPlan x).link q = s.link q := rfl
@[simp] theorem State.lay_setPlan (s : State) (x : Plan) (q : PortId) : (s.setPlan x).lay q = s.lay q := rfl
@[simp] theorem State.unit_setPlan (s : State) (x : Plan) (q : PortId) : (s.setPlan x).unit q = s.unit q := rfl
@[simp] theorem State.markList_setPlan (s : State) (x : Plan) (q : PortId) : (s.setPlan x).markList q = s.markList q := rfl
@[simp] theorem State.slot_setPlan (s : State) (x : Plan) (i : Nat) : (s.setPlan x).slot i = s.slot i := rfl
@[simp] theorem State.entry_setPlan (s : State) (x : Plan) (q : PortId) : (s.setPlan x).entry q = x.entries.get q := rfl
@[simp] theorem State.editState_setPlan (s : State) (x : Plan) (q : PortId) : (s.setPlan x).editState q = s.editState q := rfl
@[simp] theorem State.frameField_setPlan (s : State) (x : Plan) : (s.setPlan x).frameField = s.frameField := rfl

/-! setSealedPlan -/

@[simp] theorem State.setSealedPlan_ports (s : State) (x : Option SealedPlan) : (s.setSealedPlan x).ports = s.ports := rfl
@[simp] theorem State.setSealedPlan_links (s : State) (x : Option SealedPlan) : (s.setSealedPlan x).links = s.links := rfl
@[simp] theorem State.setSealedPlan_layout_slots (s : State) (x : Option SealedPlan) : (s.setSealedPlan x).layout.slots = s.layout.slots := rfl
@[simp] theorem State.setSealedPlan_layout_ports (s : State) (x : Option SealedPlan) : (s.setSealedPlan x).layout.ports = s.layout.ports := rfl
@[simp] theorem State.setSealedPlan_layout_plan (s : State) (x : Option SealedPlan) : (s.setSealedPlan x).layout.plan = s.layout.plan := rfl
@[simp] theorem State.setSealedPlan_layout_sealedPlan (s : State) (x : Option SealedPlan) : (s.setSealedPlan x).layout.sealedPlan = x := rfl
@[simp] theorem State.setSealedPlan_layout_retiring (s : State) (x : Option SealedPlan) : (s.setSealedPlan x).layout.retiring = s.layout.retiring := rfl
@[simp] theorem State.setSealedPlan_sources (s : State) (x : Option SealedPlan) : (s.setSealedPlan x).sources = s.sources := rfl
@[simp] theorem State.setSealedPlan_scan (s : State) (x : Option SealedPlan) : (s.setSealedPlan x).scan = s.scan := rfl
@[simp] theorem State.setSealedPlan_comp (s : State) (x : Option SealedPlan) : (s.setSealedPlan x).comp = s.comp := rfl
@[simp] theorem State.setSealedPlan_marks_lists (s : State) (x : Option SealedPlan) : (s.setSealedPlan x).marks.lists = s.marks.lists := rfl
@[simp] theorem State.setSealedPlan_marks_reports (s : State) (x : Option SealedPlan) : (s.setSealedPlan x).marks.reports = s.marks.reports := rfl
@[simp] theorem State.setSealedPlan_marks_withdrawn (s : State) (x : Option SealedPlan) : (s.setSealedPlan x).marks.withdrawn = s.marks.withdrawn := rfl
@[simp] theorem State.setSealedPlan_pending (s : State) (x : Option SealedPlan) : (s.setSealedPlan x).pending = s.pending := rfl
@[simp] theorem State.port_setSealedPlan (s : State) (x : Option SealedPlan) (q : PortId) : (s.setSealedPlan x).port q = s.port q := rfl
@[simp] theorem State.link_setSealedPlan (s : State) (x : Option SealedPlan) (q : PortId) : (s.setSealedPlan x).link q = s.link q := rfl
@[simp] theorem State.lay_setSealedPlan (s : State) (x : Option SealedPlan) (q : PortId) : (s.setSealedPlan x).lay q = s.lay q := rfl
@[simp] theorem State.unit_setSealedPlan (s : State) (x : Option SealedPlan) (q : PortId) : (s.setSealedPlan x).unit q = s.unit q := rfl
@[simp] theorem State.markList_setSealedPlan (s : State) (x : Option SealedPlan) (q : PortId) : (s.setSealedPlan x).markList q = s.markList q := rfl
@[simp] theorem State.slot_setSealedPlan (s : State) (x : Option SealedPlan) (i : Nat) : (s.setSealedPlan x).slot i = s.slot i := rfl
@[simp] theorem State.entry_setSealedPlan (s : State) (x : Option SealedPlan) (q : PortId) : (s.setSealedPlan x).entry q = s.entry q := rfl
@[simp] theorem State.editState_setSealedPlan (s : State) (x : Option SealedPlan) (q : PortId) : (s.setSealedPlan x).editState q = s.editState q := rfl
@[simp] theorem State.frameField_setSealedPlan (s : State) (x : Option SealedPlan) : (s.setSealedPlan x).frameField = s.frameField := rfl

/-! setRetiring -/

@[simp] theorem State.setRetiring_ports (s : State) (x : List PortId) : (s.setRetiring x).ports = s.ports := rfl
@[simp] theorem State.setRetiring_links (s : State) (x : List PortId) : (s.setRetiring x).links = s.links := rfl
@[simp] theorem State.setRetiring_layout_slots (s : State) (x : List PortId) : (s.setRetiring x).layout.slots = s.layout.slots := rfl
@[simp] theorem State.setRetiring_layout_ports (s : State) (x : List PortId) : (s.setRetiring x).layout.ports = s.layout.ports := rfl
@[simp] theorem State.setRetiring_layout_plan (s : State) (x : List PortId) : (s.setRetiring x).layout.plan = s.layout.plan := rfl
@[simp] theorem State.setRetiring_layout_sealedPlan (s : State) (x : List PortId) : (s.setRetiring x).layout.sealedPlan = s.layout.sealedPlan := rfl
@[simp] theorem State.setRetiring_layout_retiring (s : State) (x : List PortId) : (s.setRetiring x).layout.retiring = x := rfl
@[simp] theorem State.setRetiring_sources (s : State) (x : List PortId) : (s.setRetiring x).sources = s.sources := rfl
@[simp] theorem State.setRetiring_scan (s : State) (x : List PortId) : (s.setRetiring x).scan = s.scan := rfl
@[simp] theorem State.setRetiring_comp (s : State) (x : List PortId) : (s.setRetiring x).comp = s.comp := rfl
@[simp] theorem State.setRetiring_marks_lists (s : State) (x : List PortId) : (s.setRetiring x).marks.lists = s.marks.lists := rfl
@[simp] theorem State.setRetiring_marks_reports (s : State) (x : List PortId) : (s.setRetiring x).marks.reports = s.marks.reports := rfl
@[simp] theorem State.setRetiring_marks_withdrawn (s : State) (x : List PortId) : (s.setRetiring x).marks.withdrawn = s.marks.withdrawn := rfl
@[simp] theorem State.setRetiring_pending (s : State) (x : List PortId) : (s.setRetiring x).pending = s.pending := rfl
@[simp] theorem State.port_setRetiring (s : State) (x : List PortId) (q : PortId) : (s.setRetiring x).port q = s.port q := rfl
@[simp] theorem State.link_setRetiring (s : State) (x : List PortId) (q : PortId) : (s.setRetiring x).link q = s.link q := rfl
@[simp] theorem State.lay_setRetiring (s : State) (x : List PortId) (q : PortId) : (s.setRetiring x).lay q = s.lay q := rfl
@[simp] theorem State.unit_setRetiring (s : State) (x : List PortId) (q : PortId) : (s.setRetiring x).unit q = s.unit q := rfl
@[simp] theorem State.markList_setRetiring (s : State) (x : List PortId) (q : PortId) : (s.setRetiring x).markList q = s.markList q := rfl
@[simp] theorem State.slot_setRetiring (s : State) (x : List PortId) (i : Nat) : (s.setRetiring x).slot i = s.slot i := rfl
@[simp] theorem State.entry_setRetiring (s : State) (x : List PortId) (q : PortId) : (s.setRetiring x).entry q = s.entry q := rfl
@[simp] theorem State.editState_setRetiring (s : State) (x : List PortId) (q : PortId) : (s.setRetiring x).editState q = s.editState q := rfl
@[simp] theorem State.frameField_setRetiring (s : State) (x : List PortId) : (s.setRetiring x).frameField = s.frameField := rfl

/-! setUnit -/

@[simp] theorem State.setUnit_ports (s : State) (p : PortId) (u : SourceUnit) : (s.setUnit p u).ports = s.ports := rfl
@[simp] theorem State.setUnit_links (s : State) (p : PortId) (u : SourceUnit) : (s.setUnit p u).links = s.links := rfl
@[simp] theorem State.setUnit_layout_slots (s : State) (p : PortId) (u : SourceUnit) : (s.setUnit p u).layout.slots = s.layout.slots := rfl
@[simp] theorem State.setUnit_layout_ports (s : State) (p : PortId) (u : SourceUnit) : (s.setUnit p u).layout.ports = s.layout.ports := rfl
@[simp] theorem State.setUnit_layout_plan (s : State) (p : PortId) (u : SourceUnit) : (s.setUnit p u).layout.plan = s.layout.plan := rfl
@[simp] theorem State.setUnit_layout_sealedPlan (s : State) (p : PortId) (u : SourceUnit) : (s.setUnit p u).layout.sealedPlan = s.layout.sealedPlan := rfl
@[simp] theorem State.setUnit_layout_retiring (s : State) (p : PortId) (u : SourceUnit) : (s.setUnit p u).layout.retiring = s.layout.retiring := rfl
@[simp] theorem State.setUnit_sources (s : State) (p : PortId) (u : SourceUnit) : (s.setUnit p u).sources = s.sources.set p u := rfl
@[simp] theorem State.setUnit_scan (s : State) (p : PortId) (u : SourceUnit) : (s.setUnit p u).scan = s.scan := rfl
@[simp] theorem State.setUnit_comp (s : State) (p : PortId) (u : SourceUnit) : (s.setUnit p u).comp = s.comp := rfl
@[simp] theorem State.setUnit_marks_lists (s : State) (p : PortId) (u : SourceUnit) : (s.setUnit p u).marks.lists = s.marks.lists := rfl
@[simp] theorem State.setUnit_marks_reports (s : State) (p : PortId) (u : SourceUnit) : (s.setUnit p u).marks.reports = s.marks.reports := rfl
@[simp] theorem State.setUnit_marks_withdrawn (s : State) (p : PortId) (u : SourceUnit) : (s.setUnit p u).marks.withdrawn = s.marks.withdrawn := rfl
@[simp] theorem State.setUnit_pending (s : State) (p : PortId) (u : SourceUnit) : (s.setUnit p u).pending = s.pending := rfl
@[simp] theorem State.port_setUnit (s : State) (p : PortId) (u : SourceUnit) (q : PortId) : (s.setUnit p u).port q = s.port q := rfl
@[simp] theorem State.link_setUnit (s : State) (p : PortId) (u : SourceUnit) (q : PortId) : (s.setUnit p u).link q = s.link q := rfl
@[simp] theorem State.lay_setUnit (s : State) (p : PortId) (u : SourceUnit) (q : PortId) : (s.setUnit p u).lay q = s.lay q := rfl
@[simp] theorem State.unit_setUnit (s : State) (p : PortId) (u : SourceUnit) (q : PortId) :
    (s.setUnit p u).unit q = if q = p then u else s.unit q := PerPort.get_set _ _ _ _
@[simp] theorem State.markList_setUnit (s : State) (p : PortId) (u : SourceUnit) (q : PortId) : (s.setUnit p u).markList q = s.markList q := rfl
@[simp] theorem State.slot_setUnit (s : State) (p : PortId) (u : SourceUnit) (i : Nat) : (s.setUnit p u).slot i = s.slot i := rfl
@[simp] theorem State.entry_setUnit (s : State) (p : PortId) (u : SourceUnit) (q : PortId) : (s.setUnit p u).entry q = s.entry q := rfl
@[simp] theorem State.editState_setUnit (s : State) (p : PortId) (u : SourceUnit) (q : PortId) : (s.setUnit p u).editState q = s.editState q := rfl
@[simp] theorem State.frameField_setUnit (s : State) (p : PortId) (u : SourceUnit) : (s.setUnit p u).frameField = s.frameField := rfl

/-! setScan -/

@[simp] theorem State.setScan_ports (s : State) (x : ScanTimer) : (s.setScan x).ports = s.ports := rfl
@[simp] theorem State.setScan_links (s : State) (x : ScanTimer) : (s.setScan x).links = s.links := rfl
@[simp] theorem State.setScan_layout_slots (s : State) (x : ScanTimer) : (s.setScan x).layout.slots = s.layout.slots := rfl
@[simp] theorem State.setScan_layout_ports (s : State) (x : ScanTimer) : (s.setScan x).layout.ports = s.layout.ports := rfl
@[simp] theorem State.setScan_layout_plan (s : State) (x : ScanTimer) : (s.setScan x).layout.plan = s.layout.plan := rfl
@[simp] theorem State.setScan_layout_sealedPlan (s : State) (x : ScanTimer) : (s.setScan x).layout.sealedPlan = s.layout.sealedPlan := rfl
@[simp] theorem State.setScan_layout_retiring (s : State) (x : ScanTimer) : (s.setScan x).layout.retiring = s.layout.retiring := rfl
@[simp] theorem State.setScan_sources (s : State) (x : ScanTimer) : (s.setScan x).sources = s.sources := rfl
@[simp] theorem State.setScan_scan (s : State) (x : ScanTimer) : (s.setScan x).scan = x := rfl
@[simp] theorem State.setScan_comp (s : State) (x : ScanTimer) : (s.setScan x).comp = s.comp := rfl
@[simp] theorem State.setScan_marks_lists (s : State) (x : ScanTimer) : (s.setScan x).marks.lists = s.marks.lists := rfl
@[simp] theorem State.setScan_marks_reports (s : State) (x : ScanTimer) : (s.setScan x).marks.reports = s.marks.reports := rfl
@[simp] theorem State.setScan_marks_withdrawn (s : State) (x : ScanTimer) : (s.setScan x).marks.withdrawn = s.marks.withdrawn := rfl
@[simp] theorem State.setScan_pending (s : State) (x : ScanTimer) : (s.setScan x).pending = s.pending := rfl
@[simp] theorem State.port_setScan (s : State) (x : ScanTimer) (q : PortId) : (s.setScan x).port q = s.port q := rfl
@[simp] theorem State.link_setScan (s : State) (x : ScanTimer) (q : PortId) : (s.setScan x).link q = s.link q := rfl
@[simp] theorem State.lay_setScan (s : State) (x : ScanTimer) (q : PortId) : (s.setScan x).lay q = s.lay q := rfl
@[simp] theorem State.unit_setScan (s : State) (x : ScanTimer) (q : PortId) : (s.setScan x).unit q = s.unit q := rfl
@[simp] theorem State.markList_setScan (s : State) (x : ScanTimer) (q : PortId) : (s.setScan x).markList q = s.markList q := rfl
@[simp] theorem State.slot_setScan (s : State) (x : ScanTimer) (i : Nat) : (s.setScan x).slot i = s.slot i := rfl
@[simp] theorem State.entry_setScan (s : State) (x : ScanTimer) (q : PortId) : (s.setScan x).entry q = s.entry q := rfl
@[simp] theorem State.editState_setScan (s : State) (x : ScanTimer) (q : PortId) : (s.setScan x).editState q = s.editState q := rfl
@[simp] theorem State.frameField_setScan (s : State) (x : ScanTimer) : (s.setScan x).frameField = frameBytes x.frame := rfl

/-! setComp -/

@[simp] theorem State.setComp_ports (s : State) (x : Compositor) : (s.setComp x).ports = s.ports := rfl
@[simp] theorem State.setComp_links (s : State) (x : Compositor) : (s.setComp x).links = s.links := rfl
@[simp] theorem State.setComp_layout_slots (s : State) (x : Compositor) : (s.setComp x).layout.slots = s.layout.slots := rfl
@[simp] theorem State.setComp_layout_ports (s : State) (x : Compositor) : (s.setComp x).layout.ports = s.layout.ports := rfl
@[simp] theorem State.setComp_layout_plan (s : State) (x : Compositor) : (s.setComp x).layout.plan = s.layout.plan := rfl
@[simp] theorem State.setComp_layout_sealedPlan (s : State) (x : Compositor) : (s.setComp x).layout.sealedPlan = s.layout.sealedPlan := rfl
@[simp] theorem State.setComp_layout_retiring (s : State) (x : Compositor) : (s.setComp x).layout.retiring = s.layout.retiring := rfl
@[simp] theorem State.setComp_sources (s : State) (x : Compositor) : (s.setComp x).sources = s.sources := rfl
@[simp] theorem State.setComp_scan (s : State) (x : Compositor) : (s.setComp x).scan = s.scan := rfl
@[simp] theorem State.setComp_comp (s : State) (x : Compositor) : (s.setComp x).comp = x := rfl
@[simp] theorem State.setComp_marks_lists (s : State) (x : Compositor) : (s.setComp x).marks.lists = s.marks.lists := rfl
@[simp] theorem State.setComp_marks_reports (s : State) (x : Compositor) : (s.setComp x).marks.reports = s.marks.reports := rfl
@[simp] theorem State.setComp_marks_withdrawn (s : State) (x : Compositor) : (s.setComp x).marks.withdrawn = s.marks.withdrawn := rfl
@[simp] theorem State.setComp_pending (s : State) (x : Compositor) : (s.setComp x).pending = s.pending := rfl
@[simp] theorem State.port_setComp (s : State) (x : Compositor) (q : PortId) : (s.setComp x).port q = s.port q := rfl
@[simp] theorem State.link_setComp (s : State) (x : Compositor) (q : PortId) : (s.setComp x).link q = s.link q := rfl
@[simp] theorem State.lay_setComp (s : State) (x : Compositor) (q : PortId) : (s.setComp x).lay q = s.lay q := rfl
@[simp] theorem State.unit_setComp (s : State) (x : Compositor) (q : PortId) : (s.setComp x).unit q = s.unit q := rfl
@[simp] theorem State.markList_setComp (s : State) (x : Compositor) (q : PortId) : (s.setComp x).markList q = s.markList q := rfl
@[simp] theorem State.slot_setComp (s : State) (x : Compositor) (i : Nat) : (s.setComp x).slot i = s.slot i := rfl
@[simp] theorem State.entry_setComp (s : State) (x : Compositor) (q : PortId) : (s.setComp x).entry q = s.entry q := rfl
@[simp] theorem State.editState_setComp (s : State) (x : Compositor) (q : PortId) : (s.setComp x).editState q = s.editState q := rfl
@[simp] theorem State.frameField_setComp (s : State) (x : Compositor) : (s.setComp x).frameField = s.frameField := rfl

/-! setMarkList -/

@[simp] theorem State.setMarkList_ports (s : State) (p : PortId) (x : List Mark) : (s.setMarkList p x).ports = s.ports := rfl
@[simp] theorem State.setMarkList_links (s : State) (p : PortId) (x : List Mark) : (s.setMarkList p x).links = s.links := rfl
@[simp] theorem State.setMarkList_layout_slots (s : State) (p : PortId) (x : List Mark) : (s.setMarkList p x).layout.slots = s.layout.slots := rfl
@[simp] theorem State.setMarkList_layout_ports (s : State) (p : PortId) (x : List Mark) : (s.setMarkList p x).layout.ports = s.layout.ports := rfl
@[simp] theorem State.setMarkList_layout_plan (s : State) (p : PortId) (x : List Mark) : (s.setMarkList p x).layout.plan = s.layout.plan := rfl
@[simp] theorem State.setMarkList_layout_sealedPlan (s : State) (p : PortId) (x : List Mark) : (s.setMarkList p x).layout.sealedPlan = s.layout.sealedPlan := rfl
@[simp] theorem State.setMarkList_layout_retiring (s : State) (p : PortId) (x : List Mark) : (s.setMarkList p x).layout.retiring = s.layout.retiring := rfl
@[simp] theorem State.setMarkList_sources (s : State) (p : PortId) (x : List Mark) : (s.setMarkList p x).sources = s.sources := rfl
@[simp] theorem State.setMarkList_scan (s : State) (p : PortId) (x : List Mark) : (s.setMarkList p x).scan = s.scan := rfl
@[simp] theorem State.setMarkList_comp (s : State) (p : PortId) (x : List Mark) : (s.setMarkList p x).comp = s.comp := rfl
@[simp] theorem State.setMarkList_marks_lists (s : State) (p : PortId) (x : List Mark) : (s.setMarkList p x).marks.lists = s.marks.lists.set p x := rfl
@[simp] theorem State.setMarkList_marks_reports (s : State) (p : PortId) (x : List Mark) : (s.setMarkList p x).marks.reports = s.marks.reports := rfl
@[simp] theorem State.setMarkList_marks_withdrawn (s : State) (p : PortId) (x : List Mark) : (s.setMarkList p x).marks.withdrawn = s.marks.withdrawn := rfl
@[simp] theorem State.setMarkList_pending (s : State) (p : PortId) (x : List Mark) : (s.setMarkList p x).pending = s.pending := rfl
@[simp] theorem State.port_setMarkList (s : State) (p : PortId) (x : List Mark) (q : PortId) : (s.setMarkList p x).port q = s.port q := rfl
@[simp] theorem State.link_setMarkList (s : State) (p : PortId) (x : List Mark) (q : PortId) : (s.setMarkList p x).link q = s.link q := rfl
@[simp] theorem State.lay_setMarkList (s : State) (p : PortId) (x : List Mark) (q : PortId) : (s.setMarkList p x).lay q = s.lay q := rfl
@[simp] theorem State.unit_setMarkList (s : State) (p : PortId) (x : List Mark) (q : PortId) : (s.setMarkList p x).unit q = s.unit q := rfl
@[simp] theorem State.markList_setMarkList (s : State) (p : PortId) (x : List Mark) (q : PortId) :
    (s.setMarkList p x).markList q = if q = p then x else s.markList q := PerPort.get_set _ _ _ _
@[simp] theorem State.slot_setMarkList (s : State) (p : PortId) (x : List Mark) (i : Nat) : (s.setMarkList p x).slot i = s.slot i := rfl
@[simp] theorem State.entry_setMarkList (s : State) (p : PortId) (x : List Mark) (q : PortId) : (s.setMarkList p x).entry q = s.entry q := rfl
@[simp] theorem State.editState_setMarkList (s : State) (p : PortId) (x : List Mark) (q : PortId) : (s.setMarkList p x).editState q = s.editState q := rfl
@[simp] theorem State.frameField_setMarkList (s : State) (p : PortId) (x : List Mark) : (s.setMarkList p x).frameField = s.frameField := rfl

/-! setReports -/

@[simp] theorem State.setReports_ports (s : State) (x : List Report) : (s.setReports x).ports = s.ports := rfl
@[simp] theorem State.setReports_links (s : State) (x : List Report) : (s.setReports x).links = s.links := rfl
@[simp] theorem State.setReports_layout_slots (s : State) (x : List Report) : (s.setReports x).layout.slots = s.layout.slots := rfl
@[simp] theorem State.setReports_layout_ports (s : State) (x : List Report) : (s.setReports x).layout.ports = s.layout.ports := rfl
@[simp] theorem State.setReports_layout_plan (s : State) (x : List Report) : (s.setReports x).layout.plan = s.layout.plan := rfl
@[simp] theorem State.setReports_layout_sealedPlan (s : State) (x : List Report) : (s.setReports x).layout.sealedPlan = s.layout.sealedPlan := rfl
@[simp] theorem State.setReports_layout_retiring (s : State) (x : List Report) : (s.setReports x).layout.retiring = s.layout.retiring := rfl
@[simp] theorem State.setReports_sources (s : State) (x : List Report) : (s.setReports x).sources = s.sources := rfl
@[simp] theorem State.setReports_scan (s : State) (x : List Report) : (s.setReports x).scan = s.scan := rfl
@[simp] theorem State.setReports_comp (s : State) (x : List Report) : (s.setReports x).comp = s.comp := rfl
@[simp] theorem State.setReports_marks_lists (s : State) (x : List Report) : (s.setReports x).marks.lists = s.marks.lists := rfl
@[simp] theorem State.setReports_marks_reports (s : State) (x : List Report) : (s.setReports x).marks.reports = x := rfl
@[simp] theorem State.setReports_marks_withdrawn (s : State) (x : List Report) : (s.setReports x).marks.withdrawn = s.marks.withdrawn := rfl
@[simp] theorem State.setReports_pending (s : State) (x : List Report) : (s.setReports x).pending = s.pending := rfl
@[simp] theorem State.port_setReports (s : State) (x : List Report) (q : PortId) : (s.setReports x).port q = s.port q := rfl
@[simp] theorem State.link_setReports (s : State) (x : List Report) (q : PortId) : (s.setReports x).link q = s.link q := rfl
@[simp] theorem State.lay_setReports (s : State) (x : List Report) (q : PortId) : (s.setReports x).lay q = s.lay q := rfl
@[simp] theorem State.unit_setReports (s : State) (x : List Report) (q : PortId) : (s.setReports x).unit q = s.unit q := rfl
@[simp] theorem State.markList_setReports (s : State) (x : List Report) (q : PortId) : (s.setReports x).markList q = s.markList q := rfl
@[simp] theorem State.slot_setReports (s : State) (x : List Report) (i : Nat) : (s.setReports x).slot i = s.slot i := rfl
@[simp] theorem State.entry_setReports (s : State) (x : List Report) (q : PortId) : (s.setReports x).entry q = s.entry q := rfl
@[simp] theorem State.editState_setReports (s : State) (x : List Report) (q : PortId) : (s.setReports x).editState q = s.editState q := rfl
@[simp] theorem State.frameField_setReports (s : State) (x : List Report) : (s.setReports x).frameField = s.frameField := rfl

/-! setWithdrawn -/

@[simp] theorem State.setWithdrawn_ports (s : State) (x : List (PortId × Nat)) : (s.setWithdrawn x).ports = s.ports := rfl
@[simp] theorem State.setWithdrawn_links (s : State) (x : List (PortId × Nat)) : (s.setWithdrawn x).links = s.links := rfl
@[simp] theorem State.setWithdrawn_layout_slots (s : State) (x : List (PortId × Nat)) : (s.setWithdrawn x).layout.slots = s.layout.slots := rfl
@[simp] theorem State.setWithdrawn_layout_ports (s : State) (x : List (PortId × Nat)) : (s.setWithdrawn x).layout.ports = s.layout.ports := rfl
@[simp] theorem State.setWithdrawn_layout_plan (s : State) (x : List (PortId × Nat)) : (s.setWithdrawn x).layout.plan = s.layout.plan := rfl
@[simp] theorem State.setWithdrawn_layout_sealedPlan (s : State) (x : List (PortId × Nat)) : (s.setWithdrawn x).layout.sealedPlan = s.layout.sealedPlan := rfl
@[simp] theorem State.setWithdrawn_layout_retiring (s : State) (x : List (PortId × Nat)) : (s.setWithdrawn x).layout.retiring = s.layout.retiring := rfl
@[simp] theorem State.setWithdrawn_sources (s : State) (x : List (PortId × Nat)) : (s.setWithdrawn x).sources = s.sources := rfl
@[simp] theorem State.setWithdrawn_scan (s : State) (x : List (PortId × Nat)) : (s.setWithdrawn x).scan = s.scan := rfl
@[simp] theorem State.setWithdrawn_comp (s : State) (x : List (PortId × Nat)) : (s.setWithdrawn x).comp = s.comp := rfl
@[simp] theorem State.setWithdrawn_marks_lists (s : State) (x : List (PortId × Nat)) : (s.setWithdrawn x).marks.lists = s.marks.lists := rfl
@[simp] theorem State.setWithdrawn_marks_reports (s : State) (x : List (PortId × Nat)) : (s.setWithdrawn x).marks.reports = s.marks.reports := rfl
@[simp] theorem State.setWithdrawn_marks_withdrawn (s : State) (x : List (PortId × Nat)) : (s.setWithdrawn x).marks.withdrawn = x := rfl
@[simp] theorem State.setWithdrawn_pending (s : State) (x : List (PortId × Nat)) : (s.setWithdrawn x).pending = s.pending := rfl
@[simp] theorem State.port_setWithdrawn (s : State) (x : List (PortId × Nat)) (q : PortId) : (s.setWithdrawn x).port q = s.port q := rfl
@[simp] theorem State.link_setWithdrawn (s : State) (x : List (PortId × Nat)) (q : PortId) : (s.setWithdrawn x).link q = s.link q := rfl
@[simp] theorem State.lay_setWithdrawn (s : State) (x : List (PortId × Nat)) (q : PortId) : (s.setWithdrawn x).lay q = s.lay q := rfl
@[simp] theorem State.unit_setWithdrawn (s : State) (x : List (PortId × Nat)) (q : PortId) : (s.setWithdrawn x).unit q = s.unit q := rfl
@[simp] theorem State.markList_setWithdrawn (s : State) (x : List (PortId × Nat)) (q : PortId) : (s.setWithdrawn x).markList q = s.markList q := rfl
@[simp] theorem State.slot_setWithdrawn (s : State) (x : List (PortId × Nat)) (i : Nat) : (s.setWithdrawn x).slot i = s.slot i := rfl
@[simp] theorem State.entry_setWithdrawn (s : State) (x : List (PortId × Nat)) (q : PortId) : (s.setWithdrawn x).entry q = s.entry q := rfl
@[simp] theorem State.editState_setWithdrawn (s : State) (x : List (PortId × Nat)) (q : PortId) : (s.setWithdrawn x).editState q = s.editState q := rfl
@[simp] theorem State.frameField_setWithdrawn (s : State) (x : List (PortId × Nat)) : (s.setWithdrawn x).frameField = s.frameField := rfl

end Sys2Proof.Machine
end

