-- ==== Sys2Proof/Laws/Ops.lean ====
section
/-! SUPPORT. For each shared operation of the blocks, what it can do, said once: proofs cite these and do not unfold the
operations. -/

namespace Sys2Proof.Machine

/-! ### Requests and responses -/

/-- The frame number field, byte by byte. -/
theorem State.frameField_eq_frameNow (s : State) : s.frameField = s.frameNow := by
  simp only [State.frameField, frameBytes, le16, State.frameNow, State.frameLow, State.frameHigh, byteOf,
    List.cons.injEq, and_true]
  constructor <;> (apply BitVec.eq_of_toNat_eq; simp [Nat.shiftRight_eq_div_pow])

/-- respond adds the one response. -/
theorem respond_eq_replied (p : PortId) (r : Request) (res : Result) (fields : List Byte) (s : State) :
    respond p r res fields s = replied p r res fields s := rfl

/-- dropHead leaves the rest of the queue. -/
theorem dropHead_eq_taken {p : PortId} {r : Request} {rest : List Request} {s : State}
    (h : (s.port p).requests = r :: rest) : dropHead p s = taken p rest s := by
  simp only [dropHead, h, List.tail]
  rfl

/-- The engine can take the request of `Takes`. -/
theorem headOf_takes {k : RequestKind} {p : PortId} {r : Request} {rest : List Request} {s : State}
    (h : Takes k p r rest s) : headOf p s = some r := by
  simp [headOf, h.ready, h.attached, h.head, Attach.acceptsWrites]

/-- The request of `Takes` passes the universal checks. -/
theorem universalResult_takes {k : RequestKind} {p : PortId} {r : Request} {rest : List Request} {s : State}
    (h : Takes k p r rest s) : universalResult k p (s.port p).attach r = none := by
  have hp := h.plan
  simp only [universalResult, h.length, h.attached, ne_eq, not_true_eq_false, if_false, reduceCtorEq, false_and]
  exact if_neg fun h1 => h1.1 (hp h1.2)

/-- A request that does not block is carried to its block without the queue's head. -/
theorem serve_takes {k : RequestKind} {p : PortId} {r : Request} {rest : List Request} {s : State}
    (h : Takes k p r rest s) (body : Request → State → State) : serve k p false body s = body r (taken p rest s) := by
  simp [serve, headOf_takes h, h.code, universalResult_takes h, dropHead_eq_taken h.head]

/-- A request that must wait blocks the engine and stays at the head. -/
theorem serve_takes_blocked {k : RequestKind} {p : PortId} {r : Request} {rest : List Request} {s : State}
    (h : Takes k p r rest s) (body : Request → State → State) : serve k p true body s = setEngine p .blocked s := by
  simp [serve, headOf_takes h, h.code, universalResult_takes h]

/-- Everything an engine can do with a request row: nothing, a universal result, blocking, or the block's work on the
head, which is of the kind, passes the checks, and comes from a port that can send it. -/
theorem serve_cases (k : RequestKind) (p : PortId) (b : Bool) (body : Request → State → State) (s : State) :
    serve k p b body s = s ∨
      (∃ r res, headOf p s = some r ∧ r.code = k.code ∧ universalResult k p (s.port p).attach r = some res ∧
        serve k p b body s = respond p r res [] (dropHead p s)) ∨
      (∃ r, headOf p s = some r ∧ r.code = k.code ∧ universalResult k p (s.port p).attach r = none ∧ b = true ∧
        serve k p b body s = setEngine p .blocked s) ∨
      (∃ r, headOf p s = some r ∧ r.code = k.code ∧ universalResult k p (s.port p).attach r = none ∧ b = false ∧
        serve k p b body s = body r (dropHead p s)) := by
  unfold serve
  split
  · exact .inl rfl
  · rename_i r hr
    split
    · exact .inl rfl
    · rename_i hc
      have hc : r.code = k.code := not_not.mp hc
      split
      · rename_i res hu
        exact .inr (.inl ⟨r, res, hr, hc, hu, rfl⟩)
      · rename_i hu
        cases b
        · exact .inr (.inr (.inr ⟨r, hr, hc, hu, rfl, rfl⟩))
        · exact .inr (.inr (.inl ⟨r, hr, hc, hu, rfl, rfl⟩))

/-- What the head of a queue must be for an engine to take it. -/
theorem headOf_some {p : PortId} {s : State} {r : Request} (h : headOf p s = some r) :
    (s.port p).engine = .ready ∧ ((s.port p).attach = .detached ∨ (s.port p).attach = .attached) ∧
      ∃ rest, (s.port p).requests = r :: rest := by
  unfold headOf at h
  split at h
  · cases h
  · rename_i he
    split at h
    · rename_i ha
      refine ⟨he, ?_, ?_⟩
      · cases hc : (s.port p).attach <;> simp_all [Attach.acceptsWrites]
      · cases hq : (s.port p).requests <;> simp_all
    · cases h

/-- A deferred response is placed for the first request of the kind that is owed one, or nothing happens. -/
theorem placeDeferred_cases (p : PortId) (k : RequestKind) (res : Result) (fields : List Byte) (s : State) :
    ((∀ r ∈ (s.port p).deferred, r.code ≠ k.code) ∧ placeDeferred p k res fields s = s) ∨
      ∃ a r b, (s.port p).deferred = a ++ r :: b ∧ r.code = k.code ∧ (∀ x ∈ a, x.code ≠ k.code) ∧
        placeDeferred p k res fields s = s.setPort p { s.port p with
          deferred := a ++ b
          responses := (s.port p).responses ++ [r.answer res fields] } := by
  unfold placeDeferred
  split
  · rename_i h
    exact .inl ⟨by simpa using h, rfl⟩
  · rename_i r h
    obtain ⟨hr, a, b, hd, ha⟩ := List.find?_eq_some_iff_append.mp h
    have hr : r.code = k.code := by simpa using hr
    have ha : ∀ x ∈ a, x.code ≠ k.code := by simpa using ha
    refine .inr ⟨a, r, b, hd, hr, ha, ?_⟩
    have he : (s.port p).deferred.eraseP (fun r => r.code == k.code) = a ++ b := by
      rw [hd, List.eraseP_append_right _ (by simpa using ha)]
      simp [hr]
    simp [respond, he]

/-! ### Notices -/

/-- Two states differ at most in the notice queues, the notice-lost flags, and what the links count of them. -/
structure NoticesOnly (s t : State) : Prop where
  ports : ∀ p, t.port p = { s.port p with notices := (t.port p).notices, noticeLost := (t.port p).noticeLost }
  douts : ∀ p, (t.link p).dout = (s.link p).dout
  layout : t.layout = s.layout
  sources : t.sources = s.sources
  scan : t.scan = s.scan
  comp : t.comp = s.comp
  marks : t.marks = s.marks
  pending : t.pending = s.pending

theorem NoticesOnly.refl (s : State) : NoticesOnly s s := ⟨fun _ => rfl, fun _ => rfl, rfl, rfl, rfl, rfl, rfl, rfl⟩

theorem NoticesOnly.trans {s t u : State} (h : NoticesOnly s t) (g : NoticesOnly t u) : NoticesOnly s u where
  ports p := by rw [g.ports p, h.ports p]
  douts p := (g.douts p).trans (h.douts p)
  layout := g.layout.trans h.layout
  sources := g.sources.trans h.sources
  scan := g.scan.trans h.scan
  comp := g.comp.trans h.comp
  marks := g.marks.trans h.marks
  pending := g.pending.trans h.pending

/-- What a notice that reaches a port can change. -/
theorem storeNotice_only (p : PortId) (n : Notice) (s : State) : NoticesOnly s (storeNotice p n s) := by
  have key : ∀ q lost, NoticesOnly s (s.setPort p { s.port p with notices := q, noticeLost := lost }) := by
    intro q lost
    refine ⟨fun r => ?_, fun _ => rfl, rfl, rfl, rfl, rfl, rfl, rfl⟩
    rw [State.port_setPort]
    split
    · rename_i h
      subst h
      rfl
    · rfl
  unfold storeNotice
  dsimp only
  split
  · exact .refl s
  · split
    · rename_i q _
      split
      · refine (key q (s.port p).noticeLost).trans ⟨fun _ => rfl, fun r => ?_, rfl, rfl, rfl, rfl, rfl, rfl⟩
        rw [State.link_setLink]
        split
        · rename_i h
          subst h
          unfold Link.coalesced
          split <;> rfl
        · rfl
      · exact key q (s.port p).noticeLost
    · split
      · exact key _ (s.port p).noticeLost
      · exact key (s.port p).notices true

/-- What notices sent in order can change. -/
theorem storeNotices_only (ns : List (PortId × Notice)) (s : State) : NoticesOnly s (storeNotices ns s) := by
  induction ns generalizing s with
  | nil => exact .refl s
  | cons n ns ih => exact (storeNotice_only n.1 n.2 s).trans (ih _)

/-- What a notice to every port can change. -/
theorem storeAll_only (n : Notice) (s : State) : NoticesOnly s (storeAll n s) := storeNotices_only _ s

/-- A notice reaches only its own port's Port Controller. -/
theorem storeNotice_port_ne {p q : PortId} (h : q ≠ p) (n : Notice) (s : State) :
    (storeNotice p n s).port q = s.port q := by
  unfold storeNotice
  dsimp only
  repeat' split
  all_goals simp [h]

/-- A notice reaches only its own port's link. -/
theorem storeNotice_link_ne {p q : PortId} (h : q ≠ p) (n : Notice) (s : State) :
    (storeNotice p n s).link q = s.link q := by
  unfold storeNotice
  dsimp only
  repeat' split
  all_goals simp [h]

/-! ### Slots -/

/-- A table changed slot by slot. -/
theorem mapSlotsFrom_getElem? (f : Nat → Slot → Slot) (i : Nat) (xs : List Slot) (j : Nat) :
    (mapSlotsFrom f i xs)[j]? = xs[j]?.map (f (i + j)) := by
  induction xs generalizing i j with
  | nil => simp [mapSlotsFrom]
  | cons x xs ih =>
    cases j with
    | zero => simp [mapSlotsFrom]
    | succ j =>
      simp only [mapSlotsFrom, List.getElem?_cons_succ, ih]
      rw [show i + 1 + j = i + (j + 1) by omega]

@[simp] theorem mapSlotsFrom_length (f : Nat → Slot → Slot) (i : Nat) (xs : List Slot) :
    (mapSlotsFrom f i xs).length = xs.length := by
  induction xs generalizing i with
  | nil => rfl
  | cons x xs ih => simp [mapSlotsFrom, ih]

/-- The slot with an id after a change that keeps FREE slots FREE. -/
theorem State.slot_mapSlots (s : State) (f : Nat → Slot → Slot) (hf : ∀ i, f i .free = .free) (i : Nat) :
    (s.mapSlots f).slot i = f i (s.slot i) := by
  simp only [State.slot, State.mapSlots, State.setSlots_layout_slots, List.getD_eq_getElem?_getD,
    mapSlotsFrom_getElem?, Nat.zero_add]
  cases s.layout.slots[i]? <;> simp [hf]

/-- The slots with these ids are FREE, the others stay. -/
theorem slot_freeSlots (ids : List Nat) (s : State) (i : Nat) :
    (freeSlots ids s).slot i = if i ∈ ids then .free else s.slot i := by
  rw [freeSlots, State.slot_mapSlots _ _ (by simp)]
  simp

/-- A RESERVED slot of the port that nothing names is FREE, every other slot stays. -/
theorem slot_releaseUnnamed (p : PortId) (s : State) (i : Nat) :
    (releaseUnnamed p s).slot i =
      if (s.slot i).reservedOf p = true ∧ optNames (s.lay p).draft i = false ∧
        optNames (s.lay p).sealedSet i = false then .free else s.slot i := by
  rw [releaseUnnamed, State.slot_mapSlots _ _ (fun _ => rfl)]
  cases s.slot i <;> simp [Slot.reservedOf]

/-! ### Marks and reports -/

/-- What the Mark Unit changes when it takes one report: the owner's list, and notices. -/
theorem takeReport_only (s : State) (r : Report) :
    NoticesOnly (s.setMarkList r.owner ((s.markList r.owner).filter fun m => !r.breaks m)) (takeReport s r) :=
  storeNotices_only _ _

/-- What the Mark Unit changes when a line fires the marks of one port: its list, and notices. -/
theorem fireMarks_only (l : Nat) (s : State) (p : PortId) :
    NoticesOnly (s.setMarkList p ((s.markList p).filterMap fun m => if markAt l s m then m.fired else some m))
      (fireMarks l s p) :=
  storeNotices_only _ _

/-- Reports taken in order leave the marks that no report of their owner breaks. -/
theorem foldl_takeReport (rs : List Report) (s : State) :
    let t := rs.foldl takeReport s
    (∀ p, t.markList p = (s.markList p).filter fun m => rs.all fun x => !(decide (x.owner = p) && x.breaks m)) ∧
      t.marks.reports = s.marks.reports ∧ t.layout = s.layout ∧ t.sources = s.sources ∧ t.scan = s.scan ∧
      t.comp = s.comp ∧ t.pending = s.pending ∧
      ∀ p, t.port p = { s.port p with notices := (t.port p).notices, noticeLost := (t.port p).noticeLost } ∧
        (t.link p).dout = (s.link p).dout := by
  induction rs generalizing s with
  | nil => exact ⟨fun p => by simp, rfl, rfl, rfl, rfl, rfl, rfl, fun p => ⟨rfl, rfl⟩⟩
  | cons r rs ih =>
    obtain ⟨h1, h2, h3, h4, h5, h6, h7, h8⟩ := ih (takeReport s r)
    have g := takeReport_only s r
    have gm : ∀ p, (takeReport s r).markList p =
        if p = r.owner then (s.markList r.owner).filter fun m => !r.breaks m else s.markList p := by
      intro p
      rw [State.markList, g.marks]
      exact State.markList_setMarkList s r.owner _ p
    refine ⟨fun p => ?_, ?_, h3.trans g.layout, h4.trans g.sources, h5.trans g.scan, h6.trans g.comp,
      h7.trans g.pending, fun p => ⟨?_, (h8 p).2.trans (g.douts p)⟩⟩
    · rw [List.foldl_cons, h1 p, gm p]
      split
      · rename_i h
        subst h
        rw [List.filter_filter]
        congr 1
        funext m
        simp [Bool.and_comm]
      · rename_i h
        congr 1
        funext m
        simp [Ne.symm h]
    · rw [List.foldl_cons, h2, g.marks]
      rfl
    · rw [List.foldl_cons, (h8 p).1, g.ports p]
      rfl

/-- The taking of the waiting reports. -/
theorem takeReports_spec (s : State) :
    (∀ p, (takeReports s).markList p =
        (s.markList p).filter fun m => s.marks.reports.all fun x => !(decide (x.owner = p) && x.breaks m)) ∧
      (takeReports s).marks.reports = [] ∧ (takeReports s).layout = s.layout ∧ (takeReports s).sources = s.sources ∧
      (takeReports s).scan = s.scan ∧ (takeReports s).comp = s.comp ∧ (takeReports s).pending = s.pending ∧
      ∀ p, (takeReports s).port p =
          { s.port p with
            notices := ((takeReports s).port p).notices
            noticeLost := ((takeReports s).port p).noticeLost } ∧
        ((takeReports s).link p).dout = (s.link p).dout :=
  foldl_takeReport s.marks.reports (s.setReports [])

/-- Where no report waits, nothing is taken. -/
theorem takeReports_of_none {s : State} (h : s.marks.reports = []) : takeReports s = s := by
  simp only [takeReports, h, List.foldl_nil, State.setReports]
  rw [← h]

/-! ### Frame starts at the Source Units -/

/-- A Source Unit takes the frame start that waits, or nothing happens. -/
theorem takeFrameStart_cases (p : PortId) (s : State) :
    ((s.unit p).frameWaiting = false ∧ takeFrameStart p s = s) ∨
      ((s.unit p).frameWaiting = true ∧
        NoticesOnly
          (s.setUnit p { (judgement p s).1 with
            fsync := decide ((s.port p).attach = .attached)
            pulsed := decide ((s.port p).attach = .attached)
            frameWaiting := false })
          (takeFrameStart p s)) := by
  unfold takeFrameStart
  cases h : (s.unit p).frameWaiting
  · exact .inl ⟨rfl, rfl⟩
  · exact .inr ⟨rfl, storeNotices_only _ _⟩

/-! ### LEAVING -/

/-- The departure of a port, or nothing. -/
theorem leaveIfDone_cases (p : PortId) (s : State) :
    ((∀ r, (s.port p).attach = .leaving r true → (s.port p).responses ≠ []) ∧ leaveIfDone p s = s) ∨
      ∃ r, (s.port p).attach = .leaving r true ∧ (s.port p).responses = [] ∧
        leaveIfDone p s = storeNotice .p0 (noticeNow s .portLeft (portByte p) r.byte)
          ((s.setPort p { s.port p with attach := if (s.entry p).enabled then .detached else .disabled }).setUnit p
            (s.unit p).silenced.undeclared) := by
  unfold leaveIfDone
  split
  · rename_i r h
    cases hr : (s.port p).responses with
    | nil => exact .inr ⟨r, h, rfl, by simp [noticeNow]⟩
    | cons x xs => exact .inl ⟨fun _ _ => by simp, by simp⟩
  · rename_i h
    exact .inl ⟨fun r hr => absurd hr (h r), rfl⟩

/-- Every queued request is answered CANCELLED, in the queue's order. -/
theorem cancelQueued_eq (p : PortId) (s : State) :
    cancelQueued p s = s.setPort p { s.port p with
      requests := []
      responses := (s.port p).responses ++ (s.port p).requests.map fun r => r.answer .cancelled [] } := by
  have key : ∀ (rs : List Request) (t : State), rs.foldl (fun s r => respond p r .cancelled [] s) t =
      t.setPort p { t.port p with responses := (t.port p).responses ++ rs.map fun r => r.answer .cancelled [] } := by
    intro rs
    induction rs with
    | nil =>
      intro t
      simp only [List.foldl_nil, List.map_nil, List.append_nil]
      exact (State.setPort_self t p).symm
    | cons r rs ih =>
      intro t
      rw [List.foldl_cons, ih]
      simp [respond]
  simp [cancelQueued, key]

/-! ### The command link -/

/-- A transaction of port p under way: its Port Controller, its state and the bytes clocked out, over state s. -/
def midTransaction (p : PortId) (c : PortController) (t : LinkState) (out : List Byte) (s : State) : State :=
  { s with ports := s.ports.set p c, links := s.links.set p { state := t, dout := out } }

section
variable (p : PortId) (c : PortController) (t : LinkState) (out : List Byte) (s : State)

theorem midTransaction_idle : midTransaction p c .idle out s = afterTransaction p c out s := rfl

@[simp] theorem link_midTransaction : (midTransaction p c t out s).link p = { state := t, dout := out } := by
  simp [midTransaction, State.link]

@[simp] theorem port_midTransaction : (midTransaction p c t out s).port p = c := by
  simp [midTransaction, State.port]

@[simp] theorem setPort_midTransaction (d : PortController) :
    (midTransaction p c t out s).setPort p d = midTransaction p d t out s := by
  simp [midTransaction, State.setPort]

@[simp] theorem clockOut_midTransaction (bs : List Byte) :
    clockOut p bs (midTransaction p c t out s) = midTransaction p c t (out ++ bs) s := by
  simp [clockOut, midTransaction, State.setLink, State.link]

@[simp] theorem setTransaction_midTransaction (u : LinkState) :
    setTransaction p u (midTransaction p c t out s) = midTransaction p c u out s := by
  simp [setTransaction, midTransaction, State.setLink, State.link]

@[simp] theorem refuse_midTransaction (why : Refused) :
    refuse p why (midTransaction p c t out s) = midTransaction p { c with refusal := why } t out s := by
  simp [refuse]

@[simp] theorem sendStatus_midTransaction (b : Byte) :
    sendStatus p b (midTransaction p c t out s) = midTransaction p { c with refusal := .none } t (out ++ [b]) s := by
  simp [sendStatus]

@[simp] theorem clockStatus_midTransaction :
    clockStatus p (midTransaction p c t out s) =
      midTransaction p { c with refusal := .none } t (out ++ [c.statusByte]) s := by
  simp [clockStatus]
end

/-- Chip select falls on a link that is idle: the status byte of the moment is fixed. -/
theorem selectLink_idle {p : PortId} {s : State} (h : (s.link p).state = .idle) :
    selectLink p s = midTransaction p (s.port p) (.selected (s.port p).statusByte) [] s := by
  simp [selectLink, h, midTransaction, State.setLink, State.port]

/-- A link in the state of a transaction under way. -/
theorem midTransaction_of {p : PortId} {s : State} {t : LinkState} {out : List Byte}
    (h : s.link p = { state := t, dout := out }) : s = midTransaction p (s.port p) t out s := by
  have hp : s.ports.set p (s.port p) = s.ports := by simp [State.port]
  have hl : s.links.set p (s.link p) = s.links := by simp [State.link]
  rw [h] at hl
  simp only [midTransaction, hp, hl]

/-- The kind byte goes in while the fixed status byte goes out. -/
theorem clockKind_selected (p : PortId) (k b : Byte) (c : PortController) (out : List Byte) (s : State) :
    clockKind p k (midTransaction p c (.selected b) out s) =
      takeKind p k (midTransaction p { c with refusal := .none } (.selected b) (out ++ [b]) s) := by
  simp [clockKind]

/-- A whole transaction on a link that is idle. -/
theorem runPart_whole {p : PortId} {s : State} (h : (s.link p).state = .idle) (k : Byte)
    (clock : State → Byte → State) (finish : State → State) (bs : List Byte) :
    runPart p k clock finish (.whole bs) s = finish (bs.foldl clock (takeKind p k
      (midTransaction p { s.port p with refusal := .none } (.selected (s.port p).statusByte) [(s.port p).statusByte] s))) := by
  simp [runPart, h, selectLink_idle h, clockKind_selected]

/-! ### What the commit, the departures and the frame starts never touch -/

/-- A fold of steps that each relate the state before to the state after by a reflexive, transitive relation. -/
theorem foldl_related {α β : Type} {R : β → β → Prop} (refl : ∀ s, R s s) (trans : ∀ s t u, R s t → R t u → R s u)
    {f : β → α → β} (h : ∀ s x, R s (f s x)) (xs : List α) (s : β) : R s (xs.foldl f s) := by
  induction xs generalizing s with
  | nil => exact refl s
  | cons x xs ih => exact trans _ _ _ (h s x) (ih _)

/-- The panel's side of the part is the same in two states: the Scan Timer, the Compositor, and the waiting commands. -/
structure SamePanel (s t : State) : Prop where
  scan : t.scan = s.scan
  comp : t.comp = s.comp
  pending : t.pending = s.pending

theorem SamePanel.refl (s : State) : SamePanel s s := ⟨rfl, rfl, rfl⟩

theorem SamePanel.trans {s t u : State} (h : SamePanel s t) (g : SamePanel t u) : SamePanel s u :=
  ⟨g.scan.trans h.scan, g.comp.trans h.comp, g.pending.trans h.pending⟩

theorem SamePanel.foldl {α : Type} {f : State → α → State} (h : ∀ s x, SamePanel s (f s x)) (xs : List α) (s : State) :
    SamePanel s (xs.foldl f s) :=
  foldl_related .refl (fun _ _ _ => .trans) h xs s

theorem NoticesOnly.samePanel {s t : State} (h : NoticesOnly s t) : SamePanel s t := ⟨h.scan, h.comp, h.pending⟩

theorem placeDeferred_samePanel (p : PortId) (k : RequestKind) (res : Result) (fields : List Byte) (s : State) :
    SamePanel s (placeDeferred p k res fields s) := by
  rcases placeDeferred_cases p k res fields s with ⟨-, h⟩ | ⟨a, r, b, -, -, -, h⟩ <;> rw [h] <;> exact ⟨rfl, rfl, rfl⟩

theorem leaveIfDone_samePanel (p : PortId) (s : State) : SamePanel s (leaveIfDone p s) := by
  rcases leaveIfDone_cases p s with ⟨-, h⟩ | ⟨r, -, -, h⟩ <;> rw [h]
  · exact .refl s
  · have g := (storeNotice_only .p0 (noticeNow s .portLeft (portByte p) r.byte)
      ((s.setPort p { s.port p with attach := if (s.entry p).enabled then .detached else .disabled }).setUnit p
        (s.unit p).silenced.undeclared)).samePanel
    exact ⟨g.scan, g.comp, g.pending⟩

theorem tellRetired_samePanel (p : PortId) (s : State) : SamePanel s (tellRetired p s) := by
  have g := leaveIfDone_samePanel p (s.setPort p { s.port p with attach := (s.port p).attach.regionsRetired })
  exact ⟨g.scan, g.comp, g.pending⟩

theorem dropProposals_samePanel (p : PortId) (res : Result) (fields : List Byte) (s : State) :
    SamePanel s (dropProposals p res fields s) := by
  have g := placeDeferred_samePanel p .publish res fields
    (releaseUnnamed p (s.setLay p { s.lay p with draft := none, sealedSet := none }))
  exact ⟨g.scan, g.comp, g.pending⟩

theorem dropSealedPlan_samePanel (s : State) : SamePanel s (dropSealedPlan s) := by
  have g := placeDeferred_samePanel .p0 .planSet .cancelled [] s
  exact ⟨g.scan, g.comp, g.pending⟩

/-- What a port's entry into LEAVING never touches. -/
theorem enterLeaving_samePanel (p : PortId) (reason : LeaveReason) (own : Option Response) (s : State) :
    SamePanel s (enterLeaving p reason own s) := by
  unfold enterLeaving
  simp only [cancelQueued_eq]
  generalize ha : (s.setPort p { s.port p with attach := .leaving reason false, notices := [], noticeLost := false }).setLink
    p _ = a
  have h0 : SamePanel s a := by
    subst ha
    exact ⟨rfl, rfl, rfl⟩
  have h1 : SamePanel s (if p = .p0 then dropSealedPlan a else a) := by
    split
    · exact h0.trans (dropSealedPlan_samePanel a)
    · exact h0
  have h2 := h1.trans (dropProposals_samePanel p .cancelled [] _)
  revert h2
  generalize dropProposals p .cancelled [] (if p = .p0 then dropSealedPlan a else a) = b
  intro h2
  split
  · refine SamePanel.trans ?_ (tellRetired_samePanel p _)
    exact ⟨h2.scan, h2.comp, h2.pending⟩
  · exact ⟨h2.scan, h2.comp, h2.pending⟩

theorem retireOne_samePanel (sr : State × List Report) (p : PortId) : SamePanel sr.1 (retireOne sr p).1 := by
  have g := tellRetired_samePanel p ((freeSlots (sr.1.lay p).order sr.1).setLay p { sr.1.lay p with order := [] })
  exact ⟨g.scan, g.comp, g.pending⟩

/-- What the retirement of the listed ports never touches. -/
theorem retireListed_samePanel (s : State) : SamePanel s (retireListed s).1 := by
  have g := foldl_related (R := fun a b : State × List Report => SamePanel a.1 b.1) (fun _ => .refl _)
    (fun _ _ _ => .trans) (fun sr p => retireOne_samePanel sr p) s.layout.retiring (s.setRetiring [], [])
  exact ⟨g.scan, g.comp, g.pending⟩

theorem handEnablement_samePanel (p : PortId) (enabled : Bool) (s : State) :
    SamePanel s (handEnablement p enabled s) := by
  unfold handEnablement
  dsimp only
  repeat' split
  all_goals first | exact ⟨rfl, rfl, rfl⟩ | exact enterLeaving_samePanel _ _ _ _

theorem handIfChanged_samePanel (old new : Plan) (s : State) (p : PortId) :
    SamePanel s (handIfChanged old new s p) := by
  unfold handIfChanged
  split
  · exact .refl s
  · exact handEnablement_samePanel _ _ _

theorem settleEvictPort_samePanel (old new : Plan) (sh : State × Settled) (p : PortId) :
    SamePanel sh.1 (settleEvictPort old new sh p).1 := by
  unfold settleEvictPort
  split
  · exact .refl _
  · have h := (dropProposals_samePanel p .draftVoid [EditState.idle.byte] sh.1).trans
      (handIfChanged_samePanel old new _ p)
    dsimp only
    split
    · exact h.trans ⟨rfl, rfl, rfl⟩
    · exact h

/-- What the settling of a plan never touches, its response being placed by an operation that does not touch it. -/
theorem settlePlan_samePanel {answer : Result → List Byte → State → State}
    (ha : ∀ res fields s, SamePanel s (answer res fields s)) (new : Plan) (mode : PlanMode) (s : State) :
    SamePanel s (settlePlan answer new mode s).1 := by
  cases mode with
  | keep =>
    simp only [settlePlan]
    split
    · exact ha _ _ _
    · have g := SamePanel.foldl (fun t p => handIfChanged_samePanel s.layout.plan new t p) PortId.all (s.setPlan new)
      exact SamePanel.trans ⟨g.scan, g.comp, g.pending⟩ (ha _ _ _)
  | evict =>
    have g := (ha .done (planFields s none none) (s.setPlan new)).trans
      (foldl_related (R := fun a b : State × Settled => SamePanel a.1 b.1) (fun _ => .refl _) (fun _ _ _ => .trans)
        (fun sh p => settleEvictPort_samePanel s.layout.plan new sh p) PortId.all
        (answer .done (planFields s none none) (s.setPlan new), .nothing))
    exact ⟨g.scan, g.comp, g.pending⟩

/-- A waiting set is applied, or nothing happens. -/
theorem applySet_cases (p : PortId) (s : State) :
    ((s.lay p).sealedSet = none ∧ applySet p s = (s, [])) ∨
      ∃ pr, (s.lay p).sealedSet = some pr ∧
        applySet p s =
          ((s.mapSlots (applyToSlot pr ((s.lay p).order.filter fun id => !names pr id))).setLay p
            { s.lay p with order := pr.ids, sealedSet := none }, applyReports p pr s) := by
  unfold applySet
  cases h : (s.lay p).sealedSet
  · exact .inl ⟨rfl, rfl⟩
  · exact .inr ⟨_, rfl, rfl⟩

theorem applySet_samePanel (p : PortId) (s : State) : SamePanel s (applySet p s).1 := by
  rcases applySet_cases p s with ⟨-, h⟩ | ⟨pr, -, h⟩ <;> rw [h] <;> exact ⟨rfl, rfl, rfl⟩

theorem applySets_samePanel (s : State) : SamePanel s (applySets s).1.1 :=
  foldl_related (R := fun a b : State × List Report => SamePanel a.1 b.1) (fun _ => .refl _) (fun _ _ _ => .trans)
    (f := fun sr p => let r := applySet p sr.1; (r.1, sr.2 ++ r.2)) (fun sr p => applySet_samePanel p sr.1) PortId.all
    (s, [])

/-- A slot after the generations advanced: a LIVE one has its next generation, another stays (R76). -/
theorem slot_advanceGenerations (s0 s : State) (i : Nat) :
    (advanceGenerations s0 s).slot i =
      match s.slot i with
      | .live o k _ c => .live o k (nextGeneration s0 s i o c) c
      | x => x := by
  refine (State.slot_mapSlots s _ (fun _ => rfl) i).trans ?_
  cases s.slot i <;> rfl

/-- What a commit never touches: the Scan Timer and the Compositor. -/
theorem commit_samePanel (s : State) : SamePanel s (commit s) := by
  have h1 : SamePanel s (settleSealed s).1 := by
    unfold settleSealed
    split
    · exact .refl s
    · exact (settlePlan_samePanel (fun _ _ _ => placeDeferred_samePanel _ _ _ _ _) _ _ _).trans ⟨rfl, rfl, rfl⟩
  have h2 := h1.trans (retireListed_samePanel _)
  have h3 := h2.trans (applySets_samePanel _)
  have h4 : SamePanel s (advanceGenerations s (applySets (retireListed (settleSealed s).1).1).1.1) :=
    h3.trans ⟨rfl, rfl, rfl⟩
  have h5 := h4.trans (.foldl (f := answerApplied) (fun s p => placeDeferred_samePanel p _ _ _ s)
    (applySets (retireListed (settleSealed s).1).1).2 _)
  have h6 := h5.trans (storeNotices_only (settleSealed s).2.notices _).samePanel
  exact SamePanel.trans (t := handCommitReports _ _) ⟨h6.scan, h6.comp, h6.pending⟩
    (.foldl (f := fun s p => setEngine p .ready s) (fun _ _ => ⟨rfl, rfl, rfl⟩) PortId.all _)

/-- When a commit is whole every engine is READY (R78). -/
theorem commit_engine (s : State) (p : PortId) : ((commit s).port p).engine = .ready := by
  unfold commit
  dsimp only
  cases p <;> simp [releaseEngines, PortId.all, setEngine]

/-- The warm count: nothing waits, the panel enters LIVE, or the counter rises. -/
theorem takeWarmCount_cases (s : State) :
    (s.scan.warmWaiting = false ∧ takeWarmCount s = s) ∨
      (s.scan.warmWaiting = true ∧ s.scan.setup.warm ≤ s.scan.warm + 1 ∧
        takeWarmCount s =
          storeAll { kind := .panelState, subject := 0x02, frame := s.scan.frame, count := 1, detail := s.scan.panel.byte }
            (s.setScan { s.scan with panel := .live, warm := 0, warmWaiting := false })) ∨
      (s.scan.warmWaiting = true ∧ s.scan.warm + 1 < s.scan.setup.warm ∧
        takeWarmCount s = s.setScan { s.scan with warm := s.scan.warm + 1, warmWaiting := false }) := by
  unfold takeWarmCount
  split
  · rename_i h
    split
    · rename_i g
      exact .inr (.inl ⟨h, g, rfl⟩)
    · rename_i g
      exact .inr (.inr ⟨h, by omega, rfl⟩)
  · rename_i h
    exact .inl ⟨by simpa using h, rfl⟩

/-- A raised frame start: the number, the position, the output, and where it waits. -/
theorem raiseFrame_eq (s : State) :
    raiseFrame s =
      { s with
        scan := { s.scan with frame := s.scan.frame + 1, pos := none }
        comp := { list := [], output := .blank }
        sources :=
          let u (p : PortId) : SourceUnit :=
            { s.unit p with pulsed := false, frameWaiting := decide ((s.port p).attach = .attached) }
          ⟨u .p0, u .p1, u .p2, u .p3⟩ } := rfl

/-- Every FSYNC line is quiet and nothing else changes. -/
theorem endFsync_eq (s : State) :
    endFsync s =
      { s with
        sources :=
          let u (p : PortId) : SourceUnit := { s.unit p with fsync := false }
          ⟨u .p0, u .p1, u .p2, u .p3⟩ } := rfl

/-- Every Source Unit is forced and its FSYNC line quiet, and nothing else changes. -/
theorem forceAll_eq (s : State) :
    forceAll s =
      { s with
        sources :=
          let u (p : PortId) : SourceUnit :=
            { s.unit p with
              showing := none, filling := .empty, monitor := .noSignal, good := 0, missed := 0, fsync := false
              frameWaiting := false }
          ⟨u .p0, u .p1, u .p2, u .p3⟩ } := rfl

/-- A Source Unit's work at a frame start touches neither the Layout Store nor the panel nor the marks. -/
theorem takeFrameStart_layout (p : PortId) (s : State) :
    (takeFrameStart p s).layout = s.layout ∧ (takeFrameStart p s).marks = s.marks ∧ SamePanel s (takeFrameStart p s) := by
  rcases takeFrameStart_cases p s with ⟨-, h⟩ | ⟨-, h⟩
  · rw [h]
    exact ⟨rfl, rfl, .refl s⟩
  · exact ⟨h.layout, h.marks, h.scan, h.comp, h.pending⟩

/-- A unit at which a frame start waits takes it where its judgement reaches no count; else it waits on. -/
theorem settleUnit_cases (p : PortId) (s : State) :
    ((judgement p s).2 = none ∧ settleUnit p s = takeFrameStart p s) ∨
      ((judgement p s).2 ≠ none ∧ settleUnit p s = s) := by
  unfold settleUnit
  split
  · exact .inl ⟨‹_›, rfl⟩
  · exact .inr ⟨‹_›, rfl⟩

/-- What a unit takes without reaching a count it takes without a notice. -/
theorem settleUnit_eq (p : PortId) (s : State) :
    settleUnit p s =
      if (s.unit p).frameWaiting = true ∧ (judgement p s).2 = none then
        s.setUnit p { (judgement p s).1 with
          fsync := decide ((s.port p).attach = .attached)
          pulsed := decide ((s.port p).attach = .attached)
          frameWaiting := false }
      else s := by
  unfold settleUnit takeFrameStart
  by_cases h : (judgement p s).2 = none <;> by_cases w : (s.unit p).frameWaiting = true <;>
    simp [h, w, judgementNotices, storeNotices, SourceUnit.taking]

/-- The warm count that waits is taken where it does not complete the warm value, without a notice. -/
theorem settleWarm_eq (s : State) :
    settleWarm s =
      if s.scan.warmWaiting = true ∧ s.scan.warm + 1 < s.scan.setup.warm then
        s.setScan { s.scan with warm := s.scan.warm + 1, warmWaiting := false }
      else s := by
  unfold settleWarm takeWarmCount
  by_cases h : s.scan.setup.warm ≤ s.scan.warm + 1 <;> by_cases w : s.scan.warmWaiting = true <;>
    simp [h, w, Nat.not_lt.2, Nat.lt_of_not_le]

/-- What the units that settle change: the Source Units. -/
theorem settleUnits_only (s : State) :
    (settleUnits s).ports = s.ports ∧ (settleUnits s).links = s.links ∧ (settleUnits s).layout = s.layout ∧
      (settleUnits s).marks = s.marks ∧ SamePanel s (settleUnits s) := by
  refine foldl_related (R := fun a b : State => b.ports = a.ports ∧ b.links = a.links ∧ b.layout = a.layout ∧
    b.marks = a.marks ∧ SamePanel a b) (fun s => ⟨rfl, rfl, rfl, rfl, .refl s⟩)
    (fun _ _ _ f g => ⟨g.1.trans f.1, g.2.1.trans f.2.1, g.2.2.1.trans f.2.2.1, g.2.2.2.1.trans f.2.2.2.1,
      f.2.2.2.2.trans g.2.2.2.2⟩) (fun s p => ?_) PortId.all s
  rw [settleUnit_eq]
  split <;> exact ⟨rfl, rfl, rfl, rfl, rfl, rfl, rfl⟩

/-- The Mark Unit keeps of a commit exactly what its reports withdraw. -/
theorem mem_withdrawnBy (rs : List Report) (p : PortId) (id : Nat) :
    (p, id) ∈ withdrawnBy rs ↔ ∃ f, Report.withdrawn p id f ∈ rs := by
  simp only [withdrawnBy, List.mem_filterMap]
  constructor
  · rintro ⟨r, hr, h⟩
    cases r with
    | withdrawn o i f => simp only [Option.some.injEq, Prod.mk.injEq] at h; exact ⟨f, h.1 ▸ h.2 ▸ hr⟩
    | reshaped => cases h
  · rintro ⟨f, hr⟩
    exact ⟨_, hr, rfl⟩

/-! ### The Source Unit of a port that stays ATTACHED -/

/-- A port that is ATTACHED after was so before, and its Source Unit is the same. -/
def UnitKept (p : PortId) (s t : State) : Prop :=
  (t.port p).attach = .attached → (s.port p).attach = .attached ∧ t.unit p = s.unit p

theorem UnitKept.refl (p : PortId) (s : State) : UnitKept p s s := fun h => ⟨h, rfl⟩

theorem UnitKept.trans {p : PortId} {s t u : State} (h : UnitKept p s t) (g : UnitKept p t u) : UnitKept p s u :=
  fun a => ⟨(h (g a).1).1, (g a).2.trans (h (g a).1).2⟩

/-- The Port Controllers keep their attach states, and the Source Units are the same. -/
theorem UnitKept.of {p : PortId} {s t : State} (h : (t.port p).attach = (s.port p).attach) (g : t.unit p = s.unit p) :
    UnitKept p s t := fun a => ⟨h ▸ a, g⟩

theorem NoticesOnly.unitKept {s t : State} (h : NoticesOnly s t) (p : PortId) : UnitKept p s t :=
  .of (by rw [h.ports p]) (by simp only [State.unit, h.sources])

theorem placeDeferred_unitKept (p q : PortId) (k : RequestKind) (res : Result) (fields : List Byte) (s : State) :
    UnitKept p s (placeDeferred q k res fields s) := by
  rcases placeDeferred_cases q k res fields s with ⟨-, h⟩ | ⟨a, r, b, -, -, -, h⟩ <;> rw [h]
  · exact .refl p s
  · refine .of ?_ rfl
    simp only [State.port_setPort]
    split <;> simp_all

theorem leaveIfDone_unitKept (p q : PortId) (s : State) : UnitKept p s (leaveIfDone q s) := by
  rcases leaveIfDone_cases q s with ⟨-, h⟩ | ⟨r, -, -, h⟩ <;> rw [h]
  · exact .refl p s
  · refine UnitKept.trans ?_ ((storeNotice_only _ _ _).unitKept p)
    intro a
    by_cases hp : p = q
    · subst hp
      simp at a
      split at a <;> cases a
    · simp_all

theorem tellRetired_unitKept (p q : PortId) (s : State) : UnitKept p s (tellRetired q s) := by
  refine UnitKept.trans ?_ (leaveIfDone_unitKept p q _)
  intro a
  by_cases hp : p = q
  · subst hp
    simp only [State.port_setPort, if_true] at a
    refine ⟨?_, rfl⟩
    cases h : (s.port p).attach <;> simp_all [Attach.regionsRetired]
  · simp_all

theorem dropProposals_unitKept (p q : PortId) (res : Result) (fields : List Byte) (s : State) :
    UnitKept p s (dropProposals q res fields s) :=
  UnitKept.trans (.of rfl rfl) (placeDeferred_unitKept p q .publish res fields _)

theorem dropSealedPlan_unitKept (p : PortId) (s : State) : UnitKept p s (dropSealedPlan s) :=
  UnitKept.trans (placeDeferred_unitKept p .p0 .planSet .cancelled [] s) (.of rfl rfl)

theorem enterLeaving_unitKept (p q : PortId) (reason : LeaveReason) (own : Option Response) (s : State) :
    UnitKept p s (enterLeaving q reason own s) := by
  unfold enterLeaving
  simp only [cancelQueued_eq]
  generalize ha : (s.setPort q { s.port q with attach := .leaving reason false, notices := [], noticeLost := false }).setLink
    q _ = a
  have hb : UnitKept p a (dropProposals q .cancelled [] (if q = .p0 then dropSealedPlan a else a)) := by
    refine UnitKept.trans ?_ (dropProposals_unitKept p q .cancelled [] _)
    split
    · exact dropSealedPlan_unitKept p a
    · exact .refl p a
  revert hb
  generalize dropProposals q .cancelled [] (if q = .p0 then dropSealedPlan a else a) = b
  intro hb
  by_cases hp : p = q
  · subst hp
    have hn : (a.port p).attach ≠ .attached := by subst ha; simp
    have hbn : (b.port p).attach ≠ .attached := fun g => hn (hb g).1
    split
    · intro g
      exact absurd (tellRetired_unitKept p p _ g).1 (by simpa [setEngine] using hbn)
    · intro g
      exact absurd g (by simpa [setEngine] using hbn)
  · have h0 : UnitKept p s a := by
      subst ha
      exact .of (by simp [hp]) rfl
    refine (h0.trans hb).trans ?_
    split
    · refine UnitKept.trans ?_ (tellRetired_unitKept p q _)
      exact .of (by simp [setEngine, hp]) (by simp [setEngine, hp])
    · exact .of (by simp [setEngine, hp]) (by simp [setEngine, hp])

theorem retireOne_unitKept (p q : PortId) (sr : State × List Report) : UnitKept p sr.1 (retireOne sr q).1 := by
  have g := tellRetired_unitKept p q ((freeSlots (sr.1.lay q).order sr.1).setLay q { sr.1.lay q with order := [] })
  exact g

theorem retireListed_unitKept (p : PortId) (s : State) : UnitKept p s (retireListed s).1 := by
  refine UnitKept.trans (t := s.setRetiring []) (.of rfl rfl) ?_
  exact foldl_related (R := fun a b : State × List Report => UnitKept p a.1 b.1) (fun _ => .refl p _)
    (fun _ _ _ => .trans) (fun sr q => retireOne_unitKept p q sr) _ (s.setRetiring [], [])

theorem handIfChanged_unitKept (p q : PortId) (old new : Plan) (s : State) :
    UnitKept p s (handIfChanged old new s q) := by
  unfold handIfChanged handEnablement
  dsimp only
  repeat' split
  all_goals first
    | exact .refl p s
    | exact enterLeaving_unitKept _ _ _ _ _
    | (intro g
       by_cases hp : p = q
       · subst hp
         simp [restUnit] at g
       · simpa [restUnit, hp] using g)

theorem settleEvictPort_unitKept (p q : PortId) (old new : Plan) (sh : State × Settled) :
    UnitKept p sh.1 (settleEvictPort old new sh q).1 := by
  unfold settleEvictPort
  split
  · exact .refl p _
  · have h := (dropProposals_unitKept p q .draftVoid [EditState.idle.byte] sh.1).trans
      (handIfChanged_unitKept p q old new _)
    dsimp only
    split
    · exact h.trans (.of rfl rfl)
    · exact h

theorem settleSealed_unitKept (p : PortId) (s : State) : UnitKept p s (settleSealed s).1 := by
  have ha : ∀ res fields u, UnitKept p u (placeDeferred .p0 .planSet res fields u) :=
    fun res fields u => placeDeferred_unitKept p .p0 .planSet res fields u
  unfold settleSealed
  split
  · exact .refl p s
  · rename_i sp _
    refine UnitKept.trans ?_ (.of rfl rfl)
    unfold settlePlan
    dsimp only
    split
    · split
      · exact ha _ _ _
      · refine UnitKept.trans (t := s.setPlan sp.plan) (.of rfl rfl) (UnitKept.trans ?_ (ha _ _ _))
        exact foldl_related (.refl p) (fun _ _ _ => .trans) (fun t q => handIfChanged_unitKept p q _ _ t) _ _
    · refine UnitKept.trans (t := s.setPlan sp.plan) (.of rfl rfl) (UnitKept.trans (ha .done (planFields s none none) _) ?_)
      exact foldl_related (R := fun a b : State × Settled => UnitKept p a.1 b.1) (fun _ => .refl p _)
        (fun _ _ _ => .trans) (fun sh q => settleEvictPort_unitKept p q _ _ sh) PortId.all (_, .nothing)

theorem applySets_unitKept (p : PortId) (s : State) : UnitKept p s (applySets s).1.1 :=
  foldl_related (R := fun a b : State × List Report => UnitKept p a.1 b.1) (fun _ => .refl p _) (fun _ _ _ => .trans)
    (f := fun sr p => let r := applySet p sr.1; (r.1, sr.2 ++ r.2))
    (fun sr q => by rcases applySet_cases q sr.1 with ⟨-, h⟩ | ⟨pr, -, h⟩ <;> simp only [h] <;> exact .of rfl rfl) PortId.all
    (s, [])

/-- A commit touches the Source Unit of a port only by taking the port out of ATTACHED. -/
theorem commit_unitKept (p : PortId) (s : State) : UnitKept p s (commit s) := by
  have h1 := settleSealed_unitKept p s
  have h2 := h1.trans (retireListed_unitKept p _)
  have h3 := h2.trans (applySets_unitKept p _)
  have h4 : UnitKept p s (advanceGenerations s (applySets (retireListed (settleSealed s).1).1).1.1) :=
    h3.trans (.of rfl rfl)
  have h5 := h4.trans (foldl_related (.refl p) (fun _ _ _ => .trans) (f := answerApplied)
    (fun s q => placeDeferred_unitKept p q _ _ _ s) (applySets (retireListed (settleSealed s).1).1).2 _)
  have h6 := h5.trans ((storeNotices_only (settleSealed s).2.notices _).unitKept p)
  refine UnitKept.trans (t := handCommitReports _ _) (h6.trans (.of rfl rfl)) (foldl_related (.refl p) (fun _ _ _ => .trans) (f := fun s q => setEngine q .ready s)
    (fun s q => .of ?_ rfl) PortId.all _)
  simp only [setEngine, State.port_setPort]
  split <;> simp_all

end Sys2Proof.Machine
end

