-- ==== Sys2Proof/Tests/Slice0.lean ====
section
/-! SUPPORT. Tests of one step each, their expected results taken from the spec's worked examples and tables; the
WellFormed smoke tests; and for each statement with hypotheses a witness that meets them, clause by clause. -/

namespace Sys2Proof.Tests

open Sys2Proof Sys2Proof.Machine

/-! ### Small states -/

/-- The state a command leaves. -/
def after (c : Instr) (s : State) : State :=
  match exec c s with
  | .next t => t
  | .fault _ => s
  | .refused _ => s

/-- A request with tag 07h. -/
def req (k : RequestKind) (params : List Byte) : Request := { tag := 0x07, code := k.code, params := params }

/-- A response to such a request. -/
def res (k : RequestKind) (r : Result) (fields : List Byte) : Response :=
  { tag := 0x07, code := k.code, result := r, fields := fields }

/-- Port p is ATTACHED with these requests waiting, its engine READY, its other queues empty. -/
def waiting (p : PortId) (rs : List Request) (s : State) : State :=
  s.setPort p { PortController.reset .attached with requests := rs }

/-- Port p is ATTACHED with one request waiting. -/
def asking (k : RequestKind) (p : PortId) (params : List Byte) (s : State) : State := waiting p [req k params] s

/-- The panel is in a state, its latest frame start 1050, which is 041Ah, its setup 64 by 64. -/
def panelAt (x : PanelState) (s : State) : State :=
  s.setScan { s.scan with panel := x, frame := 1050, setup := { s.scan.setup with w := 64, h := 64 } }

/-- The plan of the tests: ports 0 and 1 may draw on 64 by 64; port 0 is on top with the guard right. -/
def plan2 : Plan :=
  { entries := ⟨{ PlanEntry.defaultZero 64 64 with quota := 6, share := 2 },
      { PlanEntry.defaultOther 0 with enabled := true, tw := 64, th := 64, quota := 3, share := 2 },
      .defaultOther 1, .defaultOther 2⟩
    background := 0x102030 }

/-- A LIVE panel, ports 0 and 1 ATTACHED under plan2. -/
def live2 : State :=
  waiting .p1 [] (waiting .p0 [] ((panelAt .live State.reset).setPlan plan2))

/-- The same with the panel DARK. -/
def dark2 : State := live2.setScan { live2.scan with panel := .dark }

/-- The frame under way, of 64 lines, has had its last line start. -/
def atEnd (s : State) : State := s.setScan { s.scan with pos := some 63 }

/-- The next frame start comes now. -/
theorem atEnd_frameEnds (s : State) (h : s.scan.setup.h = 64) : frameEnds (atEnd s) := ⟨63, rfl, h.symm⟩

/-- A plain visible copy. -/
def box (x y w h : Nat) : Copy :=
  { x := x, y := y, w := w, h := h, sx := 0, sy := 0, visible := true, loss := .fill, fill := 0x0000FF, guarded := false }

/-- A slot set. -/
def withSlot (id : Nat) (x : Slot) (s : State) : State := s.setSlots (s.layout.slots.set id x)

/-- Port 1 owns the LIVE SOLID regions 3 and 4, in this order, with generations 7 and 1. -/
def two : State :=
  (withSlot 4 (.live .p1 .solid 1 (box 10 10 8 2)) (withSlot 3 (.live .p1 .solid 7 (box 10 4 20 12)) live2)).setLay .p1
    { order := [3, 4], draft := none, sealedSet := none }

/-- A proposal of port 1 over these: region 3 moved up one line, region 4 as it is. -/
def moved : Proposal := [{ id := 3, copy := box 10 5 20 12 }, { id := 4, copy := box 10 10 8 2 }]

/-- Port 1 edits that proposal. -/
def editing : State := two.setLay .p1 { order := [3, 4], draft := some moved, sealedSet := none }

/-- Port 1 published that proposal, and its response is deferred. -/
def sealedOne : State :=
  (two.setLay .p1 { order := [3, 4], draft := none, sealedSet := some moved }).setPort .p1
    { PortController.reset .attached with deferred := [req .publish []] }

/-- A state in which a port asks for something. -/
theorem takes_asking (k : RequestKind) (p : PortId) (params : List Byte) (s : State)
    (hl : params.length = k.length) (hp : k.planPort = true → p = .p0) :
    Takes k p (req k params) [] (asking k p params s) := by
  refine ⟨?_, ?_, ?_, rfl, hl, hp⟩ <;> cases p <;> rfl

/-! ### Well-formed commands: each check refuses an ill-formed term -/

theorem test_wellFormed_known_kind_refused :
    (Instr.unknownKindByte .p0 0x01 .select).wellFormed = false ∧
      (Instr.unknownKindByte .p0 0x04 .select).wellFormed = false ∧
      (Instr.unknownKindByte .p0 0x05 .select).wellFormed = true ∧
      (Instr.unknownKindByte .p0 0x00 .select).wellFormed = true := by decide

theorem test_wellFormed_line_index_refused :
    (Instr.linePacket .p0 1024 []).wellFormed = false ∧ (Instr.linePacket .p0 1023 []).wellFormed = true := by decide

theorem test_wellFormed_repeated_work_refused :
    (Instr.frameStart [.commit, .timer, .commit]).wellFormed = false ∧
      (Instr.panelOn .p0 [.unit .p2, .unit .p2]).wellFormed = false ∧
      (Instr.frameStart FrameWork.usual).wellFormed = true := by decide

/-! ### The command link: the worked example 10.8 -/

/-- Port 0 ATTACHED, the panel LIVE at frame 1050, nothing waiting (10.8). -/
def linkStart : State := waiting .p0 [] (panelAt .live State.reset)

/-- The same after transaction 1 and the engine's work: the response to READ-REGION(4), tag 05h, waits. -/
def linkAnswered : State :=
  linkStart.setPort .p0 { linkStart.port .p0 with
    responses := [{ tag := 0x05, code := 0x10, result := .done, fields := [0x1A, 0x04, 0x00] }] }

theorem test_write_request_accepted :
    let t := after (.writeRequest .p0 (.whole [0x05, 0x10, 0x01, 0x04, 0xE6])) linkStart
    (t.link .p0).dout = [0x81, 0x00, 0x00, 0x00, 0x00, 0x00] ∧
      (t.port .p0).requests = [{ tag := 0x05, code := 0x10, params := [0x04] }] := by decide

theorem test_write_request_cut_short :
    let t := after (.writeRequest .p0 (.whole [0x06, 0x11, 0x01, 0x01])) linkAnswered
    (t.link .p0).dout = [0x89, 0x00, 0x00, 0x00, 0x00] ∧ (t.port .p0).refusal = .form ∧
      (t.port .p0).statusByte = 0xA9 := by decide

theorem test_read_response_cut_short :
    let t := after (.readResponse .p0 (.whole (List.replicate 7 0x00))) linkAnswered
    (t.link .p0).dout = [0x89, 0x05, 0x10, 0x00, 0x03, 0x1A, 0x04, 0x00] ∧ (t.port .p0).credit = 1 := by decide

theorem test_read_response_whole :
    let t := after (.readResponse .p0 (.whole (List.replicate 8 0x00))) linkAnswered
    (t.link .p0).dout = [0x89, 0x05, 0x10, 0x00, 0x03, 0x1A, 0x04, 0x00, 0xCA] ∧ (t.port .p0).credit = 0 ∧
      (t.port .p0).noteAsserted = false := by decide

/-- The notice PANEL_STATE of 8.10: the panel LIVE at frame 4. -/
def liveNotice : Notice := { kind := .panelState, subject := 0x02, frame := 4, count := 1, detail := 0x01 }

theorem test_read_notice_counts_since :
    let s := linkStart.setPort .p0 { linkStart.port .p0 with notices := [liveNotice], noticeLost := true }
    let t := after (.readNotice .p0 .kind) (after (.readNotice .p0 .select) s)
    let u := after (.readNotice .p0 (.clock (List.replicate 7 0x00))) (storeNotice .p0 { liveNotice with frame := 9 } t)
    let v := after (.readNotice .p0 .release) u
    (v.link .p0).dout = [0x87, 0x08, 0x02, 0x04, 0x00, 0x01, 0x01, 0xF0] ∧
      (v.port .p0).notices = [{ liveNotice with frame := 9 }] ∧ (v.port .p0).noticeLost = false := by decide

/-- A refusal recorded before chip select falls goes out with the kind byte; a response that comes between the two is not in
the status byte, and is in the frame (R173, R175). -/
theorem test_status_fixed_at_select :
    let x := res .bye .done []
    let s := linkStart.setPort .p0 { linkStart.port .p0 with refusal := .form }
    let t := after (.readResponse .p0 .select) s
    let u := after (.readResponse .p0 .kind) (t.setPort .p0 { t.port .p0 with responses := [x] })
    (t.link .p0).dout = [] ∧ (t.port .p0).refusal = .form ∧ (u.link .p0).dout = [0xA1] ∧
      (u.port .p0).refusal = .none ∧ (u.link .p0).state = .sendingResponse x.frame true 0 := by decide

theorem test_status_takes_refusal :
    let s := linkAnswered.setPort .p0 { linkAnswered.port .p0 with refusal := .form }
    let t := after (.status .p0 (.whole [0x00])) s
    (t.link .p0).dout = [0xA9, 0x89] ∧ (t.port .p0).refusal = .none := by decide

theorem test_unknown_kind_leaves_form :
    let t := after (.unknownKindByte .p0 0x05 (.whole [0x77])) linkStart
    (t.link .p0).dout = [0x81, 0x00] ∧ (t.port .p0).refusal = .form := by decide

theorem test_device_reset_abandons :
    let t := after .deviceReset (after (.status .p0 .select) linkAnswered)
    (t.link .p0).state = .abandoned ∧ (t.port .p0).attach = .detached ∧ (t.port .p0).responses = [] ∧
      (t.port .p1).attach = .disabled := by decide

/-! ### Ports (9) -/

theorem test_unknown_code :
    let s := waiting .p0 [{ tag := 0x07, code := 0x06, params := [] }] live2
    ((after (.unknownCode .p0) s).port .p0).responses =
      [{ tag := 0x07, code := 0x06, result := .unknownCode, fields := [] }] := by decide

theorem test_hello_attaches :
    let s := State.reset.setPort .p0 { State.reset.port .p0 with requests := [req .hello [0x40, 0x00, 0x00, 0x00]] }
    let t := after (.hello .p0) s
    (t.port .p0).attach = .attached ∧ (t.unit .p0).sw = 64 ∧
      (t.port .p0).responses = [res .hello .done [0x00, 0x00, 0x00, 0x40, 0x00, 0x00, 0x00]] := by decide

theorem test_bye_keeps_regions :
    let t := after (.bye .p1) (asking .bye .p1 [] two)
    (t.port .p1).attach = .leaving .bye false ∧ (t.lay .p1).order = [3, 4] ∧ t.layout.retiring = [.p1] := by decide

theorem test_bye_cancels_set :
    let s := sealedOne.setPort .p1 { sealedOne.port .p1 with requests := [req .bye [], req .readPlan []] }
    ((after (.bye .p1) s).port .p1).responses =
      [res .publish .cancelled [], res .bye .done [0x1A, 0x04], res .readPlan .cancelled []] := by decide

/-- The READ-PORT of 9.13. -/
theorem test_read_port :
    let c : PortController :=
      { PortController.reset .attached with
        requests := [req .readPort [0x01], req .readRegion [0x09], req .hit [0x90, 0x01, 0x00, 0x00]]
        deferred := [req .publish []]
        responses := [res .beginDraft .done [0x03], res .publish .done [0x01, 0x21, 0x03]] }
    ((((after (.readPort .p1) (sealedOne.setPort .p1 c)).port .p1).responses.getLast?).map fun r => r.fields.take 14) =
      some [0x1A, 0x04, 0x02, 0xFF, 0xFF, 0x00, 0x02, 0x06, 0x02, 0x00, 0x00, 0x02, 0x02, 0x00] := by decide

theorem test_eject :
    let t := after (.eject .p0) (asking .eject .p0 [0x01] two)
    (t.port .p1).attach = .leaving .eject false ∧
      (t.port .p0).responses = [res .eject .done [0x1A, 0x04, 0x03]] := by decide

theorem test_restart :
    let t := after (.restart .p0) (asking .restart .p0 [] two)
    t.slot 3 = .free ∧ (t.port .p1).attach = .disabled ∧ t.scan.panel = .live ∧
      t.layout.plan = Plan.default 64 64 ∧ (t.port .p0).responses = [res .restart .done [0x1A, 0x04]] := by decide

theorem test_leaving_exit :
    let s := live2.setPort .p1 (PortController.reset (.leaving .plan true))
    let t := after (.leavingExit .p1) s
    (t.port .p1).attach = .detached ∧
      (t.port .p0).notices = [{ kind := .portLeft, subject := 0x01, frame := 1050, count := 1, detail := 0x03 }] := by
  decide

/-! ### The table and the lookup (1, 2) -/

theorem test_read_region_free :
    ((after (.readRegion .p0) (asking .readRegion .p0 [0x04] live2)).port .p0).responses =
      [res .readRegion .done [0x1A, 0x04, 0x00]] := by decide

theorem test_read_region_live :
    ((after (.readRegion .p1) (asking .readRegion .p1 [0x03] two)).port .p1).responses =
      [res .readRegion .done [0x1A, 0x04, 0x02, 0x01, 0x01, 0x07, 0x0A, 0x00, 0x04, 0x00, 0x14, 0x00, 0x0C, 0x00,
        0x01, 0x00, 0xFF, 0x00, 0x00, 0x00]] := by decide

theorem test_read_order :
    ((after (.readOrder .p1) (asking .readOrder .p1 [0x01] two)).port .p1).responses =
      [res .readOrder .done [0x1A, 0x04, 0x02, 0x03, 0x04]] := by decide

theorem test_hit_foreign_and_own :
    let s := withSlot 0 (.live .p0 .solid 1 (box 10 4 2 2)) (two.setLay .p0
      { order := [0], draft := none, sealedSet := none })
    ((after (.hit .p1) (asking .hit .p1 [0x0A, 0x00, 0x04, 0x00] s)).port .p1).responses =
        [res .hit .done [0x1A, 0x04, 0x02, 0x03, 0xFF]] ∧
      ((after (.hit .p1) (asking .hit .p1 [0x0C, 0x00, 0x04, 0x00] s)).port .p1).responses =
        [res .hit .done [0x1A, 0x04, 0x02, 0x01, 0x03]] := by decide

theorem test_hit_range :
    ((after (.hit .p1) (asking .hit .p1 [0x40, 0x00, 0x00, 0x00] two)).port .p1).responses = [res .hit .range []] := by
  decide

/-! ### Drafts and publication (3) -/

theorem test_begin_copies_table :
    ((after (.beginDraft .p1) (asking .beginDraft .p1 [] two)).lay .p1).draft =
      some [{ id := 3, copy := box 10 4 20 12 }, { id := 4, copy := box 10 10 8 2 }] := by decide

theorem test_create_lowest_free :
    let t := after (.create .p1) (asking .create .p1 [0x01] editing)
    t.slot 0 = .reserved .p1 .solid ∧ (t.lay .p1).draft = some (moved ++ [{ id := 0, copy := defaultCopy (t.entry .p1) }]) ∧
      (t.port .p1).responses = [res .create .done [0x01, 0x00]] := by decide

theorem test_create_no_source :
    ((after (.create .p1) (asking .create .p1 [0x00] editing)).port .p1).responses =
      [res .create .noSource [0x01]] := by decide

theorem test_place :
    ((after (.place .p1) (asking .place .p1 [0x03, 0x01, 0x00, 0x02, 0x00, 0x3F, 0x00, 0x3E, 0x00] editing)).lay
        .p1).draft =
      some [{ id := 3, copy := box 1 2 63 62 }, { id := 4, copy := box 10 10 8 2 }] := by decide

theorem test_place_off_panel :
    ((after (.place .p1) (asking .place .p1 [0x03, 0x02, 0x00, 0x02, 0x00, 0x3F, 0x00, 0x3E, 0x00] editing)).port
        .p1).responses = [res .place .range [0x01]] := by decide

theorem test_source_on_solid :
    ((after (.source .p1) (asking .source .p1 [0x03, 0x00, 0x00, 0x00, 0x00] editing)).port .p1).responses =
      [res .source .noSource [0x01]] := by decide

theorem test_style :
    ((after (.style .p1) (asking .style .p1 [0x04, 0x00, 0x01, 0x33, 0x22, 0x11, 0x00] editing)).lay .p1).draft =
      some [{ id := 3, copy := box 10 5 20 12 },
        { id := 4, copy := { box 10 10 8 2 with visible := false, loss := .hide, fill := 0x112233 } }] := by decide

theorem test_style_guard_right :
    ((after (.style .p1) (asking .style .p1 [0x04, 0x01, 0x00, 0x33, 0x22, 0x11, 0x01] editing)).port .p1).responses =
      [res .style .guard [0x01]] := by decide

theorem test_order_top :
    (((after (.order .p1) (asking .order .p1 [0x03, 0x00, 0x00] editing)).lay .p1).draft.map Proposal.ids) =
      some [4, 3] := by decide

theorem test_order_above_itself :
    ((after (.order .p1) (asking .order .p1 [0x03, 0x02, 0x03] editing)).port .p1).responses =
      [res .order .range [0x01]] := by decide

theorem test_retire_reserved :
    let s := withSlot 5 (.reserved .p1 .solid) (editing.setLay .p1
      { order := [3, 4], draft := some (moved ++ [{ id := 5, copy := box 0 0 1 1 }]), sealedSet := none })
    let t := after (.retire .p1) (asking .retire .p1 [0x05] s)
    t.slot 5 = .free ∧ (t.lay .p1).draft = some moved := by decide

theorem test_discard_without_draft :
    ((after (.discard .p1) (asking .discard .p1 [] two)).port .p1).responses =
      [res .discard .noDraft [0x00]] := by decide

theorem test_read_draft :
    ((after (.readDraft .p1) (asking .readDraft .p1 [0x04] editing)).port .p1).responses =
      [res .readDraft .done [0x01, 0x02, 0x01, 0x01, 0x01, 0x0A, 0x00, 0x0A, 0x00, 0x08, 0x00, 0x02, 0x00, 0x01, 0x00,
        0xFF, 0x00, 0x00, 0x00, 0x02, 0x03, 0x04]] := by decide

theorem test_publish_seals :
    let t := after (.publish .p1) (asking .publish .p1 [] editing)
    (t.lay .p1).sealedSet = some moved ∧ (t.port .p1).responses = [] ∧ (t.port .p1).deferred = [req .publish []] := by
  decide

/-- As in 3.7: a third region on one line, over a share of 2, names the highest of the draft's list. -/
theorem test_publish_row_share :
    let s := withSlot 5 (.reserved .p1 .solid) (editing.setLay .p1
      { order := [3, 4], draft := some (moved ++ [{ id := 5, copy := box 0 11 1 5 }]), sealedSet := none })
    ((after (.publish .p1) (asking .publish .p1 [] s)).port .p1).responses =
      [res .publish .rowShare [0x01, 0x05]] := by decide

/-! ### The plan (5) -/

/-- PLAN-SET parameters: the plan of the tests with another mode byte, rank of port 3 and background. -/
def planBytes (mode rank3 : Byte) : List Byte :=
  [mode] ++ [0x01, 0x00, 0x00, 0x00, 0x00, 0x40, 0x00, 0x40, 0x00, 0x06, 0x02, 0x03, 0x01, 0x23] ++
    [0x01, 0x00, 0x00, 0x00, 0x00, 0x40, 0x00, 0x40, 0x00, 0x03, 0x02, 0x00, 0x00, 0x23] ++
    [0x00, 0x00, 0x00, 0x00, 0x00, 0x00, 0x00, 0x00, 0x00, 0x00, 0x00, 0x01, 0x00, 0x23] ++
    [0x00, 0x00, 0x00, 0x00, 0x00, 0x00, 0x00, 0x00, 0x00, 0x00, 0x00, rank3, 0x00, 0x23] ++ [0x30, 0x20, 0x10]

theorem test_plan_set_sealed :
    (after (.planSet .p0) (asking .planSet .p0 (planBytes 0x01 0x02) live2)).layout.sealedPlan =
      some { plan := plan2, mode := .evict } := by decide

theorem test_plan_set_repeated_rank :
    ((after (.planSet .p0) (asking .planSet .p0 (planBytes 0x00 0x01) live2)).port .p0).responses =
      [res .planSet .planInvalid [0x1A, 0x04, 0x03, 0xFF]] := by decide

theorem test_read_plan :
    ((after (.readPlan .p1) (asking .readPlan .p1 [] live2)).port .p1).responses.map
        (fun r => r.fields.take 20) =
      [[0x1A, 0x04, 0x00, 0x30, 0x20, 0x10, 0x01, 0x00, 0x00, 0x00, 0x00, 0x40, 0x00, 0x40, 0x00, 0x06, 0x02, 0x03,
        0x01, 0x23]] := by decide

/-- The eviction passes of 5.6, at a tenth of its size: pass 1 takes 11, pass 2 the bottom entry 10, pass 3 the lower of
12 and 14. -/
theorem test_evict_passes :
    evict { PlanEntry.defaultOther 0 with enabled := true, tw := 40, th := 48, quota := 3, share := 1 } 48
        [{ id := 10, copy := box 0 0 40 48 }, { id := 11, copy := box 50 10 20 10 }, { id := 12, copy := box 0 0 40 6 },
          { id := 13, copy := box 10 30 20 5 }, { id := 14, copy := box 0 2 10 2 }] =
      ([{ id := 13, copy := box 10 30 20 5 }, { id := 14, copy := box 0 2 10 2 }], [(11, 1), (10, 2), (12, 3)]) := by
  decide

/-! ### Source links (6): lines of 6.7, with a source of 2 by 1 -/

/-- Port 1 declares 2 by 1, its unit as given otherwise. -/
def sourced (m : Monitor) (good missed : Nat) (f : Filling) (s : State) : State :=
  s.setUnit .p1 { SourceUnit.reset with sw := 2, sh := 1, monitor := m, good := good, missed := missed, filling := f }

/-- The same with a raised frame start waiting at the unit. -/
def judging (m : Monitor) (good missed : Nat) (f : Filling) : State :=
  let s := sourced m good missed f live2
  s.setUnit .p1 { s.unit .p1 with frameWaiting := true }

theorem test_source_format_in_use :
    let s := withSlot 3 (.reserved .p1 .linked) (sourced .noSignal 0 0 .empty live2)
    ((after (.sourceFormat .p1) (asking .sourceFormat .p1 [0x04, 0x00, 0x04, 0x00] s)).port .p1).responses =
      [res .sourceFormat .inUse [0x02, 0x00, 0x01, 0x00]] := by decide

theorem test_frame_begin :
    ((after (.frameBeginMarker .p1) (sourced .noSignal 0 0 (.ready [[1, 2]]) live2)).unit .p1).filling =
      .receiving [] := by decide

theorem test_line_packet :
    ((after (.linePacket .p1 0 [1, 2]) (sourced .noSignal 0 0 (.receiving []) live2)).unit .p1).filling =
        .receiving [[1, 2]] ∧
      ((after (.linePacket .p1 0 [1, 2]) (sourced .noSignal 0 0 (.receiving [[1, 2]]) live2)).unit .p1).filling =
        .empty := by decide

theorem test_frame_end :
    ((after (.frameEndMarker .p1) (sourced .noSignal 0 0 (.receiving [[1, 2]]) live2)).unit .p1).filling =
        .ready [[1, 2]] ∧
      ((after (.frameEndMarker .p1) (sourced .noSignal 0 0 (.receiving []) live2)).unit .p1).filling = .empty := by
  decide

theorem test_damaged_packet :
    ((after (.damagedPacket .p1) (sourced .noSignal 0 0 (.ready [[1, 2]]) live2)).unit .p1).filling = .empty := by
  decide

/-- Frame start 701 of 6.7: the second fresh frame locks at lock count 2, detail 2. -/
theorem test_lock_count_reached :
    let t := after (.lockCountReached .p1) (judging .acquiring 1 0 (.ready [[1, 2]]))
    (t.unit .p1).monitor = .locked ∧ (t.unit .p1).good = 2 ∧ (t.unit .p1).showing = some [[1, 2]] ∧
      (t.port .p1).notices = [{ kind := .sourceLocked, subject := 0x01, frame := 1050, count := 1, detail := 0x02 }] := by
  decide

/-- Frame start 707 of 6.7: the third missed frame in a row, at tolerance 3; the notice goes to the owner and port 0. -/
theorem test_loss_tolerance_reached :
    let t := after (.lossToleranceReached .p1) (judging .locked 2 2 .empty)
    (t.unit .p1).monitor = .lost ∧ (t.unit .p1).good = 0 ∧ (t.unit .p1).missed = 3 ∧
      (t.port .p1).notices = [{ kind := .sourceLost, subject := 0x01, frame := 1050, count := 1, detail := 0x03 }] ∧
      (t.port .p0).notices = (t.port .p1).notices := by decide

/-! ### Marks (7): 7.6 with small offsets -/

/-- Port 1 holds mark 0 on region 3, line 4 + 6 = 10, remaining 2, and mark 1 on region 4, line 10 + 0, repeating. -/
def marked : State :=
  two.setMarkList .p1
    [{ id := 0, region := 3, offset := 6, remaining := 2 }, { id := 1, region := 4, offset := 0, remaining := 0 }]

theorem test_mark :
    let t := after (.mark .p1) (asking .mark .p1 [0x03, 0x0B, 0x00, 0x02] marked)
    (t.port .p1).responses = [res .mark .done [0x1A, 0x04, 0x02]] ∧
      t.markList .p1 = marked.markList .p1 ++ [{ id := 2, region := 3, offset := 11, remaining := 2 }] := by decide

theorem test_mark_offset_range :
    ((after (.mark .p1) (asking .mark .p1 [0x03, 0x0C, 0x00, 0x02] marked)).port .p1).responses =
      [res .mark .range [0x1A, 0x04]] := by decide

/-- After the commit that withdrew its region, and until the next one, a MARK of the former owner is NOT_LIVE (R83). -/
theorem test_mark_withdrawn :
    let s := (atEnd sealedOne).setLay .p1
      { order := [3, 4], draft := none, sealedSet := some [{ id := 4, copy := box 10 10 8 2 }] }
    let t := after (.frameStart FrameWork.usual) s
    let u := after (.frameStart FrameWork.usual) (atEnd t)
    t.slot 3 = .free ∧
      ((after (.mark .p1) (asking .mark .p1 [0x03, 0x00, 0x00, 0x00] t)).port .p1).responses =
        [res .mark .notLive [0x1B, 0x04]] ∧
      ((after (.mark .p1) (asking .mark .p1 [0x03, 0x00, 0x00, 0x00] u)).port .p1).responses =
        [res .mark .notOwner [0x1C, 0x04]] := by decide

theorem test_unmark :
    let t := after (.unmark .p1) (asking .unmark .p1 [0x00] marked)
    (t.markList .p1).map Mark.id = [1] ∧ (t.port .p1).responses = [res .unmark .done [0x1A, 0x04]] := by decide

theorem test_unmark_already :
    ((after (.unmark .p1) (asking .unmark .p1 [0x02] marked)).port .p1).responses =
      [res .unmark .already [0x1A, 0x04]] := by decide

theorem test_read_marks :
    ((after (.readMarks .p1) (asking .readMarks .p1 [] marked)).port .p1).responses =
      [res .readMarks .done [0x1A, 0x04, 0x02, 0x00, 0x03, 0x06, 0x00, 0x02, 0x01, 0x04, 0x00, 0x00, 0x00]] := by
  decide

theorem test_mark_reports_taken :
    let t := after .markReportsTaken (marked.setReports [.reshaped .p1 3 6 1050])
    (t.markList .p1).map Mark.id = [1] ∧
      (t.port .p1).notices = [{ kind := .markVoid, subject := 0x00, frame := 1050, count := 1, detail := 0x03 }] := by
  decide

/-! ### The panel (8) -/

/-- 8.10: PANEL-SETUP(1024, 600, 24, 3, 2, 2) from reset, and the TERRITORY answer to a panel below the territory. -/
theorem test_panel_setup :
    let s := (waiting .p0 [] State.reset)
    ((after (.panelSetup .p0)
          (asking .panelSetup .p0 [0x00, 0x04, 0x58, 0x02, 0x18, 0x03, 0x02, 0x02] s)).port .p0).responses =
        [res .panelSetup .done [0x00, 0x00, 0xFF, 0x00, 0x04, 0x58, 0x02, 0x18, 0x03, 0x02, 0x02]] ∧
      ((after (.panelSetup .p0)
          (asking .panelSetup .p0 [0x80, 0x02, 0xE0, 0x01, 0x18, 0x03, 0x02, 0x02] s)).port .p0).responses =
        [res .panelSetup .territory [0x00, 0x00, 0x00, 0x20, 0x03, 0xE0, 0x01, 0x14, 0x04, 0x02, 0x04]] := by decide

/-- 8.10: a line of 1104 pixel clocks, a frame of 688,896. -/
theorem test_frame_timing :
    let u : Setup := { w := 1024, h := 600, vblank := 24, warm := 3, cool := 2, divider := 2 }
    u.lineClocks = 1104 ∧ u.frameClocks = 688896 := by decide

/-- 8.10: PANEL-ON after reset raises frame start 1, pulses FSYNC of the ATTACHED port and answers frame 1. -/
theorem test_panel_on :
    let t := after (.panelOn .p0 FrameWork.usual) (asking .panelOn .p0 [] State.reset)
    t.scan.panel = .warming ∧ t.scan.frame = 1 ∧ (t.unit .p0).fsync = true ∧
      (t.port .p0).responses = [res .panelOn .done [0x01, 0x00]] ∧
      (t.port .p0).notices = [{ kind := .panelState, subject := 0x01, frame := 1, count := 1, detail := 0x00 }] := by
  decide

theorem test_panel_off :
    let t := after (.panelOff .p0) (asking .panelOff .p0 [] live2)
    t.scan.panel = .cooling ∧ t.scan.coolingFrame = false ∧
      (t.port .p1).notices = [{ kind := .panelState, subject := 0x03, frame := 1050, count := 1, detail := 0x02 }] := by
  decide

theorem test_read_panel :
    ((after (.readPanel .p1) (asking .readPanel .p1 [] live2)).port .p1).responses =
      [res .readPanel .done [0x02, 0x1A, 0x04, 0xFF, 0xFF, 0x00, 0x40, 0x00, 0x40, 0x00, 0x14, 0x04, 0x02, 0x04]] := by
  decide

/-- Frame start 3000 of 4.7 in small: the set is applied, DONE carries the new frame number, a region whose place and
record stay keeps its generation. -/
theorem test_frame_start_applies :
    let t := after (.frameStart FrameWork.usual) (atEnd sealedOne)
    t.scan.frame = 1051 ∧ t.slot 3 = .live .p1 .solid 8 (box 10 5 20 12) ∧ t.slot 4 = .live .p1 .solid 1 (box 10 10 8 2) ∧
      (t.port .p1).responses = [res .publish .done [0x00, 0x1B, 0x04]] := by decide

theorem test_frame_start_counts_cooling :
    let s := atEnd (live2.setScan { live2.scan with panel := .cooling, coolingFrame := true, cool := 0 })
    (after (.frameStart []) s).scan.cool = 1 ∧ (after (.frameStart []) s).scan.panel = .cooling := by decide

/-- 8.10: the warm counter reaches the warm value; LIVE, counter 0, and the notice that says WARMING was left. -/
theorem test_warm_count_reached :
    let s := live2.setScan { live2.scan with panel := .warming, warm := 3, warmWaiting := true }
    let t := after .warmCountReached s
    t.scan.panel = .live ∧ t.scan.warm = 0 ∧
      (t.port .p0).notices = [{ kind := .panelState, subject := 0x02, frame := 1050, count := 1, detail := 0x01 }] := by
  decide

/-- 8.10: at the end of frame 11 the cool counter would reach 2; DARK, and no frame start is raised. -/
theorem test_entry_into_dark :
    let s := atEnd (live2.setScan { live2.scan with panel := .cooling, coolingFrame := true, cool := 1 })
    let t := after (.entryIntoDark false) s
    t.scan.panel = .dark ∧ t.scan.frame = 1050 ∧ t.scan.cool = 0 ∧ t.comp.output = .idle := by decide

/-- No frame start and no entry into DARK before the end of the last active line (R138, R146). -/
theorem test_frame_start_only_at_end :
    let s := live2.setScan { live2.scan with panel := .cooling, coolingFrame := true, cool := 1, pos := some 62 }
    after (.frameStart FrameWork.usual) s = s ∧ after (.entryIntoDark false) s = s := by decide

/-- FSYNC pulses at every frame start, listed or not, but for a unit whose judgement reaches its count: that one waits for
LOCK_COUNT_REACHED, no line comes before it, and the line start that follows ends the pulse (R117). -/
theorem test_fsync_pulses :
    let s := atEnd (sourced .acquiring 1 0 (.ready [[1, 2]]) live2)
    let t := after (.frameStart []) s
    let u := after (.lockCountReached .p1) t
    (t.unit .p0).fsync = true ∧ (t.unit .p1).fsync = false ∧ (t.unit .p1).frameWaiting = true ∧
      after .lineStart t = t ∧ (u.unit .p1).fsync = true ∧ ((after .lineStart u).unit .p1).fsync = false := by decide

/-- An EVICT plan that disables ATTACHED port 1 at the frame start that its unit has taken before the commit: the pulse of
that frame start is kept, and the line is quiet, port 1 being DISABLED (R117, log 21). -/
theorem test_fsync_pulse_before_eviction :
    let off : Plan := { plan2 with entries := plan2.entries.set .p1 (.defaultOther 0) }
    let s := atEnd (live2.setSealedPlan (some { plan := off, mode := .evict }))
    let t := after (.frameStart [.unit .p1, .commit]) s
    (t.unit .p1).pulsed = true ∧ (t.unit .p1).fsync = false ∧ (t.port .p1).attach = .disabled ∧
      ((after (.frameStart [.commit, .unit .p1]) s).unit .p1).pulsed = false := by decide

/-- A line of a LIVE panel: background, region 3, and region 4 above it; the mark of region 4 fires. -/
theorem test_line_start :
    let s := (withSlot 4 (.live .p1 .solid 1 { box 12 10 4 2 with fill := 0x00FF00 })
      (marked.setScan { marked.scan with pos := some 9 }))
    let t := after .lineStart s
    t.scan.pos = some 10 ∧ t.comp.list.map LineEntry.region = [3, 4] ∧
      (match t.comp.output with
        | .line px => px.drop 9 |>.take 4
        | _ => []) = [0x102030, 0x0000FF, 0x0000FF, 0x00FF00] ∧
      (t.markList .p1).map (fun m => (m.id, m.remaining)) = [(0, 1), (1, 0)] ∧
      (t.port .p1).notices.map (fun n => (n.subject, n.detail)) = [(0x00, 0x03), (0x01, 0x04)] := by decide

/-! ### Witnesses: for each statement with hypotheses, a state and operands that meet them, clause by clause, at the
boundary values of its ranges -/

/-- A statement about the engine asks for a request that is taken: here it is, whatever else the clause asks. -/
theorem witness_takes (k : RequestKind) (params : List Byte) (s : State) (hl : params.length = k.length) :
    Takes k .p0 (req k params) [] (asking k .p0 params s) := takes_asking k .p0 params s hl fun _ => rfl

/-- Port 0 one place below both limits: 3 requests, credit 7. -/
def almostFull : State :=
  linkStart.setPort .p0
    { linkStart.port .p0 with
      requests := List.replicate 3 (req .bye []), responses := List.replicate 4 (res .bye .done []) }

theorem witness_WriteRequestAccepted :
    (almostFull.link .p0).state = .idle ∧ (almostFull.port .p0).attach = .attached ∧
      (almostFull.port .p0).requests.length = 3 ∧ (almostFull.port .p0).credit = 7 ∧
      (List.replicate 64 (0x00 : Byte)).length ≤ 64 ∧
      (State.reset.link .p0).state = .idle ∧ (State.reset.port .p0).attach = .detached ∧
      (State.reset.port .p0).credit < 8 := by decide

/-- The clauses in turn: a DISABLED port and a LEAVING one; 4 requests; credit 8; a frame one byte short; a length byte of
65; a sum that is not 00h. -/
theorem witness_WriteRequestRefused :
    let leaving := State.reset.setPort .p1 (PortController.reset (.leaving .plan false))
    let fourRequests := waiting .p0 (List.replicate 4 (req .bye [])) State.reset
    let eightPlaces := State.reset.setPort .p0 { PortController.reset .attached with
      responses := List.replicate 8 (res .bye .done []) }
    ((State.reset.link .p1).state = .idle ∧ (State.reset.port .p1).attach = .disabled) ∧
      ((leaving.link .p1).state = .idle ∧ (leaving.port .p1).attach = .leaving .plan false) ∧
      ((fourRequests.link .p0).state = .idle ∧ (fourRequests.port .p0).attach = .attached ∧
        (fourRequests.port .p0).requests.length = 4) ∧
      ((eightPlaces.link .p0).state = .idle ∧ (eightPlaces.port .p0).attach = .attached ∧
        (eightPlaces.port .p0).credit = 8) ∧
      (req .bye []).frame.length = (req .bye []).params.length + 4 ∧ 3 < (req .bye []).params.length + 4 ∧
      64 < (0x41 : Byte).toNat ∧ byteSum ([0x00, 0x02, byteOf 0] ++ [] ++ [0xFF]) ≠ 0x00 := by decide

theorem witness_ReadResponseTakesOldest :
    (linkAnswered.link .p0).state = .idle ∧
      (linkAnswered.port .p0).responses =
        [{ tag := 0x05, code := 0x10, result := .done, fields := [0x1A, 0x04, 0x00] }] ∧
      (linkAnswered.port .p0).attach = .attached ∧
      ((linkAnswered.port .p0).responses.map fun x => x.frame.length) = [8] ∧ (List.replicate 8 (0x00 : Byte)).length = 8 ∧
      (List.replicate 7 (0x00 : Byte)).length < 8 ∧ (linkStart.port .p0).responses = [] ∧
      (linkStart.link .p0).state = .idle ∧
      ∀ x ∈ [(true, 8), (true, 7), (false, 8)],
        let f := (res .bye .done [0x1A, 0x04, 0x00]).frame
        (linkAnswered.setLink .p0 { state := .sendingResponse f x.1 x.2, dout := [] }).link .p0 =
            { state := .sendingResponse f x.1 x.2, dout := [] } ∧ f.length = 8 := by decide

theorem witness_ReadNoticeTakesOldest :
    let s := linkStart.setPort .p0 { linkStart.port .p0 with notices := [liveNotice], noticeLost := true }
    (s.link .p0).state = .idle ∧ (s.port .p0).notices = liveNotice :: [] ∧
      7 ≤ (List.replicate 7 (0x00 : Byte)).length ∧ (List.replicate 6 (0x00 : Byte)).length < 7 ∧
      (linkStart.link .p0).state = .idle ∧ (linkStart.port .p0).notices = [] ∧
      (∀ since ∈ [none, some 0, some (14 + 1)],
        (s.setLink .p0 { state := .sendingNotice liveNotice.bytes since 7, dout := [] }).link .p0 =
          { state := .sendingNotice liveNotice.bytes since 7, dout := [] }) ∧
      6 < liveNotice.bytes.length ∧ liveNotice.bytes.length ≤ 7 ∧
      (linkStart.setLink .p0 { state := .sendingNotice liveNotice.bytes none 7, dout := [] }).link .p0 =
        { state := .sendingNotice liveNotice.bytes none 7, dout := [] } := by decide

theorem witness_StatusAndUnknownKind :
    (linkStart.link .p0).state = .idle ∧
      ∀ kind ∈ [(0x00 : Byte), 0x05, 0xFF], kind ≠ 0x01 ∧ kind ≠ 0x02 ∧ kind ≠ 0x03 ∧ kind ≠ 0x04 := by decide

theorem witness_TransactionInParts :
    (linkStart.link .p0).state = .idle ∧
      (∀ cmd ∈ [Instr.writeRequest .p0, Instr.readResponse .p0, Instr.readNotice .p0, Instr.status .p0,
          Instr.unknownKindByte .p0 0x05], cmd .release ≠ cmd .select) ∧
      ((0x05 : Byte) ≠ 0x01 ∧ (0x05 : Byte) ≠ 0x02 ∧ (0x05 : Byte) ≠ 0x03 ∧ (0x05 : Byte) ≠ 0x04) ∧
      (∀ s ∈ [linkStart, linkAnswered, linkStart.setPort .p0 { linkStart.port .p0 with notices := [liveNotice] }],
        (after (.status .p0 .select) s).link .p0 = { state := .selected (s.port .p0).statusByte, dout := [] }) ∧
      (linkStart.port .p0).responses = [] ∧ (linkStart.port .p0).notices = [] ∧
      (linkAnswered.port .p0).responses ≠ [] := by decide

/-- A port that is not ATTACHED; one whose first or second entry agrees; one with 7 others waiting; one with 8. -/
theorem witness_NoticeStored :
    let others (n : Nat) : List Notice :=
      (List.range n).map fun i => { kind := .markVoid, subject := byteOf i, frame := 0, count := 1, detail := 0x00 }
    (State.reset.port .p0).attach ≠ .attached ∧ (linkStart.port .p0).attach = .attached ∧
      (liveNotice.kind = liveNotice.kind ∧ liveNotice.subject = liveNotice.subject) ∧
      (∀ x ∈ others 1, ¬(x.kind = liveNotice.kind ∧ x.subject = liveNotice.subject)) ∧
      (others 7).length = 7 ∧ (∀ x ∈ others 7, ¬(x.kind = liveNotice.kind ∧ x.subject = liveNotice.subject)) ∧
      (others 8).length = 8 ∧ ∀ x ∈ others 8, ¬(x.kind = liveNotice.kind ∧ x.subject = liveNotice.subject) := by decide

/-- An unknown code; a parameter too few; a DETACHED port that asks for BYE; port 1 that asks for PLAN-SET. -/
theorem witness_UniversalResults :
    let unknown : Request := { tag := 0x07, code := 0x06, params := [] }
    let short := asking .hello .p0 [0x40, 0x00, 0x00] live2
    let detached := State.reset.setPort .p0 { State.reset.port .p0 with requests := [req .bye []] }
    let foreign := asking .panelOff .p1 [] live2
    (∀ k : RequestKind, unknown.code ≠ k.code) ∧
      ((waiting .p0 [unknown] live2).port .p0).engine = .ready ∧
      ((waiting .p0 [unknown] live2).port .p0).requests = [unknown] ∧
      ((short.port .p0).engine = .ready ∧ (short.port .p0).attach = .attached ∧
        (req .hello [0x40, 0x00, 0x00]).params.length ≠ RequestKind.hello.length) ∧
      ((detached.port .p0).engine = .ready ∧ (detached.port .p0).attach = .detached ∧
        (detached.port .p0).requests = [req .bye []] ∧ (req .bye []).params.length = RequestKind.bye.length) ∧
      ((foreign.port .p1).engine = .ready ∧ (foreign.port .p1).attach = .attached ∧
        (foreign.port .p1).requests = [req .panelOff []] ∧ (req .panelOff []).params.length = RequestKind.panelOff.length) :=
  ⟨fun k => by cases k <;> decide, by decide⟩

/-- A DETACHED port with the smallest and the largest sizes, sizes one beyond, and an ATTACHED port. -/
theorem witness_HelloAttaches :
    let s (sw sh : Nat) := State.reset.setPort .p0 { State.reset.port .p0 with requests := [req .hello (le16 sw ++ le16 sh)] }
    (∀ x ∈ [(1, 0), (1024, 256), (256, 1024)],
      x.1 < 65536 ∧ x.2 < 65536 ∧ ((s x.1 x.2).port .p0).engine = .ready ∧ ((s x.1 x.2).port .p0).attach = .detached ∧
        1 ≤ x.1 ∧ x.1 ≤ 1024 ∧ x.2 ≤ 1024 ∧ x.1 * x.2 ≤ 262144) ∧
      (∀ x ∈ [(0, 0), (1025, 0), (1, 1025), (1024, 257)],
        x.1 < 65536 ∧ x.2 < 65536 ∧ ((s x.1 x.2).port .p0).attach = .detached ∧
          ¬(1 ≤ x.1 ∧ x.1 ≤ 1024 ∧ x.2 ≤ 1024 ∧ x.1 * x.2 ≤ 262144)) ∧
      ((asking .hello .p0 (le16 1 ++ le16 0) live2).port .p0).attach = .attached := by decide

/-- Port 1 with regions and port 2 without; the panel LIVE and DARK. -/
theorem witness_ByeEntersLeaving :
    Takes .bye .p1 (req .bye []) [] (asking .bye .p1 [] two) ∧ Takes .bye .p2 (req .bye []) [] (asking .bye .p2 [] two) ∧
      Takes .bye .p1 (req .bye []) [] (asking .bye .p1 [] dark2) ∧
      two.scan.panel ≠ .dark ∧ (two.lay .p1).order ≠ [] ∧ (two.lay .p2).order = [] ∧ dark2.scan.panel = .dark :=
  ⟨takes_asking _ _ _ _ rfl nofun, takes_asking _ _ _ _ rfl nofun, takes_asking _ _ _ _ rfl nofun, by decide⟩

/-- RANGE at 0 and 4; a port that is not ATTACHED; an ATTACHED one with regions, and one with nothing left to wait for. -/
theorem witness_EjectEntersLeaving :
    (∀ b : Byte, Takes .eject .p0 (req .eject [b]) [] (asking .eject .p0 [b] two)) ∧
      (∀ b : Byte, Takes .eject .p0 (req .eject [b]) [] (asking .eject .p0 [b] dark2)) ∧ 3 < (0x04 : Byte).toNat ∧
      (0x03 : Byte).toNat = PortId.p3.toNat ∧ ((asking .eject .p0 [0x03] two).port .p3).attach ≠ .attached ∧
      (0x01 : Byte).toNat = PortId.p1.toNat ∧ ((asking .eject .p0 [0x01] two).port .p1).attach = .attached ∧
      ((asking .eject .p0 [0x01] two).lay .p1).order ≠ [] ∧ (asking .eject .p0 [0x01] two).scan.panel ≠ .dark ∧
      ((asking .eject .p0 [0x01] live2).port .p1).responses = [] ∧
      ((asking .eject .p0 [0x01] live2).lay .p1).order = [] ∧
      ((asking .eject .p0 [0x01] dark2).port .p1).attach = .attached :=
  ⟨fun _ => takes_asking _ _ _ _ rfl fun _ => rfl, fun _ => takes_asking _ _ _ _ rfl fun _ => rfl, by decide⟩

theorem witness_ReadPortReports :
    (∀ b : Byte, Takes .readPort .p0 (req .readPort [b]) [] (asking .readPort .p0 [b] two)) ∧
      (∀ b : Byte, Takes .readPort .p1 (req .readPort [b]) [] (asking .readPort .p1 [b] two)) ∧
      3 < (0x04 : Byte).toNat ∧ (0x03 : Byte).toNat = PortId.p3.toNat ∧ (0x01 : Byte).toNat = PortId.p1.toNat :=
  ⟨fun _ => takes_asking _ _ _ _ rfl nofun, fun _ => takes_asking _ _ _ _ rfl nofun, by decide⟩

/-- No frame start waits at port 0's unit; one waits there, a source undeclared, or LOCKED one frame from its loss. The
default plan changes the entries 0 and 1 of plan2, and no report waits. -/
theorem witness_RestartResets :
    let x : SourceUnit := { SourceUnit.reset with frameWaiting := true }
    let y : SourceUnit := { x with sw := 2, sh := 1, monitor := .locked, missed := 2, showing := some [[1, 2]] }
    let s (u : SourceUnit) : State := asking .restart .p0 [] (two.setUnit .p0 u)
    (∀ u, Takes .restart .p0 (req .restart []) [] (s u)) ∧ ((s SourceUnit.reset).unit .p0).frameWaiting = false ∧
      (((s x).unit .p0).frameWaiting = true ∧ ¬1 ≤ ((s x).unit .p0).sh) ∧ ((s y).unit .p0).frameWaiting = true ∧
      1 ≤ ((s y).unit .p0).sh ∧ reachesCount ((after (.restart .p0) (s y)).entry .p0) ((s y).unit .p0) ∧
      changedBits (Plan.default 64 64) (s x) 3 ∧ (s x).scan.setup.w = 64 ∧ (s x).scan.setup.h = 64 ∧
      exec .markReportsTaken (taken .p0 [] (s x)) = .next (taken .p0 [] (s x)) := by
  refine ⟨fun _ => takes_asking _ _ _ _ rfl fun _ => rfl, by decide, by decide, by decide, by decide,
    .inr ⟨nofun, by decide, by decide⟩, ⟨by decide, fun i hi => ?_⟩, rfl, rfl, rfl⟩
  match i, hi with
  | 0, _ => exact ⟨fun _ => ⟨.p0, rfl, by decide⟩, fun _ => rfl⟩
  | 1, _ => exact ⟨fun _ => ⟨.p1, rfl, by decide⟩, fun _ => rfl⟩
  | 2, _ => exact ⟨fun h => absurd h (by decide), fun ⟨q, hq, h⟩ => by cases q <;> revert hq h <;> decide⟩
  | 3, _ => exact ⟨fun h => absurd h (by decide), fun ⟨q, hq, h⟩ => by cases q <;> revert hq h <;> decide⟩

theorem witness_LeavingExitDeparts :
    let gone := live2.setPort .p1 (PortController.reset (.leaving .plan true))
    let unread := live2.setPort .p1 { PortController.reset (.leaving .bye true) with responses := [res .bye .done []] }
    ((gone.port .p1).attach = .leaving .plan true ∧ (gone.port .p1).responses = []) ∧
      (unread.port .p1).attach = .leaving .bye true ∧ (unread.port .p1).responses = [res .bye .done []] ∧
      (unread.link .p1).state = .idle ∧ (res .bye .done []).frame.length ≤ (List.replicate 5 (0x00 : Byte)).length := by
  decide

/-- Slots FREE, RESERVED and LIVE; ids 23 and 24; a foreign slot; port numbers 3 and 4. -/
theorem witness_ReadTableAnswers :
    let s := withSlot 23 (.reserved .p1 .linked) two
    (∀ (p : PortId) (b : Byte), Takes .readRegion p (req .readRegion [b]) [] (asking .readRegion p [b] s) ∧
      Takes .readOrder p (req .readOrder [b]) [] (asking .readOrder p [b] s)) ∧
      23 < (0x18 : Byte).toNat ∧ (0x17 : Byte).toNat ≤ 23 ∧ s.slot 23 = .reserved .p1 .linked ∧
      s.slot 3 = .live .p1 .solid 7 (box 10 4 20 12) ∧ s.slot 0 = .free ∧ (s.slot 0).owner? ≠ some .p1 ∧
      3 < (0x04 : Byte).toNat ∧ (0x03 : Byte).toNat = PortId.p3.toNat ∧ (0x01 : Byte).toNat = PortId.p1.toNat :=
  ⟨fun _ _ => ⟨takes_asking _ _ _ _ rfl nofun, takes_asking _ _ _ _ rfl nofun⟩, by decide⟩

/-- The last point and the first outside, on a panel of 64 by 64; region 4 above region 3 at (10, 10). -/
theorem witness_HitAnswers :
    let g : LiveRegion := { id := 4, owner := .p1, kind := .solid, copy := box 10 10 8 2 }
    (∀ x y, Takes .hit .p1 (req .hit (le16 x ++ le16 y)) [] (asking .hit .p1 (le16 x ++ le16 y) two)) ∧
      (two.scan.setup.w ≤ 64 ∧ 63 < two.scan.setup.w ∧ 63 < two.scan.setup.h) ∧
      (∀ r ∈ stackRegions two, ¬showsAt two 63 63 r) ∧ givesPoint two 10 10 g ∧ regionContent two g = .fill ∧
      g.owner = .p1 ∧ PortId.p2 ≠ g.owner := by
  refine ⟨fun _ _ => takes_asking _ _ _ _ rfl nofun, by decide, ?_,
    ⟨[{ id := 3, owner := .p1, kind := .solid, copy := box 10 4 20 12 }], [], by decide, ?_, nofun⟩, by decide, rfl,
    by decide⟩ <;> unfold showsAt <;> decide

/-- No draft; an id of 24; a foreign id at 23; an own id that the draft does not name. -/
theorem witness_DraftRegionChecks :
    let s := withSlot 5 (.live .p1 .solid 1 (box 0 0 1 1)) (withSlot 23 (.live .p0 .solid 1 (box 0 0 1 1)) editing)
    (∀ b : Byte, Takes .retire .p1 (req .retire [b]) [] (asking .retire .p1 [b] s)) ∧
      Takes .retire .p1 (req .retire [0x03]) [] (asking .retire .p1 [0x03] two) ∧ (two.lay .p1).draft = none ∧
      (s.lay .p1).draft = some moved ∧ 23 < (0x18 : Byte).toNat ∧ (0x17 : Byte).toNat ≤ 23 ∧
      (s.slot 23).owner? ≠ some .p1 ∧ (s.slot 5).owner? = some .p1 ∧ 5 ∉ moved.ids :=
  ⟨fun _ => takes_asking _ _ _ _ rfl nofun, takes_asking _ _ _ _ rfl nofun, by decide⟩

theorem witness_BeginOpensDraft :
    (∀ s, Takes .beginDraft .p1 (req .beginDraft []) [] (asking .beginDraft .p1 [] s)) ∧
      ((editing.lay .p1).draft ≠ none) ∧ ((sealedOne.lay .p1).draft = none ∧ (sealedOne.lay .p1).sealedSet = some moved) ∧
      (two.lay .p1).draft = none ∧ (two.lay .p1).sealedSet = none ∧
      ∀ id ∈ (two.lay .p1).order, (two.slot id).liveCopy? ≠ none :=
  ⟨fun _ => takes_asking _ _ _ _ rfl nofun, by decide⟩

/-- No draft; kind 2; the quota 3 reached; LINKED without a source; and SOLID with one slot below the quota, slot 0 FREE. -/
theorem witness_CreateReserves :
    let full := withSlot 5 (.reserved .p1 .solid) editing
    let some1 := withSlot 0 (.live .p0 .solid 1 (box 0 0 1 1)) editing
    (∀ (b : Byte) s, Takes .create .p1 (req .create [b]) [] (asking .create .p1 [b] s)) ∧ (two.lay .p1).draft = none ∧
      (editing.lay .p1).draft = some moved ∧ 1 < (0x02 : Byte).toNat ∧ (full.entry .p1).quota ≤ ownedCount .p1 full ∧
      ownedCount .p1 editing < (editing.entry .p1).quota ∧ (editing.unit .p1).sh = 0 ∧
      (0 < editing.layout.slots.length ∧ editing.slot 0 = .free ∧ ∀ j < 0, editing.slot j ≠ .free) ∧
      1 < some1.layout.slots.length ∧ some1.slot 1 = .free ∧ ∀ j < 1, some1.slot j ≠ .free :=
  ⟨fun _ _ => takes_asking _ _ _ _ rfl nofun, by decide⟩

/-- Region 3 at the panel's far edge, and one column beyond it. -/
theorem witness_PlaceSetsRectangle :
    (∀ x y w h, Takes .place .p1 (req .place (0x03 :: (le16 x ++ le16 y ++ le16 w ++ le16 h))) []
        (asking .place .p1 (0x03 :: (le16 x ++ le16 y ++ le16 w ++ le16 h)) editing)) ∧
      (editing.lay .p1).draft = some moved ∧ (editing.slot 3).owner? = some .p1 ∧ 3 ∈ moved.ids ∧
      (63 + 1 ≤ editing.scan.setup.w ∧ 0 + 64 ≤ editing.scan.setup.h) ∧ editing.scan.setup.w < 63 + 2 :=
  ⟨fun _ _ _ _ => takes_asking _ _ _ _ rfl nofun, by decide⟩

/-- A LINKED region of a source of 2 by 1, at its last column and one beyond; and a SOLID one. -/
theorem witness_SourceSetsWindow :
    let s := withSlot 3 (.live .p1 .linked 7 (box 10 4 20 12)) (sourced .noSignal 0 0 .empty editing)
    (∀ sx sy s, Takes .source .p1 (req .source (0x03 :: (le16 sx ++ le16 sy))) []
        (asking .source .p1 (0x03 :: (le16 sx ++ le16 sy)) s)) ∧
      (editing.lay .p1).draft = some moved ∧ (editing.slot 3).owner? = some .p1 ∧ (editing.slot 3).kind? = some .solid ∧
      3 ∈ moved.ids ∧ (s.lay .p1).draft = some moved ∧ (s.slot 3).owner? = some .p1 ∧ (s.slot 3).kind? = some .linked ∧
      (s.unit .p1).sw ≤ 2 ∧ 1 < (s.unit .p1).sw ∧ 0 < (s.unit .p1).sh :=
  ⟨fun _ _ _ => takes_asking _ _ _ _ rfl nofun, by decide⟩

/-- Port 1 has no guard right; port 0 has. -/
theorem witness_StyleSetsFields :
    let s := (withSlot 0 (.live .p0 .solid 1 (box 0 0 1 1)) live2).setLay .p0
      { order := [0], draft := some [{ id := 0, copy := box 0 0 1 1 }], sealedSet := none }
    (∀ v l g : Byte, Takes .style .p1 (req .style [0x03, v, l, 0x33, 0x22, 0x11, g]) []
        (asking .style .p1 [0x03, v, l, 0x33, 0x22, 0x11, g] editing)) ∧
      (editing.lay .p1).draft = some moved ∧ (editing.slot 3).owner? = some .p1 ∧ 3 ∈ moved.ids ∧
      (editing.entry .p1).guard = false ∧ 1 < (0x02 : Byte).toNat ∧ (0x01 : Byte).toNat ≤ 1 ∧
      (s.lay .p0).draft = some [{ id := 0, copy := box 0 0 1 1 }] ∧ (s.slot 0).owner? = some .p0 ∧
      (s.entry .p0).guard = true :=
  ⟨fun _ _ _ => takes_asking _ _ _ _ rfl nofun, by decide⟩

/-- Region 3 of the draft [3, 4]: op 4; the other region 4, 24, FREE, or own and not named by the draft. -/
theorem witness_OrderMoves :
    let s := withSlot 5 (.live .p1 .solid 1 (box 0 0 1 1)) editing
    (∀ op other : Byte, Takes .order .p1 (req .order [0x03, op, other]) [] (asking .order .p1 [0x03, op, other] s)) ∧
      (s.lay .p1).draft = some ([] ++ { id := 3, copy := box 10 5 20 12 } :: [{ id := 4, copy := box 10 10 8 2 }]) ∧
      moved.ids.Nodup ∧ (s.slot 3).owner? = some .p1 ∧ 3 < (0x04 : Byte).toNat ∧ 23 < (0x18 : Byte).toNat ∧
      (s.slot 23).owner? ≠ some .p1 ∧ ((s.slot 5).owner? = some .p1 ∧ 5 ∉ moved.ids) ∧
      ([] : Proposal) ++ [{ id := 4, copy := box 10 10 8 2 }] = [] ++ { id := 4, copy := box 10 10 8 2 } :: [] ∧
      (s.slot 4).owner? = some .p1 :=
  ⟨fun _ _ => takes_asking _ _ _ _ rfl nofun, by decide⟩

theorem witness_RetireAndDiscard :
    Takes .retire .p1 (req .retire [0x03]) [] (asking .retire .p1 [0x03] editing) ∧
      Takes .discard .p1 (req .discard []) [] (asking .discard .p1 [] editing) ∧
      Takes .discard .p1 (req .discard []) [] (asking .discard .p1 [] two) ∧ (editing.lay .p1).draft = some moved ∧
      (editing.slot 3).owner? = some .p1 ∧ 3 ∈ moved.ids ∧ (two.lay .p1).draft = none :=
  ⟨takes_asking _ _ _ _ rfl nofun, takes_asking _ _ _ _ rfl nofun, takes_asking _ _ _ _ rfl nofun, by decide⟩

theorem witness_ReadDraftAnswers :
    let s := withSlot 23 (.reserved .p1 .linked) (editing.setLay .p1
      { order := [3, 4], draft := some (moved ++ [{ id := 23, copy := box 0 0 1 1 }]), sealedSet := none })
    (∀ b : Byte, Takes .readDraft .p1 (req .readDraft [b]) [] (asking .readDraft .p1 [b] s)) ∧
      (s.lay .p1).draft = some (moved ++ { id := 23, copy := box 0 0 1 1 } :: []) ∧ (0x17 : Byte).toNat = 23 ∧
      23 ∉ moved.ids ∧ s.slot 23 = .reserved .p1 .linked ∧ s.slot 3 = .live .p1 .solid 7 (box 10 4 20 12) :=
  ⟨fun _ => takes_asking _ _ _ _ rfl nofun, by decide⟩

/-- A draft that passes; drafts that leave the territory by one column, whose window leaves a source of 2 by 1, that guard
without the right, and that crowd line 11 first; a draft over a waiting set; the panel DARK. -/
theorem witness_PublishSeals :
    let off : Proposal := [{ id := 3, copy := box 10 5 55 12 }]
    let guarding : Proposal := [{ id := 3, copy := { box 10 5 20 12 with guarded := true } }]
    let crowd : Proposal := moved ++ [{ id := 5, copy := box 0 11 1 5 }]
    let drafting (d : Proposal) : State := editing.setLay .p1 { order := [3, 4], draft := some d, sealedSet := none }
    let linked := withSlot 3 (.live .p1 .linked 7 (box 10 4 20 12)) (sourced .noSignal 0 0 .empty editing)
    let both := sealedOne.setLay .p1 { order := [3, 4], draft := some moved, sealedSet := some moved }
    let outside (x : DraftEntry) : Prop := ¬insideTerritory plan2.entries.p1 x.copy
    let unguarded (x : DraftEntry) : Prop := x.copy.guarded = true ∧ plan2.entries.p1.guard = false
    (∀ s, Takes .publish .p1 (req .publish []) [] (asking .publish .p1 [] s)) ∧
      ((two.lay .p1).draft = none ∧ ((both.lay .p1).draft = some moved ∧ (both.lay .p1).sealedSet ≠ none) ∧
        (∀ d ∈ [off, guarding, crowd], ((drafting d).lay .p1).draft = some d ∧ ((drafting d).lay .p1).sealedSet = none) ∧
        (editing.lay .p1).draft = some moved ∧ (editing.lay .p1).sealedSet = none ∧ editing.entry .p1 = plan2.entries.p1 ∧
        editing.scan.setup.h = 64 ∧ editing.scan.panel ≠ .dark ∧ dark2.scan.panel = .dark) ∧
      firstWith outside off 3 ∧ firstWith (windowMisfits .p1 linked) moved 3 ∧ firstWith unguarded guarding 3 ∧
      crowdNames plan2.entries.p1.share 64 crowd 5 ∧
      (∀ d ∈ [moved, guarding, crowd], ∀ x ∈ d, ¬outside x) ∧ (∀ x ∈ moved, ¬unguarded x) ∧
      (∀ d ∈ [guarding, crowd], ∀ x ∈ d, ¬windowMisfits .p1 (drafting d) x) ∧ ¬passesSeal .p1 off (drafting off) ∧
      passesSeal .p1 moved editing := by
  refine ⟨fun _ => takes_asking _ _ _ _ rfl nofun, by decide, ⟨[], _, [], rfl, rfl, ?_, nofun⟩,
    ⟨[], _, [{ id := 4, copy := box 10 10 8 2 }], rfl, rfl, ?_, nofun⟩, ⟨[], _, [], rfl, rfl, by decide, nofun⟩,
    ⟨11, moved, { id := 5, copy := box 0 11 1 5 }, ⟨by decide, by decide, by decide⟩, by decide, rfl⟩, ?_, by decide, ?_,
    ?_, ?_⟩ <;> first | unfold insideTerritory; decide | unfold windowMisfits; decide | unfold passesSeal; decide


/-- The plan of the tests fails no row of R91's table, but the fifth where a rank is repeated. -/
theorem planBytes_checks (m r : Byte) (hm : m = 0x00 ∨ m = 0x01) (hr : r = 0x01 ∨ r = 0x02) (i : Nat) (q : PortId)
    (hi : r = 0x02 ∨ i < 5) : ¬planCheck 64 64 (rawEntries (planBytes m r)) i q := by
  rcases hm with rfl | rfl <;> rcases hr with rfl | rfl <;>
    (match i with
      | 0 => exact nofun
      | 1 => exact fun h => h.1 rfl
      | 2 => exact fun h => h.1 (by cases q <;> unfold RawEntry.Valid <;> decide)
      | 3 | 4 => exact fun h => absurd h.1 (by cases q <;> decide)
      | 5 =>
        first
        | exact absurd hi (by decide)
        | rintro ⟨⟨j, h⟩, -⟩
          revert h
          cases q <;> cases j <;> decide
      | 6 =>
        rintro ⟨h, j, hj, -⟩
        revert h hj
        cases q <;> cases j <;> decide
      | 7 =>
        rintro ⟨h, k⟩
        revert h k
        cases q <;> decide
      | _ + 8 => exact nofun)

/-- A mode of 2; a plan that fails the fifth row alone; a valid plan in each mode, the panel LIVE and DARK, where it changes
no entry; a plan that waits. -/
theorem witness_PlanSetSeals :
    let es (b : Byte) := rawEntries (planBytes 0x00 b)
    (∀ m r s, Takes .planSet .p0 (req .planSet (planBytes m r)) [] (asking .planSet .p0 (planBytes m r) s)) ∧
      (live2.layout.sealedPlan = none ∧
        (live2.setSealedPlan (some { plan := plan2, mode := .keep })).layout.sealedPlan ≠ none ∧
        1 < (0x02 : Byte).toNat ∧ live2.scan.setup.w = 64 ∧ live2.scan.setup.h = 64 ∧
        planFault 64 64 (es 0x01) = some .p3 ∧ planFault 64 64 (es 0x02) = none ∧ live2.scan.panel ≠ .dark ∧
        dark2.scan.panel = .dark ∧ (dark2.port .p1).attach = .attached) ∧
      (planCheck 64 64 (es 0x01) 5 .p3 ∧ ∀ j < 5, ∀ k, ¬planCheck 64 64 (es 0x01) j k) ∧
      (∀ i q, ¬planCheck 64 64 (es 0x02) i q) ∧
      (asking .planSet .p0 (planBytes 0x01 0x02) dark2).TableLaw ∧
      (asking .planSet .p0 (planBytes 0x01 0x02) dark2).WaitingLaw ∧
      ∀ p x, ¬orphans (paramPlan (planBytes 0x00 0x02)) dark2 p x := by
  refine ⟨fun _ _ _ => takes_asking _ _ _ _ rfl fun _ => rfl, by decide,
    ⟨⟨⟨.p2, by decide, by decide⟩, ?_⟩, fun j hj k => planBytes_checks 0x00 0x01 (.inl rfl) (.inl rfl) j k (.inr hj)⟩,
    fun i q => planBytes_checks 0x00 0x02 (.inl rfl) (.inr rfl) i q (.inl rfl),
    ⟨by decide, by decide, fun p => ?_⟩, ⟨fun _ => ⟨by decide, by decide, fun p => ?_⟩, fun p => ?_⟩,
    fun p _ h => h.1 ?_⟩
  · rintro (_ | _ | _ | _) (_ | _ | _ | _) <;> decide
  · cases p <;> exact ⟨by decide, by decide, by decide, nofun, nofun, by decide, nofun, by decide, by decide, by decide⟩
  · cases p <;> rfl
  · cases p <;> exact ⟨by decide, by decide, by decide, fun h => absurd h (by decide)⟩
  · cases p <;> decide

theorem witness_ReadPlanAnswers : Takes .readPlan .p1 (req .readPlan []) [] (asking .readPlan .p1 [] live2) :=
  takes_asking _ _ _ _ rfl nofun

/-- Sizes in range and one beyond; a port that owns a LINKED slot and one that owns none. -/
theorem witness_SourceFormatTakesSize :
    let s := withSlot 3 (.reserved .p1 .linked) live2
    (∀ sw sh s, Takes .sourceFormat .p1 (req .sourceFormat (le16 sw ++ le16 sh)) []
        (asking .sourceFormat .p1 (le16 sw ++ le16 sh) s)) ∧
      (1 ≤ 1024 ∧ 1024 ≤ 1024 ∧ 256 ≤ 1024 ∧ 1024 * 256 ≤ 262144) ∧ ¬1024 * 257 ≤ 262144 ∧
      (∃ x ∈ s.layout.slots, x.owner? = some .p1 ∧ x.kind? = some .linked) ∧
      ¬∃ x ∈ live2.layout.slots, x.owner? = some .p1 ∧ x.kind? = some .linked :=
  ⟨fun _ _ _ => takes_asking _ _ _ _ rfl nofun, by decide⟩

theorem witness_FrameBeginStartsReceiving :
    let s := sourced .noSignal 0 0 (.ready [[1, 2]]) live2
    ((s.port .p1).attach = .attached ∧ 1 ≤ (s.unit .p1).sh ∧ (s.unit .p1).frameWaiting = false) ∧ (s.unit .p0).sh = 0 ∧
      (s.port .p2).attach ≠ .attached ∧
      (((judging .locked 2 2 .empty).unit .p1).frameWaiting = true ∧
        reachesCount ((judging .locked 2 2 .empty).entry .p1)
          { (judging .locked 2 2 .empty).unit .p1 with filling := .receiving [] }) ∧
      ((judging .acquiring 1 0 (.ready [[1, 2]])).unit .p1).frameWaiting = true ∧
      ¬reachesCount ((judging .acquiring 1 0 (.ready [[1, 2]])).entry .p1)
        { (judging .acquiring 1 0 (.ready [[1, 2]])).unit .p1 with filling := .receiving [] } :=
  ⟨by decide, by decide, by decide, ⟨by decide, .inr ⟨nofun, by decide, by decide⟩⟩, by decide, by
    rintro (⟨⟨_, h⟩, -⟩ | ⟨-, h, -⟩) <;> cases h⟩

/-- Source of 2 by 1: RECEIVING with no line and with its one line, READY, EMPTY; and units that do not run. (A frame start
that waits is that of witness_FrameBeginStartsReceiving.) -/
theorem witness_PacketsFillBank :
    let s (f : Filling) := sourced .noSignal 0 0 f live2
    (∀ f ∈ [Filling.receiving [], .receiving [[1, 2]], .ready [[1, 2]], .empty],
      ((s f).port .p1).attach = .attached ∧ 1 ≤ ((s f).unit .p1).sh ∧ ((s f).unit .p1).filling = f ∧
        ((s f).unit .p1).frameWaiting = false) ∧
      ([[1, 2]] : Picture).length = ((s .empty).unit .p1).sh ∧ ([1, 2] : List Colour).length = ((s .empty).unit .p1).sw ∧
      ((s .empty).unit .p0).sh = 0 ∧ ((s .empty).port .p2).attach ≠ .attached := by decide

theorem witness_LockAndLossReached :
    let s := judging .acquiring 1 0 (.ready [[1, 2]])
    let one := (judging .noSignal 0 0 (.ready [[1, 2]])).setPlan
      { plan2 with entries := plan2.entries.set .p1 { plan2.entries.p1 with lockCount := 1 } }
    let u := judging .locked 2 2 .empty
    ((s.port .p1).attach = .attached ∧ 1 ≤ (s.unit .p1).sh ∧ (s.unit .p1).frameWaiting = true ∧
      (s.unit .p1).filling = .ready [[1, 2]] ∧ (s.unit .p1).monitor = .acquiring ∧ 2 = min 7 ((s.unit .p1).good + 1) ∧
      (s.entry .p1).lockCount ≤ 2) ∧
      ((one.port .p1).attach = .attached ∧ 1 ≤ (one.unit .p1).sh ∧ (one.unit .p1).frameWaiting = true ∧
        (one.unit .p1).filling = .ready [[1, 2]] ∧ (one.unit .p1).monitor = .noSignal ∧ (one.entry .p1).lockCount = 1) ∧
      (u.port .p1).attach = .attached ∧ 1 ≤ (u.unit .p1).sh ∧ (u.unit .p1).frameWaiting = true ∧
      (u.unit .p1).filling = .empty ∧ (u.unit .p1).monitor = .locked ∧ 3 = min 15 ((u.unit .p1).missed + 1) ∧
      (u.entry .p1).tolerance ≤ 3 := by decide

/-- A unit that the order leaves out, and that reaches the lock count or does not. -/
theorem witness_FrameStartJudges_left :
    let s (good : Nat) := atEnd (sourced .acquiring good 0 (.ready [[1, 2]]) live2)
    FrameWork.unit .p1 ∉ ([] : List FrameWork) ∧
      (∀ g ∈ [0, 1], ((after (.frameStart []) (s g)).port .p1).attach = .attached ∧
        (after (.frameStart []) (s g)).entry .p1 = plan2.entries.p1) ∧
      reachesCount plan2.entries.p1 ((s 1).unit .p1) ∧ ¬reachesCount plan2.entries.p1 ((s 0).unit .p1) :=
  ⟨by decide, by decide, .inl ⟨⟨_, rfl⟩, .inr ⟨rfl, by decide⟩⟩, by
    rintro (⟨-, ⟨h, -⟩ | ⟨-, h⟩⟩ | ⟨-, h, -⟩)
    · cases h
    · exact absurd h (by decide)
    · cases h⟩

/-- Each row of the monitor table on a fresh and on a missed frame, at the last count below and at the lock count 2 and the
tolerance 3; port 1 is ATTACHED after the frame start. -/
theorem witness_FrameStartJudges :
    let fresh : Filling := .ready [[1, 2]]
    (∀ x ∈ [(Monitor.noSignal, 0, 0, fresh), (.acquiring, 0, 0, fresh), (.acquiring, 1, 0, fresh), (.locked, 2, 1, fresh),
        (.lost, 0, 3, fresh), (.noSignal, 0, 0, .empty), (.acquiring, 1, 0, .receiving []), (.locked, 2, 1, .empty),
        (.locked, 2, 2, .empty), (.lost, 0, 15, .empty)],
      let s := atEnd (sourced x.1 x.2.1 x.2.2.1 x.2.2.2 live2)
      (s.port .p1).attach = .attached ∧ 1 ≤ (s.unit .p1).sh ∧ (s.unit .p1).frameWaiting = false ∧
        s.scan.panel = .live ∧ s.scan.setup.h = 64 ∧ (s.entry .p1).lockCount = 2 ∧ (s.entry .p1).tolerance = 3 ∧
        ((after (.frameStart [.unit .p1]) s).port .p1).attach = .attached) ∧
      (∀ s : State, s.scan.panel = .live → ¬coolEnds s) ∧
      ∀ a ∈ [[], [FrameWork.unit .p0], [.commit], [.timer, .commit]],
        let s := atEnd (sourced .locked 2 2 .empty live2)
        FrameWork.unit .p1 ∉ a ∧ ((after (.frameStart (a ++ .unit .p1 :: [])) s).port .p1).attach = .attached ∧
          ((after (.frameStart (a ++ .unit .p1 :: [])) s).port .p0).attach = .attached ∧
          exec .markReportsTaken s = .next s ∧
          judgedNotices 1051 .p1 (s.entry .p1) (s.unit .p1) .p0 =
            [{ kind := .sourceLost, subject := 0x01, frame := 1051, count := 1, detail := 0x03 }] := by
  refine ⟨by decide, fun s h g => absurd (h.symm.trans g.2.1) (by decide), fun a ha => ?_⟩
  simp only [List.mem_cons, List.not_mem_nil, or_false] at ha
  rcases ha with rfl | rfl | rfl | rfl <;> exact ⟨by decide, by decide, by decide, rfl, by decide⟩

/-- Ids 24, FREE, FREE and just withdrawn, RESERVED and LIVE; offsets 11 and 12 on a height of 12; a full list, and one with id 1 free between, no
report waiting, so that the taking of reports leaves the lists. -/
theorem witness_MarkPlacesMark :
    let m (i : Nat) : Mark := { id := i, region := 3, offset := 0, remaining := 0 }
    let s := withSlot 23 (.reserved .p1 .solid) marked
    let full := s.setMarkList .p1 [m 0, m 1, m 2, m 3]
    let gap := s.setMarkList .p1 ([m 0] ++ [m 2])
    (∀ (id : Byte) (o : Nat) (n : Byte) t, Takes .mark .p1 (req .mark (id :: (le16 o ++ [n]))) []
        (asking .mark .p1 (id :: (le16 o ++ [n])) t)) ∧
      s.marks.reports = [] ∧ 23 < (0x18 : Byte).toNat ∧ (s.slot 22).owner? ≠ some .p1 ∧
      s.slot 23 = .reserved .p1 .solid ∧ s.slot 3 = .live .p1 .solid 7 (box 10 4 20 12) ∧ (box 10 4 20 12).h ≤ 12 ∧
      11 < (box 10 4 20 12).h ∧ (∀ i < 4, ∃ x ∈ full.markList .p1, x.id = i) ∧
      ((s.slot 5 = .free ∧ (s.setWithdrawn [(.p1, 5)]).marks.withdrawn = [(.p1, 5)] ∧
          (.p1, 5) ∈ (s.setWithdrawn [(.p1, 5)]).marks.withdrawn) ∧ (.p1, 22) ∉ s.marks.withdrawn) ∧
      gap.markList .p1 = [m 0] ++ [m 2] ∧ (∀ x ∈ [m 0], x.id < 1) ∧ (∀ x ∈ [m 2], 1 < x.id) ∧
      ∀ j < 1, ∃ x ∈ [m 0], x.id = j :=
  ⟨fun _ _ _ _ => takes_asking _ _ _ _ rfl nofun, by decide⟩

theorem witness_UnmarkAndReadMarks :
    (∀ b : Byte, Takes .unmark .p1 (req .unmark [b]) [] (asking .unmark .p1 [b] marked)) ∧
      Takes .readMarks .p1 (req .readMarks []) [] (asking .readMarks .p1 [] marked) ∧ 3 < (0x04 : Byte).toNat ∧
      (0x03 : Byte).toNat ≤ 3 ∧ (∀ m ∈ marked.markList .p1, m.id ≠ 3) ∧ ∃ m ∈ marked.markList .p1, m.id = 0 :=
  ⟨fun _ => takes_asking _ _ _ _ rfl nofun, takes_asking _ _ _ _ rfl nofun, by decide⟩

theorem witness_ReportsRemoveMarks :
    (marked.setReports [.reshaped .p1 3 6 1050, .withdrawn .p1 4 1050]).marks.reports =
        .reshaped .p1 3 6 1050 :: [.withdrawn .p1 4 1050] ∧
      ((marked.setReports []).markList .p1).map (fun m => (Report.reshaped .p1 3 6 1050).breaks m) = [true, false] := by
  decide

/-- The panel LIVE; DARK with a setup out of range, a territory outside, and a setup that holds the plan exactly. -/
theorem witness_PanelSetupTakesFields :
    let params (w h : Nat) (v : Byte) : List Byte := le16 w ++ le16 h ++ [v, 0x0F, 0x01, 0x10]
    let wide := dark2.setPlan { plan2 with entries := plan2.entries.set .p1 { plan2.entries.p1 with tw := 65 } }
    (∀ w h v s, Takes .panelSetup .p0 (req .panelSetup (params w h v)) [] (asking .panelSetup .p0 (params w h v) s)) ∧
      live2.scan.panel ≠ .dark ∧ dark2.scan.panel = .dark ∧
      ¬Setup.Lawful { w := 63, h := 64, vblank := 16, warm := 15, cool := 1, divider := 16 } ∧
      Setup.Lawful { w := 64, h := 64, vblank := 16, warm := 15, cool := 1, divider := 16 } ∧
      ((wide.entry .p1).enabled = true ∧ 64 < (wide.entry .p1).tx + (wide.entry .p1).tw ∧
        (wide.entry .p0).tx + (wide.entry .p0).tw ≤ 64 ∧ (wide.entry .p0).ty + (wide.entry .p0).th ≤ 64) ∧
      ∀ q ∈ PortId.all, ¬((dark2.entry q).enabled = true ∧
        (64 < (dark2.entry q).tx + (dark2.entry q).tw ∨ 64 < (dark2.entry q).ty + (dark2.entry q).th)) := by
  refine ⟨fun _ _ _ _ => takes_asking _ _ _ _ rfl fun _ => rfl, by decide, by decide, ?_, ?_, by decide, by decide⟩ <;>
    unfold Setup.Lawful <;> decide

/-- A panel state of the tests. -/
def panelIn (x : PanelState) : State := live2.setScan { live2.scan with panel := x }

/-- The four panel states; from DARK with nothing waiting, a unit of a port that reaches a lock count of 1 and one of no
declared size, listed and not. -/
theorem witness_PanelOnStartsWarming :
    let d := (sourced .noSignal 0 0 (.ready [[1, 2]]) (panelIn .dark)).setPlan
      { plan2 with entries := plan2.entries.set .p1 { plan2.entries.p1 with lockCount := 1 } }
    let s := asking .panelOn .p0 [] d
    (∀ x, Takes .panelOn .p0 (req .panelOn []) [] (asking .panelOn .p0 [] (panelIn x))) ∧
      Takes .panelOn .p0 (req .panelOn []) [] s ∧
      (∀ x ∈ [PanelState.dark, .warming, .live, .cooling],
        (asking .panelOn .p0 [] (panelIn x)).scan.panel = x ∧
          (asking .panelOn .p0 [] (panelIn x)).scan.warmWaiting = false) ∧
      (s.scan.panel = .dark ∧ s.layout.sealedPlan = none ∧ s.layout.retiring = [] ∧
        (∀ p ∈ PortId.all, (s.lay p).sealedSet = none) ∧ (s.port .p1).attach = .attached ∧
        (s.port .p2).attach ≠ .attached ∧ s.marks.reports = [] ∧ 1 ≤ (s.unit .p1).sh ∧ (s.unit .p0).sh = 0 ∧
        (s.port .p0).attach = .attached ∧ FrameWork.unit .p1 ∈ FrameWork.usual ∧ FrameWork.unit .p1 ∉ ([] : List FrameWork)) ∧
      reachesCount (s.entry .p1) (s.unit .p1) :=
  ⟨fun _ => takes_asking _ _ _ _ rfl fun _ => rfl, takes_asking _ _ _ _ rfl fun _ => rfl, by decide, by decide,
    .inl ⟨⟨_, rfl⟩, .inl ⟨rfl, rfl⟩⟩⟩

theorem witness_PanelOffAndReadPanel :
    (∀ x, Takes .panelOff .p0 (req .panelOff []) [] (asking .panelOff .p0 [] (panelIn x))) ∧
      Takes .readPanel .p1 (req .readPanel []) [] (asking .readPanel .p1 [] live2) ∧
      ∀ x ∈ [PanelState.dark, .warming, .live, .cooling],
        (asking .panelOff .p0 [] (panelIn x)).scan.panel = x ∧
          (asking .panelOff .p0 [] (panelIn x)).scan.warmWaiting = false :=
  ⟨fun _ => takes_asking _ _ _ _ rfl fun _ => rfl, takes_asking _ _ _ _ rfl nofun, by decide⟩

/-- COOLING, its frame counted, one frame start before DARK (cool value 2): at cool 0 it goes on, at cool 1 it ends. -/
def coolingAt (n : Nat) : State := live2.setScan { live2.scan with panel := .cooling, coolingFrame := true, cool := n }

/-- WARMING with a warm counter; a frame start waits at the warm count or not. -/
def warmingAt (n : Nat) (due : Bool) : State :=
  live2.setScan { live2.scan with panel := .warming, warm := n, warmWaiting := due }

/-- LIVE, COOLING before its end, and WARMING one count below and at the last count, each at the end of its frame; orders
with all work and with none; a DARK panel, and a line before the last. -/
theorem witness_FrameStartCommits :
    (∀ s ∈ [live2, coolingAt 0, warmingAt 2 false, warmingAt 3 false],
      (atEnd s).scan.panel ≠ .dark ∧ (atEnd s).scan.warmWaiting = false ∧ (atEnd s).scan.setup.h = 64) ∧
      (∀ s : State, s.scan.panel ≠ .cooling → ¬coolEnds s) ∧ ¬coolEnds (atEnd (coolingAt 0)) ∧
      (warmingAt 2 false).scan.warm + 1 < (warmingAt 2 false).scan.setup.warm ∧
      (warmingAt 3 false).scan.setup.warm ≤ (warmingAt 3 false).scan.warm + 1 ∧
      FrameWork.timer ∈ FrameWork.usual ∧ FrameWork.timer ∉ ([] : List FrameWork) ∧
      ((after (.frameStart FrameWork.usual) (atEnd live2)).port .p1).attach = .attached ∧
      ((atEnd live2).port .p1).attach = .attached ∧ ((atEnd live2).port .p2).attach ≠ .attached ∧
      ([.unit .p0, .unit .p1, .commit] : List FrameWork) = [.unit .p0] ++ .unit .p1 :: [.commit] ∧
      FrameWork.commit ∉ ([.unit .p0] : List FrameWork) ∧
      (State.reset.scan.panel = .dark ∧ ¬frameEnds live2) :=
  ⟨by decide, fun _ h g => h g.2.1, fun h => absurd h.2.2.2 (by decide), by decide, by decide, by decide, by decide,
    by decide, by decide, by decide, by decide, by decide, by decide, fun ⟨_, h, _⟩ => by cases h⟩

/-- A state in which the laws of every block hold and something waits in most: the test state with a sealed set, two
marks, a frame start at the front of the queue. -/
def busy : State :=
  { atEnd (sealedOne.setMarkList .p1 (marked.markList .p1)) with pending := [.frameStart FrameWork.usual] }

theorem busy_steps : step busy = .next (after (.frameStart FrameWork.usual) { busy with pending := [] }) := rfl

theorem busy_ends : frameEnds busy ∧ ¬coolEnds busy := ⟨⟨63, rfl, rfl⟩, fun h => absurd h.2.1 (by decide)⟩

theorem busy_WaitingLaw : busy.WaitingLaw := by
  refine ⟨fun h => absurd h (by decide), fun p => ?_⟩
  cases p <;> exact ⟨by decide, by decide, by decide, fun h => absurd h (by decide)⟩

theorem busy_TableLaw : busy.TableLaw := by
  refine ⟨by decide, by decide, fun p => ?_⟩
  cases p <;> refine ⟨by decide, by decide, by decide, nofun, ?_, by decide, nofun, by decide, by decide, by decide⟩
  · nofun
  · intro pr h; cases h; exact ⟨by decide, by decide⟩
  · nofun
  · nofun

theorem busy_PlanLaw : busy.PlanLaw := by
  refine ⟨by unfold Setup.Lawful; decide, ⟨by decide, by decide, by decide, fun p => ?_, ?_⟩, nofun⟩
  · cases p <;> unfold PlanEntry.Lawful <;> decide
  · intro r h
    match r, h with
    | 0, _ => exact ⟨.p1, rfl⟩
    | 1, _ => exact ⟨.p2, rfl⟩
    | 2, _ => exact ⟨.p3, rfl⟩
    | 3, _ => exact ⟨.p0, rfl⟩

/-- Port 1 said BYE, with these responses unread, and its two regions wait for the commit. -/
def departing (rs : List Response) : State :=
  atEnd ((two.setPort .p1 { PortController.reset (.leaving .bye false) with responses := rs }).setRetiring [.p1])

theorem departing_TableLaw (rs : List Response) : (departing rs).TableLaw := by
  have h : ∀ p, (departing []).TableLawOf p := fun p => by
    cases p <;>
      exact ⟨by decide, by decide, by decide, nofun, nofun, by decide, nofun, by decide, by decide, by decide⟩
  refine ⟨rfl, List.nodup_singleton _, fun p => ?_⟩
  have g := h p
  cases p <;> exact g

theorem departing_WaitingLaw (rs : List Response) : (departing rs).WaitingLaw := by
  refine ⟨nofun, fun p => ?_⟩
  cases p <;> exact ⟨rfl, rfl, rfl, nofun⟩

/-- A set waits, or a port on the retirement list, with a response unread and without; all work in the order, and none. -/
theorem witness_FrameStartAppliesSets :
    FrameWork.distinct FrameWork.usual = true ∧ FrameWork.distinct [] = true ∧ busy.scan.panel ≠ .dark ∧
      frameEnds busy ∧ ¬coolEnds busy ∧ busy.layout.sealedPlan = none ∧ busy.TableLaw ∧ busy.WaitingLaw ∧
      .p1 ∉ busy.layout.retiring ∧ (busy.lay .p1).sealedSet = some moved ∧ (busy.lay .p0).sealedSet = none ∧
      busy.scan.warmWaiting = false ∧ (busy.port .p0).attach = .attached ∧ exec .markReportsTaken busy = .next busy :=
  ⟨by decide, by decide, by decide, busy_ends.1, busy_ends.2, by decide, busy_TableLaw, busy_WaitingLaw, by decide,
    by decide, by decide, by decide, by decide, rfl⟩

/-- The same for a port on the retirement list: 9.8's two ways, and the PORT_LEFT that port 0 receives. -/
theorem witness_FrameStartCommits_retired :
    (∀ rs, (departing rs).TableLaw ∧ (departing rs).WaitingLaw ∧ frameEnds (departing rs) ∧ ¬coolEnds (departing rs) ∧
      (departing rs).scan.panel = .live ∧ (departing rs).layout.sealedPlan = none ∧
      (departing rs).scan.warmWaiting = false ∧ (departing rs).layout.retiring = [.p1] ∧
      ((departing rs).port .p1).attach = .leaving .bye false ∧ ((departing rs).port .p0).attach = .attached) ∧
      (let t := after (.frameStart []) (departing []);
        (t.port .p1).attach = .detached ∧ (t.port .p0).notices = [portLeftNotice 1051 .p1 .bye]) ∧
      let t := after (.frameStart []) (departing [res .bye .done []]);
      (t.port .p1).attach = .leaving .bye true ∧ (t.port .p0).notices = [] :=
  ⟨fun rs => ⟨departing_TableLaw rs, departing_WaitingLaw rs, ⟨63, rfl, rfl⟩, fun h => absurd h.2.1 nofun, rfl, rfl, rfl, rfl,
    rfl, rfl⟩, by decide, by decide⟩

/-- Entry 1 narrowed to 20 columns: region 3, from column 10 to 30, does not fit. -/
def narrow : Plan := { plan2 with entries := plan2.entries.set .p1 { plan2.entries.p1 with tw := 20 } }

/-- A sealed plan waits at the end of a frame, its PLAN-SET deferred. -/
def settling (q : Plan) (m : PlanMode) : State :=
  atEnd ((two.setSealedPlan (some { plan := q, mode := m })).setPort .p0
    { PortController.reset .attached with deferred := [req .planSet (planBytes 0x00 0x02)] })

theorem two_TableLaw : two.TableLaw := by
  refine ⟨by decide, by decide, fun p => ?_⟩
  cases p <;> exact ⟨by decide, by decide, by decide, nofun, nofun, by decide, nofun, by decide, by decide, by decide⟩

theorem settling_TableLaw (q : Plan) (m : PlanMode) : (settling q m).TableLaw := by
  refine ⟨two_TableLaw.1, two_TableLaw.2.1, fun p => ?_⟩
  have h := two_TableLaw.2.2 p
  cases p <;> exact h

theorem settling_WaitingLaw (q : Plan) (m : PlanMode) : (settling q m).WaitingLaw := by
  refine ⟨nofun, fun p => ?_⟩
  cases p <;> exact ⟨rfl, rfl, rfl, nofun⟩

/-- The narrow plan conflicts in KEEP mode at port 1 and region 3, the plan in force with nothing. -/
theorem settling_orphans :
    orphans narrow (settling narrow .keep) .p1 (some 3) ∧ ∀ p x, ¬orphans plan2 (settling plan2 .keep) p x := by
  refine ⟨⟨by decide, .inr (.inr ⟨fun h => absurd h.2 (by decide), by decide, 3, rfl,
      .inl (.inl ⟨[], { id := 3, copy := box 10 4 20 12 }, [{ id := 4, copy := box 10 10 8 2 }], by decide, rfl, ?_, nofun⟩)⟩)⟩,
    fun p _ h => absurd h.1 ?_⟩
  · unfold insideTerritory; decide
  · cases p <;> decide

/-- The plan that changes entry 1 in EVICT mode; in KEEP mode the same plan, with its conflict at port 1 and region 3, and
one without a conflict. -/
theorem witness_FrameStartSettlesPlan :
    (∀ x ∈ [(narrow, PlanMode.keep), (narrow, .evict), (plan2, .keep)],
      let s := settling x.1 x.2
      s.scan.panel = .live ∧ s.scan.setup.h = 64 ∧ s.layout.sealedPlan = some { plan := x.1, mode := x.2 } ∧
        x.1.entries.p0.enabled = true ∧ (s.port .p0).attach = .attached ∧ (s.port .p1).attach = .attached ∧
        s.marks.reports = [] ∧ ((after (.frameStart []) s).port .p1).attach = .attached ∧
        ((s.port .p0).deferred.find? fun x => x.code == RequestKind.planSet.code) =
          some (req .planSet (planBytes 0x00 0x02))) ∧
      (narrow.entries.get .p1 ≠ (settling narrow .evict).entry .p1 ∧ (narrow.entries.get .p1).enabled = true ∧
        keepConflict plan2 (settling plan2 .keep) = none ∧ keepConflict narrow (settling narrow .keep) ≠ none) ∧
      (settling narrow .evict).TableLaw ∧ (settling narrow .evict).WaitingLaw ∧
      (orphans narrow (settling narrow .keep) .p1 (some 3) ∧ ∀ x, ¬orphans narrow (settling narrow .keep) .p0 x) ∧
      ∀ p x, ¬orphans plan2 (settling plan2 .keep) p x :=
  ⟨by decide, by decide, settling_TableLaw _ _, settling_WaitingLaw _ _,
    ⟨settling_orphans.1, fun _ h => absurd h.1 (by decide)⟩, settling_orphans.2⟩

/-- A sealed plan waits at the end of a frame, and a set of port 1 with it. -/
def settlingSet (q : Plan) (m : PlanMode) : State :=
  ((settling q m).setLay .p1 { order := [3, 4], draft := none, sealedSet := some moved }).setPort .p1
    { PortController.reset .attached with deferred := [req .publish []] }

/-- The set is applied by the commit that refuses the plan in KEEP mode, takes it in KEEP mode, or takes it in EVICT mode
with the owner's entry unchanged; and port 1 is not on the retirement list. -/
theorem witness_FrameStartSettlesPlan_sets :
    (∀ x ∈ [(narrow, PlanMode.keep), (plan2, .keep), (plan2, .evict)],
      let s := settlingSet x.1 x.2
      PortId.p1 ∉ s.layout.retiring ∧ (s.lay .p1).sealedSet = some moved ∧ (s.port .p0).attach = .attached ∧
        s.layout.sealedPlan = some { plan := x.1, mode := x.2 } ∧ x.1.entries.p0.enabled = true ∧
        ((after (.frameStart FrameWork.usual) s).port .p1).responses = [res .publish .done [0x00, 0x1B, 0x04]]) ∧
      (∀ m, keptByPlan plan2 m .p1 (settlingSet plan2 m)) ∧ keptByPlan narrow .keep .p1 (settlingSet narrow .keep) ∧
      (∀ q m, (settlingSet q m).TableLaw ∧ (settlingSet q m).WaitingLaw) :=
  ⟨by decide, fun _ => .inl rfl, .inr ⟨rfl, .inl rfl⟩, fun q m => by
    refine ⟨⟨busy_TableLaw.1, busy_TableLaw.2.1, fun p => ?_⟩, nofun, fun p => ?_⟩
    · have h := busy_TableLaw.2.2 p
      cases p <;> exact h
    · cases p <;> exact ⟨rfl, rfl, rfl, nofun⟩⟩

/-- COOLING at the end of the frame that completes the count. -/
def ending (s : State) : State :=
  s.setScan { s.scan with panel := .cooling, coolingFrame := true, cool := 1, pos := some 63 }

/-- The panel DARK. -/
def darkened (s : State) : State := s.setScan { s.scan with panel := .dark, pos := none }

/-- After a frame start region 3, which its set moved, and region 4, which it did not, are LIVE as before. The same after
the entry into DARK; and a DARK state with regions, and one in which a PUBLISH moves region 3. -/
theorem witness_GenerationsAdvance :
    (frameEnds busy ∧ ¬coolEnds busy) ∧ coolEnds (ending busy) ∧ (darkened two).TableLaw ∧ busy.scan.panel ≠ .dark ∧
      (∀ s ∈ [after (.frameStart FrameWork.usual) busy, after (.entryIntoDark true) (ending busy),
          after (.publish .p1) (asking .publish .p1 [] (darkened editing))],
        s.slot 3 = .live .p1 .solid 8 (box 10 5 20 12) ∧ s.slot 4 = .live .p1 .solid 1 (box 10 10 8 2)) ∧
      (darkened two).scan.panel = .dark ∧ busy.slot 3 = .live .p1 .solid 7 (box 10 4 20 12) ∧
      busy.slot 4 = .live .p1 .solid 1 (box 10 10 8 2) :=
  ⟨busy_ends, ⟨⟨63, rfl, rfl⟩, by decide⟩, two_TableLaw, by decide⟩

theorem witness_WarmCountEntersLive :
    (warmingAt 3 true).scan.panel = .warming ∧ (warmingAt 3 true).scan.warmWaiting = true ∧
      (warmingAt 3 true).scan.setup.warm ≤ (warmingAt 3 true).scan.warm + 1 ∧
      (warmingAt 2 true).scan.warm + 1 < (warmingAt 2 true).scan.setup.warm := by decide

/-- The end of the frame that completes the count, of the one before, and a line before the end; at that end a sealed set
waits, or a sealed plan: in EVICT mode, and in KEEP mode without a conflict and with one. -/
theorem witness_EntryIntoDarkEnds :
    coolEnds (atEnd (coolingAt 1)) ∧ ¬coolEnds (atEnd (coolingAt 0)) ∧ ¬coolEnds (coolingAt 1) ∧
      (∀ s, s.scan.setup.h = 64 → s.scan.setup.cool = 2 → coolEnds (ending s)) ∧
      (∀ s ∈ [ending busy, ending (settling narrow .evict), ending (settling plan2 .keep), ending (settling narrow .keep)],
        s.scan.setup.h = 64 ∧ s.scan.setup.cool = 2 ∧ s.marks.reports = [] ∧ (s.port .p0).attach = .attached ∧
          (s.port .p1).attach = .attached ∧
          ∀ b ∈ [true, false], ((after (.entryIntoDark b) s).port .p1).attach = .attached) ∧
      (∀ rs, (ending (departing rs)).TableLaw ∧ (ending (departing rs)).WaitingLaw ∧
        (ending (departing rs)).layout.retiring = [.p1]) ∧
      (ending busy).TableLaw ∧ (ending busy).WaitingLaw ∧ (ending busy).layout.sealedPlan = none ∧
      (∀ q m, (ending (settling q m)).TableLaw ∧ (ending (settling q m)).WaitingLaw ∧
        (ending (settling q m)).layout.sealedPlan = some { plan := q, mode := m } ∧
        ((ending (settling q m)).port .p0).deferred = [req .planSet (planBytes 0x00 0x02)]) ∧
      narrow.entries.p0.enabled = true ∧ plan2.entries.p0.enabled = true ∧
      orphans narrow (ending (settling narrow .keep)) .p1 (some 3) ∧
      ∀ p x, ¬orphans plan2 (ending (settling plan2 .keep)) p x :=
  ⟨⟨atEnd_frameEnds _ rfl, by decide⟩, fun h => absurd h.2.2.2 (by decide), fun ⟨⟨_, h, _⟩, _⟩ => by (cases h),
    fun s h g => ⟨⟨63, rfl, h.symm⟩, rfl, rfl, by simp [ending, State.setScan, g]⟩, by decide,
    fun rs => ⟨departing_TableLaw rs, ⟨nofun, (departing_WaitingLaw rs).2⟩, rfl⟩, busy_TableLaw, ⟨nofun, busy_WaitingLaw.2⟩, rfl, fun q m => ⟨settling_TableLaw q m, ⟨nofun, (settling_WaitingLaw q m).2⟩, rfl, rfl⟩,
    rfl, rfl, settling_orphans.1, settling_orphans.2⟩

/-- The scan of port 1's regions 3 and 4 stands before the first line, before the last, and before line 10. -/
def scanAt (pos : Option Nat) : State := marked.setScan { marked.scan with pos := pos }

/-- The first and the last line of a LIVE frame, a line of a WARMING one, and a column that region 4 gives; and states
without a line start: DARK, past the last line, and with a judgement that waits. -/
theorem witness_LineStartShowsAndFires :
    let warm := (scanAt none).setScan { (scanAt none).scan with panel := .warming }
    (∀ s ∈ [scanAt none, scanAt (some 62), scanAt (some 9), warm], s.PlacementLaw ∧ frameWhole s ∧
      s.scan.panel ≠ .dark ∧ s.scan.setup.h = 64 ∧ exec .markReportsTaken s = .next s) ∧
      ((scanAt none).scan.pos = none ∧ 0 < 64) ∧ ((scanAt (some 62)).scan.pos = some 62 ∧ 62 + 1 < 64) ∧
      (scanAt (some 9)).scan.panel = .live ∧ warm.scan.panel ≠ .live ∧
      (((scanAt (some 9)).markList .p1).map fun m => (m.id, m.region, m.offset)) = [(0, 3, 6), (1, 4, 0)] ∧
      (scanAt (some 9)).slot 4 = .live .p1 .solid 1 (box 10 10 8 2) ∧
      givesPoint (scanAt (some 9)) 10 10 { id := 4, owner := .p1, kind := .solid, copy := box 10 10 8 2 } ∧
      State.reset.scan.panel = .dark ∧ frameEnds (scanAt (some 63)) ∧ ¬frameWhole (judging .locked 2 2 .empty) := by
  refine ⟨?_, by decide, by decide, by decide, by decide, by decide, by decide,
    ⟨[{ id := 3, owner := .p1, kind := .solid, copy := box 10 4 20 12 }], [], by decide, ?_, nofun⟩, by decide,
    ⟨63, rfl, rfl⟩, fun h => absurd (h.2 .p1) (by decide)⟩
  · intro s hs
    simp only [List.mem_cons, List.not_mem_nil, or_false] at hs
    rcases hs with rfl | rfl | rfl | rfl <;>
      refine ⟨fun p => ?_, ⟨by decide, fun p => by cases p <;> decide⟩, by decide, by decide, rfl⟩ <;> cases p <;>
      exact ⟨by decide, ⟨by unfold Copy.Lawful; decide, by decide⟩, nofun, nofun⟩
  · unfold showsAt; decide

theorem witness_QueueLawKept : busy.QueueLaw ∧ step busy = .next (after (.frameStart FrameWork.usual) { busy with pending := [] }) :=
  ⟨fun p => by cases p <;> exact ⟨by decide, by decide, by decide, by decide, by decide, by decide⟩, busy_steps⟩

theorem witness_WaitingLawKept : busy.WaitingLaw ∧ step busy = .next (after (.frameStart FrameWork.usual) { busy with pending := [] }) :=
  ⟨busy_WaitingLaw, busy_steps⟩

theorem busy_EnablementLaw : busy.EnablementLaw := fun p => by cases p <;> exact ⟨by decide, by decide⟩

theorem witness_PlanLawKept :
    busy.PlanLaw ∧ busy.EnablementLaw ∧ step busy = .next (after (.frameStart FrameWork.usual) { busy with pending := [] }) :=
  ⟨busy_PlanLaw, busy_EnablementLaw, busy_steps⟩

theorem witness_ScanLawKept : busy.ScanLaw ∧ step busy = .next (after (.frameStart FrameWork.usual) { busy with pending := [] }) :=
  ⟨⟨by unfold Setup.Lawful; decide, by decide, by decide, by decide, by decide, fun l h => by cases h; decide, nofun, nofun,
    fun p h => by cases p <;> exact absurd h (by decide), fun p h => by cases p <;> exact absurd h (by decide)⟩, busy_steps⟩

theorem witness_SourceLawKept : busy.SourceLaw ∧ step busy = .next (after (.frameStart FrameWork.usual) { busy with pending := [] }) :=
  ⟨fun p => by
    cases p <;>
      exact ⟨⟨by decide, by decide, by decide, nofun, trivial, nofun, fun _ => ⟨rfl, rfl, rfl⟩, fun _ => ⟨rfl, rfl, rfl, rfl⟩⟩,
        fun _ => ⟨rfl, rfl⟩⟩, busy_steps⟩

theorem witness_TableLawKept : busy.TableLaw ∧ step busy = .next (after (.frameStart FrameWork.usual) { busy with pending := [] }) :=
  ⟨busy_TableLaw, busy_steps⟩

theorem witness_PlacementLawKept :
    busy.TableLaw ∧ busy.PlanLaw ∧ busy.WaitingLaw ∧ busy.PlacementLaw ∧
      step busy = .next (after (.frameStart FrameWork.usual) { busy with pending := [] }) := by
  refine ⟨busy_TableLaw, busy_PlanLaw, busy_WaitingLaw, fun p => ?_, busy_steps⟩
  cases p <;> refine ⟨by decide, ⟨by unfold Copy.Lawful; decide, by decide⟩, ?_, nofun⟩
  · nofun
  · intro pr h; cases h; exact ⟨by unfold Copy.Lawful; decide, by decide⟩
  · nofun
  · nofun

theorem witness_MarkLawKept :
    busy.TableLaw ∧ busy.MarkLaw ∧ step busy = .next (after (.frameStart FrameWork.usual) { busy with pending := [] }) := by
  refine ⟨busy_TableLaw, fun p => ?_, busy_steps⟩
  cases p
  · exact ⟨by decide, nofun⟩
  · refine ⟨by decide, fun m hm => ?_⟩
    have h : m = { id := 0, region := 3, offset := 6, remaining := 2 } ∨
        m = { id := 1, region := 4, offset := 0, remaining := 0 } := by
      simpa [busy, atEnd, marked, State.setScan, State.markList, State.setMarkList, PerPort.get, PerPort.set] using hm
    rcases h with rfl | rfl
    · exact ⟨by decide, .inl ⟨rfl, by decide⟩⟩
    · exact ⟨by decide, .inl ⟨rfl, by decide⟩⟩
  · exact ⟨by decide, nofun⟩
  · exact ⟨by decide, nofun⟩

theorem witness_LiveStateOnlyAtCommits :
    let s := asking .publish .p1 [] editing
    s.scan.panel ≠ .dark ∧ exec (.publish .p1) s = .next (after (.publish .p1) s) ∧
      (∀ now, Instr.publish .p1 ≠ .frameStart now) ∧ (∀ b, Instr.publish .p1 ≠ .entryIntoDark b) ∧
      (∀ p, Instr.publish .p1 ≠ .restart p) ∧ Instr.publish .p1 ≠ .deviceReset :=
  ⟨by decide, rfl, nofun, nofun, nofun, nofun⟩

theorem witness_PortsAreIsolated :
    let s := asking .create .p1 [0x01] editing
    PortId.p1 ≠ .p0 ∧ PortId.p2 ≠ .p1 ∧ s.marks.reports = [] ∧ s.scan.warmWaiting = false ∧ s.layout.retiring = [] ∧
      s.layout.slots.length = 24 ∧ (∀ id ∈ (s.lay .p1).order, (s.slot id).owner? = some .p1) ∧
      (s.lay .p1).draft = some moved ∧ (∀ e ∈ moved, (s.slot e.id).owner? = some .p1) ∧
      exec (requestCommand .create .p1) s = .next (after (.create .p1) s) :=
  ⟨by decide, by decide, by decide, by decide, by decide, by decide, by decide, by decide, by decide, rfl⟩

end Sys2Proof.Tests
end

