-- ==== Sys2Proof/Proofs/ReadTable.lean ====
section
/-! PROOFS. READ-REGION and READ-ORDER (R18, R19): one lemma for each outcome of a request that is taken, and from these
the statement ReadTableAnswers. -/

namespace Sys2Proof.Machine

/-! ### What the request's leaving the queue keeps -/

@[simp] theorem State.slot_taken (p : PortId) (rest : List Request) (s : State) (i : Nat) :
    (taken p rest s).slot i = s.slot i := rfl

@[simp] theorem State.lay_taken (p : PortId) (rest : List Request) (s : State) (q : PortId) :
    (taken p rest s).lay q = s.lay q := rfl

@[simp] theorem State.frameField_taken (p : PortId) (rest : List Request) (s : State) :
    (taken p rest s).frameField = s.frameNow := s.frameField_eq_frameNow

/-! ### Codes and bytes -/

@[simp] theorem param8_cons_zero (b : Byte) (bs : List Byte) : param8 (b :: bs) 0 = b.toNat := rfl

theorem PortId.ofNat?_toNat (q : PortId) : PortId.ofNat? q.toNat = some q := by cases q <;> rfl

theorem PortId.ofNat?_of_gt {n : Nat} (h : 3 < n) : PortId.ofNat? n = none := by
  match n, h with
  | _ + 4, _ => rfl

theorem RegionKind.byte_eq_ite (k : RegionKind) : k.byte = if k = .linked then 0x00 else 0x01 := by cases k <;> rfl

theorem Loss.byte_eq_ite (l : Loss) : l.byte = if l = .hide then 0x01 else 0x00 := by cases l <;> rfl

/-- The record from offset 4 on, byte by byte: sx and sy for LINKED only (R181). -/
theorem copyBytes_eq (k : RegionKind) (c : Copy) :
    copyBytes k c = le16 c.x ++ le16 c.y ++ le16 c.w ++ le16 c.h ++
      (if k = .linked then le16 c.sx ++ le16 c.sy else []) ++
      [if c.visible then 0x01 else 0x00, if c.loss = .hide then 0x01 else 0x00, c.fill.extractLsb' 0 8,
        c.fill.extractLsb' 8 8, c.fill.extractLsb' 16 8, if c.guarded then 0x01 else 0x00] := by
  rw [← Loss.byte_eq_ite]
  cases k <;> simp [copyBytes, rgbBytes, yesNo]

/-! ### The outcomes of a request that is taken -/

section
variable {p : PortId} {r : Request} {rest : List Request} {b : Byte} {s : State}

/-- READ-REGION that is taken goes to the Layout Store. -/
theorem exec_readRegion_takes (h : Takes .readRegion p r rest s) :
    exec (.readRegion p) s = .next (readRegionBody p r (taken p rest s)) :=
  congrArg Host.Outcome.next (serve_takes h (readRegionBody p))

/-- READ-ORDER that is taken goes to the Layout Store. -/
theorem exec_readOrder_takes (h : Takes .readOrder p r rest s) :
    exec (.readOrder p) s = .next (readOrderBody p r (taken p rest s)) :=
  congrArg Host.Outcome.next (serve_takes h (readOrderBody p))

theorem exec_readRegion_range (h : Takes .readRegion p r rest s) (hb : r.params = [b]) (hi : 23 < b.toNat) :
    exec (.readRegion p) s = .next (answered p r rest .range [] s) := by
  have hi : Config.slotCount ≤ b.toNat := hi
  simp [exec_readRegion_takes h, readRegionBody, hb, hi, respond_eq_replied, answered]

theorem exec_readRegion_notOwner (h : Takes .readRegion p r rest s) (hb : r.params = [b]) (hi : b.toNat ≤ 23)
    (hp : p ≠ .p0) (ho : (s.slot b.toNat).owner? ≠ some p) :
    exec (.readRegion p) s = .next (answered p r rest .notOwner [] s) := by
  have hi : ¬Config.slotCount ≤ b.toNat := Nat.not_le.mpr (Nat.lt_succ_of_le hi)
  simp [exec_readRegion_takes h, readRegionBody, hb, hi, hp, ho, respond_eq_replied, answered]

/-- Port 0 reads every slot, another port its own (R18). -/
theorem exec_readRegion_done (h : Takes .readRegion p r rest s) (hb : r.params = [b]) (hi : b.toNat ≤ 23)
    (ho : p = .p0 ∨ (s.slot b.toNat).owner? = some p) :
    exec (.readRegion p) s = .next (answered p r rest .done (s.frameNow ++ (s.slot b.toNat).record) s) := by
  have hi : ¬Config.slotCount ≤ b.toNat := Nat.not_le.mpr (Nat.lt_succ_of_le hi)
  have ho : ¬(p ≠ .p0 ∧ (s.slot b.toNat).owner? ≠ some p) := fun hn => ho.elim hn.1 hn.2
  simp [exec_readRegion_takes h, readRegionBody, hb, hi, if_neg ho, respond_eq_replied, answered]

theorem exec_readOrder_range (h : Takes .readOrder p r rest s) (hb : r.params = [b]) (hi : 3 < b.toNat) :
    exec (.readOrder p) s = .next (answered p r rest .range [] s) := by
  simp [exec_readOrder_takes h, readOrderBody, hb, PortId.ofNat?_of_gt hi, respond_eq_replied, answered]

theorem exec_readOrder_notOwner {q : PortId} (h : Takes .readOrder p r rest s) (hb : r.params = [b])
    (hq : b.toNat = q.toNat) (hp : p ≠ .p0) (hn : q ≠ p) :
    exec (.readOrder p) s = .next (answered p r rest .notOwner [] s) := by
  simp [exec_readOrder_takes h, readOrderBody, hb, hq, PortId.ofNat?_toNat, hp, hn, respond_eq_replied, answered]

/-- Port 0 reads every order list, another port its own (R19). -/
theorem exec_readOrder_done {q : PortId} (h : Takes .readOrder p r rest s) (hb : r.params = [b])
    (hq : b.toNat = q.toNat) (ho : p = .p0 ∨ q = p) :
    exec (.readOrder p) s = .next (answered p r rest .done (s.frameNow ++ orderBytes (s.lay q).order) s) := by
  have ho : ¬(p ≠ .p0 ∧ q ≠ p) := fun hn => ho.elim hn.1 hn.2
  simp [exec_readOrder_takes h, readOrderBody, hb, hq, PortId.ofNat?_toNat, if_neg ho, respond_eq_replied, answered]

end

/-- Settles O18: each row of R18 and R19 is one outcome lemma; a DONE record is read off the slot's state. -/
theorem readTableAnswers : Obligations.ReadTableAnswers := by
  intro p r rest b s hb
  refine ⟨fun h => ⟨exec_readRegion_range h hb, fun hi => ⟨exec_readRegion_notOwner h hb hi, ?free, ?reserved, ?live⟩⟩,
    fun h => ⟨exec_readOrder_range h hb, fun q hq => ⟨exec_readOrder_notOwner h hb hq, ?order⟩⟩⟩
  case free =>
    intro hp hs
    rw [exec_readRegion_done h hb hi (.inl hp), hs]
    rfl
  case reserved =>
    intro o k hs ho
    rw [exec_readRegion_done h hb hi (ho.imp_right (by simp [hs, Slot.owner?])), hs, ← k.byte_eq_ite]
    rfl
  case live =>
    intro o k g c hs ho
    rw [exec_readRegion_done h hb hi (ho.imp_right (by simp [hs, Slot.owner?])), hs, Slot.record, copyBytes_eq,
      k.byte_eq_ite]
    simp [portByte]
  case order =>
    intro ho
    rw [exec_readOrder_done h hb hq ho]
    simp [orderBytes]

end Sys2Proof.Machine
end

