-- ==== Sys2Proof/Proofs/DraftFacts.lean ====
section
/-! PROOFS. The facts about drafts that the draft requests share (R43): parameters and codes, the checks of a region
that a draft names, the response with the edit state, and the release of RESERVED slots (R11). -/

namespace Sys2Proof.Machine

/-! ### What the request's leaving the queue keeps -/

@[simp] theorem State.entry_taken (p : PortId) (rest : List Request) (s : State) (q : PortId) :
    (taken p rest s).entry q = s.entry q := rfl

@[simp] theorem State.unit_taken (p : PortId) (rest : List Request) (s : State) (q : PortId) :
    (taken p rest s).unit q = s.unit q := rfl

@[simp] theorem State.scan_taken (p : PortId) (rest : List Request) (s : State) : (taken p rest s).scan = s.scan := rfl

@[simp] theorem ownedCount_taken (p : PortId) (rest : List Request) (s : State) (q : PortId) :
    ownedCount q (taken p rest s) = ownedCount q s := rfl

@[simp] theorem lowestFree_taken (p : PortId) (rest : List Request) (s : State) :
    lowestFree (taken p rest s) = lowestFree s := rfl

@[simp] theorem liveEntries_taken (p : PortId) (rest : List Request) (s : State) (q : PortId) :
    liveEntries q (taken p rest s) = liveEntries q s := rfl

@[simp] theorem regionFault_taken (p : PortId) (rest : List Request) (s : State) (q : PortId) (d : Proposal)
    (id : Nat) : regionFault q d id (taken p rest s) = regionFault q d id s := rfl

@[simp] theorem otherFault_taken (p : PortId) (rest : List Request) (s : State) (q : PortId) (op : OrderOp)
    (d : Proposal) (id other : Nat) :
    otherFault q op d id other (taken p rest s) = otherFault q op d id other s := rfl

/-! ### Parameters -/

@[simp] theorem param8_cons_succ (b : Byte) (bs : List Byte) (i : Nat) : param8 (b :: bs) (i + 1) = param8 bs i := rfl

/-- The two bytes of a number below 65536 give the number again. -/
theorem toNat_le16 {n : Nat} (h : n < 65536) : (byteOf n).toNat + 256 * (byteOf (n / 256)).toNat = n := by
  simp only [byteOf, BitVec.toNat_ofNat]
  omega

/-- The three bytes of a colour are blue, green and red (R179). -/
theorem ofNat_rgb (blue green red : Byte) :
    BitVec.ofNat 24 (blue.toNat + 256 * green.toNat + 65536 * red.toNat) = red ++ green ++ blue := by
  apply BitVec.eq_of_toNat_eq
  have hb := blue.isLt
  have hg := green.isLt
  have hr := red.isLt
  rw [BitVec.toNat_append, BitVec.toNat_append, ← Nat.shiftLeft_add_eq_or_of_lt hb,
    ← Nat.shiftLeft_add_eq_or_of_lt hg, Nat.shiftLeft_eq, Nat.shiftLeft_eq, BitVec.toNat_ofNat]
  omega

theorem Byte.eq_zero_or_one {b : Byte} (h : b.toNat ≤ 1) : b = 0x00 ∨ b = 0x01 := by
  have : b.toNat = 0 ∨ b.toNat = 1 := by omega
  exact this.imp BitVec.eq_of_toNat_eq BitVec.eq_of_toNat_eq

theorem RegionKind.ofByte?_of_gt {n : Nat} (h : 1 < n) : RegionKind.ofByte? n = none := by
  match n, h with
  | _ + 2, _ => rfl

theorem RegionKind.ofByte?_toNat {b : Byte} (h : b.toNat ≤ 1) :
    RegionKind.ofByte? b.toNat = some (if b = 0x00 then .linked else .solid) := by
  rcases Byte.eq_zero_or_one h with rfl | rfl <;> rfl

theorem Loss.ofByte?_of_gt {n : Nat} (h : 1 < n) : Loss.ofByte? n = none := by
  match n, h with
  | _ + 2, _ => rfl

theorem Loss.ofByte?_toNat {b : Byte} (h : b.toNat ≤ 1) :
    Loss.ofByte? b.toNat = some (if b = 0x01 then .hide else .fill) := by
  rcases Byte.eq_zero_or_one h with rfl | rfl <;> rfl

theorem yesNoOf?_of_gt {n : Nat} (h : 1 < n) : yesNoOf? n = none := by
  match n, h with
  | _ + 2, _ => rfl

theorem yesNoOf?_toNat {b : Byte} (h : b.toNat ≤ 1) : yesNoOf? b.toNat = some (b == 0x01) := by
  rcases Byte.eq_zero_or_one h with rfl | rfl <;> rfl

theorem OrderOp.ofByte?_of_gt {n : Nat} (h : 3 < n) : OrderOp.ofByte? n = none := by
  match n, h with
  | _ + 4, _ => rfl

/-! ### The ids of a proposal -/

@[simp] theorem Proposal.ids_append (a b : Proposal) : Proposal.ids (a ++ b) = a.ids ++ b.ids := List.map_append

@[simp] theorem Proposal.ids_cons (e : DraftEntry) (d : Proposal) : Proposal.ids (e :: d) = e.id :: d.ids := rfl

@[simp] theorem names_iff (d : Proposal) (id : Nat) : names d id = true ↔ id ∈ d.ids := by
  simp [names, Proposal.ids]

/-- In a proposal that names its entry e once, the others do not name it, and name each region once. -/
theorem Proposal.ids_nodup_middle {a b : Proposal} {e : DraftEntry} (h : (a ++ e :: b).ids.Nodup) :
    e.id ∉ (a ++ b).ids ∧ (a ++ b).ids.Nodup := by
  simpa [List.nodup_middle] using h

theorem find?_middle {a b : Proposal} {e : DraftEntry} (h : e.id ∉ (a ++ b).ids) :
    (a ++ e :: b).find? (fun x => x.id == e.id) = some e := by
  rw [Proposal.ids_append, List.mem_append, not_or] at h
  have ha : a.find? (fun x => x.id == e.id) = none :=
    List.find?_eq_none.mpr fun x hx he => h.1 (List.mem_map.mpr ⟨x, hx, eq_of_beq he⟩)
  simp [List.find?_append, ha]

theorem filter_middle {a b : Proposal} {e : DraftEntry} (h : e.id ∉ (a ++ b).ids) :
    (a ++ e :: b).filter (fun x => x.id != e.id) = a ++ b := by
  have keep : (a ++ b).filter (fun x => x.id != e.id) = a ++ b :=
    List.filter_eq_self.mpr fun x hx => bne_iff_ne.mpr fun he => h (List.mem_map.mpr ⟨x, hx, he⟩)
  rw [List.filter_append] at keep ⊢
  simpa using keep

/-! ### The checks of a region (R43) -/

section
variable {p : PortId} {d : Proposal} {i : Nat} {s : State}

theorem regionFault_of_gt (hi : 23 < i) : regionFault p d i s = some .range :=
  if_pos hi

theorem regionFault_of_notOwner (hi : i ≤ 23) (ho : (s.slot i).owner? ≠ some p) :
    regionFault p d i s = some .notOwner := by
  have hi : ¬Config.slotCount ≤ i := Nat.not_le.mpr (Nat.lt_succ_of_le hi)
  simp [regionFault, hi, ho]

theorem regionFault_of_unnamed (hi : i ≤ 23) (ho : (s.slot i).owner? = some p) (hd : i ∉ d.ids) :
    regionFault p d i s = some .range := by
  have hi : ¬Config.slotCount ≤ i := Nat.not_le.mpr (Nat.lt_succ_of_le hi)
  simp [regionFault, hi, ho, hd]

theorem regionFault_of_named (hi : i ≤ 23) (ho : (s.slot i).owner? = some p) (hd : i ∈ d.ids) :
    regionFault p d i s = none := by
  have hi : ¬Config.slotCount ≤ i := Nat.not_le.mpr (Nat.lt_succ_of_le hi)
  simp [regionFault, hi, ho, hd]

end

/-- Port p owns region i, and its open draft d names it: what the checks of R43 ask for. -/
structure OpenNames (p : PortId) (d : Proposal) (i : Nat) (s : State) : Prop where
  draft : (s.lay p).draft = some d
  bound : i ≤ 23
  owner : (s.slot i).owner? = some p
  named : i ∈ d.ids

section
variable {p : PortId} {r : Request} {rest : List Request} {id : Byte} {more : List Byte} {d : Proposal} {s : State}

theorem OpenNames.regionFault_eq_none {i : Nat} (hn : OpenNames p d i s) : regionFault p d i s = none :=
  regionFault_of_named hn.bound hn.owner hn.named

/-- A request on such a region goes on to its own work. -/
theorem onDraftRegion_named (work : Proposal → Nat → State → State) (hr : r.params = id :: more)
    (hn : OpenNames p d id.toNat s) :
    onDraftRegion p r work (taken p rest s) = work d id.toNat (taken p rest s) := by
  simp [onDraftRegion, hn.draft, hr, hn.regionFault_eq_none]

/-! ### The response with the edit state (R43) -/

/-- A response that leaves the drafts as they are carries the edit state as it is. -/
theorem respondEdit_taken (res : Result) (fields : List Byte) :
    respondEdit p r res fields (taken p rest s) = answered p r rest res ((s.editState p).byte :: fields) s := rfl

/-- After a change of the draft and of the region table the response carries the edit state of the port with that
draft. -/
theorem respondEdit_setDraft_setSlots (x : Option Proposal) (t : List Slot) (res : Result) (fields : List Byte) :
    respondEdit p r res fields (setDraft p x ((taken p rest s).setSlots t)) =
      withDraft p x
        { answered p r rest res ((PortLayout.editState { s.lay p with draft := x }).byte :: fields) s with
          layout := { s.layout with slots := t } } := by
  rw [respondEdit, setDraft, State.editState_setLay, if_pos rfl]
  rfl

theorem respondEdit_setDraft (x : Option Proposal) (res : Result) (fields : List Byte) :
    respondEdit p r res fields (setDraft p x (taken p rest s)) =
      withDraft p x (answered p r rest res ((PortLayout.editState { s.lay p with draft := x }).byte :: fields) s) :=
  respondEdit_setDraft_setSlots x s.layout.slots res fields

/-- One open draft for another does not change the edit state. -/
theorem editState_of_draft (hd : (s.lay p).draft = some d) (d' : Proposal) :
    PortLayout.editState { s.lay p with draft := some d' } = s.editState p := by
  simp only [State.editState, PortLayout.editState, hd]
  cases (s.lay p).sealedSet <;> rfl

/-- A request that edits the open draft and is DONE. -/
theorem respondEdit_edited (hd : (s.lay p).draft = some d) (d' : Proposal) (res : Result) (fields : List Byte) :
    respondEdit p r res fields (setDraft p (some d') (taken p rest s)) =
      withDraft p (some d') (answered p r rest res ((s.editState p).byte :: fields) s) := by
  rw [respondEdit_setDraft, editState_of_draft hd]

end

/-! ### RESERVED slots (R10, R11) -/

/-- The lowest-numbered FREE slot. -/
theorem lowestFree_eq_some {s : State} {id : Nat} (hi : id < s.layout.slots.length) (hf : s.slot id = .free)
    (hl : ∀ j < id, s.slot j ≠ .free) : lowestFree s = some id := by
  have at_slot : ∀ j (hj : j < s.layout.slots.length), s.layout.slots[j] = s.slot j := fun j hj => by
    simp [State.slot, hj]
  rw [lowestFree, List.findIdx?_eq_some_iff_getElem]
  exact ⟨hi, by simp [at_slot, hf], fun j hj => by simp [at_slot, hl j hj]⟩

theorem releaseUnnamed_slots_length (p : PortId) (s : State) :
    (releaseUnnamed p s).layout.slots.length = s.layout.slots.length :=
  mapSlotsFrom_length _ _ _

/-- The table has at each id below its length the slot with that id. -/
theorem State.slots_getElem? {s : State} {i : Nat} (hi : i < s.layout.slots.length) :
    s.layout.slots[i]? = some (s.slot i) := by
  simp [State.slot, hi]

end Sys2Proof.Machine
end

