-- ==== Sys2Proof/Proofs/DraftRequests.lean ====
section
/-! PROOFS. The requests that open, edit and drop a draft (R44 to R51): for each, what its work does on a request that
is taken, and from this its statement. -/

namespace Sys2Proof.Machine

/-! ### BEGIN (R44) -/

section
variable {p : PortId} {r : Request} {rest : List Request} {s : State}

/-- BEGIN that is taken goes to the Layout Store. -/
theorem exec_beginDraft_takes (h : Takes .beginDraft p r rest s) :
    exec (.beginDraft p) s = .next (beginBody p r (taken p rest s)) :=
  congrArg Host.Outcome.next (serve_takes h (beginBody p))

theorem exec_beginDraft_draftOpen (h : Takes .beginDraft p r rest s) (hd : (s.lay p).draft ≠ none) :
    exec (.beginDraft p) s = .next (answered p r rest .draftOpen [(s.editState p).byte] s) := by
  obtain ⟨d, hd⟩ := Option.ne_none_iff_exists'.mp hd
  simp [exec_beginDraft_takes h, beginBody, hd, respondEdit_taken]

/-- Over a waiting set the draft is its copy, and the port is SEALED_DRAFTING. -/
theorem exec_beginDraft_sealed {pr : Proposal} (h : Takes .beginDraft p r rest s) (hd : (s.lay p).draft = none)
    (hs : (s.lay p).sealedSet = some pr) :
    exec (.beginDraft p) s = .next (withDraft p (some pr) (answered p r rest .done [0x03] s)) := by
  simp [exec_beginDraft_takes h, beginBody, hd, hs, respondEdit_setDraft, PortLayout.editState, EditState.byte]

/-- Without a set the draft holds the LIVE records, and the port is DRAFTING. -/
theorem exec_beginDraft_live (h : Takes .beginDraft p r rest s) (hd : (s.lay p).draft = none)
    (hs : (s.lay p).sealedSet = none) :
    exec (.beginDraft p) s =
      .next (withDraft p (some (liveEntries p s)) (answered p r rest .done [0x01] s)) := by
  simp [exec_beginDraft_takes h, beginBody, hd, hs, respondEdit_setDraft, PortLayout.editState, EditState.byte]

end

/-- Each copy of the live entries is the record of a LIVE slot. -/
theorem liveCopy?_of_mem_liveEntries {p : PortId} {s : State} {e : DraftEntry} (he : e ∈ liveEntries p s) :
    (s.slot e.id).liveCopy? = some e.copy := by
  obtain ⟨id, -, hid⟩ := List.mem_filterMap.mp he
  obtain ⟨c, hc, rfl⟩ := Option.map_eq_some_iff.mp hid
  exact hc

/-- Where the order list holds LIVE slots only, the live entries keep it. -/
theorem ids_liveEntries {p : PortId} {s : State} (h : ∀ id ∈ (s.lay p).order, (s.slot id).liveCopy? ≠ none) :
    (liveEntries p s).ids = (s.lay p).order := by
  rw [Proposal.ids, liveEntries, List.map_filterMap]
  calc _ = (s.lay p).order.filterMap some := List.filterMap_congr fun id hid => by
        obtain ⟨c, hc⟩ := Option.ne_none_iff_exists'.mp (h id hid)
        simp [hc]
    _ = _ := List.filterMap_some

/-- Settles O21: the draft is the waiting set where one waits, else the live entries. -/
theorem beginOpensDraft : Obligations.BeginOpensDraft := fun p _ _ s h =>
  ⟨exec_beginDraft_draftOpen h, fun hd => ⟨fun _ => exec_beginDraft_sealed h hd, fun hs =>
    ⟨liveEntries p s, exec_beginDraft_live h hd hs, fun _ => liveCopy?_of_mem_liveEntries, ids_liveEntries⟩⟩⟩

/-! ### CREATE (R45) -/

section
variable {p : PortId} {r : Request} {rest : List Request} {b : Byte} {k : RegionKind} {d : Proposal} {s : State}

/-- CREATE that is taken goes to the Layout Store. -/
theorem exec_create_takes (h : Takes .create p r rest s) :
    exec (.create p) s = .next (createBody p r (taken p rest s)) :=
  congrArg Host.Outcome.next (serve_takes h (createBody p))

theorem exec_create_noDraft (h : Takes .create p r rest s) (hd : (s.lay p).draft = none) :
    exec (.create p) s = .next (answered p r rest .noDraft [(s.editState p).byte] s) := by
  simp [exec_create_takes h, createBody, hd, respondEdit_taken]

theorem exec_create_range (h : Takes .create p r rest s) (hr : r.params = [b]) (hd : (s.lay p).draft = some d)
    (hb : 1 < b.toNat) :
    exec (.create p) s = .next (answered p r rest .range [(s.editState p).byte] s) := by
  simp [exec_create_takes h, createBody, hd, hr, RegionKind.ofByte?_of_gt hb, respondEdit_taken]

theorem exec_create_quota (h : Takes .create p r rest s) (hr : r.params = [b]) (hd : (s.lay p).draft = some d)
    (hk : RegionKind.ofByte? b.toNat = some k) (hq : (s.entry p).quota ≤ ownedCount p s) :
    exec (.create p) s = .next (answered p r rest .quota [(s.editState p).byte] s) := by
  simp [exec_create_takes h, createBody, hd, hr, hk, hq, respondEdit_taken]

theorem exec_create_noSource (h : Takes .create p r rest s) (hr : r.params = [b]) (hd : (s.lay p).draft = some d)
    (hk : RegionKind.ofByte? b.toNat = some .linked) (hq : ownedCount p s < (s.entry p).quota)
    (hs : (s.unit p).sh = 0) :
    exec (.create p) s = .next (answered p r rest .noSource [(s.editState p).byte] s) := by
  simp [exec_create_takes h, createBody, hd, hr, hk, hq.not_ge, hs, respondEdit_taken]

/-- CREATE that passes its checks reserves the lowest FREE slot (R10), and the edit state stays. -/
theorem exec_create_done {id : Nat} (h : Takes .create p r rest s) (hr : r.params = [b])
    (hd : (s.lay p).draft = some d) (hk : RegionKind.ofByte? b.toNat = some k)
    (hq : ownedCount p s < (s.entry p).quota) (hs : ¬(k = .linked ∧ (s.unit p).sh = 0))
    (hl : lowestFree s = some id) :
    exec (.create p) s = .next
      (withDraft p (some (d ++ [{ id := id, copy := defaultCopy (s.entry p) }]))
        { answered p r rest .done [(s.editState p).byte, byteOf id] s with
          layout := { s.layout with slots := s.layout.slots.set id (.reserved p k) } }) := by
  have done : createBody p r (taken p rest s) =
      respondEdit p r .done [byteOf id] (reserveSlot p k id d (taken p rest s)) := by
    simp [createBody, hd, hr, hk, hq.not_ge, hl, if_neg hs]
  rw [exec_create_takes h, done, reserveSlot, respondEdit_setDraft_setSlots, editState_of_draft hd]
  rfl

end

/-- Settles O22: the checks in the order of R45; the lowest FREE slot is the one reserved. -/
theorem createReserves : Obligations.CreateReserves := by
  intro p r rest b s h hr
  refine ⟨exec_create_noDraft h, fun d hd => ⟨exec_create_range h hr hd, ?quota, ?noSource, ?done⟩⟩
  case quota =>
    intro hb hq
    exact exec_create_quota h hr hd (RegionKind.ofByte?_toNat hb) hq
  case noSource =>
    rintro rfl hq hs
    exact exec_create_noSource h hr hd rfl hq hs
  case done =>
    intro hb hq hs id hi hf hlow
    refine exec_create_done h hr hd (RegionKind.ofByte?_toNat hb) hq ?_ (lowestFree_eq_some hi hf hlow)
    rintro ⟨hk, hsh⟩
    rcases hs with rfl | hs
    · cases hk
    · exact hs hsh

/-! ### PLACE (R46) -/

section
variable {p : PortId} {r : Request} {rest : List Request} {id : Byte} {more : List Byte} {d : Proposal} {s : State}

/-- PLACE on a region that the open draft names. -/
theorem exec_place_named (h : Takes .place p r rest s) (hr : r.params = id :: more) (hn : OpenNames p d id.toNat s) :
    exec (.place p) s = .next (placeWork p r d id.toNat (taken p rest s)) :=
  congrArg Host.Outcome.next ((serve_takes h _).trans (onDraftRegion_named _ hr hn))

/-- PLACE's work on four numbers of two bytes: its one check, then the rectangle. -/
theorem placeWork_taken {x y w h : Nat} (hx : x < 65536) (hy : y < 65536) (hw : w < 65536) (hh : h < 65536)
    (hr : r.params = id :: (le16 x ++ le16 y ++ le16 w ++ le16 h)) (hd : (s.lay p).draft = some d) (i : Nat) :
    placeWork p r d i (taken p rest s) =
      if w = 0 ∨ h = 0 ∨ s.scan.setup.w < x + w ∨ s.scan.setup.h < y + h then
        answered p r rest .range [(s.editState p).byte] s
      else
        withDraft p (some (editCopy d i fun c => { c with x := x, y := y, w := w, h := h }))
          (answered p r rest .done [(s.editState p).byte] s) := by
  simp [placeWork, hr, param16, le16, toNat_le16 hx, toNat_le16 hy, toNat_le16 hw, toNat_le16 hh, respondEdit_taken,
    respondEdit_edited hd]

end

/-- Settles O23: the one check of PLACE and its work are the two branches of placeWork. -/
theorem placeSetsRectangle : Obligations.PlaceSetsRectangle := by
  intro p r rest id x y w h d s ht hx hy hw hh hr hd hi ho hm
  rw [exec_place_named ht hr ⟨hd, hi, ho, hm⟩, placeWork_taken hx hy hw hh hr hd]
  refine ⟨fun hbad => by rw [if_pos hbad], fun h1 h2 h3 h4 => ?_⟩
  rw [if_neg (by omega)]
  rfl

/-! ### SOURCE (R47) -/

section
variable {p : PortId} {r : Request} {rest : List Request} {id : Byte} {more : List Byte} {d : Proposal} {s : State}

/-- SOURCE on a region that the open draft names. -/
theorem exec_source_named (h : Takes .source p r rest s) (hr : r.params = id :: more) (hn : OpenNames p d id.toNat s) :
    exec (.source p) s = .next (sourceWork p r d id.toNat (taken p rest s)) :=
  congrArg Host.Outcome.next ((serve_takes h _).trans (onDraftRegion_named _ hr hn))

/-- SOURCE's work on two numbers of two bytes: the kind, the source frame, then the window. -/
theorem sourceWork_taken {sx sy : Nat} (hx : sx < 65536) (hy : sy < 65536)
    (hr : r.params = id :: (le16 sx ++ le16 sy)) (hd : (s.lay p).draft = some d) (i : Nat) :
    sourceWork p r d i (taken p rest s) =
      if (s.slot i).kind? = some .solid then answered p r rest .noSource [(s.editState p).byte] s
      else if (s.unit p).sw ≤ sx ∨ (s.unit p).sh ≤ sy then answered p r rest .range [(s.editState p).byte] s
      else
        withDraft p (some (editCopy d i fun c => { c with sx := sx, sy := sy }))
          (answered p r rest .done [(s.editState p).byte] s) := by
  simp [sourceWork, hr, param16, le16, toNat_le16 hx, toNat_le16 hy, respondEdit_taken, respondEdit_edited hd]

end

/-- Settles O24: each clause is one branch of sourceWork, by the kind of the region and the source frame. -/
theorem sourceSetsWindow : Obligations.SourceSetsWindow := by
  intro p r rest id sx sy d s ht hx hy hr hd hi ho hm
  rw [exec_source_named ht hr ⟨hd, hi, ho, hm⟩, sourceWork_taken hx hy hr hd]
  refine ⟨fun hk => by rw [if_pos hk], fun hk hbad => ?range, fun hk h1 h2 => ?done⟩
  case range => rw [if_neg (by simp [hk]), if_pos hbad]
  case done =>
    rw [if_neg (by simp [hk]), if_neg (by omega)]
    rfl

/-! ### STYLE (R48) -/

section
variable {p : PortId} {r : Request} {rest : List Request} {id v l blue green red g : Byte} {more : List Byte}
  {d : Proposal} {s : State}

/-- STYLE on a region that the open draft names. -/
theorem exec_style_named (h : Takes .style p r rest s) (hr : r.params = id :: more) (hn : OpenNames p d id.toNat s) :
    exec (.style p) s = .next (styleWork p r d id.toNat (taken p rest s)) :=
  congrArg Host.Outcome.next ((serve_takes h _).trans (onDraftRegion_named _ hr hn))

/-- A byte above its values is answered RANGE. -/
theorem styleWork_of_gt (hr : r.params = [id, v, l, blue, green, red, g])
    (hbad : 1 < v.toNat ∨ 1 < l.toNat ∨ 1 < g.toNat) (i : Nat) :
    styleWork p r d i (taken p rest s) = answered p r rest .range [(s.editState p).byte] s := by
  rcases hbad with hv | hl | hg
  · simp [styleWork, hr, yesNoOf?_of_gt hv, respondEdit_taken]
  · simp [styleWork, hr, Loss.ofByte?_of_gt hl, respondEdit_taken]
  · simp [styleWork, hr, yesNoOf?_of_gt hg, respondEdit_taken]

/-- STYLE's work on bytes within their values: the two checks on guarded, then the four fields. -/
theorem styleWork_taken (hr : r.params = [id, v, l, blue, green, red, g]) (hv : v.toNat ≤ 1) (hl : l.toNat ≤ 1)
    (hg : g.toNat ≤ 1) (hd : (s.lay p).draft = some d) (i : Nat) :
    styleWork p r d i (taken p rest s) =
      if g = 0x01 ∧ (v ≠ 0x01 ∨ l = 0x01) then answered p r rest .range [(s.editState p).byte] s
      else if g = 0x01 ∧ (s.entry p).guard = false then answered p r rest .guard [(s.editState p).byte] s
      else
        withDraft p (some (editCopy d i fun c =>
            { c with visible := v == 0x01, loss := if l = 0x01 then .hide else .fill, fill := red ++ green ++ blue,
                     guarded := g == 0x01 }))
          (answered p r rest .done [(s.editState p).byte] s) := by
  simp [styleWork, hr, yesNoOf?_toNat hv, Loss.ofByte?_toNat hl, yesNoOf?_toNat hg, paramColour, ofNat_rgb,
    respondEdit_taken, respondEdit_edited hd]

end

/-- Settles O25: a byte above its values fails before guarded is looked at; within them each clause is one branch of
styleWork. -/
theorem styleSetsFields : Obligations.StyleSetsFields := by
  intro p r rest id v l blue green red g d s ht hr hd hi ho hm
  rw [exec_style_named ht hr ⟨hd, hi, ho, hm⟩]
  refine ⟨fun hbad => ?range, ?guard, ?done⟩
  case range =>
    by_cases hgt : 1 < v.toNat ∨ 1 < l.toNat ∨ 1 < g.toNat
    · rw [styleWork_of_gt hr hgt]
    · simp only [not_or, Nat.not_lt] at hgt
      obtain ⟨hv, hl, hg⟩ := hgt
      rw [styleWork_taken hr hv hl hg hd, if_pos]
      rcases hbad with h | h | h | ⟨rfl, rfl⟩ | ⟨rfl, rfl⟩
      · omega
      · omega
      · omega
      · exact ⟨rfl, .inl (by decide)⟩
      · exact ⟨rfl, .inr rfl⟩
  case guard =>
    rintro rfl rfl rfl hgd
    rw [styleWork_taken hr (by decide) (by decide) (by decide) hd, if_neg (by decide), if_pos ⟨rfl, hgd⟩]
  case done =>
    rintro hv hl (rfl | ⟨rfl, rfl, rfl, hgd⟩)
    · rw [styleWork_taken hr hv hl (by decide) hd, if_neg (by simp), if_neg (by simp)]
      rfl
    · rw [styleWork_taken hr hv hl (by decide) hd, if_neg (by decide), if_neg (by simp [hgd])]
      rfl

/-! ### ORDER (R49) -/

/-- The entry goes directly above or below the first entry of the other region. -/
theorem insertBeside_middle (above : Bool) (e : DraftEntry) {o : DraftEntry} {c : Proposal} (f : Proposal)
    (hc : o.id ∉ c.ids) :
    insertBeside above o.id e (c ++ o :: f) = c ++ (if above then [o, e] else [e, o]) ++ f := by
  induction c with
  | nil => cases above <;> simp [insertBeside]
  | cons x c ih =>
    rw [Proposal.ids_cons, List.mem_cons, not_or] at hc
    simp [insertBeside, Ne.symm hc.1, ih hc.2]

section
variable {a b : Proposal} {e : DraftEntry}

theorem moveEntry_top (h : e.id ∉ (a ++ b).ids) (other : Nat) :
    moveEntry .top e.id other (a ++ e :: b) = a ++ b ++ [e] := by
  simp only [moveEntry, find?_middle h, filter_middle h]

theorem moveEntry_bottom (h : e.id ∉ (a ++ b).ids) (other : Nat) :
    moveEntry .bottom e.id other (a ++ e :: b) = e :: (a ++ b) := by
  simp only [moveEntry, find?_middle h, filter_middle h]

theorem moveEntry_above {c f : Proposal} {o : DraftEntry} (h : e.id ∉ (a ++ b).ids) (hs : a ++ b = c ++ o :: f)
    (hc : o.id ∉ c.ids) : moveEntry .above e.id o.id (a ++ e :: b) = c ++ [o, e] ++ f := by
  simp only [moveEntry, find?_middle h, filter_middle h, hs, insertBeside_middle true e f hc, if_true]

theorem moveEntry_below {c f : Proposal} {o : DraftEntry} (h : e.id ∉ (a ++ b).ids) (hs : a ++ b = c ++ o :: f)
    (hc : o.id ∉ c.ids) : moveEntry .below e.id o.id (a ++ e :: b) = c ++ [e, o] ++ f := by
  simp only [moveEntry, find?_middle h, filter_middle h, hs, insertBeside_middle false e f hc, Bool.false_eq_true,
    if_false]

end

section
variable {p : PortId} {d : Proposal} {i j : Nat} {op : OrderOp} {s : State}

/-- TOP and BOTTOM do not look at the other region. -/
theorem otherFault_ends (ho : op = .top ∨ op = .bottom) : otherFault p op d i j s = none := by
  rcases ho with rfl | rfl <;> rfl

theorem otherFault_of_fault {res : Result} (ho : op = .above ∨ op = .below) (hf : regionFault p d j s = some res) :
    otherFault p op d i j s = some res := by
  rcases ho with rfl | rfl <;> simp [otherFault, hf]

theorem otherFault_self (ho : op = .above ∨ op = .below) (hn : OpenNames p d i s) :
    otherFault p op d i i s = some .range := by
  rcases ho with rfl | rfl <;> simp [otherFault, hn.regionFault_eq_none]

theorem otherFault_of_named (ho : op = .above ∨ op = .below) (hn : OpenNames p d j s) (hj : j ≠ i) :
    otherFault p op d i j s = none := by
  rcases ho with rfl | rfl <;> simp [otherFault, hn.regionFault_eq_none, hj]

end

section
variable {p : PortId} {r : Request} {rest : List Request} {id b other : Byte} {more : List Byte} {op : OrderOp}
  {d : Proposal} {s : State}

/-- ORDER on a region that the open draft names. -/
theorem exec_order_named (h : Takes .order p r rest s) (hr : r.params = id :: more) (hn : OpenNames p d id.toNat s) :
    exec (.order p) s = .next (orderWork p r d id.toNat (taken p rest s)) :=
  congrArg Host.Outcome.next ((serve_takes h _).trans (onDraftRegion_named _ hr hn))

theorem exec_order_badOp (h : Takes .order p r rest s) (hr : r.params = [id, b, other])
    (hn : OpenNames p d id.toNat s) (hb : 3 < b.toNat) :
    exec (.order p) s = .next (answered p r rest .range [(s.editState p).byte] s) := by
  simp [exec_order_named h hr hn, orderWork, hr, OrderOp.ofByte?_of_gt hb, respondEdit_taken]

theorem exec_order_fault {res : Result} (h : Takes .order p r rest s) (hr : r.params = [id, b, other])
    (hn : OpenNames p d id.toNat s) (hb : OrderOp.ofByte? b.toNat = some op)
    (hf : otherFault p op d id.toNat other.toNat s = some res) :
    exec (.order p) s = .next (answered p r rest res [(s.editState p).byte] s) := by
  simp [exec_order_named h hr hn, orderWork, hr, hb, hf, respondEdit_taken]

theorem exec_order_done (h : Takes .order p r rest s) (hr : r.params = [id, b, other])
    (hn : OpenNames p d id.toNat s) (hb : OrderOp.ofByte? b.toNat = some op)
    (hf : otherFault p op d id.toNat other.toNat s = none) :
    exec (.order p) s = .next
      (withDraft p (some (moveEntry op id.toNat other.toNat d))
        (answered p r rest .done [(s.editState p).byte] s)) := by
  simp [exec_order_named h hr hn, orderWork, hr, hb, hf, respondEdit_edited hn.draft]

end

/-- The ops that look at another region. -/
theorem OrderOp.ofByte?_beside {b : Byte} (h : b = 0x02 ∨ b = 0x03) :
    ∃ op, OrderOp.ofByte? b.toNat = some op ∧ (op = .above ∨ op = .below) := by
  rcases h with rfl | rfl
  · exact ⟨.above, rfl, .inl rfl⟩
  · exact ⟨.below, rfl, .inr rfl⟩

/-- Settles O26: the region is taken out of its place, the one at which the list names it, and the checks of the other
region are those of R43 and that it is another. -/
theorem orderMoves : Obligations.OrderMoves := by
  intro p r rest id op other a b e s ht hr hd hnd he hi ho
  obtain ⟨hout, hrest⟩ := Proposal.ids_nodup_middle hnd
  have hn : OpenNames p (a ++ e :: b) id.toNat s := ⟨hd, hi, ho, by simp [he]⟩
  refine ⟨exec_order_badOp ht hr hn, ?top, ?bottom, fun hop => ⟨?self, ?foreign, ?unnamed, ?beside⟩⟩
  case top =>
    rintro rfl
    rw [exec_order_done ht hr hn rfl (otherFault_ends (.inl rfl)), ← he, moveEntry_top hout]
  case bottom =>
    rintro rfl
    rw [exec_order_done ht hr hn rfl (otherFault_ends (.inr rfl)), ← he, moveEntry_bottom hout]
  case self =>
    obtain ⟨o, hb, hbeside⟩ := OrderOp.ofByte?_beside hop
    rintro (hgt | rfl)
    · exact exec_order_fault ht hr hn hb (otherFault_of_fault hbeside (regionFault_of_gt hgt))
    · exact exec_order_fault ht hr hn hb (otherFault_self hbeside hn)
  case foreign =>
    intro hj hjo
    obtain ⟨o, hb, hbeside⟩ := OrderOp.ofByte?_beside hop
    exact exec_order_fault ht hr hn hb (otherFault_of_fault hbeside (regionFault_of_notOwner hj hjo))
  case unnamed =>
    intro hj hjo hjd
    obtain ⟨o, hb, hbeside⟩ := OrderOp.ofByte?_beside hop
    exact exec_order_fault ht hr hn hb (otherFault_of_fault hbeside (regionFault_of_unnamed hj hjo hjd))
  case beside =>
    intro c f o hs hoid hj hjo
    have hmem : o.id ∈ (a ++ b).ids := by simp [hs]
    have hne : o.id ≠ e.id := fun h => hout (h ▸ hmem)
    have hc : o.id ∉ c.ids := by
      rw [hs] at hrest
      exact fun h => (Proposal.ids_nodup_middle hrest).1 (by simp [h])
    have hjn : OpenNames p (a ++ e :: b) other.toNat s := by
      refine ⟨hd, hj, hjo, hoid ▸ ?_⟩
      simp only [Proposal.ids_append, Proposal.ids_cons, List.mem_append, List.mem_cons] at hmem ⊢
      exact hmem.imp_right .inr
    have hji : other.toNat ≠ id.toNat := by rwa [← hoid, ← he]
    constructor
    · rintro rfl
      rw [exec_order_done ht hr hn rfl (otherFault_of_named (.inl rfl) hjn hji), ← he, ← hoid,
        moveEntry_above hout hs hc]
    · rintro rfl
      rw [exec_order_done ht hr hn rfl (otherFault_of_named (.inr rfl) hjn hji), ← he, ← hoid,
        moveEntry_below hout hs hc]

/-! ### RETIRE and DISCARD (R50, R51, R11) -/

/-- The region table after the draft of port p became x and the unnamed RESERVED slots were released. -/
def releasedSlots (p : PortId) (x : Option Proposal) (s : State) : List Slot :=
  (releaseUnnamed p (setDraft p x s)).layout.slots

theorem releasedSlots_length (p : PortId) (x : Option Proposal) (s : State) :
    (releasedSlots p x s).length = s.layout.slots.length :=
  releaseUnnamed_slots_length _ _

/-- A RESERVED slot of the port that neither the draft nor the set names is FREE in it, every other slot stays. -/
theorem releasedSlots_getElem? (p : PortId) (x : Option Proposal) (s : State) {i : Nat}
    (hi : i < (releasedSlots p x s).length) :
    (releasedSlots p x s)[i]? = some
      (if (s.slot i).reservedOf p = true ∧ optNames x i = false ∧ optNames (s.lay p).sealedSet i = false then .free
        else s.slot i) := by
  rw [releasedSlots, State.slots_getElem? hi, slot_releaseUnnamed]
  simp [setDraft]

section
variable {p : PortId} {r : Request} {rest : List Request} {id : Byte} {d : Proposal} {s : State}

/-- The release after a change of the draft changes nothing but that and the region table. -/
theorem releaseUnnamed_setDraft_taken (x : Option Proposal) :
    releaseUnnamed p (setDraft p x (taken p rest s)) =
      setDraft p x ((taken p rest s).setSlots (releasedSlots p x s)) := rfl

/-- RETIRE on a region that the open draft names. -/
theorem exec_retire_named (h : Takes .retire p r rest s) (hr : r.params = [id]) (hn : OpenNames p d id.toNat s) :
    exec (.retire p) s = .next (retireWork p r d id.toNat (taken p rest s)) :=
  congrArg Host.Outcome.next ((serve_takes h _).trans (onDraftRegion_named _ hr hn))

/-- DISCARD that is taken goes to the Layout Store. -/
theorem exec_discard_takes (h : Takes .discard p r rest s) :
    exec (.discard p) s = .next (discardBody p r (taken p rest s)) :=
  congrArg Host.Outcome.next (serve_takes h (discardBody p))

theorem exec_discard_noDraft (h : Takes .discard p r rest s) (hd : (s.lay p).draft = none) :
    exec (.discard p) s = .next (answered p r rest .noDraft [(s.editState p).byte] s) := by
  simp [exec_discard_takes h, discardBody, hd, respondEdit_taken]

theorem exec_discard_draft (h : Takes .discard p r rest s) (hd : (s.lay p).draft ≠ none) :
    exec (.discard p) s = .next (respondEdit p r .done [] (releaseUnnamed p (setDraft p none (taken p rest s)))) := by
  obtain ⟨d, hd⟩ := Option.ne_none_iff_exists'.mp hd
  simp [exec_discard_takes h, discardBody, hd]

end

/-- Settles O27: both requests replace the draft and release what nothing names any more. -/
theorem retireAndDiscard : Obligations.RetireAndDiscard := by
  intro p r rest s after freed
  have released (x : Option Proposal) : freed x (releasedSlots p x s) :=
    ⟨releasedSlots_length p x s, fun _ hi => releasedSlots_getElem? p x s hi⟩
  have answer (x : Option Proposal) :
      respondEdit p r .done [] (releaseUnnamed p (setDraft p x (taken p rest s))) = after x (releasedSlots p x s) := by
    rw [releaseUnnamed_setDraft_taken, respondEdit_setDraft_setSlots]
    simp only [after, PortLayout.editState]
    cases x <;> cases (s.lay p).sealedSet <;> rfl
  refine ⟨fun d id h hr hd hi ho hm => ⟨_, released _, ?retire⟩,
    fun h => ⟨fun hd => ⟨_, released _, ?discard⟩, exec_discard_noDraft h⟩⟩
  case retire =>
    rw [exec_retire_named h hr ⟨hd, hi, ho, hm⟩, ← answer]
    simp only [retireWork, bne, beq_eq_decide, ← decide_not, ne_eq]
  case discard => rw [exec_discard_draft h hd, answer]

end Sys2Proof.Machine
end

