-- ==== Sys2Proof/Proofs/ReadPlan.lean ====
section
/-! PROOFS. READ-PLAN (R105): the fields it reads from the Layout Store, byte by byte (R182), and from these the
statement ReadPlanAnswers. -/

namespace Sys2Proof.Machine

/-! ### The bytes of a plan -/

/-- A waiting plan is indicated by its mode (R105). -/
theorem sealedIndication_some (sp : SealedPlan) :
    sealedIndication (some sp) = if sp.mode = .keep then 0x01 else 0x02 := by
  obtain ⟨_, mode⟩ := sp
  cases mode <;> rfl

/-- The eleven fields of an entry, the lock count above the tolerance in the last byte (R182). -/
theorem PlanEntry.bytes_eq (e : PlanEntry) :
    e.bytes = [if e.enabled then 0x01 else 0x00] ++ le16 e.tx ++ le16 e.ty ++ le16 e.tw ++ le16 e.th ++
      [byteOf e.quota, byteOf e.share, byteOf e.rank, if e.guard then 0x01 else 0x00,
        byteOf (16 * e.lockCount + e.tolerance)] := rfl

/-- The fields of READ-PLAN, from the four entries of the live plan. -/
theorem readPlanFields_eq (s : State) :
    readPlanFields s = s.frameNow ++ [sealedIndication s.layout.sealedPlan] ++ rgbBytes s.layout.plan.background ++
      (s.entry .p0).bytes ++ (s.entry .p1).bytes ++ (s.entry .p2).bytes ++ (s.entry .p3).bytes := by
  rw [← s.frameField_eq_frameNow]
  rfl

/-- The fields do not depend on the queues. -/
@[simp] theorem readPlanFields_taken (p : PortId) (rest : List Request) (s : State) :
    readPlanFields (taken p rest s) = readPlanFields s := rfl

/-! ### The request -/

/-- READ-PLAN that is taken has one outcome. -/
theorem exec_readPlan_takes {p : PortId} {r : Request} {rest : List Request} {s : State}
    (h : Takes .readPlan p r rest s) :
    exec (.readPlan p) s = .next (answered p r rest .done (readPlanFields s) s) := by
  have served : exec (.readPlan p) s = .next (readPlanBody p r (taken p rest s)) :=
    congrArg Host.Outcome.next (serve_takes h (readPlanBody p))
  simp [served, readPlanBody, respond_eq_replied, answered]

/-- Settles O31: the one outcome of the request, its fields read off the live plan; the indication goes by whether a plan
waits. -/
theorem readPlanAnswers : Obligations.ReadPlanAnswers := by
  intro p r rest s h entry
  have entries (e : PlanEntry) : e.bytes = entry e := e.bytes_eq
  rw [exec_readPlan_takes h, readPlanFields_eq]
  simp only [entries, rgbBytes]
  cases s.layout.sealedPlan with
  | none => rfl
  | some sp => rw [sealedIndication_some]

end Sys2Proof.Machine
end

