-- ==== Sys2Proof/Proofs/ResetAndQueue.lean ====
section
/-! PROOFS. The queue of commands, device reset, and the laws right after it; the universal results of the engine. -/

namespace Sys2Proof.Machine

/-- Settles O1: the queue's front is what step matches on. -/
theorem stepRunsFront : Obligations.StepRunsFront := fun _ _ _ => rfl

/-! ### Device reset (R152, R172) -/

/-- A link after device reset: idle where it was, else abandoned (R172). -/
theorem Link.afterReset_eq (l : Link) :
    l.afterReset = { state := if l.state = .idle then .idle else .abandoned, dout := [] } := by
  unfold Link.afterReset
  cases l.state <;> rfl

/-- Settles O3: the reset values are the model's, and only the links ask for a case split. -/
theorem deviceResetValues : Obligations.DeviceResetValues := by
  intro s
  simp only [exec, execDeviceReset, Link.afterReset_eq]
  rfl

/-! ### The laws right after device reset -/

theorem reset_QueueLaw : State.reset.QueueLaw := fun p => by
  cases p <;> exact ⟨by decide, by decide, by decide, by decide, nofun, fun _ => rfl⟩

theorem reset_WaitingLaw : State.reset.WaitingLaw :=
  ⟨fun _ => ⟨rfl, rfl, fun p => by cases p <;> rfl⟩, fun p => by cases p <;> exact ⟨by decide, by decide, by decide, nofun⟩⟩

theorem Setup.reset_Lawful : Setup.reset.Lawful := by unfold Setup.Lawful; decide

/-- The default plan is lawful for every panel with an active area (R89, R90). -/
theorem Plan.default_Lawful {w h : Nat} (hw : 1 ≤ w) (hh : 1 ≤ h) : (Plan.default w h).Lawful w h := by
  refine ⟨rfl, by simp [Plan.sum, Plan.default, PlanEntry.defaultZero, PlanEntry.defaultOther],
    by simp [Plan.sum, Plan.default, PlanEntry.defaultZero, PlanEntry.defaultOther], fun p => ?entries, fun r hr => ?ranks⟩
  case entries =>
    cases p <;>
      simp [PlanEntry.Lawful, Plan.default, PerPort.get, PlanEntry.defaultZero, PlanEntry.defaultOther, hw, hh]
  case ranks =>
    match r, hr with
    | 0, _ => exact ⟨.p1, rfl⟩
    | 1, _ => exact ⟨.p2, rfl⟩
    | 2, _ => exact ⟨.p3, rfl⟩
    | 3, _ => exact ⟨.p0, rfl⟩

theorem reset_PlanLaw : State.reset.PlanLaw :=
  ⟨Setup.reset_Lawful, Plan.default_Lawful (by decide) (by decide), nofun⟩

theorem reset_EnablementLaw : State.reset.EnablementLaw := fun p => by cases p <;> exact ⟨by decide, by decide⟩

theorem reset_ScanLaw : State.reset.ScanLaw :=
  ⟨Setup.reset_Lawful, by decide, by decide, fun _ => ⟨rfl, rfl⟩, fun _ => ⟨rfl, rfl⟩, nofun, fun _ => ⟨rfl, rfl⟩, nofun,
    fun p h => by cases p <;> exact absurd h (by decide), fun p h => by cases p <;> exact absurd h (by decide)⟩

/-- A unit after reset obeys the source law under every attach state but ATTACHED and LEAVING asks no more. -/
theorem SourceUnit.reset_SourceLaw (a : Attach) : SourceUnit.reset.SourceLaw a :=
  ⟨by decide, by decide, by decide, nofun, trivial, nofun, fun _ => ⟨rfl, rfl, rfl⟩, fun _ => ⟨rfl, rfl, rfl, rfl⟩⟩

theorem reset_SourceLaw : State.reset.SourceLaw := fun p => by
  cases p <;> exact ⟨SourceUnit.reset_SourceLaw _, fun _ => ⟨rfl, rfl⟩⟩

theorem reset_TableLaw : State.reset.TableLaw := by
  refine ⟨rfl, by decide, fun p => ?_⟩
  cases p <;>
    exact ⟨by decide, nofun, by decide, nofun, nofun, by decide, nofun, fun _ => ⟨rfl, rfl⟩, fun _ _ => rfl, by decide⟩

theorem reset_PlacementLaw : State.reset.PlacementLaw := fun p => by
  cases p <;> exact ⟨by decide, ⟨nofun, fun l _ => Nat.zero_le _⟩, nofun, nofun⟩

theorem reset_MarkLaw : State.reset.MarkLaw := fun p => by cases p <;> exact ⟨by decide, nofun⟩

/-- Settles O58: the nine laws, one lemma each. -/
theorem lawsHoldAtReset : Obligations.LawsHoldAtReset :=
  ⟨reset_QueueLaw, reset_WaitingLaw, reset_PlanLaw, reset_EnablementLaw, reset_ScanLaw, reset_SourceLaw, reset_TableLaw,
    reset_PlacementLaw, reset_MarkLaw⟩

/-! ### The universal results (R156) -/

/-- Every request command is a serving of its kind. -/
theorem exec_requestCommand (k : RequestKind) (p : PortId) (s : State) :
    ∃ blocks body, exec (requestCommand k p) s = .next (serve k p blocks body s) := by
  cases k <;> exact ⟨_, _, rfl⟩

section
variable {p : PortId} {r : Request} {rest : List Request} {s : State}

/-- The head of the queue of a READY engine of a DETACHED or ATTACHED port can be taken. -/
theorem headOf_eq (he : (s.port p).engine = .ready) (ha : (s.port p).attach = .detached ∨ (s.port p).attach = .attached)
    (hq : (s.port p).requests = r :: rest) : headOf p s = some r := by
  rcases ha with ha | ha <;> simp [headOf, he, ha, hq, Attach.acceptsWrites]

/-- A request of the kind that receives a universal result is answered, and nothing else changes. -/
theorem serve_universal {k : RequestKind} {res : Result} {blocks : Bool} {body : Request → State → State}
    (hh : headOf p s = some r) (hq : (s.port p).requests = r :: rest) (hc : r.code = k.code)
    (hu : universalResult k p (s.port p).attach r = some res) :
    serve k p blocks body s = answered p r rest res [] s := by
  simp [serve, hh, hc, hu, dropHead_eq_taken hq, respond_eq_replied, answered]

/-- A code that no request has is in no row of the table. -/
theorem RequestKind.ofCode?_eq_none {c : Byte} (h : ∀ k : RequestKind, c ≠ k.code) : RequestKind.ofCode? c = none := by
  rw [RequestKind.ofCode?, List.find?_eq_none]
  intro k _ hk
  exact h k (eq_of_beq hk).symm
end

/-- Settles O11: each universal result is read off universalResult, whichever body the request has. -/
theorem universalResults : Obligations.UniversalResults := by
  intro p r rest s he ha hq
  have hh := headOf_eq he ha hq
  refine ⟨fun hk => ?unknown, fun k c now hcmd hc => ?known⟩
  case unknown =>
    simp [exec, execUnknownCode, hh, RequestKind.ofCode?_eq_none hk, dropHead_eq_taken hq, respond_eq_replied, answered]
  case known =>
    have served : ∃ blocks body, exec c s = .next (serve k p blocks body s) := by
      rcases hcmd with rfl | ⟨rfl, rfl⟩
      · exact exec_requestCommand k p s
      · exact ⟨_, _, rfl⟩
    obtain ⟨blocks, body, hex⟩ := served
    rw [hex]
    refine ⟨fun hl => ?_, fun hl hd hk => ?_, fun hl hd hp hk => ?_⟩ <;>
      refine congrArg Host.Outcome.next (serve_universal hh hq hc ?_)
    · simp [universalResult, hl]
    · simp [universalResult, hl, hd, hk]
    · have hplan : k.planPort = true := by
        simp only [List.mem_cons, List.not_mem_nil, or_false] at hk
        rcases hk with rfl | rfl | rfl | rfl | rfl | rfl <;> rfl
      simp [universalResult, hl, hd, hp, hplan]

/-! ### HELLO (R162, R122) -/

section
variable {p : PortId} {r : Request} {rest : List Request} {sw sh : Nat} {s : State}

/-- HELLO passes the universal checks also while DETACHED (R156). -/
theorem exec_hello_taken (he : (s.port p).engine = .ready)
    (ha : (s.port p).attach = .detached ∨ (s.port p).attach = .attached) (hq : (s.port p).requests = r :: rest)
    (hc : r.code = 0x01) (hl : r.params.length = 4) : exec (.hello p) s = .next (helloBody p r (taken p rest s)) := by
  have hu : universalResult .hello p (s.port p).attach r = none := by
    simp [universalResult, hl, RequestKind.length, RequestKind.planPort]
  have hk : r.code = RequestKind.hello.code := hc
  simp [exec, execHello, serve, headOf_eq he ha hq, hk, hu, dropHead_eq_taken hq]

@[simp] theorem attach_taken : ((taken p rest s).port p).attach = (s.port p).attach := by
  simp [taken, State.port]

@[simp] theorem param16_le16_zero (h : sw < 65536) (bs : List Byte) : param16 (le16 sw ++ bs) 0 = sw := toNat_le16 h

@[simp] theorem param16_le16_two (h : sh < 65536) : param16 (le16 sw ++ le16 sh) 2 = sh := toNat_le16 h

/-- The sizes that HELLO and SOURCE-FORMAT take (R122, R123). -/
theorem sizeOk_iff : sizeOk sw sh = true ↔ 1 ≤ sw ∧ sw ≤ 1024 ∧ sh ≤ 1024 ∧ sw * sh ≤ 262144 := by
  simp only [sizeOk, Bool.and_eq_true, decide_eq_true_eq, and_assoc]
  rfl
end

/-- Settles O12: DONE, RANGE and ALREADY by the attach state and the size. -/
theorem helloAttaches : Obligations.HelloAttaches := by
  intro p r rest sw sh s hw hh he hq hc hps
  have hl : r.params.length = 4 := by simp [hps, le16]
  have sizes : param16 r.params 0 = sw ∧ param16 r.params 2 = sh :=
    ⟨by rw [hps, param16_le16_zero hw], by rw [hps, param16_le16_two hh]⟩
  have hello := fun ha => exec_hello_taken he ha hq hc hl
  refine ⟨fun ha h1 h2 h3 h4 => ?done, fun ha hn => ?range, fun ha => ?already⟩
  case done =>
    rw [hello (.inl ha), helloBody, if_neg (by simp [ha]), sizes.1, sizes.2, if_pos (sizeOk_iff.mpr ⟨h1, h2, h3, h4⟩)]
    simp only [helloFields, State.frameField_eq_frameNow, Machine.attach]
    simp [respond_eq_replied, State.setPort, State.setUnit, taken, State.port, State.unit, replied, State.frameNow,
      State.frameLow, State.frameHigh, portByte]
  case range =>
    rw [hello (.inl ha), helloBody, if_neg (by simp [ha]), sizes.1, sizes.2, if_neg (fun h => hn (sizeOk_iff.mp h))]
    rfl
  case already =>
    rw [hello (.inr ha), helloBody, if_pos (by simp [ha]), helloFields, State.frameField_taken]
    rfl

end Sys2Proof.Machine
end

