-- ==== Sys2Proof/Proofs/Link.lean ====
section
/-! PROOFS. The command link (10): for each of the five transactions what a lot of bytes does to a transaction under way,
and what chip select rising does; from these the statements on whole transactions and on transactions in parts. -/

namespace Sys2Proof.Machine

/-! ### Frames -/

@[simp] theorem byteSum_append_checkByte (bs : List Byte) : byteSum (bs ++ [checkByte bs]) = 0x00 := by
  simp [byteSum, checkByte]

theorem byteSum_withCheck (bs : List Byte) : byteSum (withCheck bs) = 0x00 := byteSum_append_checkByte bs

/-- A request frame: the three bytes before the parameters, the parameters, the check byte (R174). -/
theorem Request.frame_eq (r : Request) :
    r.frame = [r.tag, r.code, byteOf r.params.length] ++ r.params ++
      [checkByte ([r.tag, r.code, byteOf r.params.length] ++ r.params)] := rfl

@[simp] theorem Request.frame_length (r : Request) : r.frame.length = r.params.length + 4 := by
  simp [Request.frame, withCheck]

/-- The record of a request frame is the request. -/
theorem requestOf_frame (r : Request) : requestOf r.frame = r := by
  simp [requestOf, Request.frame, withCheck, List.getD]

theorem toNat_byteOf {n : Nat} (h : n < 256) : (byteOf n).toNat = n := by
  simp only [byteOf, BitVec.toNat_ofNat]
  omega

/-- The bytes that a transaction of L bytes clocks out of a fixed frame from place n on: the frame, then 00h. -/
def sentBytes (f : List Byte) (n L : Nat) : List Byte := (List.range L).map fun i => f.getD (n + i) 0x00

theorem sentBytes_succ (f : List Byte) (n L : Nat) :
    sentBytes f n (L + 1) = f.getD n 0x00 :: sentBytes f (n + 1) L := by
  simp only [sentBytes, List.range_succ_eq_map, List.map_cons, List.map_map, Nat.add_zero, List.cons.injEq, true_and]
  exact List.map_congr_left fun i _ => by simp [Nat.add_assoc, Nat.add_comm 1 i]

/-- A transaction that reaches the frame's end sends the whole frame. -/
theorem sentBytes_of_le {f : List Byte} {L : Nat} (h : f.length ≤ L) :
    sentBytes f 0 L = f ++ List.replicate (L - f.length) 0x00 := by
  refine List.ext_getElem (by simp [sentBytes]; omega) fun i h1 h2 => ?_
  simp only [sentBytes, List.getElem_map, List.getElem_range, Nat.zero_add, List.getD_eq_getElem?_getD]
  by_cases hi : i < f.length
  · simp [List.getElem_append_left hi, List.getElem?_eq_getElem hi]
  · simp [List.getElem_append_right (Nat.le_of_not_lt hi), List.getElem?_eq_none (Nat.le_of_not_lt hi)]

/-- A shorter one sends its first bytes. -/
theorem sentBytes_of_ge {f : List Byte} {L : Nat} (h : L ≤ f.length) : sentBytes f 0 L = f.take L := by
  refine List.ext_getElem (by simp [sentBytes]; omega) fun i h1 h2 => ?_
  have hi : i < f.length := by simp [sentBytes] at h1; omega
  simp [sentBytes, List.getD_eq_getElem?_getD, List.getElem?_eq_getElem hi]

/-- A frame of 00h sends 00h. -/
theorem sentBytes_zero (m L : Nat) : sentBytes (List.replicate m 0x00) 0 L = List.replicate L 0x00 := by
  refine List.ext_getElem (by simp [sentBytes]) fun i h1 h2 => ?_
  simp only [sentBytes, List.getElem_map, List.getElem_range, List.getD_eq_getElem?_getD, List.getElem_replicate,
    List.getElem?_replicate]
  split <;> rfl

/-! ### What a lot of bytes does -/

section
variable (p : PortId) (c : PortController) (out bs : List Byte) (s : State)

/-- A lot of bytes of a READ_RESPONSE. -/
theorem foldl_clockResponse (f : List Byte) (carries : Bool) (n : Nat) :
    bs.foldl (clockResponse p) (midTransaction p c (.sendingResponse f carries n) out s) =
      midTransaction p c (.sendingResponse f carries (n + bs.length)) (out ++ sentBytes f n bs.length) s := by
  induction bs generalizing n out with
  | nil => simp [sentBytes]
  | cons b bs ih =>
    simp [clockResponse, ih, sentBytes_succ, Nat.add_assoc, Nat.add_comm 1]

/-- A lot of bytes of a READ_NOTICE. -/
theorem foldl_clockNotice (f : List Byte) (carries : Option Nat) (n : Nat) :
    bs.foldl (clockNotice p) (midTransaction p c (.sendingNotice f carries n) out s) =
      midTransaction p c (.sendingNotice f carries (n + bs.length)) (out ++ sentBytes f n bs.length) s := by
  induction bs generalizing n out with
  | nil => simp [sentBytes]
  | cons b bs ih =>
    simp [clockNotice, ih, sentBytes_succ, Nat.add_assoc, Nat.add_comm 1]

/-- A lot of bytes of a STATUS transaction whose refusal reason has gone out. -/
theorem foldl_clockStatusByte (h : c.refusal = .none) :
    bs.foldl (clockStatusByte p) (midTransaction p c .sendingStatus out s) =
      midTransaction p c .sendingStatus (out ++ List.replicate bs.length c.statusByte) s := by
  have hc : ({ c with refusal := .none } : PortController) = c := by rw [← h]
  induction bs generalizing out with
  | nil => simp
  | cons b bs ih => simp [clockStatusByte, hc, ih, List.replicate_succ]

/-- A lot of bytes that are ignored. -/
theorem foldl_clockIgnored :
    bs.foldl (clockIgnored p) (midTransaction p c .ignoring out s) =
      midTransaction p c .ignoring (out ++ List.replicate bs.length 0x00) s := by
  induction bs generalizing out with
  | nil => simp
  | cons b bs ih => simp [clockIgnored, ih, List.replicate_succ]

/-- A lot of bytes behind the end of a request frame. -/
theorem foldl_clockWrite_ended (taken : List Byte) :
    bs.foldl (clockWrite p) (midTransaction p c (.writing taken true) out s) =
      midTransaction p c (.writing taken true) (out ++ List.replicate bs.length 0x00) s := by
  induction bs generalizing out with
  | nil => simp
  | cons b bs ih => simp [clockWrite, ih, List.replicate_succ]
end

/-! ### WRITE_REQUEST (R174, R154) -/

/-- The bytes taken so far do not end a request frame. -/
def Unfinished (frame : List Byte) : Prop :=
  frame.length < 3 ∨ ((frame.getD 2 0).toNat ≤ Config.maxParams ∧ frame.length < (frame.getD 2 0).toNat + 4)

theorem Unfinished.left {a b : List Byte} (h : Unfinished (a ++ b)) : Unfinished a := by
  by_cases ha : a.length < 3
  · exact .inl ha
  · have hg : (a ++ b).getD 2 0 = a.getD 2 0 := by
      simp only [List.getD_eq_getElem?_getD, List.getElem?_append_left (by omega : 2 < a.length)]
    rw [Unfinished, hg, List.length_append] at h
    exact .inr (by omega)

/-- A frame that is offered (R154): refused with STATE or FULL, or added to the request queue. -/
def PortController.offered (c : PortController) (r : Request) : PortController :=
  if c.attach.acceptsWrites = false then { c with refusal := .state }
  else if c.couldAccept then { c with requests := c.requests ++ [r] }
  else { c with refusal := .full }

section
variable (p : PortId) (c : PortController) (out : List Byte) (s : State)

theorem offer_midTransaction (t : LinkState) (r : Request) :
    offer p r (midTransaction p c t out s) = midTransaction p (c.offered r) t out s := by
  simp only [offer, port_midTransaction, PortController.offered]
  split
  · simp
  · split <;> simp

/-- Bytes that do not end the frame are taken. -/
theorem foldl_clockWrite_unfinished {taken bs : List Byte} (h : Unfinished (taken ++ bs)) :
    bs.foldl (clockWrite p) (midTransaction p c (.writing taken false) out s) =
      midTransaction p c (.writing (taken ++ bs) false) (out ++ List.replicate bs.length 0x00) s := by
  induction bs generalizing taken out with
  | nil => simp
  | cons b bs ih =>
    have hb : Unfinished (taken ++ [b]) := (show Unfinished (taken ++ [b] ++ bs) by simpa using h).left
    have step : clockWrite p (midTransaction p c (.writing taken false) out s) b =
        midTransaction p c (.writing (taken ++ [b]) false) (out ++ [0x00]) s := by
      simp only [clockWrite, link_midTransaction, clockOut_midTransaction, takeFrameByte,
        setTransaction_midTransaction]
      by_cases h3 : (taken ++ [b]).length < 3
      · rw [if_pos h3]
      · obtain ⟨hn, hl⟩ := hb.resolve_left h3
        rw [if_neg h3, if_neg (Nat.not_lt.mpr hn), if_pos hl]
    rw [List.foldl_cons, step, ih _ (by simpa using h)]
    simp [List.replicate_succ]

/-- A length byte above 64 ends the frame with FORM. -/
theorem clockWrite_tooLong {tag code len : Byte} (h : 64 < len.toNat) :
    clockWrite p (midTransaction p c (.writing [tag, code] false) out s) len =
      midTransaction p { c with refusal := .form } (.writing [tag, code, len] true) (out ++ [0x00]) s := by
  have h : Config.maxParams < len.toNat := h
  simp [clockWrite, takeFrameByte, List.getD, h]

/-- The check byte ends a frame: the request is offered where the sum is 00h, else the refusal is FORM. -/
theorem foldl_clockWrite_frame {tag code check : Byte} {params extra : List Byte} (h : params.length ≤ 64) :
    let frame := [tag, code, byteOf params.length] ++ params ++ [check]
    (frame ++ extra).foldl (clockWrite p) (midTransaction p c (.writing [] false) out s) =
      midTransaction p (if byteSum frame = 0 then c.offered (requestOf frame) else { c with refusal := .form })
        (.writing frame true) (out ++ List.replicate (params.length + 4 + extra.length) 0x00) s := by
  intro frame
  have hlen : (byteOf params.length).toNat = params.length := toNat_byteOf (by omega)
  have hmax : params.length ≤ Config.maxParams := h
  have init : Unfinished ([] ++ ([tag, code, byteOf params.length] ++ params)) :=
    .inr (by simp [List.getD, hlen, hmax])
  have last : clockWrite p (midTransaction p c (.writing ([tag, code, byteOf params.length] ++ params) false)
        (out ++ List.replicate ([tag, code, byteOf params.length] ++ params).length 0x00) s) check =
      midTransaction p (if byteSum frame = 0 then c.offered (requestOf frame) else { c with refusal := .form })
        (.writing frame true)
        (out ++ List.replicate ([tag, code, byteOf params.length] ++ params).length 0x00 ++ [0x00]) s := by
    have h3 : ¬frame.length < 3 := by simp [frame]
    have h4 : ¬frame.length < (frame.getD 2 0).toNat + 4 := by simp [frame, List.getD, hlen]
    have hn : ¬Config.maxParams < (frame.getD 2 0).toNat := by simpa [frame, List.getD, hlen] using hmax
    have unfolded := show clockWrite p (midTransaction p c
          (.writing ([tag, code, byteOf params.length] ++ params) false)
          (out ++ List.replicate ([tag, code, byteOf params.length] ++ params).length 0x00) s) check =
        takeFrameByte p ([tag, code, byteOf params.length] ++ params) check _ by
      simp only [clockWrite, link_midTransaction]; rfl
    rw [unfolded, takeFrameByte]
    simp only [clockOut_midTransaction]
    rw [if_neg h3, if_neg hn, if_neg h4]
    split
    · simp only [offer_midTransaction, setTransaction_midTransaction, frame]
    · simp only [refuse_midTransaction, setTransaction_midTransaction, frame]
  rw [List.foldl_append, List.foldl_append, foldl_clockWrite_unfinished _ _ _ _ init, List.foldl_cons,
    List.foldl_nil, List.nil_append, last, foldl_clockWrite_ended]
  congr 1
  simp only [List.append_assoc, List.append_cancel_left_eq, ← List.replicate_one, List.replicate_append_replicate]
  congr 1
end

section
variable {p : PortId} {s : State}

/-- A whole WRITE_REQUEST transaction begins on a frame with no byte taken. -/
theorem exec_writeRequest_whole (h : (s.link p).state = .idle) (bs : List Byte) :
    exec (.writeRequest p (.whole bs)) s = .next (releaseWrite p (bs.foldl (clockWrite p)
      (midTransaction p { s.port p with refusal := .none } (.writing [] false) [(s.port p).statusByte] s))) := by
  simp only [exec, execWriteRequest, runPart_whole h]
  simp [takeKind, Transaction.ofByte?, Transaction.kindByte, Transaction.begin]

/-- Chip select rises behind the end of a frame. -/
theorem releaseWrite_ended (c : PortController) (taken out : List Byte) :
    releaseWrite p (midTransaction p c (.writing taken true) out s) = afterTransaction p c out s := by
  simp [releaseWrite, midTransaction_idle]

/-- Chip select rises before the end of a frame. -/
theorem releaseWrite_unfinished (c : PortController) (taken out : List Byte) :
    releaseWrite p (midTransaction p c (.writing taken false) out s) =
      afterTransaction p { c with refusal := .form } out s := by
  simp [releaseWrite, midTransaction_idle]

/-- A whole frame with bytes behind it. -/
theorem exec_writeRequest_frame (h : (s.link p).state = .idle) {tag code check : Byte} {params : List Byte}
    (extra : List Byte) (hl : params.length ≤ 64) :
    let frame := [tag, code, byteOf params.length] ++ params ++ [check]
    let c : PortController := { s.port p with refusal := .none }
    exec (.writeRequest p (.whole (frame ++ extra))) s = .next
      (afterTransaction p (if byteSum frame = 0 then c.offered (requestOf frame) else { c with refusal := .form })
        ((s.port p).statusByte :: List.replicate (params.length + 4 + extra.length) 0x00) s) := by
  intro frame c
  rw [exec_writeRequest_whole h, foldl_clockWrite_frame _ _ _ _ hl, releaseWrite_ended]
  rfl

/-- A whole request frame is offered. -/
theorem exec_writeRequest_request (h : (s.link p).state = .idle) (r : Request) (extra : List Byte)
    (hl : r.params.length ≤ 64) :
    exec (.writeRequest p (.whole (r.frame ++ extra))) s = .next
      (afterTransaction p (PortController.offered { s.port p with refusal := .none } r)
        ((s.port p).statusByte :: List.replicate (r.params.length + 4 + extra.length) 0x00) s) := by
  rw [Request.frame_eq, exec_writeRequest_frame h extra hl, if_pos (byteSum_append_checkByte _), ← Request.frame_eq,
    requestOf_frame]

/-- A frame cut short is refused with FORM. -/
theorem exec_writeRequest_unfinished (h : (s.link p).state = .idle) {bs : List Byte} (hb : Unfinished bs) :
    exec (.writeRequest p (.whole bs)) s = .next (afterTransaction p { s.port p with refusal := .form }
      ((s.port p).statusByte :: List.replicate bs.length 0x00) s) := by
  rw [exec_writeRequest_whole h, foldl_clockWrite_unfinished _ _ _ _ (by simpa using hb), releaseWrite_unfinished]
  rfl
end

theorem Attach.acceptsWrites_iff (a : Attach) : a.acceptsWrites = true ↔ a = .detached ∨ a = .attached := by
  cases a <;> simp [Attach.acceptsWrites]

/-- The three conditions of R154. -/
theorem PortController.couldAccept_iff (c : PortController) :
    c.couldAccept = true ↔ (c.attach = .detached ∨ c.attach = .attached) ∧ c.requests.length < 4 ∧
      c.requests.length + c.deferred.length + c.responses.length < 8 := by
  simp only [PortController.couldAccept, Bool.and_eq_true, Attach.acceptsWrites_iff, decide_eq_true_eq, and_assoc]
  rfl

/-- Settles O4: the frame is offered, and the three conditions hold. -/
theorem writeRequestAccepted : Obligations.WriteRequestAccepted := by
  intro p r extra s h ha hq hc hl
  have could : ({ s.port p with refusal := .none } : PortController).couldAccept = true :=
    (PortController.couldAccept_iff _).mpr ⟨ha, hq, hc⟩
  have accepts : (s.port p).attach.acceptsWrites = true := (Attach.acceptsWrites_iff _).mpr ha
  simp [exec_writeRequest_request h r extra hl, PortController.offered, accepts, could]

/-- Settles O5: an offer that meets not all conditions, an unfinished frame, a length byte above 64, a bad sum. -/
theorem writeRequestRefused : Obligations.WriteRequestRefused := by
  intro p s h refused
  refine ⟨fun r extra hl => ⟨fun h1 h2 => ?state, fun ha hf => ?full, fun k hk => ?short⟩,
    fun tag code len more hlen => ?long, fun tag code check params extra hl hsum => ?sum⟩
  case state =>
    have accepts : (s.port p).attach.acceptsWrites = false := by
      simpa [h1, h2] using (Attach.acceptsWrites_iff (s.port p).attach).not
    simp [exec_writeRequest_request h r extra hl, PortController.offered, accepts, refused]
  case full =>
    have accepts : (s.port p).attach.acceptsWrites = true := (Attach.acceptsWrites_iff _).mpr ha
    have could : ({ s.port p with refusal := .none } : PortController).couldAccept = false := by
      rw [Bool.eq_false_iff]
      intro g
      obtain ⟨-, g1, g2⟩ := (PortController.couldAccept_iff _).mp g
      exact hf.elim (fun x => absurd g1 (Nat.not_lt.mpr x)) fun x => absurd g2 (Nat.not_lt.mpr x)
    simp [exec_writeRequest_request h r extra hl, PortController.offered, accepts, could, refused]
  case short =>
    have hlen : (byteOf r.params.length).toNat = r.params.length := toNat_byteOf (by omega)
    have hmax : r.params.length ≤ Config.maxParams := hl
    have hk' : (r.frame.take k).length = k := by simp; omega
    have cut : Unfinished (r.frame.take k) := by
      by_cases h3 : k < 3
      · exact .inl (by omega)
      · have hg : (r.frame.take k).getD 2 0 = byteOf r.params.length := by
          rw [List.getD_eq_getElem?_getD, List.getElem?_take_of_lt (by omega)]
          rfl
        exact .inr ⟨by rw [hg, hlen]; exact hmax, by rw [hg, hlen, hk']; exact hk⟩
    rw [exec_writeRequest_unfinished h cut, hk']
  case long =>
    have two : Unfinished ([] ++ [tag, code]) := .inl (by simp)
    rw [exec_writeRequest_whole h, show tag :: code :: len :: more = [tag, code] ++ ([len] ++ more) from rfl,
      List.foldl_append, List.foldl_append, foldl_clockWrite_unfinished _ _ _ _ two, List.foldl_cons, List.foldl_nil,
      List.nil_append, clockWrite_tooLong _ _ _ _ hlen, foldl_clockWrite_ended, releaseWrite_ended]
    simp [refused, List.replicate_succ]
  case sum =>
    rw [exec_writeRequest_frame h extra hl, if_neg hsum]

/-! ### READ_RESPONSE (R175, R158) -/

/-- The link state that a READ_RESPONSE begins in, for the responses that wait. -/
def responseFixed : List Response → LinkState
  | [] => .sendingResponse [0x00, 0x00, 0x04, 0x00, 0xFC] false 0
  | x :: _ => .sendingResponse x.frame true 0

theorem fixResponse_eq (p : PortId) (s : State) : fixResponse p s = responseFixed (s.port p).responses := by
  unfold fixResponse
  cases (s.port p).responses <;> rfl

section
variable {p : PortId} {s : State}

theorem exec_readResponse_whole (h : (s.link p).state = .idle) (bs : List Byte) :
    exec (.readResponse p (.whole bs)) s = .next (releaseResponse p (bs.foldl (clockResponse p)
      (midTransaction p { s.port p with refusal := .none } (responseFixed (s.port p).responses)
        [(s.port p).statusByte] s))) := by
  simp only [exec, execReadResponse, runPart_whole h]
  simp [takeKind, Transaction.ofByte?, Transaction.kindByte, Transaction.begin, fixResponse_eq]

/-- Chip select rises on a READ_RESPONSE cut short, or whose response is no longer in the queue. -/
theorem releaseResponse_kept {f out : List Byte} {carries : Bool} {n : Nat} (c : PortController)
    (h : carries = false ∨ n < f.length) :
    releaseResponse p (midTransaction p c (.sendingResponse f carries n) out s) = afterTransaction p c out s := by
  have hc : (carries && decide (f.length ≤ n)) = false := by
    rcases h with h | h <;> simp [h]
  simp [releaseResponse, hc, midTransaction_idle]

/-- Chip select rises behind the check byte: the oldest response leaves the queue, and the port may depart. -/
theorem releaseResponse_removes {f out : List Byte} {n : Nat} (c : PortController) (h : f.length ≤ n) :
    releaseResponse p (midTransaction p c (.sendingResponse f true n) out s) =
      leaveIfDone p (afterTransaction p { c with responses := c.responses.tail } out s) := by
  simp [releaseResponse, h, removeResponse]
  rfl

/-- No departure where a response remains or the port is not LEAVING with its regions retired. -/
theorem leaveIfDone_stays (h : (s.port p).responses ≠ [] ∨ ∀ why, (s.port p).attach ≠ .leaving why true) :
    leaveIfDone p s = s := by
  rcases leaveIfDone_cases p s with ⟨-, g⟩ | ⟨r, ha, hr, -⟩
  · exact g
  · exact absurd ha (h.resolve_left (not_not.mpr hr) r)

/-- The oldest response leaves the queue without a departure. -/
theorem releaseResponse_takes {f out : List Byte} {n : Nat} {c : PortController} {x : Response} {rest : List Response}
    (h : f.length ≤ n) (hc : c.responses = x :: rest) (hs : rest ≠ [] ∨ ∀ why, c.attach ≠ .leaving why true) :
    releaseResponse p (midTransaction p c (.sendingResponse f true n) out s) =
      afterTransaction p { c with responses := rest } out s := by
  rw [releaseResponse_removes c h, hc, List.tail_cons, ← midTransaction_idle]
  exact leaveIfDone_stays (by simpa using hs)

/-- Chip select rises on a reading transaction of a link in that state. -/
theorem exec_readResponse_release {f out : List Byte} {carries : Bool} {n : Nat} {t : State}
    (h : t.link p = { state := .sendingResponse f carries n, dout := out }) :
    exec (.readResponse p .release) t = .next (releaseResponse p
      (midTransaction p (t.port p) (.sendingResponse f carries n) out t)) := by
  rw [← midTransaction_of h]
  simp [exec, execReadResponse, runPart, h]
end

/-- Settles O6: the frame of the oldest response, and the three ways the transaction can end. -/
theorem readResponseTakesOldest : Obligations.ReadResponseTakesOldest := by
  intro p bs s h
  refine ⟨fun x rest hx => ⟨fun hl hs => ?whole, fun hl => ?short⟩, fun he => ?empty, fun f out carried clocked t ht => ?parts,
    fun x => ⟨_, rfl, byteSum_withCheck _⟩, by decide⟩
  case whole =>
    rw [exec_readResponse_whole h, hx, responseFixed, foldl_clockResponse, sentBytes_of_le hl,
      releaseResponse_takes (c := { s.port p with refusal := .none }) (by omega) hx hs]
    rfl
  case short =>
    rw [exec_readResponse_whole h, hx, responseFixed, foldl_clockResponse, sentBytes_of_ge (by omega),
      releaseResponse_kept _ (.inr (by omega))]
    rfl
  case empty =>
    rw [exec_readResponse_whole h, he, responseFixed, foldl_clockResponse, releaseResponse_kept _ (.inl rfl)]
    have hb : sentBytes [0x00, 0x00, 0x04, 0x00, 0xFC] 0 bs.length =
        ((([0x00, 0x00, 0x04, 0x00, 0xFC] : List Byte) ++ List.replicate (bs.length - 5) 0x00).take bs.length) := by
      by_cases h5 : 5 ≤ bs.length
      · rw [sentBytes_of_le h5, List.take_of_length_le (by simp; omega)]
        rfl
      · have h5 : bs.length ≤ 5 := by omega
        rw [sentBytes_of_ge h5, List.take_append_of_le_length h5]
    rw [hb]
    rfl
  case parts =>
    intro ended
    refine ⟨fun hk => ?_, fun x rest hc hl hx hs => ?_⟩ <;>
      refine (exec_readResponse_release ht).trans (congrArg Host.Outcome.next ?_)
    · exact releaseResponse_kept _ hk
    · rw [hc]
      exact releaseResponse_takes hl hx hs

/-! ### READ_NOTICE (R176, R160) -/

/-- The link state that a READ_NOTICE begins in, for the notices that wait. -/
def noticeFixed : List Notice → LinkState
  | [] => .sendingNotice (List.replicate 7 0x00) none 0
  | n :: _ => .sendingNotice n.bytes (some 0) 0

theorem fixNotice_eq (p : PortId) (s : State) : fixNotice p s = noticeFixed (s.port p).notices := by
  unfold fixNotice
  cases (s.port p).notices <;> rfl

@[simp] theorem Notice.bytes_length (n : Notice) : n.bytes.length = 7 := rfl

/-- The frame number field, byte by byte. -/
theorem frameBytes_eq (f : FrameNo) : frameBytes f = [f.extractLsb' 0 8, f.extractLsb' 8 8] := by
  simp only [frameBytes, le16, byteOf, List.cons.injEq, and_true]
  constructor <;> (apply BitVec.eq_of_toNat_eq; simp [Nat.shiftRight_eq_div_pow])

section
variable {p : PortId} {s : State}

theorem exec_readNotice_whole (h : (s.link p).state = .idle) (bs : List Byte) :
    exec (.readNotice p (.whole bs)) s = .next (releaseNotice p (bs.foldl (clockNotice p)
      (midTransaction p { s.port p with refusal := .none } (noticeFixed (s.port p).notices)
        [(s.port p).statusByte] s))) := by
  simp only [exec, execReadNotice, runPart_whole h]
  simp [takeKind, Transaction.ofByte?, Transaction.kindByte, Transaction.begin, fixNotice_eq]

/-- Chip select rises on a READ_NOTICE cut short, or whose entry is no longer in the queue. -/
theorem releaseNotice_kept {f out : List Byte} {since : Option Nat} {n : Nat} (c : PortController)
    (h : since = none ∨ n < f.length) :
    releaseNotice p (midTransaction p c (.sendingNotice f since n) out s) = afterTransaction p c out s := by
  cases since with
  | none => simp [releaseNotice, midTransaction_idle]
  | some k => simp [releaseNotice, midTransaction_idle, h.resolve_left nofun]

/-- Chip select rises behind the check byte: the entry leaves, or stays with what coalesced since (R160). -/
theorem releaseNotice_takes {f out : List Byte} {k n : Nat} {c : PortController} {x : Notice} {rest : List Notice}
    (h : f.length ≤ n) (hc : c.notices = x :: rest) :
    releaseNotice p (midTransaction p c (.sendingNotice f (some k) n) out s) =
      afterTransaction p
        { c with
          notices := if k = 0 then rest else { x with count := min Config.repeatCeiling k } :: rest
          noticeLost := false } out s := by
  simp [releaseNotice, h, removeNotice, hc]
  rfl

theorem exec_readNotice_release {f out : List Byte} {since : Option Nat} {n : Nat} {t : State}
    (h : t.link p = { state := .sendingNotice f since n, dout := out }) :
    exec (.readNotice p .release) t = .next (releaseNotice p
      (midTransaction p (t.port p) (.sendingNotice f since n) out t)) := by
  rw [← midTransaction_of h]
  simp [exec, execReadNotice, runPart, h]
end

/-- Settles O7: the frame of the oldest notice, and the ways the transaction can end. -/
theorem readNoticeTakesOldest : Obligations.ReadNoticeTakesOldest := by
  intro p bs s h
  refine ⟨fun n rest hn => ⟨fun hl => ?whole, fun hl => ?short⟩, fun he => ?empty, fun f out since clocked t ht => ?parts,
    fun n => ⟨rfl, byteSum_withCheck _, ?frame⟩, by decide⟩
  case whole =>
    rw [exec_readNotice_whole h, hn, noticeFixed, foldl_clockNotice, sentBytes_of_le hl,
      releaseNotice_takes (c := { s.port p with refusal := .none }) (by simpa using hl) hn]
    rfl
  case short =>
    rw [exec_readNotice_whole h, hn, noticeFixed, foldl_clockNotice, sentBytes_of_ge (by simp; omega),
      releaseNotice_kept _ (.inr (by simp; omega))]
    rfl
  case empty =>
    rw [exec_readNotice_whole h, he, noticeFixed, foldl_clockNotice, sentBytes_zero, releaseNotice_kept _ (.inl rfl)]
    rfl
  case frame =>
    rw [Notice.bytes, frameBytes_eq]
    rfl
  case parts =>
    intro ended
    refine ⟨fun hk => ?_, fun n rest hl hn => ⟨fun hs => ?_, fun k hs => ?_⟩⟩ <;>
      refine (exec_readNotice_release ht).trans (congrArg Host.Outcome.next ?_)
    · exact releaseNotice_kept _ hk
    · rw [hs]
      exact releaseNotice_takes hl hn
    · rw [hs]
      exact releaseNotice_takes hl hn

/-! ### STATUS and an unknown kind (R177, R172, R173) -/

/-- A kind byte that is none of 01h to 04h names no transaction. -/
theorem Transaction.ofByte?_eq_none {k : Byte} (h1 : k ≠ 0x01) (h2 : k ≠ 0x02) (h3 : k ≠ 0x03) (h4 : k ≠ 0x04) :
    Transaction.ofByte? k = none := by
  rw [Transaction.ofByte?, List.find?_eq_none]
  simpa [Transaction.kindByte] using ⟨h1.symm, h2.symm, h3.symm, h4.symm⟩

/-- The status byte, bit by bit, from the two codes and the four flags (R173). -/
theorem byteOf_statusBits : ∀ (a r : BitVec 2) (b3 b2 b1 b0 : Bool),
    byteOf (64 * a.toNat + 16 * r.toNat + bitAt 3 b3 + bitAt 2 b2 + bitAt 1 b1 + bitAt 0 b0) =
      a ++ r ++ BitVec.ofBool b3 ++ BitVec.ofBool b2 ++ BitVec.ofBool b1 ++ BitVec.ofBool b0 := by
  decide

/-- The two bits of an attach state (R173). -/
def Attach.bits : Attach → BitVec 2
  | .disabled => 0b00
  | .detached => 0b01
  | .attached => 0b10
  | .leaving _ _ => 0b11

/-- The two bits of a refusal reason (R173). -/
def Refused.bits : Refused → BitVec 2
  | .none => 0b00
  | .full => 0b01
  | .form => 0b10
  | .state => 0b11

theorem Attach.code_eq_toNat (a : Attach) : a.code = a.bits.toNat := by cases a <;> rfl

theorem Refused.code_eq_toNat (r : Refused) : r.code = r.bits.toNat := by cases r <;> rfl

theorem not_isEmpty_eq_decide {α : Type} [DecidableEq α] (xs : List α) : (!xs.isEmpty) = decide (xs ≠ []) := by
  cases xs <;> simp

/-- Settles O8: the lots of bytes of STATUS and of an ignored transaction, and the bits of the status byte. -/
theorem statusAndUnknownKind : Obligations.StatusAndUnknownKind := by
  refine ⟨fun p bs s h => ⟨?status, fun kind h1 h2 h3 h4 => ?unknown⟩, fun c => ⟨?bits, ?note⟩⟩
  case status =>
    simp only [exec, execStatus, runPart_whole h]
    simp [takeKind, Transaction.ofByte?, Transaction.kindByte, Transaction.begin, foldl_clockStatusByte, releaseStatus,
      midTransaction_idle]
  case unknown =>
    simp only [exec, execUnknownKindByte, runPart_whole h, Transaction.ofByte?_eq_none h1 h2 h3 h4]
    simp [takeKind, Transaction.ofByte?_eq_none h1 h2 h3 h4, foldl_clockIgnored, releaseIgnored, midTransaction_idle]
  case bits =>
    have could : c.couldAccept = decide ((c.attach = .detached ∨ c.attach = .attached) ∧ c.requests.length < 4 ∧
        c.requests.length + c.deferred.length + c.responses.length < 8) := by
      rw [Bool.eq_iff_iff, c.couldAccept_iff, decide_eq_true_iff]
    rw [PortController.statusByte, Attach.code_eq_toNat, Refused.code_eq_toNat, byteOf_statusBits, could,
      not_isEmpty_eq_decide, not_isEmpty_eq_decide]
    rfl
  case note =>
    cases hr : c.responses <;> cases hn : c.notices <;> simp [PortController.noteAsserted, hr, hn]

/-! ### Transactions in parts (R172) -/

/-- A transaction is under way behind its kind byte, and device reset has not abandoned it. -/
def LinkState.begun : LinkState → Prop
  | .idle | .selected _ | .abandoned => False
  | _ => True

section
variable {p : PortId}

/-- On a link under way the abandoned transaction's work is none. -/
theorem clockAbandoned_begun {s : State} (h : (s.link p).state.begun) (b : Byte) : clockAbandoned p s b = s := by
  unfold clockAbandoned
  split
  · rename_i g
    rw [g] at h
    exact h.elim
  · rfl

theorem foldl_clockAbandoned_begun {s : State} (h : (s.link p).state.begun) (bs : List Byte) :
    bs.foldl (clockAbandoned p) s = s := by
  induction bs with
  | nil => rfl
  | cons b bs ih => rw [List.foldl_cons, clockAbandoned_begun h, ih]

theorem foldl_begun {clock : State → Byte → State}
    (hc : ∀ s b, (s.link p).state.begun → ((clock s b).link p).state.begun) {s : State} (h : (s.link p).state.begun)
    (bs : List Byte) : ((bs.foldl clock s).link p).state.begun := by
  induction bs generalizing s with
  | nil => exact h
  | cons b bs ih => exact ih (hc s b h)

theorem link_refuse (why : Refused) (s : State) : (refuse p why s).link p = s.link p := rfl

theorem link_setTransaction (t : LinkState) (s : State) :
    (setTransaction p t s).link p = { s.link p with state := t } := by
  simp [setTransaction]

theorem link_clockOut (bs : List Byte) (s : State) :
    (clockOut p bs s).link p = { s.link p with dout := (s.link p).dout ++ bs } := by
  simp [clockOut]

/-- After the kind byte the transaction is under way. -/
theorem takeKind_begun (k : Byte) (s : State) : ((takeKind p k s).link p).state.begun := by
  unfold takeKind
  split
  · rename_i t _
    rw [link_setTransaction]
    cases t with
    | writeRequest => trivial
    | readResponse =>
      rw [Transaction.begin, fixResponse_eq]
      cases (s.port p).responses <;> trivial
    | readNotice =>
      rw [Transaction.begin, fixNotice_eq]
      cases (s.port p).notices <;> trivial
    | status => trivial
  · rw [link_setTransaction]
    trivial

theorem clockWrite_begun (s : State) (b : Byte) (h : (s.link p).state.begun) :
    ((clockWrite p s b).link p).state.begun := by
  unfold clockWrite
  split
  · unfold takeFrameByte
    dsimp only
    repeat' split
    all_goals rw [link_setTransaction]; trivial
  · rename_i g
    rw [link_clockOut, g]
    trivial
  · exact h

theorem clockResponse_begun (s : State) (b : Byte) (h : (s.link p).state.begun) :
    ((clockResponse p s b).link p).state.begun := by
  unfold clockResponse
  split
  · rw [link_clockOut, link_setTransaction]
    trivial
  · exact h

theorem clockNotice_begun (s : State) (b : Byte) (h : (s.link p).state.begun) :
    ((clockNotice p s b).link p).state.begun := by
  unfold clockNotice
  split
  · rw [link_clockOut, link_setTransaction]
    trivial
  · exact h

theorem clockStatusByte_begun (s : State) (b : Byte) (h : (s.link p).state.begun) :
    ((clockStatusByte p s b).link p).state.begun := by
  unfold clockStatusByte
  split
  · rename_i g
    rw [clockStatus, sendStatus, link_refuse, link_clockOut, g]
    trivial
  · exact h

theorem clockIgnored_begun (s : State) (b : Byte) (h : (s.link p).state.begun) :
    ((clockIgnored p s b).link p).state.begun := by
  unfold clockIgnored
  split
  · rename_i g
    rw [link_clockOut, g]
    trivial
  · exact h

/-- Chip select rises on a transaction under way: it finishes. -/
theorem runPart_release_begun {k : Byte} {clock : State → Byte → State} {finish : State → State} {s : State}
    (h : (s.link p).state.begun) : runPart p k clock finish .release s = finish s := by
  unfold runPart
  dsimp only
  split
  · rename_i g
    rw [g] at h
    exact h.elim
  · rename_i g
    rw [g] at h
    exact h.elim
  · rfl

/-- The parts one after the other are the whole, whatever the transaction does for a byte and at its end. -/
theorem runPart_parts {k : Byte} {clock : State → Byte → State} {finish : State → State} {s : State}
    (hc : ∀ s b, (s.link p).state.begun → ((clock s b).link p).state.begun) (h : (s.link p).state = .idle)
    (bs cs : List Byte) :
    runPart p k clock finish .release (runPart p k clock finish (.clock cs) (runPart p k clock finish (.clock bs)
      (runPart p k clock finish .kind (runPart p k clock finish .select s)))) =
      runPart p k clock finish (.whole (bs ++ cs)) s := by
  have h0 := takeKind_begun (p := p) k
    (midTransaction p { s.port p with refusal := .none } (.selected (s.port p).statusByte) [(s.port p).statusByte] s)
  have h1 := foldl_begun hc h0 bs
  have h2 := foldl_begun hc h1 cs
  have kind : runPart p k clock finish .kind (runPart p k clock finish .select s) = takeKind p k
      (midTransaction p { s.port p with refusal := .none } (.selected (s.port p).statusByte) [(s.port p).statusByte] s) := by
    simp only [runPart, selectLink_idle h, clockKind_selected, List.nil_append]
    exact clockAbandoned_begun h0 k
  have lot1 := foldl_clockAbandoned_begun h1 bs
  have lot2 := foldl_clockAbandoned_begun h2 cs
  rw [kind, runPart_whole h, List.foldl_append]
  change runPart p k clock finish .release (cs.foldl (clockAbandoned p) (cs.foldl clock
    (bs.foldl (clockAbandoned p) (bs.foldl clock (takeKind p k _))))) = _
  rw [lot1, lot2]
  exact runPart_release_begun h2
end

section
variable {p : PortId} {k b : Byte} {clock : State → Byte → State} {finish : State → State} {s t : State}

/-- Chip select falls: the status byte is fixed. -/
theorem runPart_select (h : (s.link p).state = .idle) :
    runPart p k clock finish .select s =
      { s with links := s.links.set p { state := .selected (s.port p).statusByte, dout := [] } } := by
  simp [runPart, selectLink, h, State.setLink]

/-- Chip select rises before the kind byte. -/
theorem runPart_release_selected (h : t.link p = { state := .selected b, dout := [] }) :
    runPart p k clock finish .release t = { t with links := t.links.set p { state := .idle, dout := [] } } := by
  simp [runPart, h, releaseSelected, setTransaction, State.setLink]

/-- The link state right after a transaction's kind byte, from the port's queues. -/
def Transaction.beginsIn (a : Transaction) (c : PortController) : LinkState :=
  match a with
  | .writeRequest => .writing [] false
  | .readResponse => responseFixed c.responses
  | .readNotice => noticeFixed c.notices
  | .status => .sendingStatus

/-- The kind byte begins the transaction that the table gives it (R172, R175, R176). -/
theorem runPart_kind {a : Transaction} (h : t.link p = { state := .selected b, dout := [] })
    (hk : Transaction.ofByte? k = some a) :
    runPart p k clock finish .kind t =
      { t with
        ports := t.ports.set p { t.port p with refusal := .none }
        links := t.links.set p
          { state := a.beginsIn (t.port p), dout := [b] } } := by
  have hb : runPart p k clock finish .kind t =
      clockAbandoned p (takeKind p k (midTransaction p { t.port p with refusal := .none } (.selected b) [b] t)) k := by
    conv_lhs => rw [midTransaction_of h]
    simp [runPart, clockKind_selected]
  rw [hb, clockAbandoned_begun (takeKind_begun k _), takeKind, hk]
  cases a <;> simp only [Transaction.begin, fixResponse_eq, fixNotice_eq, setTransaction_midTransaction,
    port_midTransaction] <;> rfl

/-- Any other kind byte is the refusal FORM (R172). -/
theorem runPart_kind_unknown (h : t.link p = { state := .selected b, dout := [] })
    (hk : Transaction.ofByte? k = none) :
    runPart p k clock finish .kind t =
      { t with
        ports := t.ports.set p { t.port p with refusal := .form }
        links := t.links.set p { state := .ignoring, dout := [b] } } := by
  have hb : runPart p k clock finish .kind t =
      clockAbandoned p (takeKind p k (midTransaction p { t.port p with refusal := .none } (.selected b) [b] t)) k := by
    conv_lhs => rw [midTransaction_of h]
    simp [runPart, clockKind_selected]
  rw [hb, clockAbandoned_begun (takeKind_begun k _), takeKind, hk]
  simp only [refuse_midTransaction, setTransaction_midTransaction]
  rfl
end

/-- The five transaction commands, each with what it does for a byte and at its end; the unknown kind byte is one only
where the table gives the byte no transaction. -/
theorem exec_transaction {p : PortId} {kind : Byte} {cmd : LinkPart → Instr}
    (h : cmd ∈ [Instr.writeRequest p, Instr.readResponse p, Instr.readNotice p, Instr.status p,
      Instr.unknownKindByte p kind]) :
    (∃ k clock finish, (∀ (s : State) b, (s.link p).state.begun → ((clock s b : State).link p).state.begun) ∧
      ∀ part s, exec (cmd part) s = .next (runPart p k clock finish part s)) ∨
    (cmd = Instr.unknownKindByte p kind ∧ Transaction.ofByte? kind ≠ none) := by
  simp only [List.mem_cons, List.not_mem_nil, or_false] at h
  rcases h with rfl | rfl | rfl | rfl | rfl
  · exact .inl ⟨_, _, _, clockWrite_begun, fun _ _ => rfl⟩
  · exact .inl ⟨_, _, _, clockResponse_begun, fun _ _ => rfl⟩
  · exact .inl ⟨_, _, _, clockNotice_begun, fun _ _ => rfl⟩
  · exact .inl ⟨_, _, _, clockStatusByte_begun, fun _ _ => rfl⟩
  · by_cases hk : Transaction.ofByte? kind = none
    · exact .inl ⟨kind, clockIgnored p, releaseIgnored p, clockIgnored_begun, fun part s => by
        simp only [exec, execUnknownKindByte, if_pos hk]⟩
    · exact .inr ⟨rfl, hk⟩

/-- Settles O9: the five transactions share the way their parts make up the whole. -/
theorem transactionInParts : Obligations.TransactionInParts := by
  refine ⟨fun p kind bs cs s h cmd hcmd => ?parts, fun p kind h1 h2 h3 h4 cmd hcmd => ?begins⟩
  case parts =>
    rcases exec_transaction hcmd with ⟨k, clock, finish, hc, hex⟩ | ⟨rfl, hk⟩
    · simp only [hex, Out.andThen]
      exact congrArg Host.Outcome.next (runPart_parts hc h bs cs)
    · simp only [exec, execUnknownKindByte, if_neg hk, Out.andThen]
  case begins =>
    have hk := Transaction.ofByte?_eq_none h1 h2 h3 h4
    obtain ⟨k, clock, finish, -, hex⟩ := (exec_transaction hcmd).resolve_right fun g => g.2 hk
    refine ⟨fun s h => ?_, fun b t ht => ⟨?_, ?_⟩⟩
    · rw [hex, runPart_select h]
    · rw [hex, runPart_release_selected ht]
    · intro begun
      refine ⟨⟨rfl, rfl, rfl, rfl, hk⟩, ?write, fun he => ?emptyResponse, fun x rest hx => ?response, fun he => ?emptyNotice,
        fun x rest hx => ?notice, ?status, ?unknown⟩
      case write => exact congrArg Host.Outcome.next (runPart_kind ht (a := .writeRequest) rfl)
      case emptyResponse =>
        refine congrArg Host.Outcome.next ((runPart_kind ht (a := .readResponse) rfl).trans ?_)
        rw [Transaction.beginsIn, he]
        rfl
      case response =>
        refine congrArg Host.Outcome.next ((runPart_kind ht (a := .readResponse) rfl).trans ?_)
        rw [Transaction.beginsIn, hx]
        rfl
      case emptyNotice =>
        refine congrArg Host.Outcome.next ((runPart_kind ht (a := .readNotice) rfl).trans ?_)
        rw [Transaction.beginsIn, he]
        rfl
      case notice =>
        refine congrArg Host.Outcome.next ((runPart_kind ht (a := .readNotice) rfl).trans ?_)
        rw [Transaction.beginsIn, hx]
        rfl
      case status => exact congrArg Host.Outcome.next (runPart_kind ht (a := .status) rfl)
      case unknown =>
        simp only [exec, execUnknownKindByte, if_pos hk]
        exact congrArg Host.Outcome.next (runPart_kind_unknown ht hk)

end Sys2Proof.Machine
end

