-- ==== Sys2Proof/Proofs/Notices.lean ====
section
/-! PROOFS. The notice queue (9.5): what one notice does to its port's Port Controller and link, as functions of these
alone, and what a list of notices does; the departure from LEAVING, which sends one. -/

namespace Sys2Proof.Machine

/-! ### One notice -/

/-- A Port Controller after a notice has reached it (R159). -/
def PortController.stored (n : Notice) (c : PortController) : PortController :=
  if c.attach ≠ .attached then c
  else match coalesceInto n c.notices with
    | some q => { c with notices := q }
    | none =>
      if c.notices.length < Config.noticeDepth then { c with notices := c.notices ++ [{ n with count := 1 }] }
      else { c with noticeLost := true }

/-- A link after a notice has reached its Port Controller: a READ_NOTICE counts what coalesces into its entry (R160). -/
def Link.stored (n : Notice) (c : PortController) (l : Link) : Link :=
  if c.attach = .attached ∧ headAgrees n c.notices = true then l.coalesced else l

theorem coalesceInto_of_headAgrees {n : Notice} {q : List Notice} (h : headAgrees n q = true) :
    ∃ q', coalesceInto n q = some q' := by
  cases q with
  | nil => simp [headAgrees] at h
  | cons m ms => exact ⟨_, if_pos h⟩

/-- A notice changes its port's Port Controller and link, and nothing else. -/
theorem storeNotice_eq (p : PortId) (n : Notice) (s : State) :
    storeNotice p n s = (s.setPort p ((s.port p).stored n)).setLink p ((s.link p).stored n (s.port p)) := by
  have self : ∀ c, (s.setPort p c).setLink p (s.link p) = s.setPort p c := fun c => State.setLink_self (s.setPort p c) p
  unfold storeNotice PortController.stored Link.stored
  by_cases ha : (s.port p).attach = .attached
  · cases hc : coalesceInto n (s.port p).notices with
    | some q =>
      by_cases hh : headAgrees n (s.port p).notices = true
      · simp [ha, hc, hh]
      · simp [ha, hc, hh, self]
    | none =>
      have hh : headAgrees n (s.port p).notices = false := by
        rw [Bool.eq_false_iff]
        intro hh
        obtain ⟨q, hq⟩ := coalesceInto_of_headAgrees hh
        rw [hc] at hq
        cases hq
      by_cases hl : (s.port p).notices.length < Config.noticeDepth <;> simp [ha, hc, hh, hl, self]
  · simp [ha]

theorem Notice.agrees_iff (m n : Notice) : m.agrees n = true ↔ m.kind = n.kind ∧ m.subject = n.subject := by
  simp [Notice.agrees]

theorem coalesceInto_middle {n m : Notice} {a b : List Notice} (hm : m.agrees n = true)
    (ha : ∀ x ∈ a, x.agrees n = false) : coalesceInto n (a ++ m :: b) = some (a ++ m.again n :: b) := by
  induction a with
  | nil => simp [coalesceInto, hm]
  | cons x a ih => simp [coalesceInto, ha x (by simp), ih fun y hy => ha y (by simp [hy])]

theorem coalesceInto_none {n : Notice} {q : List Notice} (h : ∀ x ∈ q, x.agrees n = false) : coalesceInto n q = none := by
  induction q with
  | nil => rfl
  | cons x q ih => simp [coalesceInto, h x (by simp), ih fun y hy => h y (by simp [hy])]

theorem Link.coalesced_eq_self {l : Link} (h : ∀ f k c, l.state ≠ .sendingNotice f (some k) c) : l.coalesced = l := by
  unfold Link.coalesced
  split
  · rename_i f k c g
    exact absurd g (h f k c)
  · rfl

theorem Link.stored_eq_self {l : Link} (n : Notice) (c : PortController)
    (h : ∀ f k c, l.state ≠ .sendingNotice f (some k) c) : l.stored n c = l := by
  rw [Link.stored]
  split
  · exact Link.coalesced_eq_self h
  · rfl

/-- Settles O10: the three outcomes, by the place of the entry of the same kind and subject. -/
theorem noticeStored : Obligations.NoticeStored := by
  intro p n s
  refine ⟨fun ha => ?other, fun ha => ⟨fun a m b hq hm hn => ?coalesce, fun hn => ⟨fun hl => ?add, fun hl => ?drop⟩⟩⟩
  case other => simp [storeNotice, ha]
  case coalesce =>
    have hm' : m.agrees n = true := (m.agrees_iff n).mpr hm
    have hn' : ∀ x ∈ a, x.agrees n = false := fun x hx => by
      rw [Bool.eq_false_iff]
      exact fun g => hn x hx ((x.agrees_iff n).mp g)
    have hc : coalesceInto n (s.port p).notices = some (a ++ m.again n :: b) := by rw [hq, coalesceInto_middle hm' hn']
    cases a with
    | nil =>
      have hh : headAgrees n (s.port p).notices = true := by rw [hq]; exact hm'
      simp only [storeNotice, ha, ne_eq, not_true_eq_false, if_false, hc, hh, if_true, State.link_setPort]
      by_cases hs : ∃ f k c, (s.link p).state = .sendingNotice f (some k) c
      · obtain ⟨f, k, c, hs⟩ := hs
        simp only [Link.coalesced, hs]
        rfl
      · have hs' : ∀ f k c, (s.link p).state ≠ .sendingNotice f (some k) c := fun f k c g => hs ⟨f, k, c, g⟩
        rw [Link.coalesced_eq_self hs']
        have keep : ∀ c, (s.setPort p c).setLink p (s.link p) = s.setPort p c :=
          fun c => State.setLink_self (s.setPort p c) p
        rw [keep]
        split
        · rename_i f k c _ g
          exact absurd g (hs' f k c)
        · rfl
    | cons x a =>
      have hh : headAgrees n (s.port p).notices = false := by rw [hq]; exact hn' x (by simp)
      simp only [storeNotice, ha, ne_eq, not_true_eq_false, if_false, hc, hh, Bool.false_eq_true]
      rfl
  case add =>
    have hc : coalesceInto n (s.port p).notices = none := coalesceInto_none fun x hx => by
      rw [Bool.eq_false_iff]
      exact fun g => hn x hx ((x.agrees_iff n).mp g)
    have hl : (s.port p).notices.length < Config.noticeDepth := hl
    simp only [storeNotice, ha, ne_eq, not_true_eq_false, if_false, hc, hl, if_true]
    rfl
  case drop =>
    have hc : coalesceInto n (s.port p).notices = none := coalesceInto_none fun x hx => by
      rw [Bool.eq_false_iff]
      exact fun g => hn x hx ((x.agrees_iff n).mp g)
    have hl : ¬(s.port p).notices.length < Config.noticeDepth := Nat.not_lt.mpr hl
    simp only [storeNotice, ha, ne_eq, not_true_eq_false, if_false, hc, hl]
    rfl

/-! ### What does not matter to a notice -/

theorem storeNotice_setReports (p : PortId) (n : Notice) (s : State) (rs : List Report) :
    storeNotice p n (s.setReports rs) = (storeNotice p n s).setReports rs := by
  rw [storeNotice_eq, storeNotice_eq]
  rfl

theorem storeNotices_cons (x : PortId × Notice) (ns : List (PortId × Notice)) (s : State) :
    storeNotices (x :: ns) s = storeNotices ns (storeNotice x.1 x.2 s) := rfl

theorem storeNotices_setReports (ns : List (PortId × Notice)) (s : State) (rs : List Report) :
    storeNotices ns (s.setReports rs) = (storeNotices ns s).setReports rs := by
  induction ns generalizing s with
  | nil => rfl
  | cons x ns ih => rw [storeNotices_cons, storeNotices_cons, storeNotice_setReports, ih]

/-- A link on which no READ_NOTICE carries an entry does not notice notices. -/
theorem storeNotice_link_of_notSending {p q : PortId} (n : Notice) {s : State}
    (h : ∀ f k c, (s.link p).state ≠ .sendingNotice f (some k) c) : (storeNotice q n s).link p = s.link p := by
  rw [storeNotice_eq, State.link_setLink]
  split
  · rename_i e
    subst e
    exact Link.stored_eq_self n _ h
  · rfl

theorem storeNotices_link_of_notSending {p : PortId} (ns : List (PortId × Notice)) {s : State}
    (h : ∀ f k c, (s.link p).state ≠ .sendingNotice f (some k) c) : (storeNotices ns s).link p = s.link p := by
  induction ns generalizing s with
  | nil => rfl
  | cons x ns ih =>
    have hx := storeNotice_link_of_notSending (q := x.1) x.2 h
    rw [storeNotices_cons, ih (by rwa [hx]), hx]

/-! ### The departure from LEAVING (R166) -/

/-- Settles O17: the departure is one operation, which the read of the last response performs as well. -/
theorem leavingExitDeparts : Obligations.LeavingExitDeparts := by
  intro p why s ha away
  have departs : ∀ t : State, (t.port p).attach = .leaving why true → (t.port p).responses = [] →
      leaveIfDone p t = storeNotice .p0 (noticeNow t .portLeft (portByte p) why.byte)
        ((t.setPort p { t.port p with attach := if (t.entry p).enabled then .detached else .disabled }).setUnit p
          (t.unit p).silenced.undeclared) := by
    intro t hat hr
    rcases leaveIfDone_cases p t with ⟨hn, -⟩ | ⟨r, hr', -, h⟩
    · exact absurd hr (hn why hat)
    · obtain rfl : why = r := by
        rw [hat] at hr'
        cases hr'
        rfl
      exact h
  refine ⟨fun hr => ?_, fun hr => ?_, fun x bs hl hr hx => ?_⟩
  · exact congrArg Host.Outcome.next (departs s ha hr)
  · exact congrArg Host.Outcome.next (leaveIfDone_stays (.inl hr))
  · rw [exec_readResponse_whole hl, hr, responseFixed, foldl_clockResponse, sentBytes_of_le hx,
      releaseResponse_removes (n := 0 + bs.length) { s.port p with refusal := .none } (by omega), ← midTransaction_idle]
    refine congrArg Host.Outcome.next ((departs _ (by simpa using ha) (by simp [hr])).trans ?_)
    rw [port_midTransaction, hr, setPort_midTransaction]
    refine congrArg _ ?_
    simp only [midTransaction, afterTransaction, State.setUnit, PerPort.set_set]
    rfl

end Sys2Proof.Machine
end

