-- ==== Sys2Proof/Proofs/Marks.lean ====
section
/-! PROOFS. The Mark Unit (07): the taking of reports, and the requests on marks. -/

namespace Sys2Proof.Machine

/-! ### The reports that wait (R132) -/

theorem takeReport_withdrawn (s : State) (x : Report) : (takeReport s x).marks.withdrawn = s.marks.withdrawn := by
  rw [(takeReport_only s x).marks]
  rfl

@[simp] theorem takeReports_withdrawn (s : State) : (takeReports s).marks.withdrawn = s.marks.withdrawn :=
  foldl_related (R := fun a b : State => b.marks.withdrawn = a.marks.withdrawn) (fun _ => rfl)
    (fun _ _ _ h g => g.trans h) takeReport_withdrawn s.marks.reports (s.setReports [])

section
variable (s : State)

@[simp] theorem takeReports_reports : (takeReports s).marks.reports = [] := (takeReports_spec s).2.1
@[simp] theorem takeReports_layout : (takeReports s).layout = s.layout := (takeReports_spec s).2.2.1
@[simp] theorem takeReports_sources : (takeReports s).sources = s.sources := (takeReports_spec s).2.2.2.1
@[simp] theorem takeReports_scan : (takeReports s).scan = s.scan := (takeReports_spec s).2.2.2.2.1
@[simp] theorem takeReports_comp : (takeReports s).comp = s.comp := (takeReports_spec s).2.2.2.2.2.1
@[simp] theorem takeReports_pending : (takeReports s).pending = s.pending := (takeReports_spec s).2.2.2.2.2.2.1

theorem takeReports_port (p : PortId) : (takeReports s).port p =
    { s.port p with
      notices := ((takeReports s).port p).notices, noticeLost := ((takeReports s).port p).noticeLost } :=
  ((takeReports_spec s).2.2.2.2.2.2.2 p).1

theorem takeReports_markList (p : PortId) : (takeReports s).markList p =
    (s.markList p).filter fun m => s.marks.reports.all fun x => !(decide (x.owner = p) && x.breaks m) :=
  (takeReports_spec s).1 p

@[simp] theorem takeReports_slot (i : Nat) : (takeReports s).slot i = s.slot i := by simp only [State.slot, takeReports_layout]
@[simp] theorem takeReports_lay (p : PortId) : (takeReports s).lay p = s.lay p := by simp only [State.lay, takeReports_layout]
@[simp] theorem takeReports_entry (p : PortId) : (takeReports s).entry p = s.entry p := by
  simp only [State.entry, takeReports_layout]
@[simp] theorem takeReports_unit (p : PortId) : (takeReports s).unit p = s.unit p := by
  simp only [State.unit, takeReports_sources]
@[simp] theorem takeReports_frameField : (takeReports s).frameField = s.frameField := by
  simp only [State.frameField, takeReports_scan]
end

theorem takeReport_link_of_notSending {p : PortId} {s : State} (x : Report)
    (h : ∀ f k c, (s.link p).state ≠ .sendingNotice f (some k) c) : (takeReport s x).link p = s.link p :=
  storeNotices_link_of_notSending _ (s := s.setMarkList x.owner _) h

theorem takeReports_link_of_notSending {p : PortId} {s : State}
    (h : ∀ f k c, (s.link p).state ≠ .sendingNotice f (some k) c) : (takeReports s).link p = s.link p := by
  have key : ∀ (rs : List Report) (t : State), t.link p = s.link p → (rs.foldl takeReport t).link p = s.link p := by
    intro rs
    induction rs with
    | nil => exact fun _ ht => ht
    | cons x rs ih =>
      intro t ht
      exact ih _ ((takeReport_link_of_notSending x (by rwa [ht])).trans ht)
  exact key s.marks.reports (s.setReports []) rfl

/-- The first report that waits is taken first. -/
theorem takeReports_cons {x : Report} {more : List Report} {s : State} (h : s.marks.reports = x :: more) :
    takeReports s = takeReports (storeNotices
      (((s.markList x.owner).filter x.breaks).map fun m =>
        (x.owner, { kind := .markVoid, subject := byteOf m.id, frame := x.frame, count := 1, detail := byteOf m.region }))
      ((s.setMarkList x.owner ((s.markList x.owner).filter fun m => !x.breaks m)).setReports more)) := by
  have rest : ∀ ns (v : State), (storeNotices ns (v.setReports more)).marks.reports = more := fun ns v => by
    rw [(storeNotices_only ns _).marks]
    rfl
  unfold takeReports
  rw [h, rest, List.foldl_cons]
  refine congrArg (fun t => more.foldl takeReport t) ?_
  rw [← storeNotices_setReports]
  rfl

/-- Settles O39: what the taking of the reports leaves, and the order in which they are taken. -/
theorem reportsRemoveMarks : Obligations.ReportsRemoveMarks := by
  refine ⟨fun s => ⟨takeReports s, rfl, takeReports_reports s, takeReports_markList s, takeReports_withdrawn s,
    takeReports_layout s, takeReports_sources s, takeReports_scan s, takeReports_comp s, fun p =>
      ⟨takeReports_port s p, ((takeReports_spec s).2.2.2.2.2.2.2 p).2, takeReports_link_of_notSending⟩⟩,
    fun s h => congrArg Host.Outcome.next (takeReports_of_none h),
    fun x more s h => congrArg Host.Outcome.next (takeReports_cons h)⟩

/-! ### The requests -/

section
variable {p : PortId} {r : Request} {rest : List Request} {s : State}

@[simp] theorem State.marks_taken : (taken p rest s).marks = s.marks := rfl

@[simp] theorem State.layout_taken : (taken p rest s).layout = s.layout := rfl

theorem exec_mark_takes (h : Takes .mark p r rest s) : exec (.mark p) s = .next (markBody p r (taken p rest s)) :=
  congrArg Host.Outcome.next (serve_takes h (markBody p))

theorem exec_unmark_takes (h : Takes .unmark p r rest s) : exec (.unmark p) s = .next (unmarkBody p r (taken p rest s)) :=
  congrArg Host.Outcome.next (serve_takes h (unmarkBody p))

theorem exec_readMarks_takes (h : Takes .readMarks p r rest s) :
    exec (.readMarks p) s = .next (readMarksBody p r (taken p rest s)) :=
  congrArg Host.Outcome.next (serve_takes h (readMarksBody p))
end

/-- A mark's place in a list ordered by id. -/
theorem insertMark_middle {m : Mark} {a b : List Mark} (ha : ∀ x ∈ a, x.id < m.id) (hb : ∀ x ∈ b, m.id < x.id) :
    insertMark m (a ++ b) = a ++ m :: b := by
  induction a with
  | nil =>
    cases b with
    | nil => rfl
    | cons x b => simp [insertMark, hb x (by simp)]
  | cons x a ih =>
    have hx : ¬m.id < x.id := Nat.not_lt.mpr (Nat.le_of_lt (ha x (by simp)))
    simp [insertMark, hx, ih fun y hy => ha y (by simp [hy])]

theorem lowestMarkId_eq_none {ms : List Mark} (h : ∀ m < 4, ∃ x ∈ ms, x.id = m) : lowestMarkId ms = none := by
  rw [lowestMarkId, List.find?_eq_none]
  intro m hm
  obtain ⟨x, hx, he⟩ := h m (List.mem_range.mp hm)
  simp only [Bool.not_eq_true', Bool.not_eq_false, List.any_eq_true]
  exact ⟨x, hx, by simp [he]⟩

theorem lowestMarkId_eq_some {ms : List Mark} {m : Nat} (hm : m < 4) (hn : ∀ x ∈ ms, x.id ≠ m)
    (hl : ∀ j < m, ∃ x ∈ ms, x.id = j) : lowestMarkId ms = some m := by
  rw [lowestMarkId, List.find?_range_eq_some]
  refine ⟨by simpa using hn, List.mem_range.mpr hm, fun j hj => ?_⟩
  obtain ⟨x, hx, he⟩ := hl j hj
  simpa using ⟨x, hx, he⟩

/-- Settles O37: each check of R126 in its order, after the reports are taken. -/
theorem markPlacesMark : Obligations.MarkPlacesMark := by
  intro p r rest id count offset s h ho hr
  refine ⟨takeReports (taken p rest s), rfl, ?_⟩
  have hid : param8 r.params 0 = id.toNat := by rw [hr]; rfl
  have hoff : param16 r.params 1 = offset := by rw [hr]; exact toNat_le16 ho
  have hcount : param8 r.params 3 = count.toNat := by rw [hr]; rfl
  have inRange (hi : id.toNat ≤ 23) : ¬Config.slotCount ≤ id.toNat := Nat.not_le.mpr (Nat.lt_succ_of_le hi)
  intro answer
  have body := exec_mark_takes h
  simp only [markBody, hid, takeReports_slot, takeReports_withdrawn, takeReports_frameField, State.slot_taken,
    State.frameField_taken, State.marks_taken] at body
  refine ⟨fun hi => ?range, fun hi ho hn => ?notOwner, fun hi hf hw => ?withdrawn, fun hi k hs => ?reserved,
    fun hi k g c hs => ?live⟩
  case range =>
    rw [if_pos (show Config.slotCount ≤ id.toNat from hi)] at body
    exact body
  case notOwner =>
    rw [if_neg (inRange hi)] at body
    refine body.trans ?_
    cases hs : s.slot id.toNat with
    | free =>
      have hn : (p, id.toNat) ∉ s.marks.withdrawn := fun g => hn ⟨hs, g⟩
      simp [hn, respond_eq_replied]
    | reserved o k =>
      have hp : o ≠ p := fun g => ho (by rw [hs, g]; rfl)
      simp [hp, respond_eq_replied]
    | live o k g c =>
      have hp : o ≠ p := fun g => ho (by rw [hs, g]; rfl)
      simp [hp, respond_eq_replied]
  case withdrawn =>
    rw [if_neg (inRange hi), hf] at body
    refine body.trans ?_
    simp [hw, respond_eq_replied]
  case reserved =>
    rw [if_neg (inRange hi), hs] at body
    refine body.trans ?_
    simp [respond_eq_replied]
  case live =>
    rw [if_neg (inRange hi), hs] at body
    simp only [if_true, markLive, hoff, hcount, takeReports_frameField, State.frameField_taken] at body
    refine ⟨fun hc => ?_, fun hc hfull => ?_, fun m a b hc hm hl ha hb hj => ?_⟩
    · rw [if_pos hc] at body
      exact body
    · rw [if_neg (Nat.not_le.mpr hc), lowestMarkId_eq_none hfull] at body
      exact body
    · have free : ∀ x ∈ a ++ b, x.id ≠ m := fun x hx =>
        (List.mem_append.mp hx).elim (fun g => Nat.ne_of_lt (ha x g)) fun g => Nat.ne_of_gt (hb x g)
      have low : ∀ j < m, ∃ x ∈ a ++ b, x.id = j := fun j hjm =>
        (hj j hjm).imp fun x hx => ⟨List.mem_append_left b hx.1, hx.2⟩
      rw [if_neg (Nat.not_le.mpr hc), hl, lowestMarkId_eq_some hm free low] at body
      simp only at body
      rw [insertMark_middle ha hb] at body
      exact body

/-- Settles O38: the checks of R127, and the list mark by mark (R128). -/
theorem unmarkAndReadMarks : Obligations.UnmarkAndReadMarks := by
  intro p r rest s
  refine ⟨takeReports (taken p rest s), rfl, fun b h hr => ?unmark, fun h => ?read⟩
  case unmark =>
    have hid : param8 r.params 0 = b.toNat := by rw [hr]; rfl
    have body := exec_unmark_takes h
    simp only [unmarkBody, hid, takeReports_frameField, State.frameField_taken] at body
    refine ⟨fun hb => ?_, fun hb hn => ?_, fun hb hm => ?_⟩
    · rw [if_pos (show Config.marksPerPort ≤ b.toNat from hb)] at body
      exact body
    · have hany : ¬(((takeReports (taken p rest s)).markList p).any fun x => x.id == b.toNat) = true := by
        simpa using hn
      rw [if_neg (show ¬Config.marksPerPort ≤ b.toNat from Nat.not_le.mpr (Nat.lt_succ_of_le hb)), if_neg hany] at body
      exact body
    · have hany : (((takeReports (taken p rest s)).markList p).any fun x => x.id == b.toNat) = true := by
        simpa using hm
      rw [if_neg (show ¬Config.marksPerPort ≤ b.toNat from Nat.not_le.mpr (Nat.lt_succ_of_le hb)), if_pos hany] at body
      refine body.trans ?_
      simp only [bne, beq_eq_decide, ← decide_not]
      rfl
  case read =>
    have body := exec_readMarks_takes h
    simp only [readMarksBody, takeReports_frameField, State.frameField_taken] at body
    exact body

end Sys2Proof.Machine
end

