-- ==== Sys2Proof/Proofs/SourceUnits.lean ====
section
/-! PROOFS. The Source Units (06): the judgement by its table, the packets, SOURCE-FORMAT. -/

namespace Sys2Proof.Machine

/-! ### The judgement (R113, R114) -/

/-- A judgement raises a notice exactly where it reaches the lock count or the loss tolerance. -/
theorem judged_raises_iff (e : PlanEntry) (u : SourceUnit) : (u.judged e).2 = none ↔ ¬reachesCount e u := by
  unfold SourceUnit.judged reachesCount
  split
  · rename_i lines hf
    unfold SourceUnit.onFresh SourceUnit.exchanged
    cases hm : u.monitor
    · by_cases h : e.lockCount = 1 <;> simp [hf, h]
    · by_cases h : e.lockCount ≤ min Config.goodCeiling (u.good + 1) <;> simp [hf, h] <;> simpa [Config.goodCeiling] using h
    · simp [hf]
    · simp [hf]
  · rename_i hf
    have unready : ∀ lines, u.filling ≠ .ready lines := hf
    unfold SourceUnit.onMissed
    cases hm : u.monitor
    · simp [unready]
    · simp [unready]
    · by_cases h : e.tolerance ≤ min Config.missedCeiling (u.missed + 1) <;> simp [unready, h] <;>
        simpa [Config.missedCeiling] using h
    · simp

/-- The judged unit, its FSYNC pulsed, is the one the table of R114 gives. -/
theorem judgedTo_judged {e : PlanEntry} {u : SourceUnit} (h : 1 ≤ u.sh) :
    judgedTo e u ((u.judged e).1.taking true) := by
  refine ⟨fun h0 => absurd h0 (by omega), fun _ => ⟨fun pic hf => ⟨fun hm => ?_, fun hm => ⟨fun hl => ?_, fun hl => ?_⟩,
    fun hm => ?_, fun hm => ?_⟩, fun hf => ⟨fun hm => ?_, fun hm => ?_, fun hm => ⟨fun hl => ?_, fun hl => ?_⟩, fun hm => ?_⟩⟩⟩
  · by_cases hl : e.lockCount = 1 <;>
      simp [SourceUnit.judged, SourceUnit.exchanged, SourceUnit.onFresh, SourceUnit.taking, hf, hm, hl]
  · simp [SourceUnit.judged, SourceUnit.exchanged, SourceUnit.onFresh, SourceUnit.taking, hf, hm,
      show e.lockCount ≤ min Config.goodCeiling (u.good + 1) from hl]
    rfl
  · simp [SourceUnit.judged, SourceUnit.exchanged, SourceUnit.onFresh, SourceUnit.taking, hf, hm,
      show ¬e.lockCount ≤ min Config.goodCeiling (u.good + 1) from Nat.not_le.mpr hl]
    rfl
  · simp [SourceUnit.judged, SourceUnit.exchanged, SourceUnit.onFresh, SourceUnit.taking, hf, hm]
  · simp [SourceUnit.judged, SourceUnit.exchanged, SourceUnit.onFresh, SourceUnit.taking, hf, hm]
  all_goals
    have hj : (u.judged e) = u.onMissed e.tolerance := by
      unfold SourceUnit.judged
      split
      · rename_i lines g
        exact absurd g (hf lines)
      · rfl
  · simp [hj, SourceUnit.onMissed, SourceUnit.taking, hm]
  · simp [hj, SourceUnit.onMissed, SourceUnit.taking, hm]
  · simp [hj, SourceUnit.onMissed, SourceUnit.taking, hm,
      show e.tolerance ≤ min Config.missedCeiling (u.missed + 1) from hl]
    rfl
  · simp [hj, SourceUnit.onMissed, SourceUnit.taking, hm,
      show ¬e.tolerance ≤ min Config.missedCeiling (u.missed + 1) from Nat.not_le.mpr hl]
    rfl
  · simp [hj, SourceUnit.onMissed, SourceUnit.taking, hm]
    rfl

/-- A unit without a declared height is judged as it is. -/
theorem judgedTo_still {e : PlanEntry} {u : SourceUnit} (h : u.sh = 0) : judgedTo e u (u.taking true) :=
  ⟨fun _ => rfl, fun h1 => absurd h (by omega)⟩

section
variable {p : PortId} {s : State}

theorem running_iff : running p s = true ↔ (s.port p).attach = .attached ∧ 1 ≤ (s.unit p).sh := by
  simp [running, SourceUnit.runsWhen]

theorem judgement_running (h : running p s = true) : judgement p s = (s.unit p).judged (s.entry p) := if_pos h

theorem judgement_still (h : running p s = false) : judgement p s = (s.unit p, none) := by simp [judgement, h]

/-- The unit of an ATTACHED port after its judgement and pulse, running or not. -/
theorem judgedTo_judgement (h : (s.port p).attach = .attached) :
    judgedTo (s.entry p) (s.unit p) ((judgement p s).1.taking true) := by
  by_cases hs : 1 ≤ (s.unit p).sh
  · rw [judgement_running (running_iff.mpr ⟨h, hs⟩)]
    exact judgedTo_judged hs
  · have hr : running p s = false := by
      rw [Bool.eq_false_iff]
      exact fun g => hs (running_iff.mp g).2
    rw [judgement_still hr]
    exact judgedTo_still (by omega)

/-- The judgement of an ATTACHED port's unit raises a notice exactly where the unit runs and reaches a count. -/
theorem judgement_raises_iff (h : (s.port p).attach = .attached) :
    (judgement p s).2 = none ↔ ¬(1 ≤ (s.unit p).sh ∧ reachesCount (s.entry p) (s.unit p)) := by
  by_cases hs : 1 ≤ (s.unit p).sh
  · rw [judgement_running (running_iff.mpr ⟨h, hs⟩), judged_raises_iff]
    simp [hs]
  · have hr : running p s = false := by
      rw [Bool.eq_false_iff]
      exact fun g => hs (running_iff.mp g).2
    simp [judgement_still hr, hs]
end

/-! ### Packets (R108 to R112) -/

section
variable {p : PortId} {f : SourceUnit → Filling} {s : State}

theorem withFilling_eq (g : Filling) : withFilling p g s = s.setUnit p { s.unit p with filling := g } := rfl

/-- A packet at a running unit: the bank it leaves, and a frame start that waits and has no count to reach any more. -/
theorem packet_filled (ha : (s.port p).attach = .attached) (hs : 1 ≤ (s.unit p).sh) :
    filled p (f (s.unit p)) s (packet p f s) := by
  rw [packet, if_pos (running_iff.mpr ⟨ha, hs⟩), ← withFilling_eq, settleUnit_eq]
  have hu : (withFilling p (f (s.unit p)) s).unit p = { s.unit p with filling := f (s.unit p) } := by simp [withFilling_eq]
  have hat : ((withFilling p (f (s.unit p)) s).port p).attach = .attached := ha
  have raises := judgement_raises_iff (s := withFilling p (f (s.unit p)) s) (p := p) hat
  rw [hu] at raises ⊢
  refine ⟨fun h => ?_, fun hw hn => ?_⟩
  · refine if_neg fun g => ?_
    rcases h with h | h
    · exact Bool.false_ne_true (h.symm.trans g.1)
    · exact raises.mp g.2 ⟨hs, h⟩
  · have hj := judgedTo_judgement hat
    rw [hu] at hj
    refine ⟨_, hj, ?_⟩
    rw [if_pos ⟨hw, raises.mpr fun g => hn g.2⟩, withFilling_eq, State.setUnit_setUnit, SourceUnit.taking]
    simp only [decide_true, State.port_setUnit, ha]
    rfl

/-- Without a frame start that waits a packet leaves the bank and nothing else. -/
theorem packet_still (ha : (s.port p).attach = .attached) (hs : 1 ≤ (s.unit p).sh)
    (hw : (s.unit p).frameWaiting = false) : packet p f s = withFilling p (f (s.unit p)) s :=
  (packet_filled ha hs).1 (.inl hw)

/-- A unit that does not run ignores packets. -/
theorem packet_ignored (h : (s.port p).attach ≠ .attached ∨ (s.unit p).sh = 0) : packet p f s = s := by
  refine if_neg fun g => ?_
  obtain ⟨ha, hs⟩ := running_iff.mp g
  exact h.elim (fun x => x ha) fun x => by omega
end

/-- Settles O33: a frame-begin marker is a packet. -/
theorem frameBeginStartsReceiving : Obligations.FrameBeginStartsReceiving := fun _ _ =>
  ⟨fun ha hs => ⟨fun hw => congrArg Host.Outcome.next (packet_still (f := fun _ => .receiving []) ha hs hw), _, rfl,
      packet_filled (f := fun _ => .receiving []) ha hs⟩,
    fun h => congrArg Host.Outcome.next (packet_ignored h)⟩

theorem Filling.malformed_eq (f : Filling) : f.malformed = .empty := by cases f <;> rfl

/-- Settles O34: the rows of table 6.2 give the bank, and packet_filled the rest. -/
theorem packetsFillBank : Obligations.PacketsFillBank := by
  intro p index pixels s leaves
  refine ⟨fun ha hs => ?runs, fun h => ⟨congrArg Host.Outcome.next (packet_ignored h),
    congrArg Host.Outcome.next (packet_ignored h), congrArg Host.Outcome.next (packet_ignored h)⟩⟩
  have by_packet : ∀ (c : Instr) (f : SourceUnit → Filling) (g : Filling), exec c s = .next (packet p f s) →
      f (s.unit p) = g → leaves c g := by
    rintro c f g hc rfl
    exact ⟨fun hw => hc.trans (congrArg Host.Outcome.next (packet_still ha hs hw)), _, hc, packet_filled ha hs⟩
  have line := fun g => by_packet (.linePacket p index pixels) _ g rfl
  have frameEnd := fun g => by_packet (.frameEndMarker p) _ g rfl
  refine ⟨fun lines hf => ⟨fun h1 h2 h3 => line _ ?_, fun h => line _ ?_, fun h => frameEnd _ ?_, fun h => frameEnd _ ?_⟩,
    fun lines hf => ⟨line _ ?_, frameEnd _ ?_⟩, fun hf => ⟨line _ ?_, frameEnd _ ?_⟩,
    by_packet _ (fun u => u.filling.malformed) _ rfl (Filling.malformed_eq _)⟩
  · simp only [Filling.line, hf]
    exact if_pos ⟨h1, h2, h3⟩
  · simp only [Filling.line, hf]
    refine (if_neg fun g => ?_).trans (Filling.malformed_eq _)
    rcases h with h | h | h
    · exact h g.1
    · exact absurd g.2.1 (Nat.not_lt.mpr h)
    · exact h g.2.2
  · simp only [Filling.frameEnd, hf]
    exact if_pos h
  · simp only [Filling.frameEnd, hf]
    exact if_neg h
  · simp only [Filling.line, hf]
    exact Filling.malformed_eq _
  · simp only [Filling.frameEnd, hf]
  · simp only [Filling.line, hf]
    exact Filling.malformed_eq _
  · simp only [Filling.frameEnd, hf]

/-! ### The judgements that reach a count (R114, R116) -/

section
variable {p : PortId} {s : State}

/-- The row of a count that the judgement of the waiting frame start reaches. -/
theorem takeFrameStart_reaching {k : NoticeKind} {v : SourceUnit} (ha : (s.port p).attach = .attached)
    (hs : 1 ≤ (s.unit p).sh) (hw : (s.unit p).frameWaiting = true)
    (hj : (s.unit p).judged (s.entry p) = (v, some k)) :
    crossingDue p k s = true ∧ takeFrameStart p s =
      storeNotices (judgementNotices p v (some k) s) (s.setUnit p (v.taking true)) := by
  have hr := judgement_running (running_iff.mpr ⟨ha, hs⟩)
  refine ⟨by simp [crossingDue, hw, hr, hj], ?_⟩
  have notices : ∀ w, judgementNotices p v (some k) (s.setUnit p w) = judgementNotices p v (some k) s := fun _ => rfl
  simp [takeFrameStart, hw, hr, hj, ha, notices]
end

/-- Settles O35: the two rows of R114 that raise a notice. -/
theorem lockAndLossReached : Obligations.LockAndLossReached := by
  intro p s ha hs hw after note
  refine ⟨fun pic good hf hl => ?lock, fun missed hf hm hmiss hl => ?loss⟩
  case lock =>
    have hj : (s.unit p).judged (s.entry p) = ({ s.unit p with
        showingBank := (s.unit p).showingBank.other, showing := some pic, filling := .empty,
        monitor := .locked, good := good, missed := 0 }, some .sourceLocked) := by
      rcases hl with ⟨hm, hc, rfl⟩ | ⟨hm, rfl, hc⟩
      · simp [SourceUnit.judged, hf, SourceUnit.exchanged, SourceUnit.onFresh, hm, hc]
      · simp [SourceUnit.judged, hf, SourceUnit.exchanged, SourceUnit.onFresh, hm,
          show (s.entry p).lockCount ≤ min Config.goodCeiling ((s.unit p).good + 1) from hc]
        rfl
    obtain ⟨due, taken⟩ := takeFrameStart_reaching ha hs hw hj
    simp only [exec, execLockCountReached, due, if_true, taken]
    rfl
  case loss =>
    have hj : (s.unit p).judged (s.entry p) =
        ({ s.unit p with monitor := .lost, good := 0, missed := missed }, some .sourceLost) := by
      have ht : (s.unit p).judged (s.entry p) = (s.unit p).onMissed (s.entry p).tolerance := by
        unfold SourceUnit.judged
        split
        · rename_i lines g
          exact absurd g (hf lines)
        · rfl
      subst hmiss
      simp [ht, SourceUnit.onMissed, hm,
        show (s.entry p).tolerance ≤ min Config.missedCeiling ((s.unit p).missed + 1) from hl]
      rfl
    obtain ⟨due, taken⟩ := takeFrameStart_reaching ha hs hw hj
    simp only [exec, execLossToleranceReached, due, if_true, taken, judgementNotices]
    by_cases h0 : p = .p0
    · subst h0
      rfl
    · rw [if_neg h0, if_neg h0]
      rfl

/-! ### SOURCE-FORMAT (R123) -/

theorem holdsLinked_iff {p : PortId} {s : State} :
    holdsLinked p s = true ↔ ∃ x ∈ s.layout.slots, x.owner? = some p ∧ x.kind? = some .linked := by
  simp [holdsLinked]

/-- A unit whose FILLING bank is EMPTY and that is in NO_SIGNAL reaches no count, and a judgement leaves its state. -/
theorem judgement_forced {p : PortId} {s : State} (hf : (s.unit p).filling = .empty)
    (hm : (s.unit p).monitor = .noSignal) (hg : (s.unit p).good = 0) :
    judgement p s = (s.unit p, none) := by
  unfold judgement
  split
  · rw [SourceUnit.judged, hf]
    simp only [SourceUnit.onMissed, hm]
    rw [← hm, ← hg]
  · rfl

/-- Settles O32: the two checks, and the size taken by a forced unit. -/
theorem sourceFormatTakesSize : Obligations.SourceFormatTakesSize := by
  intro p r rest sw sh s h hw hh hr inRange linked size
  have served : exec (.sourceFormat p) s = .next (sourceFormatBody p r (taken p rest s)) :=
    congrArg Host.Outcome.next (serve_takes h (sourceFormatBody p))
  have hsw : param16 r.params 0 = sw := by rw [hr, param16_le16_zero hw]
  have hsh : param16 r.params 2 = sh := by rw [hr, param16_le16_two hh]
  have hlinked : holdsLinked p (taken p rest s) = true ↔ linked := holdsLinked_iff
  simp only [sourceFormatBody, hsw, hsh] at served
  refine ⟨fun hn => ?_, fun hi hl => ?_, fun hi hl => ?_⟩
  · rw [if_pos (Bool.eq_false_iff.mpr fun g => hn (sizeOk_iff.mp g))] at served
    exact served
  · rw [sizeOk_iff.mpr hi, if_neg (by simp), if_pos (hlinked.mpr hl)] at served
    exact served
  · rw [sizeOk_iff.mpr hi, if_neg (by simp), if_neg (fun g => hl (hlinked.mp g))] at served
    refine served.trans (congrArg Host.Outcome.next ?_)
    have attached : ((taken p rest s).port p).attach = .attached := by simpa using h.attached
    rw [settleUnit_eq, judgement_forced (by simp [SourceUnit.forced]) (by simp [SourceUnit.forced])
      (by simp [SourceUnit.forced])]
    cases hf : (s.unit p).frameWaiting with
    | false =>
      have hwait : ¬(((taken p rest s).setUnit p
          { ((taken p rest s).unit p).forced with sw := sw, sh := sh }).unit p).frameWaiting = true := by
        simp [SourceUnit.forced, hf]
      rw [if_neg fun g => hwait g.1]
      simp only [SourceUnit.forced, State.unit_taken, Bool.or_false, hf, sizeFields, State.unit_setUnit, if_true]
      rfl
    | true =>
      have hwait : (((taken p rest s).setUnit p
          { ((taken p rest s).unit p).forced with sw := sw, sh := sh }).unit p).frameWaiting = true := by
        simp [SourceUnit.forced, hf]
      rw [if_pos ⟨hwait, rfl⟩]
      simp only [SourceUnit.forced, State.unit_taken, Bool.or_true, sizeFields, State.unit_setUnit, if_true,
        State.setUnit_setUnit, State.port_setUnit, attached, decide_true]
      rfl

end Sys2Proof.Machine
end

