-- ==== Sys2Proof/Proofs/PanelRequests.lean ====
section
/-! PROOFS. The panel requests (08), the warm count, and HIT (02). -/

namespace Sys2Proof.Machine

/-! ### The warm count (R143, R147) -/

theorem takeWarmCount_none {s : State} (h : s.scan.warmWaiting = false) : takeWarmCount s = s := by
  simp [takeWarmCount, h]

/-- Settles O47: the count that waits completes, or the command does nothing. -/
theorem warmCountEntersLive : Obligations.WarmCountEntersLive := by
  intro s hp hw
  refine ⟨fun h => ?_, fun h => ?_⟩
  · have taken : takeWarmCount s = storeAll
        { kind := .panelState, subject := 0x02, frame := s.scan.frame, count := 1, detail := s.scan.panel.byte }
        (s.setScan { s.scan with panel := .live, warm := 0, warmWaiting := false }) := by
      rcases takeWarmCount_cases s with ⟨g, -⟩ | ⟨-, -, g⟩ | ⟨-, g, -⟩
      · rw [hw] at g
        cases g
      · exact g
      · omega
    simp only [exec, execWarmCountReached, hw, h, decide_true, Bool.and_self, if_true, taken, hp]
    rfl
  · simp [exec, execWarmCountReached, Nat.not_le.mpr h]

/-- What the warm count changes: the Scan Timer's state and count, and notices. -/
theorem takeWarmCount_only (s : State) :
    NoticesOnly (s.setScan (takeWarmCount s).scan) (takeWarmCount s) := by
  rcases takeWarmCount_cases s with ⟨-, h⟩ | ⟨-, -, h⟩ | ⟨-, -, h⟩
  · rw [h]
    exact .refl s
  · have g := storeAll_only
      { kind := .panelState, subject := 0x02, frame := s.scan.frame, count := 1, detail := s.scan.panel.byte }
      (s.setScan { s.scan with panel := .live, warm := 0, warmWaiting := false })
    rw [h, g.scan]
    exact g
  · rw [h]
    exact .refl _

section
variable (s : State)

@[simp] theorem takeWarmCount_layout : (takeWarmCount s).layout = s.layout := (takeWarmCount_only s).layout
@[simp] theorem takeWarmCount_sources : (takeWarmCount s).sources = s.sources := (takeWarmCount_only s).sources
@[simp] theorem takeWarmCount_comp : (takeWarmCount s).comp = s.comp := (takeWarmCount_only s).comp
@[simp] theorem takeWarmCount_marks : (takeWarmCount s).marks = s.marks := (takeWarmCount_only s).marks
@[simp] theorem takeWarmCount_pending : (takeWarmCount s).pending = s.pending := (takeWarmCount_only s).pending

/-- The warm count touches neither the setup, nor the frame number, nor the scan position, nor COOLING's count. -/
theorem takeWarmCount_scan : (takeWarmCount s).scan =
    { s.scan with
      panel := (takeWarmCount s).scan.panel
      warm := (takeWarmCount s).scan.warm
      warmWaiting := (takeWarmCount s).scan.warmWaiting } := by
  rcases takeWarmCount_cases s with ⟨-, h⟩ | ⟨-, -, h⟩ | ⟨-, -, h⟩
  · rw [h]
  · rw [h, (storeAll_only _ _).scan]
    rfl
  · rw [h]
    rfl

@[simp] theorem takeWarmCount_setup : (takeWarmCount s).scan.setup = s.scan.setup := by rw [takeWarmCount_scan]
@[simp] theorem takeWarmCount_frame : (takeWarmCount s).scan.frame = s.scan.frame := by rw [takeWarmCount_scan]
@[simp] theorem takeWarmCount_pos : (takeWarmCount s).scan.pos = s.scan.pos := by rw [takeWarmCount_scan]

theorem takeWarmCount_frameField : (takeWarmCount s).frameField = s.frameField := by simp [State.frameField]
end

/-! ### PANEL-OFF and READ-PANEL (R145, R149) -/

/-- Settles O42: with no warm count waiting both read the Scan Timer as it is. -/
theorem panelOffAndReadPanel : Obligations.PanelOffAndReadPanel := by
  intro p r rest s hw
  have none : ∀ q, takeWarmCount (taken q rest s) = taken q rest s := fun q => takeWarmCount_none hw
  refine ⟨fun h => ?off, fun h => ?read⟩
  case off =>
    have served : exec (.panelOff .p0) s = .next (panelOffBody .p0 r (taken .p0 rest s)) :=
      congrArg Host.Outcome.next (serve_takes h (panelOffBody .p0))
    simp only [panelOffBody, none, State.scan_taken] at served
    refine ⟨fun hp => ?_, fun hp => ?_⟩
    · rcases hp with hp | hp <;> rw [served, hp] <;>
        simp only [enterPanel, announcePanel, respond_eq_replied, State.setScan_scan,
          State.frameField, (storeAll_only _ _).scan] <;>
        rw [← s.frameField_eq_frameNow] <;> rfl
    · rcases hp with hp | hp <;> rw [served, hp] <;> simp only [State.frameField_taken] <;> rfl
  case read =>
    have served : exec (.readPanel p) s = .next (readPanelBody p r (taken p rest s)) :=
      congrArg Host.Outcome.next (serve_takes h (readPanelBody p))
    simp only [readPanelBody, none, readPanelFields, State.frameField_taken, State.scan_taken] at served
    rw [served]
    cases hp : s.scan.panel <;> cases hq : s.scan.pos <;>
      simp [answered, respond_eq_replied, scanPosBytes, PanelState.byte, ScanTimer.counter, hp, Setup.bytes] <;>
      rfl

/-! ### PANEL-SETUP (R148) -/

theorem Setup.inRange_iff (u : Setup) : u.inRange = true ↔ u.Lawful := by
  simp only [Setup.inRange, Setup.Lawful, Bool.and_eq_true, decide_eq_true_eq, and_assoc]

/-- The first port in port order with a property. -/
theorem PortId.find?_all_eq_some {f : PortId → Bool} {q : PortId} (hq : f q = true)
    (hl : ∀ j : PortId, j.toNat < q.toNat → f j = false) : PortId.all.find? f = some q := by
  have h0 := hl .p0
  have h1 := hl .p1
  have h2 := hl .p2
  cases q <;> simp_all [PortId.all, PortId.toNat]

theorem PortId.find?_all_eq_none {f : PortId → Bool} (h : ∀ q, f q = false) : PortId.all.find? f = none :=
  List.find?_eq_none.mpr fun q _ => by simp [h q]

/-- Settles O40: the checks of R148 in their order. -/
theorem panelSetupTakesFields : Obligations.PanelSetupTakesFields := by
  intro r rest w h vblank warm cool divider s ht hw hh hr new bytes outside answer
  have served : exec (.panelSetup .p0) s = .next (panelSetupBody .p0 r (taken .p0 rest s)) :=
    congrArg Host.Outcome.next (serve_takes ht (panelSetupBody .p0))
  have hnew : paramSetup r.params = new := by
    rw [hr]
    simp only [paramSetup, new, Setup.mk.injEq]
    exact ⟨toNat_le16 hw, toNat_le16 hh, rfl, rfl, rfl, rfl⟩
  have fields : ∀ q, setupFields q (taken .p0 rest s) = s.frameNow ++ [portOrAbsent q] ++ bytes s.scan.setup := fun q => by
    simp only [setupFields, State.frameField_taken]
    rfl
  have fault : ∀ q, ((s.entry q).enabled && (decide (new.w < (s.entry q).tx + (s.entry q).tw) ||
      decide (new.h < (s.entry q).ty + (s.entry q).th))) = true ↔ outside q := fun q => by simp [outside, new]
  simp only [panelSetupBody, hnew, State.scan_taken] at served
  refine ⟨fun hp => ?_, fun hp hn => ?_, fun hp hl => ⟨fun q hq hj => ?_, fun hq => ?_⟩⟩
  · rw [if_pos hp, fields] at served
    exact served
  · rw [if_neg (not_not.mpr hp), if_pos (Bool.eq_false_iff.mpr fun g => hn (new.inRange_iff.mp g)), fields] at served
    exact served
  · have named : setupFault new (taken .p0 rest s) = some q :=
      PortId.find?_all_eq_some ((fault q).mpr hq) fun j hjq => Bool.eq_false_iff.mpr ((fault j).not.mpr (hj j hjq))
    rw [if_neg (not_not.mpr hp), new.inRange_iff.mpr hl, if_neg (by simp), named] at served
    simp only [fields] at served
    exact served
  · have unnamed : setupFault new (taken .p0 rest s) = none :=
      PortId.find?_all_eq_none fun q => Bool.eq_false_iff.mpr ((fault q).not.mpr (hq q))
    rw [if_neg (not_not.mpr hp), new.inRange_iff.mpr hl, if_neg (by simp), unnamed] at served
    simp only [setupFields, State.frameField_setScan] at served
    rw [frameBytes_eq] at served
    exact served

/-! ### HIT (R37 to R39) -/

section
variable {s t : State}

/-- Stacking and contents read the Layout Store and the Source Units. -/
theorem stackRegions_congr (h : t.layout = s.layout) : stackRegions t = stackRegions s := by
  have hs : t.slot = s.slot := by
    funext i
    simp only [State.slot, h]
  have hl : t.lay = s.lay := by
    funext p
    simp only [State.lay, h]
  have he : t.entry = s.entry := by
    funext p
    simp only [State.entry, h]
  have hr : liveRegion t = liveRegion s := by
    funext i
    simp only [liveRegion, hs]
  simp only [stackRegions, displayedStack, portsOfRank, hl, he, hr]

theorem regionContent_congr (h : t.sources = s.sources) (g : LiveRegion) : regionContent t g = regionContent s g := by
  simp only [regionContent, State.unit, h]

theorem givingRegion_congr (h : t.layout = s.layout) (h' : t.sources = s.sources) (x y : Nat) :
    givingRegion t x y = givingRegion s x y := by
  simp only [givingRegion, stackRegions_congr h, regionContent_congr h']

/-- The regions that a point's lookup keeps. -/
theorem showsAt_iff (x y : Nat) (g : LiveRegion) :
    showsAt s x y g ↔ (g.copy.covers x y && decide (regionContent s g ≠ .none)) = true := by
  simp [showsAt, Copy.covers, and_assoc]

theorem givingRegion_eq_none {x y : Nat} (h : ∀ g ∈ stackRegions s, ¬showsAt s x y g) : givingRegion s x y = none := by
  rw [givingRegion, List.getLast?_eq_none_iff, List.filter_eq_nil_iff]
  exact fun g hg hs => h g hg ((showsAt_iff x y g).mpr hs)

/-- The giving region is the topmost of those that show (R28). -/
theorem givingRegion_eq_some {x y : Nat} {g : LiveRegion} (h : givesPoint s x y g) : givingRegion s x y = some g := by
  obtain ⟨below, above, hs, hg, ha⟩ := h
  have none : above.filter (fun r => r.copy.covers x y && decide (regionContent s r ≠ .none)) = [] :=
    List.filter_eq_nil_iff.mpr fun r hr g => ha r hr ((showsAt_iff x y r).mpr g)
  have shows := (showsAt_iff x y g).mp hg
  rw [givingRegion, hs, List.filter_append, List.filter_cons, if_pos shows, none]
  simp
end

/-- Settles O19: HIT answers the giving region, or BACKGROUND. -/
theorem hitAnswers : Obligations.HitAnswers := by
  intro p r rest x y s u h hx hy hr hu answer
  have served : exec (.hit p) s = .next (hitBody p r (taken p rest s)) :=
    congrArg Host.Outcome.next (serve_takes h (hitBody p))
  have hpx : param16 r.params 0 = x := by rw [hr, param16_le16_zero hx]
  have hpy : param16 r.params 2 = y := by rw [hr, param16_le16_two hy]
  have hsetup : u.scan.setup = s.scan.setup := by rw [hu, takeWarmCount_setup, State.scan_taken]
  have hlay : u.layout = s.layout := by rw [hu, takeWarmCount_layout, State.layout_taken]
  have hsrc : u.sources = s.sources := by rw [hu, takeWarmCount_sources]; rfl
  have hframe : u.frameField = s.frameNow := by rw [hu, takeWarmCount_frameField, State.frameField_taken]
  simp only [hitBody, hpx, hpy, ← hu, hsetup] at served
  refine ⟨fun ho => ?range, fun hxw hyh => ⟨fun hn => ?none, fun g hg => ⟨fun hp ho => ?foreign, fun ho => ?own⟩⟩⟩
  case range =>
    rw [if_pos ho] at served
    exact served
  all_goals
    rw [if_neg (by omega)] at served
    simp only [hitFields, lookup, givingRegion_congr hlay hsrc, regionContent_congr hsrc, hframe] at served
  case none =>
    rw [givingRegion_eq_none hn] at served
    refine served.trans ?_
    simp [respond_eq_replied, Showing.byte, regionOrAbsent, absentByte]
  case foreign =>
    rw [givingRegion_eq_some hg] at served
    refine served.trans ?_
    simp [respond_eq_replied, Showing.byte, regionOrAbsent, absentByte, hp, ho]
  case own =>
    have ho : ¬(p ≠ .p0 ∧ g.owner ≠ p) := fun n => ho.elim n.1 n.2
    rw [givingRegion_eq_some hg] at served
    simp only [if_neg ho] at served
    refine ⟨fun hc => served.trans ?_, fun hc => served.trans ?_⟩ <;> rw [hc] <;>
      simp [respond_eq_replied, Showing.byte, regionOrAbsent]

end Sys2Proof.Machine
end

