-- ==== Sys2Proof/Proofs/Reads.lean ====
section
/-! PROOFS. READ-PORT (R170), the checks on the region that a draft request names (R43), and READ-DRAFT (R52). -/

namespace Sys2Proof.Machine

/-! ### READ-PORT (R170) -/

section
variable {p q : PortId} {r : Request} {rest : List Request} {b : Byte} {s : State}

theorem exec_readPort_takes (h : Takes .readPort p r rest s) :
    exec (.readPort p) s = .next (readPortBody p r (taken p rest s)) :=
  congrArg Host.Outcome.next (serve_takes h (readPortBody p))

theorem exec_readPort_done (h : Takes .readPort p r rest s) (hr : r.params = [b]) (hq : b.toNat = q.toNat)
    (ho : p = .p0 ∨ q = p) :
    exec (.readPort p) s = .next (replied p r .done (readPortFields p q (takeReports (taken p rest s)))
      (takeReports (taken p rest s))) := by
  have ho : ¬(p ≠ .p0 ∧ q ≠ p) := fun hn => ho.elim hn.1 hn.2
  simp [exec_readPort_takes h, readPortBody, hr, hq, PortId.ofNat?_toNat, if_neg ho, respond_eq_replied]
end

/-- Settles O15: the fields of READ-PORT, each code by its table. -/
theorem readPortReports : Obligations.ReadPortReports := by
  intro p r rest b s h hr
  refine ⟨fun hb => ?range, fun q hq => ⟨fun hp hn => ?notOwner, fun ho => ⟨takeReports (taken p rest s), rfl, ?done⟩⟩⟩
  case range => simp [exec_readPort_takes h, readPortBody, hr, PortId.ofNat?_of_gt hb, respond_eq_replied, answered]
  case notOwner =>
    simp [exec_readPort_takes h, readPortBody, hr, hq, PortId.ofNat?_toNat, hp, hn, respond_eq_replied, answered]
  case done =>
    rw [exec_readPort_done h hr hq ho, readPortFields, takeReports_frameField, State.frameField_taken]
    generalize takeReports (taken p rest s) = u
    congr!
    · cases (u.port q).attach with
      | leaving reason _ => cases reason <;> rfl
      | _ => rfl
    · cases (u.port q).attach with
      | leaving _ retired => cases retired <;> rfl
      | _ => rfl
    · cases (u.port q).engine <;> rfl
    · simp only [State.editState, PortLayout.editState]
      cases (u.lay q).draft <;> cases (u.lay q).sealedSet <;> rfl

/-! ### The region that a draft request names (R43) -/

section
variable {p : PortId} {r : Request} {rest : List Request} {b : Byte} {more : List Byte} {s : State}

/-- The six requests on a region of the open draft make the same checks first. -/
theorem exec_draftRegion {k : RequestKind}
    (hk : k ∈ [.place, .source, .style, .order, .retire, .readDraft]) (h : Takes k p r rest s) :
    ∃ work, exec (requestCommand k p) s = .next (onDraftRegion p r work (taken p rest s)) := by
  simp only [List.mem_cons, List.not_mem_nil, or_false] at hk
  rcases hk with rfl | rfl | rfl | rfl | rfl | rfl <;>
    exact ⟨_, congrArg Host.Outcome.next (serve_takes h _)⟩

/-- A region that fails a check of R43 gives that check's result. -/
theorem onDraftRegion_fault {work : Proposal → Nat → State → State} {d : Proposal} {res : Result}
    (hr : r.params = b :: more) (hd : (s.lay p).draft = some d) (hf : regionFault p d b.toNat s = some res) :
    onDraftRegion p r work (taken p rest s) = answered p r rest res [(s.editState p).byte] s := by
  simp [onDraftRegion, hd, hr, hf, respondEdit_taken]
end

/-- Settles O20: the checks of R43 in their order, whichever of the six requests. -/
theorem draftRegionChecks : Obligations.DraftRegionChecks := by
  intro k p r rest b more s hk h hr answer
  obtain ⟨work, served⟩ := exec_draftRegion hk h
  refine ⟨fun hd => ?_, fun d hd => ⟨fun hb => ?_, fun hb ho => ?_, fun hb ho hn => ?_⟩⟩ <;>
    refine served.trans (congrArg Host.Outcome.next ?_)
  · simp [onDraftRegion, hd, respondEdit_taken]
  · exact onDraftRegion_fault hr hd (regionFault_of_gt hb)
  · exact onDraftRegion_fault hr hd (regionFault_of_notOwner hb ho)
  · exact onDraftRegion_fault hr hd (regionFault_of_unnamed hb ho hn)

/-! ### READ-DRAFT (R52) -/

/-- The copy that a proposal holds of the region its entry e names first. -/
theorem copyIn_middle {a b : Proposal} {e : DraftEntry} (h : e.id ∉ a.ids) :
    copyIn (a ++ e :: b) e.id = some e.copy := by
  have ha : a.find? (fun x => x.id == e.id) = none :=
    List.find?_eq_none.mpr fun x hx he => h (List.mem_map.mpr ⟨x, hx, eq_of_beq he⟩)
  simp [copyIn, List.find?_append, ha]

/-- Settles O28: the region's state from the table, the rest from the copy (R181). -/
theorem readDraftAnswers : Obligations.ReadDraftAnswers := by
  intro p r rest id a b e k head s h hr hd he ha hi hs
  have owner : (s.slot id.toNat).owner? = some p := by
    rcases hs with ⟨hs, -⟩ | ⟨g, c, hs, -⟩ <;> rw [hs] <;> rfl
  have names : OpenNames p (a ++ e :: b) id.toNat s :=
    ⟨hd, hi, owner, by rw [← he]; simp⟩
  have record : (s.slot id.toNat).draftRecord e.copy = head ++ copyBytes k e.copy := by
    rcases hs with ⟨hs, rfl⟩ | ⟨g, c, hs, rfl⟩ <;> rw [hs, ← k.byte_eq_ite] <;> rfl
  have served : exec (.readDraft p) s = .next (readDraftWork p r (a ++ e :: b) id.toNat (taken p rest s)) :=
    congrArg Host.Outcome.next ((serve_takes h _).trans (onDraftRegion_named _ hr names))
  rw [served, readDraftWork, ← he, copyIn_middle (he ▸ ha), he]
  simp only [State.slot_taken, record, respondEdit_taken, copyBytes_eq]
  refine congrArg Host.Outcome.next (congrArg (fun fields => answered p r rest .done fields s) ?_)
  simp [orderBytes, Proposal.ids, List.map_map, Function.comp_def]

end Sys2Proof.Machine
end

