-- ==== Sys2Proof/Proofs/Leaving.lean ====
section
/-! PROOFS. The entry into LEAVING and the retirement of a port's regions (9.8), each as what it makes of the port's own
part; and BYE, EJECT and RESTART. -/

namespace Sys2Proof.Machine

/-! ### Deferred responses -/

/-- The request of a kind whose response a port is owed. -/
def PortController.owed (k : RequestKind) (c : PortController) : Option Request :=
  c.deferred.find? fun r => r.code == k.code

/-- A Port Controller after the deferred response of a kind is placed, if one is owed. -/
def PortController.paid (k : RequestKind) (res : Result) (fields : List Byte) (c : PortController) : PortController :=
  { c with
    deferred := c.deferred.eraseP fun r => r.code == k.code
    responses := c.responses ++ (c.owed k).toList.map fun r => r.answer res fields }

theorem placeDeferred_eq (p : PortId) (k : RequestKind) (res : Result) (fields : List Byte) (s : State) :
    placeDeferred p k res fields s = s.setPort p ((s.port p).paid k res fields) := by
  unfold placeDeferred PortController.paid PortController.owed
  split
  · rename_i h
    have he : (s.port p).deferred.eraseP (fun r => r.code == k.code) = (s.port p).deferred :=
      List.eraseP_of_forall_not (by simpa using h)
    rw [h, he]
    simp only [Option.toList_none, List.map_nil, List.append_nil]
    exact (State.setPort_self s p).symm
  · rename_i r h
    simp [respond, h]

/-- What is erased is not what is looked for. -/
theorem find?_eraseP_of_disjoint {α : Type} {f g : α → Bool} (h : ∀ x, f x = true → g x = false) (xs : List α) :
    (xs.eraseP f).find? g = xs.find? g := by
  induction xs with
  | nil => rfl
  | cons x xs ih =>
    rw [List.eraseP_cons, List.find?_cons]
    by_cases hf : f x = true
    · simp [hf, h x hf]
    · simp only [hf, cond_false, List.find?_cons, ih]

/-- The response to one kind leaves the request of another owed. -/
theorem PortController.owed_paid {j k : RequestKind} (h : j.code ≠ k.code) (res : Result) (fields : List Byte)
    (c : PortController) : (c.paid j res fields).owed k = c.owed k :=
  find?_eraseP_of_disjoint (fun x hx => by
    rw [beq_iff_eq] at hx
    simpa [hx] using h) _

/-! ### What a port's entry into LEAVING makes of its part (R165) -/

/-- The Port Controller right after its port entered LEAVING, before its regions are retired. -/
def PortController.entered (zero : Bool) (reason : LeaveReason) (own : Option Response) (c : PortController) :
    PortController :=
  let d := (if zero then c.paid .planSet .cancelled [] else c).paid .publish .cancelled []
  { d with
    attach := .leaving reason false, requests := [], engine := .ready, notices := [], noticeLost := false
    responses := d.responses ++ own.toList ++ c.requests.map fun r => r.answer .cancelled [] }

/-- The state right after a port entered LEAVING, before its regions are retired. -/
def entered (p : PortId) (reason : LeaveReason) (own : Option Response) (s : State) : State :=
  ((((releaseUnnamed p ((if p = .p0 then s.setSealedPlan none else s).setLay p
    { s.lay p with draft := none, sealedSet := none })).setPort p
      ((s.port p).entered (decide (p = .p0)) reason own)).setLink p (s.link p).noticesCleared).setMarkList p []).setUnit p
        (s.unit p).silenced

section
variable {p : PortId} {reason : LeaveReason} {own : Option Response} {s : State}

theorem enterLeaving_eq : enterLeaving p reason own s =
    if (s.lay p).order.isEmpty then tellRetired p (entered p reason own s)
    else (entered p reason own s).setRetiring (s.layout.retiring ++ [p]) := by
  unfold enterLeaving entered
  simp only [cancelQueued_eq, dropSealedPlan, dropProposals, placeDeferred_eq, setEngine]
  have same : ∀ t u : State, t = u → (t.lay p).order = (s.lay p).order → t.layout.retiring = s.layout.retiring →
      (if (t.lay p).order.isEmpty then tellRetired p t else t.setRetiring (t.layout.retiring ++ [p])) =
        if (s.lay p).order.isEmpty then tellRetired p u else u.setRetiring (s.layout.retiring ++ [p]) := by
    rintro t _ rfl h g
    rw [h, g]
  by_cases hp : p = .p0
  all_goals
    refine same _ _ ?_ ?_ ?_ <;>
    simp [PortController.entered, PortController.paid, PortController.owed, hp, releaseUnnamed, State.mapSlots,
      State.setPort, State.setLay, State.setSlots, State.setMarkList, State.setUnit, State.setLink, State.setSealedPlan,
      State.port, State.lay, State.link, State.unit]

@[simp] theorem entered_port (q : PortId) : (entered p reason own s).port q =
    if q = p then (s.port p).entered (decide (p = .p0)) reason own else s.port q := by
  unfold entered
  split <;> simp [releaseUnnamed, State.mapSlots]

@[simp] theorem entered_link (q : PortId) :
    (entered p reason own s).link q = if q = p then (s.link p).noticesCleared else s.link q := by
  unfold entered
  split <;> simp [releaseUnnamed, State.mapSlots]

@[simp] theorem entered_lay (q : PortId) : (entered p reason own s).lay q =
    if q = p then { s.lay p with draft := none, sealedSet := none } else s.lay q := by
  unfold entered
  split <;> simp [releaseUnnamed, State.mapSlots]

@[simp] theorem entered_unit (q : PortId) :
    (entered p reason own s).unit q = if q = p then (s.unit p).silenced else s.unit q := by
  unfold entered
  split <;> simp [releaseUnnamed, State.mapSlots]

@[simp] theorem entered_markList (q : PortId) :
    (entered p reason own s).markList q = if q = p then [] else s.markList q := by
  unfold entered
  split <;> simp [releaseUnnamed, State.mapSlots]

@[simp] theorem entered_slot (i : Nat) :
    (entered p reason own s).slot i = if (s.slot i).reservedOf p = true then .free else s.slot i := by
  unfold entered
  simp only [State.slot_setUnit, State.slot_setMarkList, State.slot_setLink, State.slot_setPort, slot_releaseUnnamed]
  split <;> simp [optNames]

@[simp] theorem entered_plan : (entered p reason own s).layout.plan = s.layout.plan := by
  unfold entered
  split <;> simp [releaseUnnamed, State.mapSlots]

@[simp] theorem entered_sealedPlan :
    (entered p reason own s).layout.sealedPlan = if p = .p0 then none else s.layout.sealedPlan := by
  unfold entered
  split <;> simp [releaseUnnamed, State.mapSlots]

@[simp] theorem entered_retiring : (entered p reason own s).layout.retiring = s.layout.retiring := by
  unfold entered
  split <;> simp [releaseUnnamed, State.mapSlots]

@[simp] theorem entered_slots_length : (entered p reason own s).layout.slots.length = s.layout.slots.length := by
  unfold entered
  split <;> simp [releaseUnnamed, State.mapSlots]

@[simp] theorem entered_scan : (entered p reason own s).scan = s.scan := by
  unfold entered
  split <;> simp [releaseUnnamed, State.mapSlots]

@[simp] theorem entered_comp : (entered p reason own s).comp = s.comp := by
  unfold entered
  split <;> simp [releaseUnnamed, State.mapSlots]

@[simp] theorem entered_reports : (entered p reason own s).marks.reports = s.marks.reports := by
  unfold entered
  split <;> simp [releaseUnnamed, State.mapSlots]

@[simp] theorem entered_withdrawn : (entered p reason own s).marks.withdrawn = s.marks.withdrawn := by
  unfold entered
  split <;> simp [releaseUnnamed, State.mapSlots]

@[simp] theorem entered_pending : (entered p reason own s).pending = s.pending := by
  unfold entered
  split <;> simp [releaseUnnamed, State.mapSlots]
end

/-! ### What the retirement of a port's regions makes of its part (R70, R73, R166) -/

/-- The reason that PORT_LEFT carries where a port, told that its regions are retired, leaves LEAVING. -/
def PortController.leaves (c : PortController) : Option LeaveReason :=
  match c.attach, c.responses with
  | .leaving why _, [] => some why
  | _, _ => none

/-- A Port Controller that was told that its port's regions are retired, `on` being the live plan's word on it. -/
def PortController.retired (on : Bool) (c : PortController) : PortController :=
  { c with
    attach := match c.leaves with
      | some _ => if on then .detached else .disabled
      | none => c.attach.regionsRetired }

/-- The Source Unit of a port whose regions are retired. -/
def SourceUnit.retired (c : PortController) (u : SourceUnit) : SourceUnit :=
  match c.leaves with
  | some _ => u.silenced.undeclared
  | none => u

/-- The notices of a port whose regions are retired: PORT_LEFT to port 0 where it leaves. -/
def leftNotices (p : PortId) (s : State) : List (PortId × Notice) :=
  (s.port p).leaves.toList.map fun why => (.p0, noticeNow s .portLeft (portByte p) why.byte)

theorem PortController.leaves_eq_some {c : PortController} {why : LeaveReason} :
    c.leaves = some why ↔ (∃ b, c.attach = .leaving why b) ∧ c.responses = [] := by
  unfold PortController.leaves
  cases c.attach <;> cases c.responses <;> simp

theorem tellRetired_eq (p : PortId) (s : State) : tellRetired p s =
    storeNotices (leftNotices p s)
      ((s.setPort p ((s.port p).retired (s.entry p).enabled)).setUnit p ((s.unit p).retired (s.port p))) := by
  unfold tellRetired leftNotices PortController.retired SourceUnit.retired
  cases hl : (s.port p).leaves with
  | some why =>
    obtain ⟨⟨b, ha⟩, hr⟩ := PortController.leaves_eq_some.mp hl
    rcases leaveIfDone_cases p (s.setPort p { s.port p with attach := (s.port p).attach.regionsRetired }) with ⟨h, -⟩ | h
    · exact absurd hr (by simpa using h why (by simp [ha, Attach.regionsRetired]))
    · obtain ⟨r, har, -, h⟩ := h
      obtain rfl : why = r := by simpa [ha, Attach.regionsRetired] using har
      rw [h]
      simp [storeNotices, noticeNow]
      rfl
  | none =>
    have stays := leaveIfDone_stays (p := p)
      (s := s.setPort p { s.port p with attach := (s.port p).attach.regionsRetired }) (by
        by_cases hr : (s.port p).responses = []
        · refine .inr fun why g => ?_
          have : ∃ b, (s.port p).attach = .leaving why b := by
            cases ha : (s.port p).attach <;> simp_all [Attach.regionsRetired]
          exact nomatch hl.symm.trans (PortController.leaves_eq_some.mpr ⟨this, hr⟩)
        · exact .inl (by simpa using hr))
    rw [stays]
    simp only [storeNotices, Option.toList_none, List.map_nil, List.foldl_nil]
    exact (State.setUnit_self (s.setPort p _) p).symm

/-- Two Port Controllers agree in all but the notices, which only an ATTACHED port receives. -/
def PortController.Alike (c d : PortController) : Prop :=
  d = { c with notices := d.notices, noticeLost := d.noticeLost } ∧ (c.attach ≠ .attached → d = c)

theorem PortController.Alike.refl (c : PortController) : c.Alike c := ⟨rfl, fun _ => rfl⟩

theorem PortController.Alike.of_eq {c d : PortController} (h : d = c) : c.Alike d := by rw [h]; exact .refl c

section
variable {c d : PortController} (h : c.Alike d)
include h
theorem PortController.Alike.attach : d.attach = c.attach := by rw [h.1]
theorem PortController.Alike.requests : d.requests = c.requests := by rw [h.1]
theorem PortController.Alike.engine : d.engine = c.engine := by rw [h.1]
theorem PortController.Alike.deferred : d.deferred = c.deferred := by rw [h.1]
theorem PortController.Alike.responses : d.responses = c.responses := by rw [h.1]
theorem PortController.Alike.refusal : d.refusal = c.refusal := by rw [h.1]

theorem PortController.Alike.trans {e : PortController} (g : d.Alike e) : c.Alike e :=
  ⟨by rw [g.1, h.1], fun n => (g.2 (h.attach ▸ n)).trans (h.2 n)⟩

theorem PortController.Alike.leaves : d.leaves = c.leaves := by
  unfold PortController.leaves
  rw [h.attach, h.responses]

theorem PortController.Alike.retired (on : Bool) : (c.retired on).Alike (d.retired on) := by
  by_cases ha : c.attach = .attached
  · have keep : ∀ x : PortController, x.attach = .attached → x.retired on = x := fun x hx => by
      unfold PortController.retired PortController.leaves
      simp only [hx, Attach.regionsRetired]
      rw [← hx]
    rw [keep c ha, keep d (h.attach.trans ha)]
    exact h
  · rw [h.2 ha]
    exact .refl _

theorem SourceUnit.retired_congr (u : SourceUnit) : u.retired d = u.retired c := by
  unfold SourceUnit.retired
  rw [h.leaves]
end

theorem storeNotice_alike (p q : PortId) (n : Notice) (s : State) : (s.port q).Alike ((storeNotice p n s).port q) := by
  refine ⟨(storeNotice_only p n s).ports q, fun h => ?_⟩
  by_cases hp : q = p
  · subst hp
    simp [storeNotice, h]
  · exact storeNotice_port_ne hp n s

theorem storeNotices_alike (ns : List (PortId × Notice)) (q : PortId) (s : State) :
    (s.port q).Alike ((storeNotices ns s).port q) := by
  induction ns generalizing s with
  | nil => exact .refl _
  | cons n ns ih => exact (storeNotice_alike n.1 q n.2 s).trans (ih _)

theorem takeReports_alike (q : PortId) (s : State) : (s.port q).Alike ((takeReports s).port q) := by
  have key : ∀ (rs : List Report) (u : State), (u.port q).Alike ((rs.foldl takeReport u).port q) := by
    intro rs
    induction rs with
    | nil => exact fun _ => .refl _
    | cons x rs ih => exact fun u => (storeNotices_alike _ q (u.setMarkList x.owner _)).trans (ih _)
  exact key s.marks.reports (s.setReports [])

section
variable {s t : State} (h : NoticesOnly s t)
include h
theorem NoticesOnly.lay (p : PortId) : t.lay p = s.lay p := by simp only [State.lay, h.layout]
theorem NoticesOnly.slot (i : Nat) : t.slot i = s.slot i := by simp only [State.slot, h.layout]
theorem NoticesOnly.entry (p : PortId) : t.entry p = s.entry p := by simp only [State.entry, h.layout]
theorem NoticesOnly.unit (p : PortId) : t.unit p = s.unit p := by simp only [State.unit, h.sources]
theorem NoticesOnly.markList (p : PortId) : t.markList p = s.markList p := by simp only [State.markList, h.marks]
end

/-- A port told a second time that its regions are retired hears nothing new. -/
theorem PortController.retired_retired (on : Bool) (c : PortController) : (c.retired on).retired on = c.retired on := by
  unfold PortController.retired PortController.leaves
  cases ha : c.attach <;> cases hr : c.responses <;> cases on <;> simp [Attach.regionsRetired]

theorem SourceUnit.retired_retired (on : Bool) (c : PortController) (u : SourceUnit) :
    (u.retired c).retired (c.retired on) = u.retired c := by
  unfold SourceUnit.retired PortController.retired PortController.leaves
  cases ha : c.attach <;> cases hr : c.responses <;> cases on <;> simp [Attach.regionsRetired]

/-- The regions of the ports of a list are retired, between two states: what becomes of the ports on it, and that nothing
else changes but notices. -/
structure Retired (qs : List PortId) (s t : State) : Prop where
  ports : ∀ p, (if p ∈ qs then (s.port p).retired (s.entry p).enabled else s.port p).Alike (t.port p)
  lays : ∀ p, t.lay p = if p ∈ qs then { s.lay p with order := [] } else s.lay p
  slots : ∀ i, t.slot i = if ∃ p ∈ qs, i ∈ (s.lay p).order then .free else s.slot i
  units : ∀ p, t.unit p = if p ∈ qs then (s.unit p).retired (s.port p) else s.unit p
  length : t.layout.slots.length = s.layout.slots.length
  plan : t.layout.plan = s.layout.plan
  sealedPlan : t.layout.sealedPlan = s.layout.sealedPlan
  retiring : t.layout.retiring = s.layout.retiring
  marks : t.marks = s.marks
  panel : SamePanel s t

theorem Retired.nil (s : State) : Retired [] s s :=
  ⟨fun _ => .refl _, fun _ => rfl, fun _ => by simp, fun _ => rfl, rfl, rfl, rfl, rfl, rfl, .refl s⟩

theorem retireOne_retired (s : State) (rs : List Report) (p : PortId) : Retired [p] s (retireOne (s, rs) p).1 := by
  simp only [retireOne, tellRetired_eq]
  generalize hu : ((freeSlots (s.lay p).order s).setLay p { s.lay p with order := [] }) = u
  have hp : u.port = s.port := by subst hu; rfl
  have he : u.entry = s.entry := by subst hu; rfl
  have hn : u.unit = s.unit := by subst hu; rfl
  have g := storeNotices_only (leftNotices p u)
    ((u.setPort p ((u.port p).retired (u.entry p).enabled)).setUnit p ((u.unit p).retired (u.port p)))
  have lay : ∀ q, u.lay q = if q = p then { s.lay p with order := [] } else s.lay q := by
    intro q
    subst hu
    simp [freeSlots, State.mapSlots]
  have slot : ∀ i, u.slot i = if i ∈ (s.lay p).order then .free else s.slot i := by
    intro i
    subst hu
    exact slot_freeSlots _ _ _
  refine ⟨fun q => ?_, fun q => ?_, fun i => ?_, fun q => ?_, ?_, ?_, ?_, ?_, ?_, ?_⟩
  · refine PortController.Alike.trans (.of_eq ?_) (storeNotices_alike _ q _)
    rw [State.port_setUnit, State.port_setPort, hp, he]
    by_cases h : q = p
    · subst h
      simp
    · simp [h]
  · refine (g.lay q).trans ((lay q).trans ?_)
    by_cases h : q = p
    · subst h
      simp
    · simp [h]
  · exact (g.slot i).trans ((slot i).trans (by simp))
  · refine (g.unit q).trans ((State.unit_setUnit _ _ _ _).trans ?_)
    by_cases h : q = p
    · subst h
      simp [hn, hp]
    · simp [h, hn]
  all_goals subst hu
  · rw [g.layout]
    simp [freeSlots, State.mapSlots]
  · rw [g.layout]
    rfl
  · rw [g.layout]
    rfl
  · rw [g.layout]
    rfl
  · rw [g.marks]
    rfl
  · exact ⟨g.scan, g.comp, g.pending⟩

theorem Retired.entry {qs : List PortId} {s t : State} (h : Retired qs s t) (p : PortId) : t.entry p = s.entry p := by
  simp only [State.entry, h.plan]

/-- The retirement of ports one after the other. -/
theorem Retired.cons {q : PortId} {qs : List PortId} {s t u : State} (h : Retired [q] s t) (g : Retired qs t u) :
    Retired (q :: qs) s u := by
  have at_q : ∀ p, p ≠ q → (s.port p).Alike (t.port p) ∧ t.lay p = s.lay p ∧ t.unit p = s.unit p := fun p hp =>
    ⟨by simpa [hp] using h.ports p, by simpa [hp] using h.lays p, by simpa [hp] using h.units p⟩
  refine ⟨fun p => ?_, fun p => ?_, fun i => ?_, fun p => ?_, g.length.trans h.length, g.plan.trans h.plan,
    g.sealedPlan.trans h.sealedPlan, g.retiring.trans h.retiring, g.marks.trans h.marks, h.panel.trans g.panel⟩
  · refine PortController.Alike.trans ?_ (g.ports p)
    rw [h.entry]
    by_cases hp : p = q
    · subst hp
      have hs : ((s.port p).retired (s.entry p).enabled).Alike (t.port p) := by simpa using h.ports p
      by_cases hm : p ∈ qs
      · simpa [hm, PortController.retired_retired] using hs.retired (s.entry p).enabled
      · simpa [hm] using hs
    · by_cases hm : p ∈ qs
      · simpa [hm] using (at_q p hp).1.retired (s.entry p).enabled
      · simpa [hm, hp] using (at_q p hp).1
  · rw [g.lays p]
    by_cases hp : p = q
    · subst hp
      rw [h.lays p]
      simp
    · simp [hp, (at_q p hp).2.1]
  · have order : ∀ p ∈ qs, i ∈ (t.lay p).order ↔ p ≠ q ∧ i ∈ (s.lay p).order := fun p _ => by
      rw [h.lays p]
      by_cases hp : p = q <;> simp [hp]
    have freed : (∃ p ∈ qs, i ∈ (t.lay p).order) ↔ ∃ p ∈ qs, p ≠ q ∧ i ∈ (s.lay p).order :=
      ⟨fun ⟨p, hp, hi⟩ => ⟨p, hp, (order p hp).mp hi⟩, fun ⟨p, hp, hi⟩ => ⟨p, hp, (order p hp).mpr hi⟩⟩
    rw [g.slots i, h.slots i]
    by_cases hi : i ∈ (s.lay q).order
    · simp [hi]
    · have : (∃ p ∈ q :: qs, i ∈ (s.lay p).order) ↔ ∃ p ∈ qs, i ∈ (t.lay p).order := by
        rw [freed]
        constructor
        · rintro ⟨p, hp, hip⟩
          have hne : p ≠ q := fun e => hi (e ▸ hip)
          exact ⟨p, (List.mem_cons.mp hp).resolve_left hne, hne, hip⟩
        · rintro ⟨p, hp, -, hip⟩
          exact ⟨p, List.mem_cons_of_mem _ hp, hip⟩
      simp only [this]
      simp [hi]
  · rw [g.units p]
    by_cases hp : p = q
    · subst hp
      have hs : ((s.port p).retired (s.entry p).enabled).Alike (t.port p) := by simpa using h.ports p
      have hu : t.unit p = (s.unit p).retired (s.port p) := by simpa using h.units p
      by_cases hm : p ∈ qs
      · rw [if_pos hm, if_pos List.mem_cons_self, SourceUnit.retired_congr hs, hu, SourceUnit.retired_retired]
      · rw [if_neg hm, if_pos List.mem_cons_self, hu]
    · by_cases hm : p ∈ qs
      · rw [if_pos hm, if_pos (List.mem_cons_of_mem _ hm), (at_q p hp).2.2, SourceUnit.retired_congr (at_q p hp).1]
      · simp [hm, hp, (at_q p hp).2.2]

theorem foldl_retireOne (qs : List PortId) (s : State) (rs : List Report) :
    Retired qs s (qs.foldl retireOne (s, rs)).1 := by
  induction qs generalizing s rs with
  | nil => exact .nil s
  | cons q qs ih => exact (retireOne_retired s rs q).cons (ih _ _)

/-- Step 2 of a commit: what the retirement list makes of the ports on it. -/
theorem retireListed_retired (s : State) : Retired s.layout.retiring (s.setRetiring []) (retireListed s).1 :=
  foldl_retireOne _ _ _

theorem retireIfDark_of_dark {s : State} (h : s.scan.panel = .dark) :
    ∃ u rs, Retired s.layout.retiring (s.setRetiring []) u ∧ retireIfDark s = takeReports (handReports rs u) :=
  ⟨_, _, retireListed_retired s, if_pos h⟩

theorem retireIfDark_of_not_dark {s : State} (h : s.scan.panel ≠ .dark) : retireIfDark s = s := if_neg h

theorem tellRetired_retired {p : PortId} {s : State} (h : (s.lay p).order = []) : Retired [p] s (tellRetired p s) := by
  have still : (retireOne (s, []) p).1 = tellRetired p s := by
    have hs : ∀ (i : Nat) (xs : List Slot), mapSlotsFrom (fun _ x => x) i xs = xs := fun i xs => by
      induction xs generalizing i with
      | nil => rfl
      | cons x xs ih => simp [mapSlotsFrom, ih]
    have hf : freeSlots [] s = s := by
      simp [freeSlots, State.mapSlots, hs, State.setSlots]
    have hl : s.setLay p { s.lay p with order := [] } = s := by
      rw [← h]
      exact State.setLay_self s p
    simp only [retireOne, h, hf, hl]
  exact still ▸ retireOne_retired s [] p

section
variable {p : PortId} {reason : LeaveReason} {own : Option Response} {s : State}

theorem enterLeaving_of_order (h : (s.lay p).order ≠ []) :
    enterLeaving p reason own s = (entered p reason own s).setRetiring (s.layout.retiring ++ [p]) := by
  rw [enterLeaving_eq, if_neg (by simpa using h)]

theorem enterLeaving_of_none (h : (s.lay p).order = []) :
    Retired [p] (entered p reason own s) (enterLeaving p reason own s) := by
  rw [enterLeaving_eq, if_pos (by simpa using h)]
  exact tellRetired_retired (by simpa using h)

/-- The own part of a port after its entry into LEAVING; `now` says that the retirement of its regions followed at once. -/
structure Left (now : Bool) (p : PortId) (reason : LeaveReason) (own : Option Response) (s t : State) : Prop where
  port : t.port p =
    if (s.lay p).order = [] ∨ now = true then
      ((s.port p).entered (decide (p = .p0)) reason own).retired (s.entry p).enabled
    else (s.port p).entered (decide (p = .p0)) reason own
  unit : t.unit p =
    if (s.lay p).order = [] ∨ now = true then
      (s.unit p).silenced.retired ((s.port p).entered (decide (p = .p0)) reason own)
    else (s.unit p).silenced
  lay : t.lay p = { order := if now then [] else (s.lay p).order, draft := none, sealedSet := none }
  markList : t.markList p = []
  retiring : t.layout.retiring =
    if now then [] else s.layout.retiring ++ if (s.lay p).order = [] then [] else [p]
  plan : t.layout.plan = s.layout.plan
  panel : SamePanel s t

theorem entered_attach (zero : Bool) (c : PortController) : (c.entered zero reason own).attach = .leaving reason false := rfl

theorem retired_not_attached {on : Bool} {c : PortController} (h : c.attach ≠ .attached) :
    (c.retired on).attach ≠ .attached := by
  unfold PortController.retired
  dsimp only
  split
  · cases on <;> simp
  · cases ha : c.attach <;> simp_all [Attach.regionsRetired]

theorem enterLeaving_left : Left false p reason own s (enterLeaving p reason own s) := by
  by_cases ho : (s.lay p).order = []
  · have g := enterLeaving_of_none (reason := reason) (own := own) ho
    have hp := (g.ports p).2
    simp only [List.mem_singleton, if_true, entered_port] at hp
    refine ⟨?_, ?_, ?_, ?_, ?_, ?_, ?_⟩
    · rw [if_pos (.inl ho), hp (retired_not_attached (by simp [entered_attach]))]
      simp [State.entry]
    · rw [if_pos (.inl ho), g.units p]
      simp
    · rw [g.lays p]
      simp [ho]
    · simp only [State.markList, g.marks]
      exact (entered_markList p).trans (by simp)
    · rw [g.retiring]
      simp [ho]
    · exact g.plan.trans entered_plan
    · exact SamePanel.trans ⟨entered_scan, entered_comp, entered_pending⟩ g.panel
  · rw [enterLeaving_of_order ho]
    exact ⟨by simp [ho], by simp [ho], by simp, by simp, by simp [ho], by simp, by simp, by simp, by simp⟩

theorem retireIfDark_left :
    Left (decide (s.scan.panel = .dark)) p reason own s (retireIfDark (enterLeaving p reason own s)) := by
  have f := enterLeaving_left (p := p) (reason := reason) (own := own) (s := s)
  by_cases h : s.scan.panel = .dark
  · obtain ⟨u, rs, g, eq⟩ := retireIfDark_of_dark (s := enterLeaving p reason own s) (by rw [f.panel.scan, h])
    have away : ((s.port p).entered (decide (p = .p0)) reason own).attach ≠ .attached := by simp [entered_attach]
    have hport := (g.ports p).2
    have hunit := g.units p
    have hlay := g.lays p
    simp only [State.port_setRetiring, State.entry_setRetiring, State.unit_setRetiring, State.lay_setRetiring] at hport hunit hlay
    have he : (enterLeaving p reason own s).entry p = s.entry p := by simp only [State.entry, f.plan]
    rw [f.port, he] at hport
    rw [f.port] at hunit
    rw [f.unit] at hunit
    rw [f.lay] at hlay
    have key : u.port p = ((s.port p).entered (decide (p = .p0)) reason own).retired (s.entry p).enabled ∧
        u.unit p = (s.unit p).silenced.retired ((s.port p).entered (decide (p = .p0)) reason own) ∧
        u.lay p = { order := [], draft := none, sealedSet := none } := by
      by_cases ho : (s.lay p).order = []
      · simp only [ho, true_or, if_true, PortController.retired_retired, SourceUnit.retired_retired, ite_self,
          Bool.false_eq_true] at hport hunit hlay
        exact ⟨hport (retired_not_attached away), hunit, hlay⟩
      · have hm : p ∈ (enterLeaving p reason own s).layout.retiring := by simp [f.retiring, ho]
        simp only [ho, hm, false_or, if_true, Bool.false_eq_true, if_false] at hport hunit hlay
        exact ⟨hport (retired_not_attached away), hunit, hlay⟩
    have same := takeReports_alike p (handReports rs u)
    have hu : (takeReports (handReports rs u)).port p = u.port p :=
      same.2 (by rw [show (handReports rs u).port p = u.port p from rfl, key.1]; exact retired_not_attached away)
    have hm : (handReports rs u).markList p = [] := by
      simp only [State.markList, handReports, State.setReports, g.marks]
      exact f.markList
    rw [eq]
    refine ⟨?_, ?_, ?_, ?_, ?_, ?_, ?_⟩
    · rw [hu, key.1, if_pos (.inr (by simpa using h))]
    · rw [takeReports_unit, if_pos (.inr (by simpa using h))]
      exact key.2.1
    · rw [takeReports_lay, show (handReports rs u).lay p = u.lay p from rfl, key.2.2]
      simp [h]
    · rw [takeReports_markList, hm]
      rfl
    · rw [takeReports_layout, show (handReports rs u).layout = u.layout from rfl, g.retiring]
      simp [h]
    · rw [takeReports_layout]
      exact g.plan.trans f.plan
    · exact f.panel.trans (SamePanel.trans (t := handReports rs u) ⟨g.panel.scan, g.panel.comp, g.panel.pending⟩
        ⟨takeReports_scan _, takeReports_comp _, takeReports_pending _⟩)
  · rw [retireIfDark_of_not_dark (by rwa [f.panel.scan])]
    simpa [h] using f

/-- A port's entry into LEAVING touches no other port, but for PORT_LEFT to port 0. -/
theorem enterLeaving_samePart {q : PortId} (hq : q ≠ p)
    (h : q ≠ .p0 ∨ ((s.port p).entered (decide (p = .p0)) reason own).leaves = none) :
    samePart q s (enterLeaving p reason own s) := by
  have slots : ∀ id, (s.slot id).owner? = some q ∨ ((entered p reason own s).slot id).owner? = some q →
      (entered p reason own s).slot id = s.slot id := fun id ho => by
    rw [entered_slot] at ho ⊢
    cases hs : s.slot id <;> simp_all [Slot.reservedOf, Slot.owner?]
    rename_i o k
    by_cases hp : o = p <;> simp_all
  by_cases ho : (s.lay p).order = []
  · have g := enterLeaving_of_none (reason := reason) (own := own) ho
    have slot : ∀ id, (enterLeaving p reason own s).slot id = (entered p reason own s).slot id := fun id => by
      rw [g.slots id, if_neg (by simp [ho])]
    refine ⟨?_, ?_, ?_, ?_, fun id hid => ?_⟩
    · rw [enterLeaving_eq, if_pos (by simpa using ho), tellRetired_eq]
      have own' : ∀ u v, (((entered p reason own s).setPort p u).setUnit p v).port q = s.port q := fun u v => by simp [hq]
      cases hl : ((s.port p).entered (decide (p = .p0)) reason own).leaves with
      | none =>
        simp only [leftNotices, entered_port, if_true, hl]
        exact own' _ _
      | some why =>
        have hq0 : q ≠ .p0 := h.resolve_right (by simp [hl])
        simp only [leftNotices, entered_port, if_true, hl]
        exact (storeNotice_port_ne hq0 _ _).trans (own' _ _)
    · rw [g.lays q]
      simp [hq]
    · rw [g.units q]
      simp [hq]
    · simp only [State.markList, g.marks]
      exact (entered_markList q).trans (by simp [hq, State.markList])
    · rw [slot] at hid ⊢
      exact slots id hid
  · rw [enterLeaving_of_order ho]
    exact ⟨by simp [hq], by simp [hq], by simp [hq], by simp [hq], fun id hid => slots id hid⟩

/-- The parts of a port that entered LEAVING and has not left it. -/
theorem leftParts_of_left {now : Bool} {t : State} (h : Left now p reason own s t)
    (hl : (s.lay p).order = [] ∨ now = true → ((s.port p).entered (decide (p = .p0)) reason own).leaves = none) :
    leftParts p own.toList (s.port p).requests s t := by
  have port : t.port p = { (s.port p).entered (decide (p = .p0)) reason own with attach := (t.port p).attach } := by
    rw [h.port]
    split <;> rfl
  have unit : t.unit p = (s.unit p).silenced := by
    rw [h.unit]
    split
    · rename_i g
      rw [SourceUnit.retired, hl g]
    · rfl
  rw [leftParts, unit, h.lay, h.markList, port]
  have owed : ((s.port p).paid .planSet .cancelled []).owed .publish = (s.port p).owed .publish :=
    PortController.owed_paid (by decide) _ _ _
  refine ⟨?_, rfl, rfl, rfl, rfl, ?_, rfl, rfl, rfl, rfl⟩
  · by_cases hp : p = .p0
    · simp only [PortController.entered, hp, decide_true, if_true, PortController.paid] at owed ⊢
      rw [owed]
      simp [PortController.owed, Request.answer]
    · simp [PortController.entered, hp, PortController.paid, PortController.owed, Request.answer]
  · by_cases hp : p = .p0 <;> simp [PortController.entered, hp, PortController.paid]
end

/-! ### BYE and EJECT (R163, R164) -/

theorem retired_leaves_none {on : Bool} {c : PortController} (h : c.leaves = none) :
    c.retired on = { c with attach := c.attach.regionsRetired } := by simp only [PortController.retired, h]

theorem State.port_taken (p : PortId) (rest : List Request) (s : State) (q : PortId) :
    (taken p rest s).port q = if q = p then { s.port p with requests := rest } else s.port q := PerPort.get_set _ _ _ _

theorem State.port_replied (p : PortId) (r : Request) (res : Result) (fields : List Byte) (s : State) (q : PortId) :
    (replied p r res fields s).port q =
      if q = p then { s.port p with responses := (s.port p).responses ++ [r.answer res fields] } else s.port q :=
  PerPort.get_set _ _ _ _

/-- The parts left behind do not depend on the request that is in the engine's hand. -/
theorem leftParts_taken {p : PortId} {own : List Response} {rest : List Request} {s t : State}
    (h : leftParts p own rest (taken p rest s) t) : leftParts p own rest s t := by
  rw [leftParts, State.port_taken, if_pos rfl] at h
  exact h

theorem samePart_taken {p q : PortId} {rest : List Request} {s t : State} (hq : q ≠ p)
    (h : samePart q (taken p rest s) t) : samePart q s t := by
  obtain ⟨hport, hlay, hunit, hmarks, hslots⟩ := h
  rw [State.port_taken, if_neg hq] at hport
  exact ⟨hport, hlay, hunit, hmarks, hslots⟩

/-- The attach state of a port that entered LEAVING and has not left it. -/
theorem Left.attach {now : Bool} {p : PortId} {reason : LeaveReason} {own : Option Response} {s t : State}
    (h : Left now p reason own s t)
    (hl : (s.lay p).order = [] ∨ now = true → ((s.port p).entered (decide (p = .p0)) reason own).leaves = none) :
    (t.port p).attach = .leaving reason (decide ((s.lay p).order = [] ∨ now = true)) := by
  rw [h.port]
  split
  · rename_i g
    rw [retired_leaves_none (hl g)]
    simp [entered_attach, Attach.regionsRetired, g]
  · rename_i g
    simp [entered_attach, g]

/-- Settles O13: the port stays LEAVING, for its own DONE is not read. -/
theorem byeEntersLeaving : Obligations.ByeEntersLeaving := by
  intro p r rest s h
  have served : exec (.bye p) s = .next (byeBody p r (taken p rest s)) :=
    congrArg Host.Outcome.next (serve_takes h (byeBody p))
  have left : Left (decide (s.scan.panel = .dark)) p .bye _ _ _ := retireIfDark_left (p := p) (reason := .bye)
    (own := some (r.answer .done (taken p rest s).frameField)) (s := taken p rest s)
  have stays : (((taken p rest s).port p).entered (decide (p = .p0)) .bye
      (some (r.answer .done (taken p rest s).frameField))).leaves = none := by
    rw [PortController.leaves, PortController.entered]
    simp
  have parts := leftParts_of_left left fun _ => stays
  have attach := left.attach fun _ => stays
  rw [byeBody] at served
  have order : ((taken p rest s).lay p).order = (s.lay p).order := rfl
  rw [show ((taken p rest s).port p).requests = rest by simp [State.port_taken]] at parts
  rw [State.frameField_taken] at *
  refine ⟨_, served, leftParts_taken parts, ?_, fun hd => ⟨?_, ?_, fun q hq => ?_⟩, fun hd => ⟨?_, ?_⟩,
    left.panel.scan, left.panel.comp, left.plan⟩
  · rw [attach]
    exact congrArg (Attach.leaving .bye) (decide_eq_decide.mpr (or_congr Iff.rfl decide_eq_true_iff))
  · rw [left.lay]
    simp [hd]
  · rw [left.retiring]
    simp [hd]
    rfl
  · rw [retireIfDark_of_not_dark (by rwa [(enterLeaving_samePanel _ _ _ _).scan])]
    exact samePart_taken hq (enterLeaving_samePart hq (.inr stays))
  · rw [left.lay]
    simp [hd]
  · rw [left.retiring]
    simp [hd]

theorem retired_of_attached {on : Bool} {c : PortController} (h : c.attach = .attached) : c.retired on = c := by
  unfold PortController.retired PortController.leaves
  simp only [h, Attach.regionsRetired]
  rw [← h]

theorem Retired.alike_of_attached {qs : List PortId} {s t : State} {q : PortId} (g : Retired qs s t)
    (h : (s.port q).attach = .attached) : (s.port q).Alike (t.port q) := by
  have := g.ports q
  rwa [retired_of_attached h, ite_self] at this

theorem enterLeaving_alike {p q : PortId} {reason : LeaveReason} {own : Option Response} {s : State} (hq : q ≠ p)
    (h : (s.port q).attach = .attached) : (s.port q).Alike ((enterLeaving p reason own s).port q) := by
  have he : (entered p reason own s).port q = s.port q := by simp [hq]
  by_cases ho : (s.lay p).order = []
  · exact he ▸ (enterLeaving_of_none ho).alike_of_attached (by rw [he, h])
  · rw [enterLeaving_of_order ho]
    exact .of_eq he

theorem retireIfDark_alike {q : PortId} {s : State} (h : (s.port q).attach = .attached) :
    (s.port q).Alike ((retireIfDark s).port q) := by
  by_cases hd : s.scan.panel = .dark
  · obtain ⟨u, rs, g, eq⟩ := retireIfDark_of_dark hd
    rw [eq]
    exact (g.alike_of_attached h).trans (takeReports_alike q (handReports rs u))
  · rw [retireIfDark_of_not_dark hd]
    exact .refl _

/-- Settles O14: the checks on the number, and the named port's entry into LEAVING, or its departure. -/
theorem ejectEntersLeaving : Obligations.EjectEntersLeaving := by
  intro r rest b s h hr
  have served : exec (.eject .p0) s = .next (ejectBody .p0 r (taken .p0 rest s)) :=
    congrArg Host.Outcome.next (serve_takes h (ejectBody .p0))
  rw [ejectBody, hr, param8_cons_zero] at served
  refine ⟨fun hb => ?range, fun q hq hb => ⟨fun ha => ?already, fun ha => ?done⟩⟩
  case range =>
    rcases hb with rfl | hb
    · exact served
    · rw [PortId.ofNat?_of_gt hb] at served
      exact served
  all_goals
    rw [hb, PortId.ofNat?_toNat] at served
    have port : (taken .p0 rest s).port q = s.port q := by simp [State.port_taken, hq]
    dsimp only at served
    rw [if_neg hq, port] at served
  case already =>
    rw [if_pos ha, ejectFields, State.frameField_taken] at served
    exact served
  case done =>
    rw [if_neg (not_not.mpr ha), ejectFields, State.frameField_taken, respond_eq_replied] at served
    have left : Left (decide (s.scan.panel = .dark)) q .eject _ _ _ :=
      retireIfDark_left (p := q) (reason := .eject) (own := none) (s := taken .p0 rest s)
    have attached : ((taken .p0 rest s).port .p0).attach = .attached := (attach_taken).trans h.attached
    have zero := enterLeaving_alike (reason := .eject) (own := none) (Ne.symm hq) attached
    have zero := zero.trans (retireIfDark_alike (zero.attach.trans attached))
    have others : s.scan.panel ≠ .dark → ∀ j, j ≠ q → j ≠ .p0 →
        samePart j s (retireIfDark (enterLeaving q .eject none (taken .p0 rest s))) := fun hd j hj hj0 => by
      rw [retireIfDark_of_not_dark (by rwa [(enterLeaving_samePanel _ _ _ _).scan])]
      exact samePart_taken hj0 (enterLeaving_samePart hj (.inl hj0))
    generalize retireIfDark (enterLeaving q .eject none (taken .p0 rest s)) = t at served left zero others
    have at_q : ∀ f, (replied .p0 r .done f t).port q = t.port q := fun f => PerPort.get_set_ne _ hq _
    have gone : ((taken .p0 rest s).lay q).order = [] ∨ decide (s.scan.panel = .dark) = true ↔
        (s.lay q).order = [] ∨ s.scan.panel = .dark := or_congr Iff.rfl decide_eq_true_iff
    have leaves : ((s.lay q).order = [] ∨ s.scan.panel = .dark) ∧ (t.port q).responses = [] ∨
        ((s.lay q).order = [] ∨ s.scan.panel = .dark →
          ((((taken .p0 rest s).port q).entered (decide (q = .p0)) .eject none)).leaves = none) := by
      rw [left.port]
      by_cases hr : (((taken .p0 rest s).port q).entered (decide (q = .p0)) .eject none).responses = []
      · by_cases hg : (s.lay q).order = [] ∨ s.scan.panel = .dark
        · exact .inl ⟨hg, by rw [if_pos (gone.mpr hg)]; exact hr⟩
        · exact .inr fun g => absurd g hg
      · refine .inr fun _ => ?_
        rw [PortController.leaves]
        split
        · rename_i g
          exact absurd g hr
        · rfl
    refine ⟨_, served, ?_, ?_, fun hst => ?_, fun hn hg => ?_, fun hd => ⟨?_, ?_⟩, fun hd => ⟨?_, ?_⟩, fun hd j hj hj0 => ?_,
      left.panel.scan, left.panel.comp, left.plan⟩
    · simp only [State.port_replied, if_true, zero.responses, State.port_taken]
      rfl
    · simp only [State.port_replied, if_true, zero.requests, State.port_taken]
    · have hl : ((taken .p0 rest s).lay q).order = [] ∨ decide (s.scan.panel = .dark) = true →
          (((taken .p0 rest s).port q).entered (decide (q = .p0)) .eject none).leaves = none := fun g => by
        rw [at_q] at hst
        rcases leaves with ⟨hg, hn⟩ | hn
        · exact (hst.elim (fun x => x hn) fun x => hg.elim x.1 x.2).elim
        · exact hn (gone.mp g)
      have parts := leftParts_of_left left hl
      have attach := left.attach hl
      rw [port] at parts
      refine ⟨?_, (congrArg PortController.attach (at_q _)).trans (attach.trans ?_)⟩
      · have own : leftParts q [] (s.port q).requests s t := by
          rw [leftParts, port] at parts
          exact parts
        rw [leftParts, at_q]
        exact own
      · exact congrArg (Attach.leaving .eject) (decide_eq_decide.mpr gone)
    · rw [at_q, left.port, if_pos (gone.mpr hg)] at hn ⊢
      have hr : (((taken .p0 rest s).port q).entered (decide (q = .p0)) .eject none).responses = [] := hn
      have hl := PortController.leaves_eq_some (why := .eject).mpr ⟨⟨false, entered_attach _ _⟩, hr⟩
      simp only [PortController.retired, hl]
      rfl
    · exact congrArg PortLayout.order left.lay |>.trans (by simp [hd])
    · refine left.retiring.trans ?_
      simp [hd]
      rfl
    · exact congrArg PortLayout.order left.lay |>.trans (by simp [hd])
    · exact left.retiring.trans (by simp [hd])
    · obtain ⟨hport, more⟩ := others hd j hj hj0
      exact ⟨(PerPort.get_set_ne _ hj0 _).trans hport, more⟩

/-! ### RESTART (R168, R169) -/

/-- What a notice makes of the notices of a Port Controller depends on its attach state and notices alone. -/
theorem PortController.stored_congr {c d : PortController} (ha : c.attach = d.attach) (hn : c.notices = d.notices)
    (hl : c.noticeLost = d.noticeLost) (n : Notice) :
    (c.stored n).notices = (d.stored n).notices ∧ (c.stored n).noticeLost = (d.stored n).noticeLost := by
  unfold PortController.stored
  rw [ha, hn]
  split
  · exact ⟨hn, hl⟩
  · split
    · exact ⟨rfl, hl⟩
    · split
      · exact ⟨rfl, hl⟩
      · exact ⟨rfl, rfl⟩

theorem Link.stored_congr {c d : PortController} (ha : c.attach = d.attach) (hn : c.notices = d.notices) (n : Notice)
    (l : Link) : l.stored n c = l.stored n d := by rw [Link.stored, ha, hn]; rfl

/-- A READ_NOTICE that carries nothing has no count to lose. -/
theorem Link.noticesCleared_stored (n : Notice) (c : PortController) (l : Link) :
    (l.stored n c).noticesCleared = l.noticesCleared := by
  unfold Link.stored
  split
  · obtain ⟨state, dout⟩ := l
    cases state with
    | sendingNotice f k c => cases k <;> rfl
    | _ => rfl
  · rfl

theorem storeNotices_noticesCleared (ns : List (PortId × Notice)) (s : State) (q : PortId) :
    ((storeNotices ns s).link q).noticesCleared = (s.link q).noticesCleared := by
  induction ns generalizing s with
  | nil => rfl
  | cons x ns ih =>
    rw [storeNotices_cons, ih, storeNotice_eq, State.link_setLink]
    split
    · rename_i e
      subst e
      exact Link.noticesCleared_stored _ _ _
    · rfl

theorem takeReports_noticesCleared (s : State) (q : PortId) :
    ((takeReports s).link q).noticesCleared = (s.link q).noticesCleared := by
  have key : ∀ (rs : List Report) (u : State),
      ((rs.foldl takeReport u).link q).noticesCleared = (u.link q).noticesCleared := fun rs => by
    induction rs with
    | nil => exact fun _ => rfl
    | cons x rs ih => exact fun u => (ih _).trans (storeNotices_noticesCleared _ (u.setMarkList x.owner _) q)
  exact key s.marks.reports (s.setReports [])

/-- A number below 16 by its bits. -/
theorem eq_bitAt_testBit : ∀ n < 16, n =
    bitAt 0 (n.testBit 0) + bitAt 1 (n.testBit 1) + bitAt 2 (n.testBit 2) + bitAt 3 (n.testBit 3) := by decide

/-- The detail of PLAN_CHANGED, by its bits (R103). -/
theorem changedByte_eq {new : Plan} {s : State} {n : Nat} (h : changedBits new s n) :
    changedByte s.layout.plan new = byteOf n := by
  obtain ⟨hn, hb⟩ := h
  have bit : ∀ q : PortId, n.testBit q.toNat = changed s.layout.plan new q := fun q => by
    rw [Bool.eq_iff_iff, hb q.toNat (by cases q <;> decide), changed, decide_eq_true_iff]
    constructor
    · rintro ⟨j, hj, hne⟩
      obtain rfl : j = q := by cases j <;> cases q <;> first | rfl | cases hj
      exact fun e => hne e.symm
    · exact fun hne => ⟨q, rfl, fun e => hne e.symm⟩
  rw [eq_bitAt_testBit n hn, show n.testBit 0 = _ from bit .p0, show n.testBit 1 = _ from bit .p1,
    show n.testBit 2 = _ from bit .p2, show n.testBit 3 = _ from bit .p3]
  rfl

/-- Port 0's Port Controller after RESTART, before the notice. -/
def PortController.restarted (r : Request) (fields : List Byte) (c : PortController) : PortController :=
  let d := (c.paid .planSet .cancelled []).paid .publish .cancelled []
  { d with engine := .ready, responses := d.responses ++ [r.answer .done fields] }

/-- The state after RESTART, before the notice: `u` is the state in which the reports have been taken. -/
def restarted (r : Request) (u : State) : State :=
  { u with
    ports := ⟨(u.port .p0).restarted r u.frameField, .reset .disabled, .reset .disabled, .reset .disabled⟩
    links :=
      let l (q : PortId) : Link := (u.link q).noticesCleared.responsesFlushed
      ⟨u.link .p0, l .p1, l .p2, l .p3⟩
    layout := { LayoutStore.reset with plan := .default u.scan.setup.w u.scan.setup.h }
    sources :=
      let x (q : PortId) : SourceUnit := (u.unit q).silenced.undeclared
      ⟨u.unit .p0, x .p1, x .p2, x .p3⟩
    marks := { lists := PerPort.const [], reports := [], withdrawn := [] } }

theorem restartBody_eq (r : Request) (s : State) :
    restartBody .p0 r s = settleUnit .p0 (storeNotice .p0
      (noticeNow (takeReports s) .planChanged 0x00
        (changedByte s.layout.plan (.default s.scan.setup.w s.scan.setup.h))) (restarted r (takeReports s))) := by
  unfold restartBody
  simp only [takeReports_layout]
  generalize hu : takeReports s = u
  have hscan : u.scan = s.scan := hu ▸ takeReports_scan s
  simp only [dropSealedPlan, placeDeferred_eq]
  rw [← hscan]
  rfl

/-- Settles O16: the state before the notice is explicit, and the notice and the judgement of port 0's unit follow. -/
theorem restartResets : Obligations.RestartResets := by
  intro r rest s h
  have served : exec (.restart .p0) s = .next (restartBody .p0 r (taken .p0 rest s)) :=
    congrArg Host.Outcome.next (serve_takes h (restartBody .p0))
  rw [restartBody_eq] at served
  have hscan : (takeReports (taken .p0 rest s)).scan = s.scan := takeReports_scan _
  have hcomp : (takeReports (taken .p0 rest s)).comp = s.comp := takeReports_comp _
  have hunit : ∀ q, (takeReports (taken .p0 rest s)).unit q = s.unit q := fun q => takeReports_unit _ q
  have hport := takeReports_alike .p0 (taken .p0 rest s)
  have hlink := takeReports_noticesCleared (taken .p0 rest s)
  rw [State.port_taken, if_pos rfl] at hport
  generalize hu : takeReports (taken .p0 rest s) = u at served hscan hcomp hunit hport hlink
  obtain ⟨n, hn⟩ : ∃ n, noticeNow u .planChanged 0x00
    (changedByte (taken .p0 rest s).layout.plan (.default (taken .p0 rest s).scan.setup.w (taken .p0 rest s).scan.setup.h)) = n :=
    ⟨_, rfl⟩
  rw [hn] at served
  have entry : ∀ q, (storeNotice .p0 n (restarted r u)).entry q =
      (Plan.default s.scan.setup.w s.scan.setup.h).entries.get q := fun q => by
    rw [(storeNotice_only _ _ _).entry, ← hscan]
    rfl
  have attached : ((storeNotice .p0 n (restarted r u)).port .p0).attach = .attached :=
    (storeNotice_alike .p0 .p0 n (restarted r u)).attach.trans (hport.attach.trans h.attached)
  have unit : (storeNotice .p0 n (restarted r u)).unit .p0 = s.unit .p0 := by
    rw [(storeNotice_only _ _ _).unit, ← hunit]
    rfl
  have raises := judgement_raises_iff attached
  have judged := judgedTo_judgement attached
  have port0 : (storeNotice .p0 n (restarted r u)).port .p0 = ((u.port .p0).restarted r u.frameField).stored n := by
    rw [storeNotice_eq]
    rfl
  have alike := storeNotice_alike .p0 .p0 n (restarted r u)
  have layout := (storeNotice_only .p0 n (restarted r u)).layout
  obtain ⟨t, ht⟩ : ∃ t, settleUnit .p0 (storeNotice .p0 n (restarted r u)) = t := ⟨_, rfl⟩
  have keeps : t.ports = (storeNotice .p0 n (restarted r u)).ports ∧ t.links = (storeNotice .p0 n (restarted r u)).links ∧
      t.layout = (storeNotice .p0 n (restarted r u)).layout ∧ t.marks = (storeNotice .p0 n (restarted r u)).marks ∧
      t.scan = (storeNotice .p0 n (restarted r u)).scan ∧ t.comp = (storeNotice .p0 n (restarted r u)).comp ∧
      ∀ q, q ≠ .p0 → t.unit q = (storeNotice .p0 n (restarted r u)).unit q := by
    rw [← ht, settleUnit_eq]
    split
    · exact ⟨rfl, rfl, rfl, rfl, rfl, rfl, fun q hq => by simp [hq]⟩
    · exact ⟨rfl, rfl, rfl, rfl, rfl, rfl, fun _ _ => rfl⟩
  obtain ⟨kports, klinks, klayout, kmarks, kscan, kcomp, kunits⟩ := keeps
  have tport : t.port = (storeNotice .p0 n (restarted r u)).port := by
    funext q
    simp only [State.port, kports]
  have tentry : t.entry .p0 = (Plan.default s.scan.setup.w s.scan.setup.h).entries.get .p0 := by
    rw [← entry]
    simp only [State.entry, klayout]
  have hlay : t.layout = { LayoutStore.reset with plan := .default s.scan.setup.w s.scan.setup.h } := by
    rw [klayout, layout, ← hscan]
    rfl
  rw [entry, unit] at raises judged
  refine ⟨u, t, congrArg _ hu, served.trans (congrArg _ ht), hlay, ?_, ?_, ?_, fun q hq => ⟨?_, ?_⟩, fun hw => ?_, fun hw hn => ?_, ?_, ?_, ?_, ?_, ?_,
    fun m hm => ?_, fun q hq => ?_⟩
  · exact kmarks.trans (storeNotice_only _ _ _).marks
  · exact kscan.trans ((storeNotice_only _ _ _).scan.trans hscan)
  · exact kcomp.trans ((storeNotice_only _ _ _).comp.trans hcomp)
  · rw [tport, storeNotice_port_ne hq]
    cases q <;> first | exact absurd rfl hq | rfl
  · rw [kunits q hq, (storeNotice_only _ _ _).unit, ← hunit]
    cases q <;> first | exact absurd rfl hq | rfl
  · rw [tentry] at hw
    rw [← ht, settleUnit_eq, unit, if_neg, unit]
    rintro ⟨hwait, hnone⟩
    rcases hw with hw | hw
    · exact Bool.false_ne_true (hw.symm.trans hwait)
    · exact raises.mp hnone hw
  · rw [tentry] at hn ⊢
    rw [← ht, settleUnit_eq, unit, if_pos ⟨hw, raises.mpr hn⟩, State.unit_setUnit, if_pos rfl, attached]
    exact judged
  · exact (congrFun tport .p0 ▸ attached)
  · rw [tport, alike.requests]
    exact hport.requests
  · rw [tport, alike.engine]
    rfl
  · rw [tport, alike.refusal]
    exact hport.refusal
  · have owed : ((u.port .p0).paid .planSet .cancelled []).owed .publish = (u.port .p0).owed .publish :=
      PortController.owed_paid (by decide) _ _ _
    have frame : u.frameField = s.frameNow := by
      rw [State.frameField_eq_frameNow, State.frameNow, State.frameLow, State.frameHigh, hscan]
      rfl
    rw [tport, alike.responses, show (restarted r u).port .p0 = (u.port .p0).restarted r u.frameField from rfl, frame,
      PortController.restarted]
    simp only [PortController.paid] at owed ⊢
    rw [owed, PortController.owed, PortController.owed, hport.responses, hport.deferred]
    rfl
  · have notice : n = { kind := .planChanged, subject := 0x00, frame := s.scan.frame, count := 1, detail := byteOf m } := by
      rw [← hn, ← changedByte_eq hm, noticeNow, hscan]
      rfl
    have told := PortController.stored_congr (c := (u.port .p0).restarted r u.frameField) (d := u.port .p0) rfl rfl rfl n
    rw [← notice, tport, port0, told.1, told.2, storeNotice_eq .p0 n u]
    refine ⟨by simp, by simp, ?_⟩
    simp only [State.link, klinks]
    rw [← State.link, ← State.link, storeNotice_eq, State.link_setLink, State.link_setLink, if_pos rfl, if_pos rfl]
    exact Link.stored_congr rfl rfl _ _
  · have clear : (restarted r u).link q = (u.link q).noticesCleared.responsesFlushed := by
      cases q <;> first | exact absurd rfl hq | rfl
    simp only [State.link, klinks]
    rw [← State.link, storeNotice_link_ne hq, clear, hlink]
    rw [show (taken .p0 rest s).link q = s.links.get q from rfl]
    obtain ⟨state, dout⟩ := s.links.get q
    cases state <;> rfl

end Sys2Proof.Machine
end

