-- ==== Sys2Proof/Proofs/Publish.lean ====
section
/-! PROOFS. The checks over a proposal (R54 to R58, R97), each as the words of the statements give it; and PUBLISH. -/

namespace Sys2Proof.Machine

/-! ### The checks over a proposal -/

section
variable {e : PlanEntry} {d : Proposal} {id : Nat}

theorem within_iff {c : Copy} : c.within e = true ↔ insideTerritory e c := by
  simp [Copy.within, insideTerritory, and_assoc]

/-- The first entry that a test finds is the first with the property tested. -/
theorem find?_map_id_eq_some {f : DraftEntry → Bool} {bad : DraftEntry → Prop} (h : ∀ x ∈ d, f x = true ↔ bad x) :
    (d.find? f).map DraftEntry.id = some id ↔ firstWith bad d id := by
  constructor
  · intro g
    obtain ⟨x, hx, rfl⟩ := Option.map_eq_some_iff.mp g
    obtain ⟨hf, a, b, rfl, ha⟩ := List.find?_eq_some_iff_append.mp hx
    exact ⟨a, x, b, rfl, rfl, (h x (by simp)).mp hf, fun y hy hb => by simpa [(h y (by simp [hy])).mpr hb] using ha y hy⟩
  · rintro ⟨a, x, b, rfl, rfl, hx, ha⟩
    refine Option.map_eq_some_iff.mpr ⟨x, List.find?_eq_some_iff_append.mpr ⟨(h x (by simp)).mpr hx, a, b, rfl, ?_⟩, rfl⟩
    exact fun y hy => by simpa using fun g => ha y hy ((h y (by simp [hy])).mp g)

theorem find?_map_id_eq_none {f : DraftEntry → Bool} {bad : DraftEntry → Prop} (h : ∀ x ∈ d, f x = true ↔ bad x) :
    (d.find? f).map DraftEntry.id = none ↔ ∀ x ∈ d, ¬bad x := by
  rw [Option.map_eq_none_iff, List.find?_eq_none]
  exact forall₂_congr fun x hx => not_congr (h x hx)

theorem territoryFault_eq_some : territoryFault e d = some id ↔ firstWith (fun x => ¬insideTerritory e x.copy) d id :=
  find?_map_id_eq_some fun x _ => by simp [← within_iff]

theorem territoryFault_eq_none : territoryFault e d = none ↔ ∀ x ∈ d, insideTerritory e x.copy := by
  rw [territoryFault, find?_map_id_eq_none (bad := fun x => ¬insideTerritory e x.copy) fun x _ => by simp [← within_iff]]
  exact forall₂_congr fun _ _ => not_not

theorem guardFault_eq_some :
    guardFault e d = some id ↔ e.guard = false ∧ firstWith (fun x => x.copy.guarded = true) d id := by
  rw [guardFault]
  cases e.guard
  · simpa using find?_map_id_eq_some fun _ _ => Iff.rfl
  · simp

theorem guardFault_eq_none : guardFault e d = none ↔ (e.guard = false → ∀ x ∈ d, x.copy.guarded = false) := by
  rw [guardFault]
  cases e.guard
  · simp
  · simp

theorem crowdedLine_eq_some {share h l : Nat} : crowdedLine share h d = some l ↔ firstCrowded share h d l := by
  rw [crowdedLine, List.find?_range_eq_some]
  simp only [decide_eq_true_eq, List.mem_range, firstCrowded, Bool.not_eq_true', decide_eq_false_iff_not, Nat.not_lt]
  exact ⟨fun ⟨a, b, c⟩ => ⟨b, a, c⟩, fun ⟨a, b, c⟩ => ⟨b, a, c⟩⟩

theorem crowdedLine_eq_none {share h : Nat} :
    crowdedLine share h d = none ↔ ∀ l < h, (crossersOf d l).length ≤ share := by
  rw [crowdedLine, List.find?_eq_none]
  simp only [List.mem_range, decide_eq_true_eq, Nat.not_lt]
  rfl

theorem rowShareFault_eq_some {share h : Nat} : rowShareFault share h d = some id ↔ crowdNames share h d id := by
  unfold rowShareFault
  constructor
  · intro g
    split at g
    · cases g
    · rename_i l hl
      obtain ⟨x, hx, rfl⟩ := Option.map_eq_some_iff.mp g
      obtain ⟨a, ha⟩ := List.getLast?_eq_some_iff.mp hx
      exact ⟨l, a, x, crowdedLine_eq_some.mp hl, ha, rfl⟩
  · rintro ⟨l, a, x, hl, ha, rfl⟩
    rw [crowdedLine_eq_some.mpr hl]
    simp only
    rw [show crossing d l = a ++ [x] from ha]
    simp

theorem rowShareFault_eq_none {share h : Nat} :
    rowShareFault share h d = none ↔ ∀ l < h, (crossersOf d l).length ≤ share := by
  rw [← crowdedLine_eq_none]
  unfold rowShareFault
  split
  · rename_i g
    simp [g]
  · rename_i l hl
    have : crossing d l ≠ [] := by
      have := (crowdedLine_eq_some.mp hl).2.1
      intro g
      rw [show crossersOf d l = [] from g] at this
      simp at this
    simp [hl, this]
end

/-- A named entry is one of the proposal. -/
theorem mem_of_firstWith {bad : DraftEntry → Prop} {d : Proposal} {id : Nat} (h : firstWith bad d id) :
    ∃ x ∈ d, x.id = id := by
  obtain ⟨a, x, b, rfl, rfl, -, -⟩ := h
  exact ⟨x, by simp, rfl⟩

theorem mem_of_crowdNames {share h : Nat} {d : Proposal} {id : Nat} (g : crowdNames share h d id) :
    ∃ x ∈ d, x.id = id := by
  obtain ⟨l, a, x, -, hc, rfl⟩ := g
  exact ⟨x, List.mem_of_mem_filter (hc ▸ by simp : x ∈ crossersOf d l), rfl⟩

section
variable {p : PortId} {d : Proposal} {s : State} {id : Nat}

theorem windowMisfits_iff (x : DraftEntry) : (decide ((s.slot x.id).kind? = some .linked) &&
    (decide ((s.unit p).sw < x.copy.sx + x.copy.w) || decide ((s.unit p).sh < x.copy.sy + x.copy.h))) = true ↔
      windowMisfits p s x := by
  simp only [windowMisfits, Bool.and_eq_true, Bool.or_eq_true, decide_eq_true_eq]
  exact and_congr_right fun _ => by omega

theorem windowFault_eq_some : windowFault s (s.unit p) d = some id ↔ firstWith (windowMisfits p s) d id :=
  find?_map_id_eq_some fun x _ => windowMisfits_iff x

theorem windowFault_eq_none : windowFault s (s.unit p) d = none ↔ ∀ x ∈ d, ¬windowMisfits p s x :=
  find?_map_id_eq_none fun x _ => windowMisfits_iff x

/-- Seal validation: the four checks in their order. -/
theorem sealFault_eq : sealFault p d s =
    match territoryFault (s.entry p) d with
    | some id => some (.territory, id)
    | none => match windowFault s (s.unit p) d with
      | some id => some (.sourceWindow, id)
      | none => match guardFault (s.entry p) d with
        | some id => some (.guard, id)
        | none => (rowShareFault (s.entry p).share s.scan.setup.h d).map fun id => (.rowShare, id) := rfl

theorem sealFault_eq_none : sealFault p d s = none ↔ passesSeal p d s := by
  have parts : sealFault p d s = none ↔ territoryFault (s.entry p) d = none ∧ windowFault s (s.unit p) d = none ∧
      guardFault (s.entry p) d = none ∧ rowShareFault (s.entry p).share s.scan.setup.h d = none := by
    unfold sealFault
    cases territoryFault (s.entry p) d <;> cases windowFault s (s.unit p) d <;> cases guardFault (s.entry p) d <;> simp
  rw [parts, territoryFault_eq_none, windowFault_eq_none, guardFault_eq_none, rowShareFault_eq_none, passesSeal]
  refine and_congr Iff.rfl (and_congr (forall₂_congr fun x _ => ?_) (and_congr ?_ Iff.rfl))
  · exact ⟨fun g hk => not_not.mp fun n => g ⟨hk, n⟩, fun g n => n.2 (g n.1)⟩
  · constructor
    · intro g x hx hg
      cases he : (s.entry p).guard
      · rw [g he x hx] at hg
        cases hg
      · rfl
    · intro g he x hx
      rw [Bool.eq_false_iff]
      exact fun hg => by simp [g x hx hg] at he

/-- What a failed seal validation names is an entry of the draft. -/
theorem sealFault_names {res : Result} (h : sealFault p d s = some (res, id)) :
    res ∈ [Result.territory, .sourceWindow, .guard, .rowShare] ∧ ∃ x ∈ d, x.id = id := by
  rw [sealFault_eq] at h
  cases h1 : territoryFault (s.entry p) d with
  | some i =>
    simp only [h1, Option.some.injEq, Prod.mk.injEq] at h
    obtain ⟨rfl, rfl⟩ := h
    exact ⟨by simp, mem_of_firstWith (territoryFault_eq_some.mp h1)⟩
  | none =>
    cases h2 : windowFault s (s.unit p) d with
    | some i =>
      simp only [h1, h2, Option.some.injEq, Prod.mk.injEq] at h
      obtain ⟨rfl, rfl⟩ := h
      exact ⟨by simp, mem_of_firstWith (windowFault_eq_some.mp h2)⟩
    | none =>
      cases h3 : guardFault (s.entry p) d with
      | some i =>
        simp only [h1, h2, h3, Option.some.injEq, Prod.mk.injEq] at h
        obtain ⟨rfl, rfl⟩ := h
        exact ⟨by simp, mem_of_firstWith (guardFault_eq_some.mp h3).2⟩
      | none =>
        simp only [h1, h2, h3, Option.map_eq_some_iff, Prod.mk.injEq] at h
        obtain ⟨i, h4, rfl, rfl⟩ := h
        exact ⟨by simp, mem_of_crowdNames (rowShareFault_eq_some.mp h4)⟩
end

/-! ### A set that is applied (R74, R75) -/

/-- The copy a proposal holds of an entry it names once. -/
theorem copyIn_of_mem {pr : Proposal} (hn : pr.ids.Nodup) {e : DraftEntry} (he : e ∈ pr) : copyIn pr e.id = some e.copy := by
  obtain ⟨a, b, rfl⟩ := List.append_of_mem he
  refine copyIn_middle fun hm => ?_
  rw [Proposal.ids, List.map_append, List.map_cons, List.nodup_append] at hn
  exact hn.2.2 _ hm _ List.mem_cons_self rfl

theorem copyIn_eq_none {pr : Proposal} {id : Nat} : copyIn pr id = none ↔ id ∉ pr.ids := by
  simp [copyIn, Proposal.ids]

/-- The record of a slot that a set names is the set's copy (R75). -/
theorem applyToSlot_named {pr : Proposal} {gone : List Nat} {id : Nat} {x : Slot} {c : Copy} (h : copyIn pr id = some c)
    (ho : x.owner? ≠ none) : (applyToSlot pr gone id x).liveCopy? = some c := by
  cases x <;> simp_all [applyToSlot, Slot.liveCopy?, Slot.owner?]

/-- The advance of the generations leaves the records. -/
theorem liveCopy?_advanceGenerations (s0 s : State) (i : Nat) :
    ((advanceGenerations s0 s).slot i).liveCopy? = (s.slot i).liveCopy? := by
  rw [slot_advanceGenerations]
  cases s.slot i <;> rfl

/-! ### PUBLISH (R53 to R60, R85) -/

section
variable {p : PortId} {r : Request} {rest : List Request} {s : State}

theorem exec_publish_body (h : Takes .publish p r rest s) (hn : (s.lay p).draft = none ∨ (s.lay p).sealedSet = none) :
    exec (.publish p) s = .next (publishBody p r (taken p rest s)) := by
  have open' : decide (s.editState p = .sealedDrafting) = false := by
    rw [decide_eq_false_iff_not, State.editState, PortLayout.editState]
    rcases hn with hn | hn <;> rw [hn]
    · cases (s.lay p).sealedSet <;> simp
    · cases (s.lay p).draft <;> simp
  refine congrArg Host.Outcome.next ?_
  rw [open']
  exact serve_takes h (publishBody p)

theorem exec_publish_blocked {d pr : Proposal} (h : Takes .publish p r rest s) (hd : (s.lay p).draft = some d)
    (hs : (s.lay p).sealedSet = some pr) : exec (.publish p) s = .next (setEngine p .blocked s) := by
  have closed : decide (s.editState p = .sealedDrafting) = true := by
    rw [decide_eq_true_iff, State.editState, PortLayout.editState, hd, hs]
  refine congrArg Host.Outcome.next ?_
  rw [closed]
  exact serve_takes_blocked h (publishBody p)

/-- The Layout Store's state after a draft of a DARK panel is applied at once. -/
theorem applyInDark_facts {d : Proposal} (p : PortId) (s : State) :
    (applyInDark p d s).lay p = { order := d.ids, draft := none, sealedSet := none } ∧
      (∀ q, q ≠ p → (applyInDark p d s).lay q = s.lay q) ∧ (applyInDark p d s).layout.plan = s.layout.plan ∧
      (applyInDark p d s).scan = s.scan ∧ (applyInDark p d s).comp = s.comp ∧ (applyInDark p d s).sources = s.sources ∧
      (∀ q, (s.port q).Alike ((applyInDark p d s).port q)) ∧
      ∀ i c, copyIn d i = some c → (s.slot i).owner? ≠ none → ((applyInDark p d s).slot i).liveCopy? = some c := by
  rcases applySet_cases p (s.setLay p { s.lay p with draft := none, sealedSet := some d }) with ⟨g, -⟩ | ⟨pr, g, eq⟩
  · simp at g
  · obtain rfl : d = pr := by simpa using g
    unfold applyInDark
    simp only [eq]
    refine ⟨?_, fun q hq => ?_, ?_, ?_, ?_, ?_, fun q => ?_, fun i c hc ho => ?_⟩
    · rw [takeReports_lay]
      simp [handReports, advanceGenerations, State.mapSlots]
    · rw [takeReports_lay]
      simp [handReports, advanceGenerations, State.mapSlots, hq]
    · rw [takeReports_layout]
      rfl
    · rw [takeReports_scan]
      rfl
    · rw [takeReports_comp]
      rfl
    · rw [takeReports_sources]
      rfl
    · exact takeReports_alike q (handReports _ _)
    · rw [takeReports_slot, show ∀ rs t, (handReports rs t).slot i = t.slot i from fun _ _ => rfl, liveCopy?_advanceGenerations,
        State.slot_setLay, State.slot_mapSlots _ _ fun i => by unfold applyToSlot; split <;> simp]
      exact applyToSlot_named hc ho

end

/-- Settles O29: the checks by sealFault, the sealing, and the application at once. -/
theorem publishSeals : Obligations.PublishSeals := by
  intro p r rest s h
  refine ⟨fun hd => ?nodraft, fun d hd => ⟨fun hs => ?blocked, fun hs => ?works⟩⟩
  case nodraft =>
    rw [exec_publish_body h (.inl hd), publishBody]
    simp only [State.lay_taken, hd, respondEdit_taken]
  case blocked =>
    obtain ⟨pr, hs⟩ := Option.ne_none_iff_exists'.mp hs
    exact exec_publish_blocked h hd hs
  case works =>
    have served := exec_publish_body h (.inr hs)
    have fault : sealFault p d (taken p rest s) = sealFault p d s := rfl
    have edit : (s.editState p).byte = 0x01 := by
      simp [State.editState, PortLayout.editState, hd, hs, EditState.byte]
    simp only [publishBody, State.lay_taken, hd, fault] at served
    have refused : ∀ res id, sealFault p d s = some (res, id) →
        exec (.publish p) s = .next (answered p r rest res [0x01, byteOf id] s) := fun res id hf => by
      rw [served, hf]
      simp only [respondEdit_taken, edit]
    refine ⟨fun hn => ?_, fun id => ⟨fun hf => ?_, fun ht => ⟨fun hf => ?_, fun hw => ⟨fun hf => ?_, fun hg hc => ?_⟩⟩⟩,
      fun hp => ⟨fun hd' => ?_, fun hd' => ?_⟩⟩
    · cases hf : sealFault p d s with
      | none => exact absurd (sealFault_eq_none.mp hf) hn
      | some x =>
        obtain ⟨res, id⟩ := x
        obtain ⟨hres, x, hx, rfl⟩ := sealFault_names hf
        exact ⟨res, hres, x, hx, refused _ _ hf⟩
    · refine refused _ _ ?_
      rw [sealFault_eq, territoryFault_eq_some.mpr hf]
    all_goals try have t1 := territoryFault_eq_none.mpr fun x hx => not_not.mp (ht x hx)
    · refine refused _ _ ?_
      rw [sealFault_eq, t1, windowFault_eq_some.mpr hf]
    · have hg : guardFault (s.entry p) d = some id := by
        obtain ⟨a, x, b, hd, hx, hbad, ha⟩ := hf
        exact guardFault_eq_some.mpr ⟨hbad.2, a, x, b, hd, hx, hbad.1, fun y hy hg => ha y hy ⟨hg, hbad.2⟩⟩
      refine refused _ _ ?_
      rw [sealFault_eq, t1, windowFault_eq_none.mpr hw, hg]
    · have hg : guardFault (s.entry p) d = none := guardFault_eq_none.mpr fun he x hx => by
        rw [Bool.eq_false_iff]
        exact fun hgx => hg x hx ⟨hgx, he⟩
      refine refused _ _ ?_
      rw [sealFault_eq, t1, windowFault_eq_none.mpr hw, hg, rowShareFault_eq_some.mpr hc]
      rfl
    all_goals
      rw [sealFault_eq_none.mpr hp] at served
      dsimp only at served
    · rw [if_neg (show (taken p rest s).scan.panel ≠ .dark from hd')] at served
      refine served.trans (congrArg Host.Outcome.next ?_)
      simp only [sealDraft, deferRequest, State.port_setLay, State.port_taken, if_true]
      simp [State.setLay, State.setPort, taken, State.port]
      rfl
    · rw [if_pos (show (taken p rest s).scan.panel = .dark from hd'), respondEdit, respond_eq_replied] at served
      obtain ⟨hlay, hlays, hplan, hscan, hcomp, hsrc, hports, hslots⟩ := applyInDark_facts (d := d) p (taken p rest s)
      have frame : (applyInDark p d (taken p rest s)).frameField = s.frameNow := by
        rw [State.frameField, hscan, ← State.frameField_eq_frameNow]
        rfl
      have edit' : ((applyInDark p d (taken p rest s)).editState p).byte = 0x00 := by
        rw [State.editState, hlay]
        rfl
      rw [frame, edit'] at served
      refine ⟨_, served, ?_, ?_, hlay, fun law e he => ?_, hscan, hcomp, hsrc, hplan, hlays⟩
      · rw [State.port_replied, if_pos rfl, (hports p).responses]
        simp [State.port_taken, Request.answer]
      · rw [State.port_replied, if_pos rfl]
        simp [(hports p).requests, State.port_taken]
      · obtain ⟨-, -, ports⟩ := law
        obtain ⟨-, -, -, hdraft, -⟩ := ports p
        obtain ⟨nodup, owned⟩ := hdraft d hd
        refine hslots e.id e.copy (copyIn_of_mem nodup he) ?_
        rw [show (taken p rest s).slot e.id = s.slot e.id from rfl, owned e.id (List.mem_map_of_mem he)]
        simp

end Sys2Proof.Machine
end

