-- ==== Sys2Proof/Proofs/LineStart.lean ====
section
/-! PROOFS. The line start (R140): what the Compositor gives at each column (R28, R30), and the marks that fire (R129). -/

namespace Sys2Proof.Machine

/-! ### Notices to one port -/

/-- What notices make of a port's Port Controller and link depends on these alone. -/
theorem storeNotice_congr {p : PortId} {s t : State} (hp : t.port p = s.port p) (hl : t.link p = s.link p) (q : PortId)
    (n : Notice) :
    (storeNotice q n t).port p = (storeNotice q n s).port p ∧ (storeNotice q n t).link p = (storeNotice q n s).link p := by
  by_cases h : p = q
  · subst h
    simp [storeNotice_eq, hp, hl]
  · simp [storeNotice_port_ne h, storeNotice_link_ne h, hp, hl]

theorem storeNotices_congr {p : PortId} {s t : State} (hp : t.port p = s.port p) (hl : t.link p = s.link p)
    (ns : List (PortId × Notice)) :
    (storeNotices ns t).port p = (storeNotices ns s).port p ∧ (storeNotices ns t).link p = (storeNotices ns s).link p := by
  induction ns generalizing s t with
  | nil => exact ⟨hp, hl⟩
  | cons n ns ih =>
    obtain ⟨gp, gl⟩ := storeNotice_congr hp hl n.1 n.2
    exact ih gp gl

/-- Notices to another port do not reach a port. -/
theorem storeNotices_ne {p : PortId} {ns : List (PortId × Notice)} (h : ∀ n ∈ ns, n.1 ≠ p) (s : State) :
    (storeNotices ns s).port p = s.port p ∧ (storeNotices ns s).link p = s.link p := by
  induction ns generalizing s with
  | nil => exact ⟨rfl, rfl⟩
  | cons n ns ih =>
    have hn : p ≠ n.1 := (h n (by simp)).symm
    obtain ⟨gp, gl⟩ := ih (fun m hm => h m (by simp [hm])) (storeNotice n.1 n.2 s)
    exact ⟨gp.trans (storeNotice_port_ne hn _ _), gl.trans (storeNotice_link_ne hn _ _)⟩

/-! ### The marks of a line (R129) -/

/-- The marks of a port after the line start of a line. -/
def marksAfter (l : Nat) (s : State) (ms : List Mark) : List Mark :=
  ms.filterMap fun m => if markAt l s m then m.fired else some m

/-- The notices of the marks that fire. -/
def firedNotices (l : Nat) (s : State) (p : PortId) (ms : List Mark) : List (PortId × Notice) :=
  (ms.filter (markAt l s)).map fun m => (p, noticeNow s .markReached (byteOf m.id) (byteOf m.region))

section
variable {l : Nat} {s t : State}

theorem markAt_congr (h : t.layout = s.layout) : markAt l t = markAt l s := by
  funext m
  simp only [markAt, State.slot, h]

theorem marksAfter_eq (h : t.layout = s.layout) (ms : List Mark) : marksAfter l t ms = ms.filterMap fun m =>
    match s.slot m.region with
    | .live _ _ _ c =>
      if c.y + m.offset ≠ l then some m
      else if m.remaining = 0 then some m
      else if m.remaining = 1 then none
      else some { m with remaining := m.remaining - 1 }
    | _ => some m := by
  refine List.filterMap_congr fun m _ => ?_
  rw [markAt_congr h, markAt]
  cases s.slot m.region with
  | live o k gen c =>
    by_cases hc : c.y + m.offset = l <;> simp [Slot.liveCopy?, hc, Mark.fired]
  | _ => rfl

theorem firedNotices_eq (h : t.layout = s.layout) (p : PortId) (ms : List Mark) : firedNotices l t p ms =
    (ms.filter fun m =>
      match s.slot m.region with
      | .live _ _ _ c => decide (c.y + m.offset = l)
      | _ => false).map fun m =>
        (p, { kind := .markReached, subject := byteOf m.id, frame := t.scan.frame, count := 1, detail := byteOf m.region }) := by
  rw [firedNotices, markAt_congr h]
  refine congrArg (List.map _) (List.filter_congr fun m _ => ?_)
  rw [markAt]
  cases s.slot m.region <;> rfl
end

section
variable {l : Nat} {s : State} {p : PortId}

theorem fireMarks_ne {q : PortId} (h : q ≠ p) : (fireMarks l s p).port q = s.port q ∧
    (fireMarks l s p).link q = s.link q ∧ (fireMarks l s p).markList q = s.markList q := by
  have away : ∀ n ∈ firedNotices l s p (s.markList p), n.1 ≠ q := fun n hn => by
    obtain ⟨m, -, rfl⟩ := List.mem_map.mp hn
    exact h.symm
  obtain ⟨gp, gl⟩ := storeNotices_ne away (s.setMarkList p (marksAfter l s (s.markList p)))
  refine ⟨gp, gl, ?_⟩
  rw [(fireMarks_only l s p).markList]
  simp [h]

theorem fireMarks_self : (fireMarks l s p).port p = (storeNotices (firedNotices l s p (s.markList p)) s).port p ∧
    (fireMarks l s p).link p = (storeNotices (firedNotices l s p (s.markList p)) s).link p ∧
      (fireMarks l s p).markList p = marksAfter l s (s.markList p) := by
  obtain ⟨gp, gl⟩ := storeNotices_congr (p := p) (s := s) (t := s.setMarkList p (marksAfter l s (s.markList p))) rfl rfl
    (firedNotices l s p (s.markList p))
  refine ⟨gp, gl, ?_⟩
  rw [(fireMarks_only l s p).markList]
  simp [marksAfter]

/-- The marks of every port fire. -/
theorem foldl_fireMarks (ps : List PortId) (hn : ps.Nodup) (s : State) :
    let t := ps.foldl (fireMarks l) s
    SamePanel s t ∧ t.layout = s.layout ∧ t.sources = s.sources ∧
      ∀ p, (p ∉ ps → t.port p = s.port p ∧ t.link p = s.link p ∧ t.markList p = s.markList p) ∧
        (p ∈ ps → t.port p = (storeNotices (firedNotices l s p (s.markList p)) s).port p ∧
          t.link p = (storeNotices (firedNotices l s p (s.markList p)) s).link p ∧
          t.markList p = marksAfter l s (s.markList p)) := by
  induction ps generalizing s with
  | nil => exact ⟨.refl s, rfl, rfl, fun p => ⟨fun _ => ⟨rfl, rfl, rfl⟩, by simp⟩⟩
  | cons q ps ih =>
    obtain ⟨hq, hn⟩ := List.nodup_cons.mp hn
    have g := fireMarks_only l s q
    obtain ⟨h1, h2, h3, h4⟩ := ih hn (fireMarks l s q)
    refine ⟨SamePanel.trans ⟨g.scan, g.comp, g.pending⟩ h1, h2.trans g.layout, h3.trans g.sources, fun p => ⟨fun hp => ?_, fun hp => ?_⟩⟩
    · obtain ⟨hpq, hp⟩ := not_or.mp (fun e => hp (List.mem_cons.mpr e))
      obtain ⟨a, b, c⟩ := (h4 p).1 hp
      obtain ⟨a', b', c'⟩ := fireMarks_ne (l := l) (s := s) hpq
      exact ⟨a.trans a', b.trans b', c.trans c'⟩
    · by_cases hpq : p = q
      · subst hpq
        obtain ⟨a, b, c⟩ := (h4 p).1 hq
        obtain ⟨a', b', c'⟩ := fireMarks_self (l := l) (s := s) (p := p)
        exact ⟨a.trans a', b.trans b', c.trans c'⟩
      · obtain ⟨a, b, c⟩ := (h4 p).2 ((List.mem_cons.mp hp).resolve_left hpq)
        obtain ⟨a', b', c'⟩ := fireMarks_ne (l := l) (s := s) hpq
        have fired : firedNotices l (fireMarks l s q) p ((fireMarks l s q).markList p) =
            firedNotices l s p (s.markList p) := by
          rw [firedNotices, c', markAt_congr g.layout]
          simp only [firedNotices, noticeNow, g.scan]
          rfl
        have after : marksAfter l (fireMarks l s q) ((fireMarks l s q).markList p) = marksAfter l s (s.markList p) := by
          rw [marksAfter, c', markAt_congr g.layout]
          rfl
        rw [fired] at a b
        obtain ⟨gp, gl⟩ := storeNotices_congr a' b' (firedNotices l s p (s.markList p))
        exact ⟨a.trans gp, b.trans gl, c.trans after⟩
end

/-! ### The line that the Compositor gives (R28, R30) -/

section
variable {s t : State} {l x : Nat}

/-- Contents read the monitors of the Source Units. -/
theorem regionContent_of_monitor (h : ∀ p, (t.unit p).monitor = (s.unit p).monitor) (g : LiveRegion) :
    regionContent t g = regionContent s g := by
  simp only [regionContent, h]

/-- An entry whose region does not show at a point gives nothing there. -/
theorem lineEntry_pixel_none {g : LiveRegion} (hw : 1 ≤ g.copy.w) (hc : g.copy.crosses l = true)
    (hn : ¬showsAt s x l g) : (lineEntry s l g).pixel s x = none := by
  unfold LineEntry.pixel
  split
  · rename_i hx
    simp only [Copy.crosses, Bool.and_eq_true, decide_eq_true_eq] at hc
    obtain ⟨hfirst, hlast⟩ : g.copy.x ≤ x ∧ x ≤ g.copy.x + g.copy.w - 1 := hx
    have none : regionContent s g = .none := by
      by_contra h
      exact hn ⟨hfirst, by omega, hc.1, hc.2, h⟩
    simp [lineEntry, none]
  · rfl

/-- An entry whose region shows at a point gives the colour of the region there. -/
theorem lineEntry_pixel_some {g : LiveRegion} (hg : showsAt s x l g) :
    ∃ c, (lineEntry s l g).pixel s x = some c ∧ shownColour s x l g c := by
  obtain ⟨h1, h2, h3, h4, h5⟩ := hg
  have hx : (lineEntry s l g).first ≤ x ∧ x ≤ (lineEntry s l g).last := ⟨h1, by simp only [lineEntry]; omega⟩
  unfold LineEntry.pixel
  rw [if_pos hx]
  cases hc : regionContent s g with
  | none => exact absurd hc h5
  | fill =>
    refine ⟨g.copy.fill, by simp [lineEntry, hc], fun _ => rfl, fun h => ?_⟩
    rw [hc] at h
    cases h
  | source =>
    refine ⟨bankPixel (s.unit g.owner) (g.copy.sy + (l - g.copy.y)) (g.copy.sx + (x - g.copy.x)),
      by simp only [lineEntry, hc], fun h => ?_, fun _ pic row px hp hr hx => ?_⟩
    · rw [hc] at h
      cases h
    · simp [bankPixel, hp, List.getD_eq_getElem?_getD, hr, hx]

/-- The line list holds what crosses the line, in stack order. -/
theorem buildLineList_append {a b : List LiveRegion} (h : stackRegions s = a ++ b) : buildLineList s l =
    (a.filter fun g => g.copy.crosses l).map (lineEntry s l) ++ (b.filter fun g => g.copy.crosses l).map (lineEntry s l) := by
  simp [buildLineList, h]

theorem findSome?_pixel_none {gs : List LiveRegion} (hw : ∀ g ∈ gs, 1 ≤ g.copy.w) (hn : ∀ g ∈ gs, ¬showsAt s x l g) :
    (((gs.filter fun g => g.copy.crosses l).map (lineEntry s l)).reverse.findSome? fun e => e.pixel s x) = none := by
  rw [List.findSome?_eq_none_iff]
  intro e he
  obtain ⟨g, hg, rfl⟩ := List.mem_map.mp (List.mem_reverse.mp he)
  obtain ⟨hg, hc⟩ := List.mem_filter.mp hg
  exact lineEntry_pixel_none (hw g hg) hc (hn g hg)

/-- A column where no region shows is background. -/
theorem linePixel_background (hw : ∀ g ∈ stackRegions s, 1 ≤ g.copy.w) (hn : ∀ g ∈ stackRegions s, ¬showsAt s x l g) :
    linePixel s (buildLineList s l) x = s.layout.plan.background := by
  rw [linePixel, buildLineList, findSome?_pixel_none hw hn]
  rfl

/-- A column where a region gives the point shows that region's colour. -/
theorem linePixel_given {g : LiveRegion} (hw : ∀ g ∈ stackRegions s, 1 ≤ g.copy.w) (hg : givesPoint s x l g) :
    shownColour s x l g (linePixel s (buildLineList s l) x) := by
  obtain ⟨below, above, hs, hg, ha⟩ := hg
  obtain ⟨c, hc, shown⟩ := lineEntry_pixel_some hg
  have crosses : g.copy.crosses l = true := by
    simp only [Copy.crosses, Bool.and_eq_true, decide_eq_true_eq]
    exact ⟨hg.2.2.1, hg.2.2.2.1⟩
  have tail := findSome?_pixel_none (s := s) (l := l) (x := x) (gs := above)
    (fun r hr => hw r (by rw [hs]; simp [hr])) ha
  rw [linePixel, buildLineList_append hs, List.filter_cons, if_pos crosses, List.map_cons, List.reverse_append,
    List.findSome?_append, List.reverse_cons, List.findSome?_append, tail]
  simpa [hc] using shown

/-- Every LIVE region of the displayed stack is some columns wide. -/
theorem PlacementLaw.width (h : s.PlacementLaw) : ∀ g ∈ stackRegions s, 1 ≤ g.copy.w := by
  intro g hg
  obtain ⟨id, hid, hlive⟩ := List.mem_filterMap.mp hg
  obtain ⟨r, -, hid⟩ := List.mem_flatMap.mp hid
  obtain ⟨p, -, hid⟩ := List.mem_flatMap.mp hid
  obtain ⟨-, ⟨placed, -⟩, -⟩ := h p
  unfold liveRegion at hlive
  split at hlive
  · rename_i o k gen c hs
    obtain rfl := Option.some.inj hlive
    have entry : { id := id, copy := c } ∈ liveEntries p s :=
      List.mem_filterMap.mpr ⟨id, hid, by simp [hs, Slot.liveCopy?]⟩
    exact (placed _ entry).1
  · cases hlive
end

/-! ### The line start (R140) -/

section
variable {s : State} {l : Nat}

theorem frameOver_iff : frameOver s.scan = true ↔ frameEnds s := by
  unfold frameOver frameEnds
  cases s.scan.pos <;> simp

theorem workWaits_eq_false : workWaits s = false ↔ frameWhole s := by
  have all : (PortId.all.any fun p => (s.unit p).frameWaiting) = false ↔ ∀ p, (s.unit p).frameWaiting = false := by
    rw [List.any_eq_false]
    exact ⟨fun h p => by simpa using h p (PortId.mem_all p), fun h p _ => by simp [h p]⟩
  rw [workWaits, Bool.or_eq_false_iff, all]
  rfl

/-- The line whose line start comes next. -/
theorem nextLine_eq_some (hd : s.scan.panel ≠ .dark) (hl : l < s.scan.setup.h)
    (hp : s.scan.pos = none ∧ l = 0 ∨ ∃ k, s.scan.pos = some k ∧ l = k + 1) : nextLine s.scan = some l := by
  unfold nextLine
  rcases hp with ⟨hp, rfl⟩ | ⟨k, hp, rfl⟩ <;> simp [hp, hd, hl]

/-- The scan position is at line l and every FSYNC line quiet. -/
def lineSet (l : Nat) (u : State) : State := endFsync (u.setScan { u.scan with pos := some l })

/-- The state of a line start before the marks fire. -/
def lineBegun (l : Nat) (u : State) : State := (lineSet l u).setComp (compose (lineSet l u) l)

theorem startLine_eq (u : State) : startLine l u =
    if u.scan.panel = .live then PortId.all.foldl (fireMarks l) (lineBegun l u) else lineBegun l u := rfl

theorem lineSet_unit (u : State) (p : PortId) : (lineSet l u).unit p = { u.unit p with fsync := false } := by
  cases p <;> rfl

theorem lineBegun_port (u : State) (p : PortId) : (lineBegun l u).port p = u.port p := rfl

theorem lineBegun_link (u : State) (p : PortId) : (lineBegun l u).link p = u.link p := rfl

theorem lineBegun_markList (u : State) (p : PortId) : (lineBegun l u).markList p = u.markList p := rfl

theorem lineBegun_unit (u : State) (p : PortId) : (lineBegun l u).unit p = { u.unit p with fsync := false } :=
  lineSet_unit u p

theorem lineBegun_layout (u : State) : (lineBegun l u).layout = u.layout := rfl

theorem lineBegun_scan (u : State) : (lineBegun l u).scan = { u.scan with pos := some l } := rfl

theorem lineBegun_comp (u : State) : (lineBegun l u).comp = compose (lineSet l u) l := rfl

theorem lineSet_shown (u : State) {x : Nat} {g : LiveRegion} {c : Colour} (h : shownColour (lineSet l u) x l g c) :
    shownColour u x l g c := by
  have content : regionContent (lineSet l u) g = regionContent u g :=
    regionContent_of_monitor (fun p => by rw [lineSet_unit]) g
  rw [shownColour, content, lineSet_unit] at h
  exact h

theorem lineSet_showsAt (u : State) (x : Nat) (g : LiveRegion) : showsAt (lineSet l u) x l g ↔ showsAt u x l g := by
  have content : regionContent (lineSet l u) g = regionContent u g :=
    regionContent_of_monitor (fun p => by rw [lineSet_unit]) g
  rw [showsAt, showsAt, content]

theorem composeLine_length (s : State) (es : List LineEntry) : (composeLine s es).length = s.scan.setup.w := by
  simp [composeLine]

theorem composeLine_nil (s : State) : composeLine s [] = List.replicate s.scan.setup.w s.layout.plan.background := by
  refine List.eq_replicate_iff.mpr ⟨composeLine_length s [], fun c hc => ?_⟩
  obtain ⟨x, -, rfl⟩ := List.mem_map.mp hc
  rfl

theorem compose_live {u : State} (h : u.scan.panel = .live) : compose (lineSet l u) l =
    { list := buildLineList (lineSet l u) l
      output := .line (composeLine (lineSet l u) (buildLineList (lineSet l u) l)) } := by
  rw [compose, show (lineSet l u).scan.panel = .live from h]

theorem compose_background {u : State} (hd : u.scan.panel ≠ .dark) (hl : u.scan.panel ≠ .live) :
    compose (lineSet l u) l = { list := [], output := .line (composeLine (lineSet l u) []) } := by
  rw [compose, show (lineSet l u).scan.panel = u.scan.panel from rfl]
  cases h : u.scan.panel <;> first | exact absurd h hd | exact absurd h hl | rfl
end

/-- Settles O49: the composition by the giving region of each column, and the marks that fire port by port. -/
theorem lineStartShowsAndFires : Obligations.LineStartShowsAndFires := by
  refine ⟨fun s h => ?_, fun l s hd hl hp hw law => ?_⟩
  · refine congrArg Host.Outcome.next ?_
    cases hn : nextLine s.scan with
    | none => rfl
    | some l =>
      rcases h with h | h | h
      · simp [nextLine, h] at hn
      · obtain ⟨k, hk, hend⟩ := h
        simp only [nextLine, hk, ← hend] at hn
        split at hn
        · cases hn
        · simp at hn
      · have waits : workWaits s = true := by
          by_contra g
          exact h (workWaits_eq_false.mp (by simpa using g))
        simp only [waits, if_true]
  · have served : exec .lineStart s = .next (startLine l (takeReports s)) := by
      refine congrArg Host.Outcome.next ?_
      simp only [nextLine_eq_some hd hl hp, workWaits_eq_false.mpr hw]
      rfl
    rw [startLine_eq] at served
    have width := PlacementLaw.width law
    have hscan := takeReports_scan s
    have hlayout := takeReports_layout s
    generalize hu : takeReports s = u at served hscan hlayout
    have stack : stackRegions (lineSet l u) = stackRegions s := stackRegions_congr hlayout
    have stack' : stackRegions (lineSet l u) = stackRegions u := stackRegions_congr rfl
    rw [← stack] at width
    have hw : (lineSet l u).scan.setup.w = s.scan.setup.w := by
      rw [← hscan]
      rfl
    have begun_comp := lineBegun_comp (l := l) u
    have begun_port := lineBegun_port (l := l) u
    have begun_link := lineBegun_link (l := l) u
    have begun_marks := lineBegun_markList (l := l) u
    have begun_unit := lineBegun_unit (l := l) u
    have begun_layout := lineBegun_layout (l := l) u
    have begun_scan := lineBegun_scan (l := l) u
    generalize lineBegun l u = v at *
    by_cases live : u.scan.panel = .live
    · rw [if_pos live] at served
      rw [compose_live live] at begun_comp
      obtain ⟨⟨fscan, fcomp, -⟩, flayout, fsources, fports⟩ := foldl_fireMarks (l := l) PortId.all (by decide) v
      generalize PortId.all.foldl (fireMarks l) v = t at served fscan fcomp flayout fsources fports
      have funit : ∀ p, t.unit p = v.unit p := fun p => by simp only [State.unit, fsources]
      refine ⟨u, t, composeLine (lineSet l u) (buildLineList (lineSet l u) l), congrArg _ hu, served, ?_, ?_, ?_, ?_, ?_, ?_,
        fun h => absurd live h, fun _ => ⟨?_, fun x hx => ?_, fun p => ⟨?_, ?_⟩⟩⟩
      · rw [fscan, begun_scan, hscan]
      · rw [flayout, begun_layout, hlayout]
      · rw [fcomp, begun_comp]
      · rw [composeLine_length, hw]
      · exact fun p => (funit p).trans (begun_unit p)
      · intro p
        obtain ⟨hport, -, -⟩ := (fports p).2 (PortId.mem_all p)
        rw [hport, ← begun_port]
        exact (storeNotices_only _ _).ports p
      · rw [fcomp, begun_comp, ← stack', buildLineList, List.map_map]
        rfl
      · refine ⟨linePixel (lineSet l u) (buildLineList (lineSet l u) l) x, ?_, fun hn => ?_, fun g hg => ?_⟩
        · rw [composeLine, hw]
          simp [hx]
        · exact linePixel_background width fun g hg => (lineSet_showsAt u x g).not.mpr (hn g (stack' ▸ hg))
        · refine lineSet_shown u (linePixel_given width ?_)
          obtain ⟨below, above, hs, hg, ha⟩ := hg
          exact ⟨below, above, stack'.trans hs, (lineSet_showsAt u x g).mpr hg,
            fun r hr => (lineSet_showsAt u x r).not.mpr (ha r hr)⟩
      · obtain ⟨-, -, hmarks⟩ := (fports p).2 (PortId.mem_all p)
        rw [begun_marks] at hmarks
        exact hmarks.trans (marksAfter_eq begun_layout _)
      · obtain ⟨hport, hlink, -⟩ := (fports p).2 (PortId.mem_all p)
        have notices := firedNotices_eq (l := l) begun_layout p (u.markList p)
        have congr := storeNotices_congr (begun_port p) (begun_link p) (firedNotices l v p (u.markList p))
        rw [begun_marks] at hport hlink
        rw [hport, hlink, congr.1, congr.2, notices, begun_scan, hscan]
        exact ⟨rfl, rfl⟩
    · rw [if_neg live] at served
      rw [compose_background (by rwa [hscan]) live] at begun_comp
      refine ⟨u, v, composeLine (lineSet l u) [], congrArg _ hu, served, ?_, ?_, ?_, ?_, begun_unit, ?_, fun h => ⟨?_, ?_, ?_⟩,
        fun h => absurd h live⟩
      · rw [begun_scan, hscan]
      · rw [begun_layout, hlayout]
      · rw [begun_comp]
      · rw [composeLine_length, hw]
      · exact fun p => (PortController.Alike.of_eq (begun_port p)).1
      · rw [composeLine_nil, hw]
        rfl
      · rw [begun_comp]
      · exact fun p => ⟨begun_marks p, begun_port p⟩

end Sys2Proof.Machine
end

