-- ==== Sys2Proof/Proofs/Moves.lean ====
section
/-! PROOFS. Every command as a chain of moves: the few things that a command can do to the blocks, each with what it may
rely on. A law of the part is kept by every command if it is kept by every move.

The hand of a chain is the port whose engine has taken a request off its queue and not yet answered it: the request's place
of credit is in use meanwhile (R155). -/

namespace Sys2Proof.Machine

/-! ### The moves -/

/-- What touches only the queues, the notices and the links. -/
inductive QueueMove : Option PortId → State → Option PortId → State → Prop
  | link (h : Option PortId) (p : PortId) (l : Link) (s : State) : QueueMove h s h (s.setLink p l)
  | refusal (h : Option PortId) (p : PortId) (why : Refused) (s : State) : QueueMove h s h (refuse p why s)
  | accept (p : PortId) (r : Request) (s : State) (could : (s.port p).couldAccept = true) :
      QueueMove none s none (s.setPort p { s.port p with requests := (s.port p).requests ++ [r] })
  | read (p : PortId) (s : State) :
      QueueMove none s none (s.setPort p { s.port p with responses := (s.port p).responses.tail })
  | readNotice (p : PortId) (since : Nat) (s : State) : QueueMove none s none (removeNotice p since s)
  | notice (h : Option PortId) (p : PortId) (n : Notice) (s : State) : QueueMove h s h (storeNotice p n s)
  | take (p : PortId) (r : Request) (s : State) (head : headOf p s = some r) : QueueMove none s (some p) (dropHead p s)
  | answer (p : PortId) (r : Request) (res : Result) (fields : List Byte) (s : State) :
      QueueMove (some p) s none (respond p r res fields s)

/-- What the draft requests of port p do to its draft (R44 to R51). -/
inductive DraftMove (p : PortId) : State → State → Prop
  | opened (d : Proposal) (s : State) (closed : (s.lay p).draft = none)
      (copies : (s.lay p).sealedSet = some d ∨ ((s.lay p).sealedSet = none ∧ d = liveEntries p s)) :
      DraftMove p s (setDraft p (some d) s)
  | created (d : Proposal) (k : RegionKind) (id : Nat) (s : State) (draft : (s.lay p).draft = some d)
      (quota : ownedCount p s < (s.entry p).quota) (free : lowestFree s = some id) :
      DraftMove p s (reserveSlot p k id d s)
  | edited (d d' : Proposal) (s : State) (draft : (s.lay p).draft = some d) (ids : d.ids.Nodup → d'.ids.Perm d.ids)
      (drafted : (∀ e ∈ d, e.copy.Drafted) → ∀ e ∈ d', e.copy.Drafted) : DraftMove p s (setDraft p (some d') s)
  | cut (d : Proposal) (d' : Option Proposal) (s : State) (draft : (s.lay p).draft = some d)
      (less : d' = none ∨ ∃ id, d' = some (d.filter fun e => e.id != id)) :
      DraftMove p s (releaseUnnamed p (setDraft p d' s))

/-- The packets of the pixel link (6.2). -/
inductive Packet where
  | frameBegin
  | line (index : Nat) (pixels : List Colour)
  | frameEnd
  | damaged

/-- The FILLING bank that a packet leaves. -/
def Packet.fill : Packet → SourceUnit → Filling
  | .frameBegin, _ => .receiving []
  | .line index pixels, u => u.filling.line u.sw u.sh index pixels
  | .frameEnd, u => u.filling.frameEnd u.sh
  | .damaged, u => u.filling.malformed

/-- What the requests of the Scan Timer, the warm count and the line starts do. -/
inductive PanelMove : State → State → Prop
  | warmCount (s : State) : PanelMove s (takeWarmCount s)
  | setup (u : Setup) (s : State) (dark : s.scan.panel = .dark) (range : u.inRange = true)
      (fits : setupFault u s = none) : PanelMove s (s.setScan { s.scan with setup := u })
  | panelOff (s : State) (runs : s.scan.panel = .warming ∨ s.scan.panel = .live) (taken : s.scan.warmWaiting = false) :
      PanelMove s (enterPanel .cooling (s.setScan { s.scan with warm := 0, cool := 0, coolingFrame := false }))
  | panelOn (now : List FrameWork) (s : State) (dark : s.scan.panel = .dark) : PanelMove s (startWarming now s)
  | line (l : Nat) (s : State) (next : nextLine s.scan = some l) (whole : workWaits s = false) :
      PanelMove s (startLine l (takeReports s))

/-- What a command can do, but for RESTART, the frame starts, the entry into DARK and device reset. -/
inductive Move : Option PortId → State → Option PortId → State → Prop
  | queue {h h' : Option PortId} {s t : State} (move : QueueMove h s h' t) : Move h s h' t
  | draft {p : PortId} {s t : State} (ready : (s.port p).engine = .ready) (attached : (s.port p).attach = .attached)
      (move : DraftMove p s t) : Move (some p) s (some p) t
  | block (p : PortId) (s : State) (reason : blockedFor p s) : Move none s none (setEngine p .blocked s)
  | depart (h : Option PortId) (p : PortId) (s : State) : Move h s h (leaveIfDone p s)
  | reports (h : Option PortId) (s : State) : Move h s h (takeReports s)
  | panel (h : Option PortId) {s t : State} (move : PanelMove s t) : Move h s h t
  | sealSet (p : PortId) (r : Request) (d : Proposal) (s : State) (ready : (s.port p).engine = .ready)
      (attached : (s.port p).attach = .attached) (code : r.code = RequestKind.publish.code)
      (draft : (s.lay p).draft = some d) (unsealed : (s.lay p).sealedSet = none) (passes : sealFault p d s = none)
      (runs : s.scan.panel ≠ .dark) : Move (some p) s none (sealDraft p r d s)
  | applySet (p : PortId) (d : Proposal) (s : State) (ready : (s.port p).engine = .ready)
      (attached : (s.port p).attach = .attached) (draft : (s.lay p).draft = some d)
      (unsealed : (s.lay p).sealedSet = none) (passes : sealFault p d s = none) (dark : s.scan.panel = .dark) :
      Move (some p) s (some p) (applyInDark p d s)
  | sealPlan (r : Request) (mode : PlanMode) (s : State) (ready : (s.port .p0).engine = .ready)
      (attached : (s.port .p0).attach = .attached) (code : r.code = RequestKind.planSet.code)
      (unsealed : s.layout.sealedPlan = none)
      (valid : planFault s.scan.setup.w s.scan.setup.h (rawEntries r.params) = none) (runs : s.scan.panel ≠ .dark) :
      Move (some .p0) s none
        (deferRequest .p0 r (s.setSealedPlan (some { plan := paramPlan r.params, mode := mode })))
  | settlePlan (r : Request) (mode : PlanMode) (s : State) (ready : (s.port .p0).engine = .ready)
      (attached : (s.port .p0).attach = .attached) (unsealed : s.layout.sealedPlan = none)
      (valid : planFault s.scan.setup.w s.scan.setup.h (rawEntries r.params) = none) (dark : s.scan.panel = .dark) :
      Move (some .p0) s none (settleInDark r (paramPlan r.params) mode s)
  | attach (p : PortId) (sw sh : Nat) (s : State) (size : sizeOk sw sh = true)
      (detached : (s.port p).attach = .detached) (ready : (s.port p).engine = .ready) :
      Move (some p) s (some p) (attach p sw sh s)
  | bye (p : PortId) (r : Request) (s : State) (attached : (s.port p).attach = .attached) :
      Move (some p) s none (byeBody p r s)
  | eject (h : Option PortId) (q : PortId) (s : State) (other : h ≠ some q) (attached : (s.port q).attach = .attached) :
      Move h s h (retireIfDark (enterLeaving q .eject none s))
  | format (p : PortId) (sw sh : Nat) (s : State) (size : sizeOk sw sh = true) (free : holdsLinked p s = false)
      (attached : (s.port p).attach = .attached) :
      Move (some p) s (some p) (settleUnit p (s.setUnit p { (s.unit p).forced with sw := sw, sh := sh }))
  | packet (p : PortId) (x : Packet) (s : State) (runs : running p s = true) : Move none s none (packet p x.fill s)
  | judge (p : PortId) (s : State) : Move none s none (takeFrameStart p s)
  | mark (p : PortId) (m : Mark) (s : State) (taken : s.marks.reports = []) (fits : m.Fits p s)
      (id : lowestMarkId (s.markList p) = some m.id) :
      Move (some p) s (some p) (s.setMarkList p (insertMark m (s.markList p)))
  | unmark (p : PortId) (id : Nat) (s : State) :
      Move (some p) s (some p) (s.setMarkList p ((s.markList p).filter fun x => x.id != id))

/-- What a command can do. -/
inductive AnyMove : Option PortId → State → Option PortId → State → Prop
  | move {h h' : Option PortId} {s t : State} (move : Move h s h' t) : AnyMove h s h' t
  | restart (r : Request) (s : State) (attached : (s.port .p0).attach = .attached)
      (ready : (s.port .p0).engine = .ready) : AnyMove (some .p0) s none (restartBody .p0 r s)
  | frame (now : List FrameWork) (s : State) (runs : s.scan.panel ≠ .dark) (ended : frameOver s.scan = true)
      (stays : coolCountDue s = false) : AnyMove none s none
        (frameWork now (raiseFrame ((takeReports s).setScan (countFrame (takeReports s).scan))))
  | enterDark (noticeFirst : Bool) (s : State) (due : coolCountDue s = true) :
      AnyMove none s none (enterDark noticeFirst s)
  | reset (s t : State) (eq : execDeviceReset s = .next t) : AnyMove none s none t

/-- Chains of moves. -/
def Chain (M : Option PortId → State → Option PortId → State → Prop) (h : Option PortId) (s : State)
    (h' : Option PortId) (t : State) : Prop :=
  Relation.ReflTransGen (fun a b : Option PortId × State => M a.1 a.2 b.1 b.2) (h, s) (h', t)

section
variable {M N : Option PortId → State → Option PortId → State → Prop} {h h' h'' : Option PortId} {s t u : State}

theorem Chain.refl : Chain M h s h s := Relation.ReflTransGen.refl

theorem Chain.one (m : M h s h' t) : Chain M h s h' t := Relation.ReflTransGen.single m

theorem Chain.trans (c : Chain M h s h' t) (d : Chain M h' t h'' u) : Chain M h s h'' u := Relation.ReflTransGen.trans c d

theorem Chain.mono (f : ∀ {h s h' t}, M h s h' t → N h s h' t) (c : Chain M h s h' t) : Chain N h s h' t :=
  Relation.ReflTransGen.mono (fun _ _ m => f m) _ _ c

/-- What every move keeps every chain keeps. -/
theorem Chain.keeps {J : Option PortId → State → Prop} (keep : ∀ {h s h' t}, M h s h' t → J h s → J h' t)
    (c : Chain M h s h' t) (j : J h s) : J h' t := by
  have key : ∀ b : Option PortId × State,
      Relation.ReflTransGen (fun a b : Option PortId × State => M a.1 a.2 b.1 b.2) (h, s) b → J b.1 b.2 := by
    intro b g
    induction g with
    | refl => exact j
    | tail _ m ih => exact keep m ih
  exact key _ c

theorem Chain.foldl {α : Type} {f : State → α → State} (step : ∀ s x, Chain M h s h (f s x)) (xs : List α) (s : State) :
    Chain M h s h (xs.foldl f s) := by
  induction xs generalizing s with
  | nil => exact .refl
  | cons x xs ih => exact (step s x).trans (ih _)

/-- A fold that collects something beside the state. -/
theorem Chain.foldl_fst {α β : Type} {f : State × β → α → State × β} (step : ∀ sb x, Chain M h sb.1 h (f sb x).1)
    (xs : List α) (sb : State × β) : Chain M h sb.1 h (xs.foldl f sb).1 := by
  induction xs generalizing sb with
  | nil => exact .refl
  | cons x xs ih => exact (step sb x).trans (ih _)
end

/-! ### The command link (10.1) -/

section
variable {h : Option PortId} {p : PortId} {s : State}

theorem chain_link (l : Link) : Chain Move h s h (s.setLink p l) := .one (.queue (.link h p l s))

theorem chain_setTransaction (t : LinkState) : Chain Move h s h (setTransaction p t s) := chain_link _

theorem chain_clockOut (bs : List Byte) : Chain Move h s h (clockOut p bs s) := chain_link _

theorem chain_refuse (why : Refused) : Chain Move h s h (refuse p why s) := .one (.queue (.refusal h p why s))

theorem chain_sendStatus (b : Byte) : Chain Move h s h (sendStatus p b s) := (chain_clockOut _).trans (chain_refuse _)

theorem chain_selectLink : Chain Move h s h (selectLink p s) := by
  unfold selectLink
  split
  · exact chain_link _
  · exact .refl

theorem chain_takeKind (k : Byte) : Chain Move h s h (takeKind p k s) := by
  unfold takeKind
  split
  · exact chain_setTransaction _
  · exact (chain_refuse _).trans (chain_setTransaction _)

theorem chain_clockKind (k : Byte) : Chain Move h s h (clockKind p k s) := by
  unfold clockKind
  split
  · exact (chain_sendStatus _).trans (chain_takeKind _)
  · exact .refl

theorem chain_offer (r : Request) : Chain Move none s none (offer p r s) := by
  unfold offer
  dsimp only
  split
  · exact chain_refuse _
  · split
    · rename_i hc
      exact .one (.queue (.accept p r s hc))
    · exact chain_refuse _

theorem chain_clockWrite (b : Byte) : Chain Move none s none (clockWrite p s b) := by
  unfold clockWrite
  split
  · refine (chain_clockOut (p := p) [0x00]).trans ?_
    unfold takeFrameByte
    dsimp only
    split
    · exact chain_setTransaction _
    · split
      · exact (chain_refuse _).trans (chain_setTransaction _)
      · split
        · exact chain_setTransaction _
        · split
          · exact (chain_offer _).trans (chain_setTransaction _)
          · exact (chain_refuse _).trans (chain_setTransaction _)
  · exact chain_clockOut _
  · exact .refl

theorem chain_releaseWrite : Chain Move none s none (releaseWrite p s) := by
  unfold releaseWrite
  split
  · split
    · exact chain_setTransaction _
    · exact (chain_refuse _).trans (chain_setTransaction _)
  · exact .refl

theorem chain_clockResponse (b : Byte) : Chain Move none s none (clockResponse p s b) := by
  unfold clockResponse
  split
  · exact (chain_setTransaction _).trans (chain_clockOut _)
  · exact .refl

theorem chain_releaseResponse : Chain Move none s none (releaseResponse p s) := by
  unfold releaseResponse
  split
  · refine (chain_setTransaction (p := p) .idle).trans ?_
    dsimp only
    split
    · exact (Chain.one (.queue (.read p _))).trans (.one (.depart none p _))
    · exact .refl
  · exact .refl

theorem chain_clockNotice (b : Byte) : Chain Move none s none (clockNotice p s b) := by
  unfold clockNotice
  split
  · exact (chain_setTransaction _).trans (chain_clockOut _)
  · exact .refl

theorem chain_releaseNotice : Chain Move none s none (releaseNotice p s) := by
  unfold releaseNotice
  split
  · refine (chain_setTransaction (p := p) .idle).trans ?_
    dsimp only
    split
    · exact .refl
    · split
      · exact .one (.queue (.readNotice p _ _))
      · exact .refl
  · exact .refl

theorem chain_clockStatusByte (b : Byte) : Chain Move none s none (clockStatusByte p s b) := by
  unfold clockStatusByte
  split
  · exact chain_sendStatus _
  · exact .refl

theorem chain_releaseStatus : Chain Move none s none (releaseStatus p s) := by
  unfold releaseStatus
  split
  · exact chain_setTransaction _
  · exact .refl

theorem chain_clockIgnored (b : Byte) : Chain Move none s none (clockIgnored p s b) := by
  unfold clockIgnored
  split
  · exact chain_clockOut _
  · exact .refl

theorem chain_releaseIgnored : Chain Move none s none (releaseIgnored p s) := by
  unfold releaseIgnored
  split
  · exact chain_setTransaction _
  · exact .refl

theorem chain_clockAbandoned (b : Byte) : Chain Move none s none (clockAbandoned p s b) := by
  unfold clockAbandoned
  split
  · exact chain_clockOut _
  · exact .refl

/-- A part of a transaction whose bytes and end are chains is one. -/
theorem chain_runPart {k : Byte} {clock : State → Byte → State} {finish : State → State}
    (hc : ∀ s b, Chain Move none s none (clock s b)) (hf : ∀ s, Chain Move none s none (finish s)) (part : LinkPart) :
    Chain Move none s none (runPart p k clock finish part s) := by
  cases part with
  | select => exact chain_selectLink
  | kind => exact (chain_clockKind k).trans (chain_clockAbandoned k)
  | clock bs => exact (Chain.foldl hc bs s).trans (Chain.foldl (fun _ => chain_clockAbandoned) bs _)
  | release =>
    unfold runPart
    dsimp only
    split
    · unfold releaseAbandoned
      split
      · exact chain_setTransaction _
      · exact .refl
    · unfold releaseSelected
      split
      · exact chain_setTransaction _
      · exact .refl
    · exact hf s
  | whole bs =>
    unfold runPart
    dsimp only
    split
    · exact ((chain_selectLink.trans (chain_clockKind k)).trans (Chain.foldl hc bs _)).trans (hf _)
    · exact .refl
end

/-! ### A request at the engine (R156) -/

/-- What the taking of a request of a kind lets its block rely on. -/
structure InHand (k : RequestKind) (p : PortId) (r : Request) (s : State) : Prop where
  ready : (s.port p).engine = .ready
  attached : k ≠ .hello → (s.port p).attach = .attached
  present : (s.port p).attach = .detached ∨ (s.port p).attach = .attached
  code : r.code = k.code
  length : r.params.length = k.length
  zero : k.planPort = true → p = .p0

section
variable {k : RequestKind} {p : PortId} {r : Request} {s t : State}

theorem universalResult_eq_none {a : Attach} (h : universalResult k p a r = none) :
    r.params.length = k.length ∧ (a = .detached → k = .hello) ∧ (k.planPort = true → p = .p0) := by
  unfold universalResult at h
  split at h
  · cases h
  · rename_i hl
    split at h
    · cases h
    · rename_i ha
      split at h
      · cases h
      · rename_i hp
        exact ⟨not_not.mp hl, fun e => not_not.mp fun n => ha ⟨e, n⟩, fun e => not_not.mp fun n => hp ⟨n, e⟩⟩

theorem inHand_dropHead (hh : headOf p s = some r) (hc : r.code = k.code)
    (hu : universalResult k p (s.port p).attach r = none) : InHand k p r (dropHead p s) := by
  obtain ⟨ready, present, -⟩ := headOf_some hh
  obtain ⟨length, hello, zero⟩ := universalResult_eq_none hu
  have port : ((dropHead p s).port p).engine = (s.port p).engine ∧ ((dropHead p s).port p).attach = (s.port p).attach := by
    simp [dropHead]
  exact ⟨port.1.trans ready, fun hk => port.2.trans (present.resolve_left fun e => hk (hello e)),
    port.2 ▸ present, hc, length, zero⟩

/-- A request row whose block answers by a chain is a chain. -/
theorem chain_serve {M : Option PortId → State → Option PortId → State → Prop} {blocks : Bool}
    {body : Request → State → State} (lift : ∀ {h s h' t}, Move h s h' t → M h s h' t)
    (hblock : ∀ r, headOf p s = some r → r.code = k.code → blocks = true → universalResult k p (s.port p).attach r = none →
      blockedFor p s)
    (hbody : ∀ r, blocks = false → InHand k p r (dropHead p s) → Chain M (some p) (dropHead p s) none (body r (dropHead p s))) :
    Chain M none s none (serve k p blocks body s) := by
  rcases serve_cases k p blocks body s with h | ⟨r, res, hh, -, -, h⟩ | ⟨r, hh, hc, hu, hb, h⟩ | ⟨r, hh, hc, hu, hb, h⟩ <;> rw [h]
  · exact .refl
  · exact (Chain.one (lift (.queue (.take p r s hh)))).trans (.one (lift (.queue (.answer p r res [] _))))
  · exact .one (lift (.block p s (hblock r hh hc hb hu)))
  · exact (Chain.one (lift (.queue (.take p r s hh)))).trans (hbody r hb (inHand_dropHead hh hc hu))

theorem chain_respond (res : Result) (fields : List Byte) : Chain Move (some p) s none (respond p r res fields s) :=
  .one (.queue (.answer p r res fields s))

theorem chain_respondEdit (res : Result) (fields : List Byte) :
    Chain Move (some p) s none (respondEdit p r res fields s) := chain_respond _ _
end

/-! ### The requests -/

section
variable {p : PortId} {r : Request} {s : State}

/-- A draft request that names a region: its checks answer, or its own work is a chain. -/
theorem chain_onDraftRegion {work : Proposal → Nat → State → State}
    (hw : ∀ d id, (s.lay p).draft = some d → Chain Move (some p) s none (work d id s)) :
    Chain Move (some p) s none (onDraftRegion p r work s) := by
  unfold onDraftRegion
  split
  · exact chain_respondEdit _ _
  · rename_i d hd
    split
    · exact chain_respondEdit _ _
    · exact hw d _ hd

theorem editCopy_ids (d : Proposal) (id : Nat) (f : Copy → Copy) : (editCopy d id f).ids = d.ids := by
  simp only [editCopy, Proposal.ids, List.map_map]
  refine List.map_congr_left fun e _ => ?_
  simp only [Function.comp_apply]
  split <;> rfl

/-- A change of one copy keeps the copies as a draft may hold them if the changed one is so. -/
theorem editCopy_drafted {d : Proposal} {id : Nat} {f : Copy → Copy} (hf : ∀ c : Copy, c.Drafted → (f c).Drafted)
    (h : ∀ e ∈ d, e.copy.Drafted) : ∀ e ∈ editCopy d id f, e.copy.Drafted := by
  intro e he
  obtain ⟨x, hx, rfl⟩ := List.mem_map.mp he
  split
  · exact hf _ (h x hx)
  · exact h x hx

theorem chain_editCopy {d : Proposal} {id : Nat} {f : Copy → Copy} (hi : InHand k p r s) (hk : k ≠ .hello)
    (hd : (s.lay p).draft = some d) (hf : ∀ c : Copy, c.Drafted → (f c).Drafted) (res : Result) (fields : List Byte) :
    Chain Move (some p) s none (respondEdit p r res fields (setDraft p (some (editCopy d id f)) s)) :=
  (Chain.one (.draft hi.ready (hi.attached hk)
    (.edited d _ s hd (fun _ => by rw [editCopy_ids]) (editCopy_drafted hf)))).trans (chain_respondEdit _ _)

theorem chain_placeWork {d : Proposal} {id : Nat} (hi : InHand .place p r s) (hd : (s.lay p).draft = some d) :
    Chain Move (some p) s none (placeWork p r d id s) := by
  unfold placeWork
  dsimp only
  split
  · exact chain_respondEdit _ _
  · rename_i hn
    refine chain_editCopy hi (by decide) hd ?_ .done []
    intro c hc
    exact ⟨by dsimp only; omega, by dsimp only; omega, hc.2.2⟩

theorem chain_sourceWork {d : Proposal} {id : Nat} (hi : InHand .source p r s) (hd : (s.lay p).draft = some d) :
    Chain Move (some p) s none (sourceWork p r d id s) := by
  unfold sourceWork
  dsimp only
  split
  · exact chain_respondEdit _ _
  · split
    · exact chain_respondEdit _ _
    · refine chain_editCopy hi (by decide) hd ?_ .done []
      exact fun c hc => hc

theorem chain_styleWork {d : Proposal} {id : Nat} (hi : InHand .style p r s) (hd : (s.lay p).draft = some d) :
    Chain Move (some p) s none (styleWork p r d id s) := by
  unfold styleWork
  split
  · rename_i visible loss guarded _ _ _
    split
    · exact chain_respondEdit _ _
    · rename_i hg
      split
      · exact chain_respondEdit _ _
      · refine chain_editCopy hi (by decide) hd ?_ .done []
        refine fun c hc => ⟨hc.1, hc.2.1, fun g => ?_⟩
        cases visible <;> cases loss <;> simp_all
  · exact chain_respondEdit _ _

theorem perm_insertBeside (above : Bool) (other : Nat) (e : DraftEntry) (d : Proposal) :
    (insertBeside above other e d).Perm (e :: d) := by
  induction d with
  | nil => exact .refl _
  | cons x xs ih =>
    unfold insertBeside
    split
    · split
      · exact .swap _ _ _
      · exact .refl _
    · exact (ih.cons x).trans (.swap _ _ _)

/-- A move of the list is a permutation of it, where it names the region once. -/
theorem perm_moveEntry {op : OrderOp} {id other : Nat} {d : Proposal} (hn : d.ids.Nodup) :
    (moveEntry op id other d).Perm d := by
  unfold moveEntry
  split
  · exact .refl _
  · rename_i e he
    obtain ⟨hid, a, b, rfl, ha⟩ := List.find?_eq_some_iff_append.mp he
    obtain rfl : e.id = id := by simpa using hid
    have rest : (a ++ e :: b).filter (fun x => x.id != e.id) = a ++ b := by
      rw [Proposal.ids, List.map_append, List.map_cons, List.nodup_append, List.nodup_cons] at hn
      obtain ⟨-, ⟨hb, -⟩, hab⟩ := hn
      rw [List.filter_append, List.filter_cons]
      simp only [bne_self_eq_false, Bool.false_eq_true, if_false]
      congr 1
      · refine List.filter_eq_self.mpr fun x hx => ?_
        simpa using hab x.id (List.mem_map_of_mem hx) e.id List.mem_cons_self
      · refine List.filter_eq_self.mpr fun x hx => ?_
        have : x.id ≠ e.id := fun g => hb (g ▸ List.mem_map_of_mem hx)
        simpa using this
    dsimp only
    rw [rest]
    have back : (e :: (a ++ b)).Perm (a ++ e :: b) := List.perm_middle.symm
    cases op with
    | top => exact (List.perm_append_singleton e (a ++ b)).trans back
    | bottom => exact back
    | above => exact (perm_insertBeside true other e (a ++ b)).trans back
    | below => exact (perm_insertBeside false other e (a ++ b)).trans back

theorem mem_insertBeside {above : Bool} {other : Nat} {e x : DraftEntry} {d : Proposal}
    (h : x ∈ insertBeside above other e d) : x = e ∨ x ∈ d :=
  List.mem_cons.mp ((perm_insertBeside above other e d).mem_iff.mp h)

theorem mem_of_mem_moveEntry {op : OrderOp} {id other : Nat} {d : Proposal} {x : DraftEntry}
    (h : x ∈ moveEntry op id other d) : x ∈ d := by
  unfold moveEntry at h
  split at h
  · exact h
  · rename_i e he
    have hed := List.mem_of_find?_eq_some he
    have less : ∀ y ∈ d.filter (fun x => x.id != id), y ∈ d := fun y hy => List.mem_of_mem_filter hy
    have cases' : x = e ∨ x ∈ d.filter fun x => x.id != id := by
      cases op with
      | top => exact (List.mem_append.mp h).symm.imp_left List.mem_singleton.mp
      | bottom => exact List.mem_cons.mp h
      | above => exact mem_insertBeside h
      | below => exact mem_insertBeside h
    exact cases'.elim (fun g => g ▸ hed) (less x)

theorem chain_orderWork {d : Proposal} {id : Nat} (hi : InHand .order p r s) (hd : (s.lay p).draft = some d) :
    Chain Move (some p) s none (orderWork p r d id s) := by
  unfold orderWork
  split
  · exact chain_respondEdit _ _
  · split
    · exact chain_respondEdit _ _
    · exact (Chain.one (.draft hi.ready (hi.attached (by decide))
        (.edited d _ s hd (fun hn => (perm_moveEntry hn).map _) fun h e he => h e (mem_of_mem_moveEntry he)))).trans
        (chain_respondEdit _ _)

theorem chain_retireWork {d : Proposal} {id : Nat} (hi : InHand .retire p r s) (hd : (s.lay p).draft = some d) :
    Chain Move (some p) s none (retireWork p r d id s) :=
  (Chain.one (.draft hi.ready (hi.attached (by decide)) (.cut d _ s hd (.inr ⟨id, rfl⟩)))).trans (chain_respondEdit _ _)

theorem chain_discardBody (hi : InHand .discard p r s) : Chain Move (some p) s none (discardBody p r s) := by
  unfold discardBody
  split
  · exact chain_respondEdit _ _
  · rename_i d hd
    exact (Chain.one (.draft hi.ready (hi.attached (by decide)) (.cut d none s hd (.inl rfl)))).trans (chain_respondEdit _ _)

theorem chain_readDraftWork {d : Proposal} {id : Nat} : Chain Move (some p) s none (readDraftWork p r d id s) := by
  unfold readDraftWork
  split <;> exact chain_respondEdit _ _

theorem chain_beginBody (hi : InHand .beginDraft p r s) : Chain Move (some p) s none (beginBody p r s) := by
  unfold beginBody
  split
  · exact chain_respondEdit _ _
  · rename_i hd hs
    exact (Chain.one (.draft hi.ready (hi.attached (by decide)) (.opened _ s hd (.inr ⟨hs, rfl⟩)))).trans
      (chain_respondEdit _ _)
  · rename_i hd hs
    exact (Chain.one (.draft hi.ready (hi.attached (by decide)) (.opened _ s hd (.inl hs)))).trans (chain_respondEdit _ _)

theorem chain_createBody (hi : InHand .create p r s) : Chain Move (some p) s none (createBody p r s) := by
  unfold createBody
  split
  · exact chain_respondEdit _ _
  · rename_i d hd
    split
    · exact chain_respondEdit _ _
    · rename_i k hk
      split
      · exact chain_respondEdit _ _
      · rename_i hq
        split
        · exact chain_respondEdit _ _
        · split
          · exact chain_respondEdit _ _
          · rename_i id hf
            exact (Chain.one (.draft hi.ready (hi.attached (by decide))
              (.created d k id s hd (Nat.not_le.mp hq) hf))).trans (chain_respondEdit _ _)

theorem chain_publishBody (hi : InHand .publish p r s) (ho : s.editState p ≠ .sealedDrafting) :
    Chain Move (some p) s none (publishBody p r s) := by
  unfold publishBody
  split
  · exact chain_respondEdit _ _
  · rename_i d hd
    have hs : (s.lay p).sealedSet = none := by
      rw [State.editState, PortLayout.editState, hd] at ho
      cases h : (s.lay p).sealedSet
      · rfl
      · simp [h] at ho
    split
    · exact chain_respondEdit _ _
    · rename_i hf
      split
      · rename_i dark
        exact (Chain.one (.applySet p d s hi.ready (hi.attached (by decide)) hd hs hf dark)).trans (chain_respondEdit _ _)
      · rename_i dark
        exact .one (.sealSet p r d s hi.ready (hi.attached (by decide)) hi.code hd hs hf dark)

theorem chain_planSetBody (hi : InHand .planSet p r s) (hs : s.layout.sealedPlan = none) :
    Chain Move (some p) s none (planSetBody p r s) := by
  have attached := hi.attached (by decide)
  have ready := hi.ready
  obtain rfl := hi.zero rfl
  unfold planSetBody
  split
  · exact chain_respond _ _
  · rename_i mode _
    split
    · exact chain_respond _ _
    · rename_i hv
      split
      · rename_i dark
        exact .one (.settlePlan r mode s ready attached hs hv dark)
      · rename_i dark
        exact .one (.sealPlan r mode s ready attached hi.code hs hv dark)
end

section
variable {p : PortId} {r : Request} {s : State}

theorem chain_warmCount {h : Option PortId} : Chain Move h s h (takeWarmCount s) := .one (.panel h (.warmCount s))

theorem chain_reports {h : Option PortId} : Chain Move h s h (takeReports s) := .one (.reports h s)

theorem chain_unknownCode (s : State) (p : PortId) : ∃ t, execUnknownCode p s = .next t ∧ Chain Move none s none t := by
  refine ⟨_, rfl, ?_⟩
  split
  · exact .refl
  · rename_i r hh
    split
    · exact .refl
    · exact (Chain.one (.queue (.take p r s hh))).trans (chain_respond _ _)

theorem chain_helloBody (hi : InHand .hello p r s) : Chain Move (some p) s none (helloBody p r s) := by
  unfold helloBody
  split
  · exact chain_respond _ _
  · rename_i ha
    split
    · rename_i hs
      exact (Chain.one (.attach p _ _ s hs (hi.present.resolve_right ha) hi.ready)).trans (chain_respond _ _)
    · exact chain_respond _ _

theorem chain_byeBody (hi : InHand .bye p r s) : Chain Move (some p) s none (byeBody p r s) :=
  .one (.bye p r s (hi.attached (by decide)))

theorem chain_readPortBody : Chain Move (some p) s none (readPortBody p r s) := by
  unfold readPortBody
  split
  · exact chain_respond _ _
  · split
    · exact chain_respond _ _
    · exact chain_reports.trans (chain_respond _ _)

theorem chain_ejectBody (hi : InHand .eject p r s) : Chain Move (some p) s none (ejectBody p r s) := by
  obtain rfl := hi.zero rfl
  unfold ejectBody
  split
  · exact chain_respond _ _
  · rename_i q _
    split
    · exact chain_respond _ _
    · rename_i hq
      split
      · exact chain_respond _ _
      · rename_i ha
        exact (Chain.one (.eject _ q s (fun e => hq (Option.some.inj e).symm) (not_not.mp ha))).trans (chain_respond _ _)

theorem chain_restartBody (hi : InHand .restart p r s) : Chain AnyMove (some p) s none (restartBody p r s) := by
  obtain rfl := hi.zero rfl
  exact .one (.restart r s (hi.attached (by decide)) hi.ready)

theorem chain_readRegionBody : Chain Move (some p) s none (readRegionBody p r s) := by
  unfold readRegionBody
  dsimp only
  split
  · exact chain_respond _ _
  · split <;> exact chain_respond _ _

theorem chain_readOrderBody : Chain Move (some p) s none (readOrderBody p r s) := by
  unfold readOrderBody
  split
  · exact chain_respond _ _
  · split <;> exact chain_respond _ _

theorem chain_hitBody : Chain Move (some p) s none (hitBody p r s) := by
  unfold hitBody
  dsimp only
  split <;> exact chain_warmCount.trans (chain_respond _ _)

theorem chain_sourceFormatBody (hi : InHand .sourceFormat p r s) : Chain Move (some p) s none (sourceFormatBody p r s) := by
  unfold sourceFormatBody
  dsimp only
  split
  · exact chain_respond _ _
  · rename_i hs
    split
    · exact chain_respond _ _
    · rename_i hl
      exact (Chain.one (.format p _ _ s (by simpa using hs) (by simpa using hl) (hi.attached (by decide)))).trans
        (chain_respond _ _)

theorem chain_markBody : Chain Move (some p) s none (markBody p r s) := by
  have none_left : (takeReports s).marks.reports = [] := (takeReports_spec s).2.1
  unfold markBody
  dsimp only
  refine chain_reports.trans ?_
  revert none_left
  generalize takeReports s = u
  intro none_left
  split
  · exact chain_respond _ _
  · split
    · exact chain_respond _ _
    · exact chain_respond _ _
    · rename_i o _ _ c hl
      split
      · rename_i ho
        unfold markLive
        split
        · exact chain_respond _ _
        · rename_i hh
          split
          · exact chain_respond _ _
          · rename_i m hm
            refine (Chain.one (.mark p ⟨m, _, _, _⟩ u none_left ?_ hm)).trans (chain_respond _ _)
            simp only [Mark.Fits, hl]
            exact ⟨ho, Nat.not_le.mp hh⟩
      · exact chain_respond _ _

theorem chain_unmarkBody : Chain Move (some p) s none (unmarkBody p r s) := by
  unfold unmarkBody
  dsimp only
  refine chain_reports.trans ?_
  split
  · exact chain_respond _ _
  · split
    · exact (Chain.one (.unmark p _ _)).trans (chain_respond _ _)
    · exact chain_respond _ _

theorem chain_readMarksBody : Chain Move (some p) s none (readMarksBody p r s) :=
  chain_reports.trans (chain_respond _ _)

theorem chain_panelSetupBody : Chain Move (some p) s none (panelSetupBody p r s) := by
  unfold panelSetupBody
  dsimp only
  split
  · exact chain_respond _ _
  · rename_i hd
    split
    · exact chain_respond _ _
    · rename_i hr
      split
      · exact chain_respond _ _
      · rename_i hf
        exact (Chain.one (.panel _ (.setup _ s (not_not.mp hd) (by simpa using hr) hf))).trans (chain_respond _ _)

theorem chain_panelOnBody (now : List FrameWork) : Chain Move (some p) s none (panelOnBody p now r s) := by
  unfold panelOnBody
  dsimp only
  refine chain_warmCount.trans ?_
  split
  · rename_i hd
    exact (Chain.one (.panel _ (.panelOn now _ hd))).trans (chain_respond _ _)
  · exact chain_respond _ _
  · exact chain_respond _ _

/-- A warm count that was taken waits no more. -/
theorem takeWarmCount_counted (s : State) : (takeWarmCount s).scan.warmWaiting = false := by
  rcases takeWarmCount_cases s with ⟨w, e⟩ | ⟨-, -, e⟩ | ⟨-, -, e⟩ <;> rw [e]
  · exact w
  · exact congrArg ScanTimer.warmWaiting (storeAll_only _ _).scan
  · rfl

theorem chain_panelOffBody : Chain Move (some p) s none (panelOffBody p r s) := by
  unfold panelOffBody
  dsimp only
  have counted := takeWarmCount_counted s
  refine chain_warmCount.trans ?_
  split
  · rename_i h
    exact (Chain.one (.panel _ (.panelOff _ (.inl h) counted))).trans (chain_respond _ _)
  · rename_i h
    exact (Chain.one (.panel _ (.panelOff _ (.inr h) counted))).trans (chain_respond _ _)
  · exact chain_respond _ _

theorem chain_readPanelBody : Chain Move (some p) s none (readPanelBody p r s) :=
  chain_warmCount.trans (chain_respond _ _)

theorem chain_packet (x : Packet) : Chain Move none s none (packet p x.fill s) := by
  cases h : running p s
  · unfold packet
    simp only [h, Bool.false_eq_true, if_false]
    exact .refl
  · exact .one (.packet p x s h)

theorem chain_lineStart : Chain Move none s none (match nextLine s.scan with
    | none => s
    | some l => if workWaits s then s else startLine l (takeReports s)) := by
  split
  · exact .refl
  · rename_i l hl
    split
    · exact .refl
    · rename_i hw
      exact .one (.panel _ (.line l s hl (by simpa using hw)))

/-- A PUBLISH at the head that must wait has its reason. -/
theorem blockedFor_publish (hh : headOf p s = some r) (hc : r.code = RequestKind.publish.code)
    (hb : decide (s.editState p = .sealedDrafting) = true) (hu : universalResult .publish p (s.port p).attach r = none) :
    blockedFor p s := by
  obtain ⟨-, present, rest, hq⟩ := headOf_some hh
  obtain ⟨-, hello, -⟩ := universalResult_eq_none hu
  refine ⟨present.resolve_left fun e => (by decide : RequestKind.publish ≠ .hello) (hello e), .inl ⟨?_, of_decide_eq_true hb⟩⟩
  simp [hq, hc]

/-- A PLAN-SET at the head that must wait has its reason. -/
theorem blockedFor_planSet (hh : headOf p s = some r) (hc : r.code = RequestKind.planSet.code)
    (hb : s.layout.sealedPlan.isSome = true) (hu : universalResult .planSet p (s.port p).attach r = none) :
    blockedFor p s := by
  obtain ⟨-, present, rest, hq⟩ := headOf_some hh
  obtain ⟨-, hello, zero⟩ := universalResult_eq_none hu
  refine ⟨present.resolve_left fun e => (by decide : RequestKind.planSet ≠ .hello) (hello e), .inr ⟨zero rfl, ?_, hb⟩⟩
  simp [hq, hc]

/-- A request row that never blocks. -/
theorem chain_request {M : Option PortId → State → Option PortId → State → Prop} {k : RequestKind}
    {body : Request → State → State} (lift : ∀ {h s h' t}, Move h s h' t → M h s h' t)
    (hbody : ∀ r s, InHand k p r s → Chain M (some p) s none (body r s)) :
    Chain M none s none (serve k p false body s) :=
  chain_serve lift (fun _ _ _ hb => absurd hb (by decide)) fun r _ hi => hbody r _ hi

theorem chain_draftRequest {k : RequestKind} {work : Request → Proposal → Nat → State → State}
    (hw : ∀ r s d id, InHand k p r s → (s.lay p).draft = some d → Chain Move (some p) s none (work r d id s)) :
    Chain Move none s none (serve k p false (fun r => onDraftRegion p r (work r)) s) :=
  chain_request id fun r s hi => chain_onDraftRegion fun d id hd => hw r s d id hi hd
end

/-! ### Every command -/

/-- Every command but RESTART, the frame starts, the entry into DARK and device reset is a chain of moves. -/
theorem exec_quiet (c : Instr) (s : State) (hf : ∀ now, c ≠ .frameStart now) (hd : ∀ b, c ≠ .entryIntoDark b)
    (hr : ∀ p, c ≠ .restart p) (hz : c ≠ .deviceReset) : ∃ t, exec c s = .next t ∧ Chain Move none s none t := by
  cases c
  case deviceReset => exact absurd rfl hz
  case restart p => exact absurd rfl (hr p)
  case frameStart now => exact absurd rfl (hf now)
  case entryIntoDark b => exact absurd rfl (hd b)
  case writeRequest p part => exact ⟨_, rfl, chain_runPart (fun _ => chain_clockWrite) (fun _ => chain_releaseWrite) part⟩
  case readResponse p part =>
    exact ⟨_, rfl, chain_runPart (fun _ => chain_clockResponse) (fun _ => chain_releaseResponse) part⟩
  case readNotice p part => exact ⟨_, rfl, chain_runPart (fun _ => chain_clockNotice) (fun _ => chain_releaseNotice) part⟩
  case status p part => exact ⟨_, rfl, chain_runPart (fun _ => chain_clockStatusByte) (fun _ => chain_releaseStatus) part⟩
  case unknownKindByte p k part =>
    refine ⟨_, rfl, ?_⟩
    split
    · exact chain_runPart (fun _ => chain_clockIgnored) (fun _ => chain_releaseIgnored) part
    · exact .refl
  case unknownCode p => exact chain_unknownCode s p
  case hello p => exact ⟨_, rfl, chain_request id fun _ _ => chain_helloBody⟩
  case bye p => exact ⟨_, rfl, chain_request id fun _ _ => chain_byeBody⟩
  case readPort p => exact ⟨_, rfl, chain_request id fun _ _ _ => chain_readPortBody⟩
  case eject p => exact ⟨_, rfl, chain_request id fun _ _ => chain_ejectBody⟩
  case readRegion p => exact ⟨_, rfl, chain_request id fun _ _ _ => chain_readRegionBody⟩
  case readOrder p => exact ⟨_, rfl, chain_request id fun _ _ _ => chain_readOrderBody⟩
  case hit p => exact ⟨_, rfl, chain_request id fun _ _ _ => chain_hitBody⟩
  case beginDraft p => exact ⟨_, rfl, chain_request id fun _ _ => chain_beginBody⟩
  case create p => exact ⟨_, rfl, chain_request id fun _ _ => chain_createBody⟩
  case place p => exact ⟨_, rfl, chain_draftRequest fun _ _ _ _ => chain_placeWork⟩
  case source p => exact ⟨_, rfl, chain_draftRequest fun _ _ _ _ => chain_sourceWork⟩
  case style p => exact ⟨_, rfl, chain_draftRequest fun _ _ _ _ => chain_styleWork⟩
  case order p => exact ⟨_, rfl, chain_draftRequest fun _ _ _ _ => chain_orderWork⟩
  case retire p => exact ⟨_, rfl, chain_draftRequest fun _ _ _ _ => chain_retireWork⟩
  case discard p => exact ⟨_, rfl, chain_request id fun _ _ => chain_discardBody⟩
  case readDraft p => exact ⟨_, rfl, chain_draftRequest (k := .readDraft) fun _ _ _ _ _ _ => chain_readDraftWork⟩
  case publish p =>
    refine ⟨_, rfl, chain_serve id (fun r => blockedFor_publish) fun r hb hi => ?_⟩
    exact chain_publishBody hi (of_decide_eq_false hb)
  case planSet p =>
    refine ⟨_, rfl, chain_serve id (fun r => blockedFor_planSet) fun r hb hi => ?_⟩
    exact chain_planSetBody hi (by simpa [dropHead] using hb)
  case readPlan p => exact ⟨_, rfl, chain_request id fun _ _ _ => chain_respond _ _⟩
  case sourceFormat p => exact ⟨_, rfl, chain_request id fun _ _ => chain_sourceFormatBody⟩
  case mark p => exact ⟨_, rfl, chain_request id fun _ _ _ => chain_markBody⟩
  case unmark p => exact ⟨_, rfl, chain_request id fun _ _ _ => chain_unmarkBody⟩
  case readMarks p => exact ⟨_, rfl, chain_request id fun _ _ _ => chain_readMarksBody⟩
  case panelSetup p => exact ⟨_, rfl, chain_request id fun _ _ _ => chain_panelSetupBody⟩
  case panelOn p now => exact ⟨_, rfl, chain_request id fun _ _ _ => chain_panelOnBody now⟩
  case panelOff p => exact ⟨_, rfl, chain_request id fun _ _ _ => chain_panelOffBody⟩
  case readPanel p => exact ⟨_, rfl, chain_request id fun _ _ _ => chain_readPanelBody⟩
  case frameBeginMarker p => exact ⟨_, rfl, chain_packet .frameBegin⟩
  case linePacket p index pixels => exact ⟨_, rfl, chain_packet (.line index pixels)⟩
  case frameEndMarker p => exact ⟨_, rfl, chain_packet .frameEnd⟩
  case damagedPacket p => exact ⟨_, rfl, chain_packet .damaged⟩
  case markReportsTaken => exact ⟨_, rfl, chain_reports⟩
  case lockCountReached p =>
    refine ⟨_, rfl, ?_⟩
    split
    · exact .one (.judge p s)
    · exact .refl
  case lossToleranceReached p =>
    refine ⟨_, rfl, ?_⟩
    split
    · exact .one (.judge p s)
    · exact .refl
  case warmCountReached =>
    refine ⟨_, rfl, ?_⟩
    split
    · exact chain_warmCount
    · exact .refl
  case lineStart => exact ⟨_, rfl, chain_lineStart⟩
  case leavingExit p => exact ⟨_, rfl, .one (.depart none p s)⟩

/-- Every command is a chain of moves. -/
theorem exec_chain (c : Instr) (s : State) : ∃ t, exec c s = .next t ∧ Chain AnyMove none s none t := by
  cases c
  case deviceReset => exact ⟨_, rfl, .one (.reset s _ rfl)⟩
  case restart p => exact ⟨_, rfl, chain_request .move fun _ _ => chain_restartBody⟩
  case frameStart now =>
    refine ⟨_, rfl, ?_⟩
    split
    · exact .refl
    · rename_i hg
      simp only [Bool.or_eq_true, decide_eq_true_eq, Bool.not_eq_true', not_or, Bool.not_eq_false] at hg
      split
      · rename_i hc
        exact .one (.enterDark false s hc)
      · rename_i hc
        exact .one (.frame now s hg.1 hg.2 (by simpa using hc))
  case entryIntoDark b =>
    refine ⟨_, rfl, ?_⟩
    split
    · rename_i hc
      exact .one (.enterDark b s hc)
    · exact .refl
  all_goals refine Exists.imp (fun t h => ⟨h.1, h.2.mono .move⟩) (exec_quiet _ s ?_ ?_ ?_ ?_) <;> nofun

/-- What every move keeps, and what does not speak of the commands that wait, every step keeps. -/
theorem step_keeps {J : Option PortId → State → Prop} {s t : State}
    (keep : ∀ {h s h' t}, AnyMove h s h' t → J h s → J h' t)
    (pending : ∀ rest, J none s → J none { s with pending := rest }) (j : J none s) (h : step s = .next t) : J none t := by
  unfold step at h
  split at h
  · cases h
    exact j
  · rename_i c rest _
    obtain ⟨u, hu, chain⟩ := exec_chain c { s with pending := rest }
    rw [hu] at h
    cases h
    exact chain.keeps keep (pending rest j)

end Sys2Proof.Machine
end

