-- ==== Sys2Proof/Proofs/Acts.lean ====
section
/-! PROOFS. The moves of Moves.lean taken apart into the acts that touch a Port Controller or a Source Unit, the commit
among them; and the laws that each act keeps: the queues and the Source Units. -/

namespace Sys2Proof.Machine

/-! ### The stages of a frame start, of the start of warming and of the entry into DARK -/

/-- The commit, where the order of the work leaves it out (R69). -/
def commitLast (now : List FrameWork) (s : State) : State := if now.contains .commit then s else commit s

theorem frameWork_eq (now : List FrameWork) (s : State) :
    frameWork now s = settleWarm (settleUnits (commitLast now (now.foldl doWork s))) := rfl

/-- The panel is WARMING and the frame start is raised (R142). -/
def warmed (s : State) : State :=
  raiseFrame (s.setScan { s.scan with panel := .warming, warm := 0, coolingFrame := false, warmWaiting := false })

theorem startWarming_eq (now : List FrameWork) (s : State) : startWarming now s =
    settleUnits (commitLast now ((worksAfter now).foldl doWork
      (announcePanel .dark ((worksBefore now).foldl doWork (warmed (takeReports s)))))) := rfl

/-- The panel is DARK and its output idle, the commit still to come (R146). -/
def darkened (s : State) : State :=
  (s.setScan { s.scan with panel := .dark, cool := 0, pos := none, coolingFrame := false }).setComp
    { list := [], output := .idle }

theorem enterDark_eq (noticeFirst : Bool) (s : State) : enterDark noticeFirst s =
    forceAll (if noticeFirst then commit (announcePanel .cooling (darkened (takeReports s)))
      else announcePanel .cooling (commit (darkened (takeReports s)))) := rfl

/-! ### The acts -/

/-- What touches a Port Controller or a Source Unit; what an act leaves of the Layout Store, the Mark Unit, the Scan Timer
and the Compositor is of no account here. -/
inductive Act : Option PortId → State → Option PortId → State → Prop
  | queue {h h' : Option PortId} {s t : State} (move : QueueMove h s h' t) : Act h s h' t
  | pay (h : Option PortId) (p : PortId) (k : RequestKind) (res : Result) (fields : List Byte) (s : State) :
      Act h s h (placeDeferred p k res fields s)
  | keep (p : PortId) (r : Request) (s : State) : Act (some p) s none (deferRequest p r s)
  | engine (h : Option PortId) (p : PortId) (e : EngineState) (s : State) : Act h s h (setEngine p e s)
  | layout (h : Option PortId) (s : State) (l : LayoutStore) : Act h s h { s with layout := l }
  | marks (h : Option PortId) (s : State) (m : MarkUnit) : Act h s h { s with marks := m }
  | attach (h : Option PortId) (p : PortId) (sw sh : Nat) (s : State) (size : sizeOk sw sh = true)
      (detached : (s.port p).attach = .detached) : Act h s h (attach p sw sh s)
  | left (h : Option PortId) (p : PortId) (reason : LeaveReason) (s : State) : Act h s h (entered p reason none s)
  | bye (p : PortId) (reason : LeaveReason) (own : Response) (s : State) :
      Act (some p) s none (entered p reason (some own) s)
  | told (h : Option PortId) (p : PortId) (s : State) : Act h s h (tellRetired p s)
  | depart (h : Option PortId) (p : PortId) (s : State) : Act h s h (leaveIfDone p s)
  | enable (h : Option PortId) (p : PortId) (s : State) (disabled : (s.port p).attach = .disabled) :
      Act h s h (restUnit p (s.setPort p { s.port p with attach := .detached, noticeLost := false, refusal := .none }))
  | disable (h : Option PortId) (p : PortId) (s : State) (detached : (s.port p).attach = .detached) :
      Act h s h (restUnit p (s.setPort p { s.port p with attach := .disabled }))
  | close (h : Option PortId) (p : PortId) (s : State) : Act h s h (disablePort s p)
  | judge (h : Option PortId) (p : PortId) (s : State) : Act h s h (takeFrameStart p s)
  | fill (h : Option PortId) (p : PortId) (x : Packet) (s : State) (runs : running p s = true) :
      Act h s h (s.setUnit p { s.unit p with filling := x.fill (s.unit p) })
  | format (h : Option PortId) (p : PortId) (sw sh : Nat) (s : State) (size : sizeOk sw sh = true)
      (attached : (s.port p).attach = .attached) :
      Act h s h (s.setUnit p { (s.unit p).forced with sw := sw, sh := sh })

/-- The acts, with those of the Scan Timer and the Compositor, and those at every Source Unit at once. -/
inductive PanelAct : Option PortId → State → Option PortId → State → Prop
  | act {h h' : Option PortId} {s t : State} (a : Act h s h' t) : PanelAct h s h' t
  | scan (h : Option PortId) (s : State) (x : ScanTimer) : PanelAct h s h (s.setScan x)
  | comp (h : Option PortId) (s : State) (x : Compositor) : PanelAct h s h (s.setComp x)
  | raise (h : Option PortId) (s : State) : PanelAct h s h (raiseFrame s)
  | quiet (h : Option PortId) (s : State) : PanelAct h s h (endFsync s)
  | force (h : Option PortId) (s : State) : PanelAct h s h (forceAll s)

theorem Chain.panel {h h' : Option PortId} {s t : State} (c : Chain Act h s h' t) : Chain PanelAct h s h' t := c.mono .act

section
variable {h : Option PortId} {p : PortId} {s : State}

theorem acts_storeNotices (ns : List (PortId × Notice)) : Chain Act h s h (storeNotices ns s) :=
  .foldl (fun s x => .one (.queue (.notice h x.1 x.2 s))) ns s

theorem acts_takeReports : Chain Act h s h (takeReports s) := by
  refine (Chain.one (.marks h s _)).trans (Chain.foldl (fun u r => ?_) s.marks.reports (s.setReports []))
  exact (Chain.one (.marks h u _)).trans (acts_storeNotices (s := u.setMarkList r.owner _) _)

theorem acts_leave {reason : LeaveReason} {own : Option Response} {h' : Option PortId}
    (a : Act h s h' (entered p reason own s)) : Chain Act h s h' (enterLeaving p reason own s) := by
  rw [enterLeaving_eq]
  split
  · exact (Chain.one a).trans (.one (.told _ p _))
  · exact (Chain.one a).trans (.one (.layout _ (entered p reason own s) _))

theorem acts_enterLeaving {reason : LeaveReason} : Chain Act h s h (enterLeaving p reason none s) :=
  acts_leave (.left h p reason s)

theorem acts_retireListed : Chain Act h s h (retireListed s).1 := by
  have one : ∀ (sr : State × List Report) q, Chain Act h sr.1 h (retireOne sr q).1 := fun sr q =>
    (Chain.one (.layout h sr.1 _)).trans
      (.one (.told h q ((freeSlots (sr.1.lay q).order sr.1).setLay q { sr.1.lay q with order := [] })))
  exact (Chain.one (.layout h s _)).trans (Chain.foldl_fst one s.layout.retiring (s.setRetiring [], []))

theorem acts_retireIfDark : Chain Act h s h (retireIfDark s) := by
  unfold retireIfDark
  split
  · exact acts_retireListed.trans ((Chain.one (.marks h (retireListed s).1 _)).trans
      (acts_takeReports (s := handReports (retireListed s).2 (retireListed s).1)))
  · exact .refl

theorem acts_dropProposals (res : Result) (fields : List Byte) : Chain Act h s h (dropProposals p res fields s) :=
  (Chain.one (.layout h s _)).trans (.one (.pay h p .publish res fields
    (releaseUnnamed p (s.setLay p { s.lay p with draft := none, sealedSet := none }))))

theorem acts_handIfChanged (old new : Plan) : Chain Act h s h (handIfChanged old new s p) := by
  unfold handIfChanged
  split
  · exact .refl
  · unfold handEnablement
    dsimp only
    split
    · rename_i ha _
      exact .one (.enable h p s ha)
    · rename_i ha _
      split
      · exact .one (.disable h p s ha)
      · exact acts_enterLeaving
    · exact acts_enterLeaving
    · exact .refl

theorem acts_settleEvictPort (old new : Plan) (sh : State × Settled) (p : PortId) :
    Chain Act h sh.1 h (settleEvictPort old new sh p).1 := by
  unfold settleEvictPort
  split
  · exact .refl
  · have g := (acts_dropProposals (h := h) (p := p) (s := sh.1) .draftVoid [EditState.idle.byte]).trans
      (acts_handIfChanged (p := p) old new)
    dsimp only
    split
    · exact g.trans (.one (.layout h (handIfChanged old new (dropProposals p .draftVoid [EditState.idle.byte] sh.1) p) _))
    · exact g

/-- The settling of a plan, its response being placed by an act. -/
theorem acts_settlePlan {h' : Option PortId} {answer : Result → List Byte → State → State}
    (ha : ∀ res fields s, Act h s h' (answer res fields s)) (new : Plan) (mode : PlanMode) :
    Chain Act h s h' (settlePlan answer new mode s).1 := by
  have set : Chain Act h s h (s.setPlan new) := .one (.layout h s _)
  cases mode with
  | keep =>
    simp only [settlePlan]
    split
    · exact .one (ha _ _ _)
    · exact (set.trans (Chain.foldl (fun t p => acts_handIfChanged s.layout.plan new) PortId.all _)).trans (.one (ha _ _ _))
  | evict =>
    exact (set.trans (.one (ha .done (planFields s none none) _))).trans
      (Chain.foldl_fst (acts_settleEvictPort s.layout.plan new) PortId.all (_, .nothing))

theorem acts_applySet (p : PortId) : Chain Act h s h (applySet p s).1 := by
  rcases applySet_cases p s with ⟨-, e⟩ | ⟨pr, -, e⟩ <;> rw [e]
  · exact .refl
  · exact .one (.layout h s _)

theorem acts_applySets : Chain Act h s h (applySets s).1.1 :=
  Chain.foldl_fst (f := fun sr p => let r := applySet p sr.1; (r.1, sr.2 ++ r.2)) (fun _ p => acts_applySet p) PortId.all
    (s, [])

theorem acts_advanceGenerations (s0 : State) : Chain Act h s h (advanceGenerations s0 s) := .one (.layout h s _)

theorem acts_handReports (rs : List Report) : Chain Act h s h (handReports rs s) := .one (.marks h s _)

theorem acts_handCommitReports (rs : List Report) : Chain Act h s h (handCommitReports rs s) := .one (.marks h s _)

theorem acts_releaseEngines : Chain Act h s h (releaseEngines s) :=
  .foldl (fun s p => .one (.engine h p .ready s)) PortId.all s

theorem acts_settleSealed : Chain Act h s h (settleSealed s).1 := by
  unfold settleSealed
  split
  · exact .refl
  · exact (acts_settlePlan (fun res fields s => .pay h .p0 .planSet res fields s) _ _).trans (.one (.layout h _ _))

theorem acts_commit : Chain Act h s h (commit s) := by
  have h1 : Chain Act h s h _ := acts_settleSealed
  have h2 := h1.trans acts_retireListed
  have h3 := h2.trans acts_applySets
  have h4 := h3.trans (acts_advanceGenerations s)
  have h5 := h4.trans (Chain.foldl (f := answerApplied) (fun s p => .one (.pay h p .publish .done _ s))
    (applySets (retireListed (settleSealed s).1).1).2 _)
  have h6 := h5.trans (acts_storeNotices (settleSealed s).2.notices)
  exact (h6.trans (acts_handCommitReports _)).trans acts_releaseEngines

theorem acts_announcePanel (left : PanelState) : Chain Act h s h (announcePanel left s) := acts_storeNotices _

theorem acts_settleUnit : Chain Act h s h (settleUnit p s) := by
  unfold settleUnit
  split
  · exact .one (.judge h p s)
  · exact .refl

theorem acts_settleUnits : Chain Act h s h (settleUnits s) := .foldl (fun _ _ => acts_settleUnit) PortId.all s

theorem acts_emptied : Chain Act h s h (removeAllMarks (restartLayout s)) :=
  (Chain.one (.layout h s _)).trans (.one (.marks h (restartLayout s) _))

/-- The end of RESTART: the engine READY, the response, PLAN_CHANGED. -/
theorem acts_greeted (r : Request) (fields : List Byte) (n : Notice) : Chain Act (some p) s none
    (settleUnit p (storeNotice p n (respond p r .done fields (setEngine p .ready s)))) :=
  (Chain.one (.engine _ p .ready s)).trans ((Chain.one (.queue (.answer p r .done fields _))).trans
    ((Chain.one (.queue (.notice _ p n _))).trans acts_settleUnit))

theorem acts_restartBody (r : Request) : Chain Act (some .p0) s none (restartBody .p0 r s) := by
  have h1 : Chain Act (some .p0) s (some .p0) (dropSealedPlan (takeReports s)) :=
    acts_takeReports.trans ((Chain.one (.pay _ .p0 .planSet .cancelled [] _)).trans (.one (.layout _ _ _)))
  have h2 := h1.trans (.one (.pay _ .p0 .publish .cancelled [] _))
  have h3 := h2.trans acts_emptied
  have h4 := h3.trans (Chain.foldl (f := disablePort) (fun s p => .one (.close _ p s)) [.p1, .p2, .p3] _)
  exact h4.trans (acts_greeted r _ _)

theorem acts_draft {t : State} (m : DraftMove p s t) : Chain Act h s h t := by
  cases m with
  | opened => exact .one (.layout h s _)
  | created => exact .one (.layout h s _)
  | edited => exact .one (.layout h s _)
  | cut => exact .one (.layout h s _)

theorem acts_applyInDark (d : Proposal) : Chain Act h s h (applyInDark p d s) := by
  have set : Chain Act h s h (s.setLay p { s.lay p with draft := none, sealedSet := some d }) := .one (.layout _ s _)
  exact ((set.trans (acts_applySet p)).trans (acts_advanceGenerations s)).trans ((acts_handReports _).trans acts_takeReports)

theorem acts_settleInDark (r : Request) (new : Plan) (mode : PlanMode) :
    Chain Act (some .p0) s none (settleInDark r new mode s) := by
  have settled : Chain Act (some .p0) s none (settlePlan (respond .p0 r) new mode s).1 :=
    acts_settlePlan (fun res fields s => .queue (.answer .p0 r res fields s)) _ _
  have retired := (settled.trans acts_retireListed).trans (acts_advanceGenerations s)
  exact (retired.trans (acts_storeNotices _)).trans ((acts_handReports _).trans acts_takeReports)

/-! ### The acts of the panel -/

theorem panel_enterPanel (new : PanelState) : Chain PanelAct h s h (enterPanel new s) :=
  (Chain.one (.scan h s _)).trans (acts_announcePanel _).panel

theorem panel_takeWarmCount : Chain PanelAct h s h (takeWarmCount s) := by
  unfold takeWarmCount
  split
  · split
    · exact (Chain.one (.scan h s _)).trans (panel_enterPanel .live)
    · exact .one (.scan h s _)
  · exact .refl

theorem panel_doWork (w : FrameWork) : Chain PanelAct h s h (doWork s w) := by
  cases w with
  | commit => exact acts_commit.panel
  | unit p => exact .one (.act (.judge h p s))
  | timer => exact panel_takeWarmCount

theorem acts_commitLast (now : List FrameWork) : Chain Act h s h (commitLast now s) := by
  unfold commitLast
  split
  · exact .refl
  · exact acts_commit

theorem panel_settleWarm : Chain PanelAct h s h (settleWarm s) := by
  unfold settleWarm
  split
  · exact .refl
  · exact panel_takeWarmCount

theorem panel_works (ws : List FrameWork) : Chain PanelAct h s h (ws.foldl doWork s) :=
  .foldl (fun _ => panel_doWork) ws s

theorem panel_frameWork (now : List FrameWork) : Chain PanelAct h s h (frameWork now s) := by
  rw [frameWork_eq]
  exact (((panel_works now).trans (acts_commitLast now).panel).trans acts_settleUnits.panel).trans panel_settleWarm

theorem panel_startWarming (now : List FrameWork) : Chain PanelAct h s h (startWarming now s) := by
  rw [startWarming_eq]
  have raised : Chain PanelAct h s h (warmed (takeReports s)) :=
    acts_takeReports.panel.trans ((Chain.one (.scan h _ _)).trans (.one (.raise h _)))
  have before := (raised.trans (panel_works (worksBefore now))).trans (acts_announcePanel .dark).panel
  exact ((before.trans (panel_works (worksAfter now))).trans (acts_commitLast now).panel).trans acts_settleUnits.panel

theorem panel_enterDark (noticeFirst : Bool) : Chain PanelAct h s h (enterDark noticeFirst s) := by
  rw [enterDark_eq]
  have dark : Chain PanelAct h s h (darkened (takeReports s)) :=
    acts_takeReports.panel.trans ((Chain.one (.scan h _ _)).trans (.one (.comp h _ _)))
  cases noticeFirst
  · exact ((dark.trans acts_commit.panel).trans (acts_announcePanel .cooling).panel).trans (.one (.force h _))
  · exact ((dark.trans (acts_announcePanel .cooling).panel).trans acts_commit.panel).trans (.one (.force h _))

theorem acts_fireMarks (l : Nat) (p : PortId) : Chain Act h s h (fireMarks l s p) :=
  (Chain.one (.marks h s _)).trans (acts_storeNotices (s := s.setMarkList p _) _)

theorem panel_startLine (l : Nat) : Chain PanelAct h s h (startLine l s) := by
  have begun : Chain PanelAct h s h (lineBegun l s) :=
    ((Chain.one (.scan h s _)).trans (.one (.quiet h _))).trans (.one (.comp h (lineSet l s) _))
  rw [startLine_eq]
  split
  · exact begun.trans (Chain.foldl (fun _ => acts_fireMarks l) PortId.all _).panel
  · exact begun
end

/-- Every move is a chain of acts, or one of the panel's moves. -/
theorem Move.still {h h' : Option PortId} {s t : State} (m : Move h s h' t) :
    Chain Act h s h' t ∨ (h' = h ∧ PanelMove s t) := by
  cases m with
  | queue move => exact .inl (.one (.queue move))
  | draft _ _ move => exact .inl (acts_draft move)
  | block p => exact .inl (.one (.engine _ p .blocked s))
  | depart _ p => exact .inl (.one (.depart _ p s))
  | reports => exact .inl acts_takeReports
  | sealSet p r d => exact .inl ((Chain.one (.layout _ s _)).trans (.one (.keep p r (s.setLay p _))))
  | applySet p d => exact .inl (acts_applyInDark d)
  | sealPlan r mode => exact .inl ((Chain.one (.layout _ s _)).trans (.one (.keep .p0 r (s.setSealedPlan _))))
  | settlePlan r mode => exact .inl (acts_settleInDark r _ mode)
  | attach p sw sh _ size detached => exact .inl (.one (.attach _ p sw sh s size detached))
  | bye p r => exact .inl ((acts_leave (.bye p .bye _ s)).trans acts_retireIfDark)
  | eject => exact .inl (acts_enterLeaving.trans acts_retireIfDark)
  | format p sw sh _ size _ attached => exact .inl ((Chain.one (.format _ p sw sh s size attached)).trans acts_settleUnit)
  | packet p x _ runs =>
    unfold Machine.packet
    rw [if_pos runs]
    exact .inl ((Chain.one (.fill _ p x s runs)).trans acts_settleUnit)
  | judge p => exact .inl (.one (.judge _ p s))
  | mark p => exact .inl (.one (.marks _ s _))
  | unmark p => exact .inl (.one (.marks _ s _))
  | panel _ move => exact .inr ⟨rfl, move⟩

theorem PanelMove.acts {h : Option PortId} {s t : State} (m : PanelMove s t) : Chain PanelAct h s h t := by
  cases m with
  | warmCount => exact panel_takeWarmCount
  | setup => exact .one (.scan _ s _)
  | panelOff => exact (Chain.one (.scan _ s _)).trans (panel_enterPanel .cooling)
  | panelOn now => exact panel_startWarming now
  | line l => exact acts_takeReports.panel.trans (panel_startLine l)

theorem Move.acts {h h' : Option PortId} {s t : State} (m : Move h s h' t) : Chain PanelAct h s h' t := by
  rcases m.still with c | ⟨rfl, move⟩
  · exact c.panel
  · exact move.acts

/-- Every command but device reset is a chain of acts. -/
theorem AnyMove.acts {h h' : Option PortId} {s t : State} (m : AnyMove h s h' t) :
    Chain PanelAct h s h' t ∨ execDeviceReset s = .next t ∧ h' = none := by
  cases m with
  | move move => exact .inl move.acts
  | restart r => exact .inl (acts_restartBody r).panel
  | frame now => exact .inl (acts_takeReports.panel.trans ((Chain.one (.scan _ _ _)).trans
      ((Chain.one (.raise _ _)).trans (panel_frameWork now))))
  | enterDark b => exact .inl (panel_enterDark b)
  | reset _ _ eq => exact .inr ⟨eq, rfl⟩

end Sys2Proof.Machine
end

