-- ==== Sys2Proof/Proofs/QueueLaw.lean ====
section
/-! PROOFS. The queue law (R154, R155, R159): every act keeps it, with the place of credit of the request in hand. -/

namespace Sys2Proof.Machine

/-! ### One Port Controller -/

/-- The part of the queue law that speaks of the notices. -/
def PortController.Noted (c : PortController) : Prop :=
  c.notices.length ≤ 8 ∧ c.notices.Pairwise (fun n m => ¬(n.kind = m.kind ∧ n.subject = m.subject)) ∧
    (∀ n ∈ c.notices, 1 ≤ n.count ∧ n.count ≤ 15) ∧ (c.attach ≠ .attached → c.notices = [])

/-- The queue law with n more places of credit in use. -/
def PortController.Bounded (n : Nat) (c : PortController) : Prop :=
  c.requests.length ≤ 4 ∧ c.credit + n ≤ 8 ∧ c.Noted

/-- A notice coalesced into its entry changes no kind and no subject, and keeps the repeat counts in their range. -/
theorem coalesceInto_some {n : Notice} {q q' : List Notice} (h : coalesceInto n q = some q') :
    q'.map (fun m => (m.kind, m.subject)) = q.map (fun m => (m.kind, m.subject)) ∧
      ((∀ m ∈ q, 1 ≤ m.count ∧ m.count ≤ 15) → ∀ m ∈ q', 1 ≤ m.count ∧ m.count ≤ 15) := by
  induction q generalizing q' with
  | nil => cases h
  | cons x xs ih =>
    unfold coalesceInto at h
    split at h
    · cases h
      refine ⟨rfl, fun hc => List.forall_mem_cons.mpr ⟨?_, (List.forall_mem_cons.mp hc).2⟩⟩
      simp only [Notice.again, Config.repeatCeiling]
      omega
    · obtain ⟨r, hr, rfl⟩ := Option.map_eq_some_iff.mp h
      obtain ⟨keys, counts⟩ := ih hr
      refine ⟨by simp only [List.map_cons, keys], fun hc => ?_⟩
      obtain ⟨hx, hxs⟩ := List.forall_mem_cons.mp hc
      exact List.forall_mem_cons.mpr ⟨hx, counts hxs⟩

theorem coalesceInto_eq_none {n : Notice} {q : List Notice} (h : coalesceInto n q = none) : ∀ m ∈ q, m.agrees n = false := by
  induction q with
  | nil => nofun
  | cons x xs ih =>
    unfold coalesceInto at h
    split at h
    · cases h
    · rename_i hx
      exact List.forall_mem_cons.mpr ⟨by simpa using hx, ih (Option.map_eq_none_iff.mp h)⟩

/-- No two notices of one kind and subject, said of the list of kinds and subjects. -/
theorem pairwise_keys (q : List Notice) : q.Pairwise (fun n m => ¬(n.kind = m.kind ∧ n.subject = m.subject)) ↔
    (q.map fun m => (m.kind, m.subject)).Pairwise (· ≠ ·) := by
  rw [List.pairwise_map]
  simp only [ne_eq, Prod.mk.injEq]

theorem PortController.Noted.stored {c : PortController} (h : c.Noted) (n : Notice) : (c.stored n).Noted := by
  obtain ⟨len, keys, counts, away⟩ := h
  unfold PortController.stored
  split
  · exact ⟨len, keys, counts, away⟩
  · rename_i attached
    split
    · rename_i q hq
      obtain ⟨same, range⟩ := coalesceInto_some hq
      have hl : q.length = c.notices.length := by simpa using congrArg List.length same
      exact ⟨by simpa [hl] using len, by rwa [pairwise_keys, same, ← pairwise_keys], range counts, fun a => absurd a attached⟩
    · rename_i hq
      split
      · rename_i room
        refine ⟨by simpa [Config.noticeDepth] using room, List.pairwise_append.mpr ⟨keys, List.pairwise_singleton _ _, ?_⟩, ?_,
          fun a => absurd a attached⟩
        · intro m hm x hx
          obtain rfl := List.mem_singleton.mp hx
          have := coalesceInto_eq_none hq m hm
          rw [← Notice.agrees_iff m n]
          simpa using this
        · intro m hm
          rcases List.mem_append.mp hm with hm | hm
          · exact counts m hm
          · obtain rfl := List.mem_singleton.mp hm
            simp
      · exact ⟨len, keys, counts, away⟩

theorem PortController.Noted.of_none {c : PortController} (h : c.notices = []) : c.Noted := by
  simp [PortController.Noted, h]

/-- The notices after the oldest was delivered, `since` of its kind and subject having coalesced since (R160). -/
theorem PortController.Noted.delivered {c : PortController} (h : c.Noted) (since : Nat) :
    PortController.Noted { c with noticeLost := false, notices := match c.notices with
      | [] => []
      | n :: rest => if since = 0 then rest else { n with count := min Config.repeatCeiling since } :: rest } := by
  obtain ⟨len, keys, counts, away⟩ := h
  cases hn : c.notices with
  | nil => exact .of_none rfl
  | cons n rest =>
    rw [hn] at len keys counts away
    obtain ⟨first, others⟩ := List.forall_mem_cons.mp counts
    by_cases h0 : since = 0
    · simp only [h0, if_true]
      exact ⟨Nat.le_of_succ_le len, (List.pairwise_cons.mp keys).2, others, fun a => nomatch away a⟩
    · simp only [h0, if_false]
      refine ⟨len, ?_, List.forall_mem_cons.mpr ⟨?_, others⟩, fun a => nomatch away a⟩
      · rw [pairwise_keys] at keys ⊢
        exact keys
      · simp only [Config.repeatCeiling]
        omega

theorem PortController.stored_only (n : Notice) (c : PortController) : (c.stored n).requests = c.requests ∧
    (c.stored n).credit = c.credit := by
  unfold PortController.stored
  repeat' split
  all_goals exact ⟨rfl, rfl⟩

/-- The placing of a deferred response frees no credit and uses none. -/
theorem PortController.credit_paid (k : RequestKind) (res : Result) (fields : List Byte) (c : PortController) :
    (c.paid k res fields).credit = c.credit := by
  unfold PortController.paid PortController.credit PortController.owed
  cases hf : c.deferred.find? fun r => r.code == k.code with
  | none => rw [List.eraseP_of_forall_not (by simpa using hf)]; simp
  | some r =>
    have hm := List.mem_of_find?_eq_some hf
    have hl := List.length_eraseP_of_mem hm (List.find?_some hf)
    have := List.length_pos_of_mem hm
    simp only [Option.toList_some, List.map_cons, List.map_nil, List.length_append, List.length_singleton, hl]
    omega

section
variable {n : Nat} {c : PortController} (h : c.Bounded n)
include h

theorem PortController.Bounded.stored (x : Notice) : (c.stored x).Bounded n := by
  obtain ⟨requests, credit, noted⟩ := h
  obtain ⟨hr, hc⟩ := c.stored_only x
  exact ⟨hr ▸ requests, hc ▸ credit, noted.stored x⟩

theorem PortController.Bounded.paid (k : RequestKind) (res : Result) (fields : List Byte) :
    (c.paid k res fields).Bounded n := by
  obtain ⟨requests, credit, noted⟩ := h
  exact ⟨requests, by rwa [PortController.credit_paid], noted⟩
end

theorem PortController.credit_entered (zero : Bool) (reason : LeaveReason) (own : Option Response) (c : PortController) :
    (c.entered zero reason own).credit = c.credit + own.toList.length := by
  have paid : ((if zero then c.paid .planSet .cancelled [] else c).paid .publish .cancelled []).credit = c.credit := by
    rw [PortController.credit_paid]
    split
    · exact PortController.credit_paid ..
    · rfl
  have requests : ((if zero then c.paid .planSet .cancelled [] else c).paid .publish .cancelled []).requests = c.requests := by
    split <;> rfl
  unfold PortController.entered
  revert paid requests
  generalize ((if zero then c.paid .planSet .cancelled [] else c).paid .publish .cancelled []) = d
  intro paid requests
  simp only [PortController.credit, List.length_append, List.length_map, List.length_nil, requests] at paid ⊢
  omega

theorem PortController.Bounded.entered {n m : Nat} {c : PortController} (h : c.Bounded n) (zero : Bool)
    (reason : LeaveReason) (own : Option Response) (hm : own.toList.length + m ≤ n) :
    (c.entered zero reason own).Bounded m := by
  obtain ⟨-, credit, -⟩ := h
  refine ⟨Nat.zero_le _, ?_, .of_none rfl⟩
  rw [PortController.credit_entered]
  omega

/-- A change of the attach state that leaves ATTACHED alone. -/
theorem PortController.Bounded.withAttach {n : Nat} {c : PortController} (h : c.Bounded n) {a : Attach}
    (ha : c.attach = .attached → a = .attached) : ({ c with attach := a } : PortController).Bounded n := by
  obtain ⟨requests, credit, len, keys, counts, away⟩ := h
  exact ⟨requests, credit, len, keys, counts, fun g => away fun e => g (ha e)⟩

theorem PortController.Bounded.retired {n : Nat} {c : PortController} (h : c.Bounded n) (on : Bool) :
    (c.retired on).Bounded n := by
  refine h.withAttach fun ha => ?_
  have : c.leaves = none := by simp [PortController.leaves, ha]
  rw [this, ha]
  rfl

/-! ### The part -/

/-- The places of credit of a port that the request in hand uses. -/
def inHand (h : Option PortId) (p : PortId) : Nat := if h = some p then 1 else 0

@[simp] theorem inHand_none (p : PortId) : inHand none p = 0 := rfl
@[simp] theorem inHand_self (p : PortId) : inHand (some p) p = 1 := if_pos rfl
theorem inHand_ne {p q : PortId} (h : q ≠ p) : inHand (some p) q = 0 := if_neg fun e => h (Option.some.inj e).symm
theorem inHand_le (h : Option PortId) (p : PortId) : inHand h p ≤ 1 := by unfold inHand; split <;> omega

/-- The queue law, the request in hand counted in the credit of its port. -/
def HandLaw (h : Option PortId) (s : State) : Prop := ∀ p, (s.port p).Bounded (inHand h p)

section
variable {h h' : Option PortId} {s t : State}

/-- Only one Port Controller changes. -/
theorem HandLaw.at (j : HandLaw h s) (p : PortId)
    (self : (s.port p).Bounded (inHand h p) → (t.port p).Bounded (inHand h' p))
    (others : ∀ q, q ≠ p → t.port q = s.port q ∧ inHand h' q = inHand h q) : HandLaw h' t := by
  intro q
  by_cases hq : q = p
  · subst hq
    exact self (j q)
  · obtain ⟨same, hand⟩ := others q hq
    rw [same, hand]
    exact j q

theorem HandLaw.setPort (j : HandLaw h s) (p : PortId) {c : PortController}
    (self : (s.port p).Bounded (inHand h p) → c.Bounded (inHand h p)) : HandLaw h (s.setPort p c) :=
  j.at p (by simpa using self) fun q hq => ⟨by simp [hq], rfl⟩

theorem HandLaw.storeNotice (j : HandLaw h s) (p : PortId) (n : Notice) : HandLaw h (storeNotice p n s) :=
  j.at p (fun b => by rw [storeNotice_eq]; simpa using b.stored n) fun _ hq => ⟨storeNotice_port_ne hq n s, rfl⟩

theorem HandLaw.storeNotices (j : HandLaw h s) (ns : List (PortId × Notice)) : HandLaw h (storeNotices ns s) := by
  induction ns generalizing s with
  | nil => exact j
  | cons n ns ih => exact ih (j.storeNotice n.1 n.2)

theorem QueueMove.handLaw (m : QueueMove h s h' t) (j : HandLaw h s) : HandLaw h' t := by
  cases m with
  | link _ p l => exact j
  | refusal _ p why => exact j.setPort p id
  | accept p r _ could =>
    refine j.setPort p fun b => ?_
    obtain ⟨-, -, noted⟩ := b
    obtain ⟨-, room, credit⟩ := (PortController.couldAccept_iff _).mp could
    refine ⟨?_, ?_, noted⟩
    · simp only [List.length_append, List.length_singleton]
      omega
    · simp only [PortController.credit, List.length_append, List.length_singleton, inHand_none] at credit ⊢
      omega
  | read p =>
    refine j.setPort p fun b => ?_
    obtain ⟨requests, credit, noted⟩ := b
    refine ⟨requests, ?_, noted⟩
    simp only [PortController.credit, List.length_tail] at credit ⊢
    omega
  | readNotice p since =>
    refine j.setPort p fun b => ?_
    obtain ⟨requests, credit, noted⟩ := b
    exact ⟨requests, credit, noted.delivered since⟩
  | notice _ p n => exact j.storeNotice p n
  | take p r _ head =>
    refine j.at p (fun b => ?_) fun q hq => ⟨by simp [dropHead, hq], (inHand_ne hq).trans rfl⟩
    obtain ⟨requests, credit, noted⟩ := b
    obtain ⟨-, -, rest, hr⟩ := headOf_some head
    simp only [dropHead, State.port_setPort, if_true, hr, List.tail_cons]
    simp only [PortController.credit, hr, List.length_cons, inHand_none] at requests credit
    refine ⟨by dsimp only; omega, ?_, noted⟩
    simp only [PortController.credit, inHand_self]
    omega
  | answer p r res fields =>
    refine j.at p (fun b => ?_) fun q hq => ⟨by simp [respond, hq], (inHand_ne hq).symm ▸ rfl⟩
    obtain ⟨requests, credit, noted⟩ := b
    simp only [respond, State.port_setPort, if_true]
    refine ⟨requests, ?_, noted⟩
    simp only [PortController.credit, List.length_append, List.length_singleton, inHand_self, inHand_none] at credit ⊢
    omega

theorem HandLaw.leaveIfDone (j : HandLaw h s) (p : PortId) : HandLaw h (leaveIfDone p s) := by
  rcases leaveIfDone_cases p s with ⟨-, e⟩ | ⟨r, ha, -, e⟩ <;> rw [e]
  · exact j
  · refine HandLaw.storeNotice (s := (s.setPort p _).setUnit p _) ?_ _ _
    exact j.setPort p fun b => b.withAttach fun g => nomatch ha.symm.trans g

/-- Every act keeps the queue law. -/
theorem Act.handLaw (a : Act h s h' t) (j : HandLaw h s) : HandLaw h' t := by
  cases a with
  | queue move => exact move.handLaw j
  | pay _ p k res fields =>
    rw [placeDeferred_eq]
    exact j.setPort p fun b => b.paid k res fields
  | keep p r =>
    refine j.at p (fun b => ?_) fun q hq => ⟨by simp [deferRequest, hq], (inHand_ne hq).symm ▸ rfl⟩
    obtain ⟨requests, credit, noted⟩ := b
    simp only [deferRequest, State.port_setPort, if_true]
    refine ⟨requests, ?_, noted⟩
    simp only [PortController.credit, List.length_append, List.length_singleton, inHand_self, inHand_none] at credit ⊢
    omega
  | engine _ p e => exact j.setPort p id
  | layout => exact j
  | marks => exact j
  | attach _ p sw sh =>
    exact j.setPort p fun b => ⟨b.1, b.2.1, .of_none rfl⟩
  | left _ p reason =>
    exact j.at p (fun b => by simpa using b.entered _ reason none (by simp)) fun q hq => ⟨by simp [hq], rfl⟩
  | bye p reason own =>
    exact j.at p (fun b => by simpa using b.entered _ reason (some own) (by simp)) fun q hq =>
      ⟨by simp [hq], (inHand_ne hq).symm ▸ rfl⟩
  | told _ p =>
    rw [tellRetired_eq]
    refine HandLaw.storeNotices (s := (s.setPort p _).setUnit p _) ?_ _
    exact j.setPort p fun b => b.retired _
  | depart _ p => exact j.leaveIfDone p
  | enable _ p _ disabled =>
    refine HandLaw.setPort j p fun b => ?_
    exact b.withAttach (a := .detached) fun g => nomatch disabled.symm.trans g
  | disable _ p _ detached =>
    exact HandLaw.setPort j p fun b => b.withAttach fun g => nomatch detached.symm.trans g
  | close _ p =>
    refine HandLaw.setPort j p fun _ => ⟨Nat.zero_le _, ?_, .of_none rfl⟩
    have := inHand_le h p
    simp only [PortController.reset, PortController.credit, List.length_nil]
    omega
  | judge _ p =>
    unfold takeFrameStart
    split
    · exact HandLaw.storeNotices (s := s.setUnit p _) j _
    · exact j
  | fill => exact j
  | format => exact j

theorem PanelAct.handLaw (a : PanelAct h s h' t) (j : HandLaw h s) : HandLaw h' t := by
  cases a with
  | act a => exact a.handLaw j
  | _ => exact j

theorem AnyMove.handLaw (m : AnyMove h s h' t) (j : HandLaw h s) : HandLaw h' t := by
  rcases m.acts with c | ⟨e, rfl⟩
  · exact c.keeps PanelAct.handLaw j
  · cases e
    exact reset_QueueLaw
end

/-- Settles O50, by the acts of each command. -/
theorem queueLawKept : Obligations.QueueLawKept := fun _ _ j h =>
  step_keeps (J := HandLaw) AnyMove.handLaw (fun _ j => j) j h

end Sys2Proof.Machine
end

