-- ==== Sys2Proof/Proofs/SourceLaw.lean ====
section
/-! PROOFS. The source law (R108, R114, R118, R121): every act keeps it. -/

namespace Sys2Proof.Machine

/-! ### What the moves of the queues and the links leave alone -/

/-- Two states agree in every block but the Port Controllers and the links, and in the attach states. -/
structure SameBlocks (s t : State) : Prop where
  layout : t.layout = s.layout
  sources : t.sources = s.sources
  marks : t.marks = s.marks
  panel : SamePanel s t
  attach : ∀ p, (t.port p).attach = (s.port p).attach

theorem SameBlocks.setPort (s : State) (p : PortId) {c : PortController} (h : c.attach = (s.port p).attach) :
    SameBlocks s (s.setPort p c) := by
  refine ⟨rfl, rfl, rfl, ⟨rfl, rfl, rfl⟩, fun q => ?_⟩
  by_cases hq : q = p
  · subst hq
    simpa using h
  · simp [hq]

theorem NoticesOnly.sameBlocks {s t : State} (h : NoticesOnly s t) : SameBlocks s t :=
  ⟨h.layout, h.sources, h.marks, h.samePanel, fun p => by rw [h.ports p]⟩

theorem QueueMove.sameBlocks {h h' : Option PortId} {s t : State} (m : QueueMove h s h' t) : SameBlocks s t := by
  cases m with
  | link => exact ⟨rfl, rfl, rfl, ⟨rfl, rfl, rfl⟩, fun _ => rfl⟩
  | refusal => exact .setPort s _ rfl
  | accept => exact .setPort s _ rfl
  | read => exact .setPort s _ rfl
  | readNotice => exact .setPort s _ rfl
  | notice _ p n => exact (storeNotice_only p n s).sameBlocks
  | take => exact .setPort s _ rfl
  | answer => exact .setPort s _ rfl

/-! ### One Source Unit -/

/-- The source law of one unit, with the size of a port that is DETACHED or DISABLED. -/
def SourceUnit.Kept (a : Attach) (u : SourceUnit) : Prop :=
  u.SourceLaw a ∧ (a = .detached ∨ a = .disabled → u.sw = 1 ∧ u.sh = 0)

/-- A declared size in its ranges (R122). -/
def SourceUnit.SizeLaw (u : SourceUnit) : Prop := 1 ≤ u.sw ∧ u.sw ≤ 1024 ∧ u.sh ≤ 1024 ∧ u.sw * u.sh ≤ 262144

section
variable {a b : Attach} {u : SourceUnit}

theorem SourceUnit.Kept.size (h : u.Kept a) : u.SizeLaw := h.1.1

/-- A unit with empty banks, in NO_SIGNAL with both counts 0. -/
def SourceUnit.Clear (u : SourceUnit) : Prop :=
  u.showing = none ∧ u.filling = .empty ∧ u.monitor = .noSignal ∧ u.good = 0 ∧ u.missed = 0

theorem SourceUnit.SizeLaw.of_clear (size : u.SizeLaw) (clear : u.Clear)
    (quiet : a ≠ .attached → u.fsync = false ∧ u.frameWaiting = false) : u.SourceLaw a := by
  obtain ⟨showing, filling, monitor, good, missed⟩ := clear
  refine ⟨size, by omega, by omega, by simp [showing], by simp [filling], by simp [monitor],
    fun _ => ⟨monitor, showing, filling⟩, fun h => ?_⟩
  exact ⟨good, missed, quiet h⟩

theorem SourceUnit.forced_clear (u : SourceUnit) : u.forced.Clear := ⟨rfl, rfl, rfl, rfl, rfl⟩

theorem SourceUnit.SizeLaw.silenced (size : u.SizeLaw) : u.silenced.SourceLaw a :=
  SourceUnit.SizeLaw.of_clear size u.forced_clear fun _ => ⟨rfl, rfl⟩

theorem SourceUnit.rest_kept (u : SourceUnit) : u.silenced.undeclared.Kept a :=
  ⟨SourceUnit.SizeLaw.of_clear (u := u.silenced.undeclared) ⟨Nat.le_refl 1, by simp [SourceUnit.undeclared], Nat.zero_le _, Nat.zero_le _⟩
    u.forced_clear fun _ => ⟨rfl, rfl⟩,
    fun _ => ⟨rfl, rfl⟩⟩

/-- Outside ATTACHED a unit is clear. -/
theorem SourceUnit.SourceLaw.clear (h : u.SourceLaw a) (away : a ≠ .attached) : u.Clear := by
  obtain ⟨-, -, -, -, -, -, still, quiet⟩ := h
  obtain ⟨monitor, showing, filling⟩ := still (by simp [SourceUnit.runsWhen, away])
  obtain ⟨good, missed, -, -⟩ := quiet away
  exact ⟨showing, filling, monitor, good, missed⟩

/-- The lines of a FILLING bank are of the declared size. -/
def Filling.Fits (sw sh : Nat) : Filling → Prop
  | .empty => True
  | .receiving x => x.length ≤ sh ∧ ∀ l ∈ x, l.length = sw
  | .ready x => Picture.Sized sw sh x

theorem Filling.malformed_fits (sw sh : Nat) (f : Filling) : f.malformed.Fits sw sh := by
  rw [Filling.malformed_eq]
  trivial

section
variable {sw sh : Nat} {f : Filling} (h : f.Fits sw sh)
include h

theorem Filling.Fits.line (index : Nat) (pixels : List Colour) : (f.line sw sh index pixels).Fits sw sh := by
  cases f with
  | empty => trivial
  | ready lines => trivial
  | receiving lines =>
    obtain ⟨few, wide⟩ := h
    unfold Filling.line
    dsimp only
    split
    · rename_i hc
      obtain ⟨-, room, fits⟩ := hc
      refine ⟨by simpa using room, fun l hl => ?_⟩
      rcases List.mem_append.mp hl with hl | hl
      · exact wide l hl
      · exact List.mem_singleton.mp hl ▸ fits
    · trivial

theorem Filling.Fits.frameEnd : (f.frameEnd sh).Fits sw sh := by
  cases f with
  | empty => trivial
  | ready lines => exact h
  | receiving lines =>
    unfold Filling.frameEnd
    dsimp only
    split
    · rename_i hl
      exact ⟨hl, h.2⟩
    · trivial
end

/-- The law of a running unit: what it says. -/
structure SourceUnit.RunningLaw (u : SourceUnit) : Prop where
  size : u.SizeLaw
  good : u.good ≤ 7
  missed : u.missed ≤ 15
  showing : ∀ x, u.showing = some x → Picture.Sized u.sw u.sh x
  filling : u.filling.Fits u.sw u.sh
  locked : u.monitor = .locked → u.showing.isSome = true

theorem SourceUnit.SourceLaw.runningLaw (h : u.SourceLaw a) : u.RunningLaw := by
  obtain ⟨size, good, missed, showing, filling, locked, -, -⟩ := h
  exact ⟨size, good, missed, showing, filling, locked⟩

theorem SourceUnit.RunningLaw.sourceLaw (h : u.RunningLaw) (runs : 1 ≤ u.sh) : u.SourceLaw .attached := by
  obtain ⟨size, good, missed, showing, filling, locked⟩ := h
  exact ⟨size, good, missed, showing, filling, locked, by simp [SourceUnit.runsWhen, runs], by simp⟩

/-- The judgement of a running unit keeps the law (R113, R114). -/
theorem SourceUnit.RunningLaw.judged (h : u.RunningLaw) (e : PlanEntry) (b : Bool) :
    ((u.judged e).1.taking b).RunningLaw ∧ (u.judged e).1.sh = u.sh := by
  obtain ⟨size, good, missed, showing, filling, locked⟩ := h
  have one : 1 ≤ 7 := by decide
  unfold SourceUnit.judged
  split
  · rename_i lines hf
    rw [hf] at filling
    have shown : ∀ x, some lines = some x → Picture.Sized u.sw u.sh x := fun x hx => Option.some.inj hx ▸ filling
    unfold SourceUnit.onFresh
    split
    · split <;> exact ⟨⟨size, one, Nat.zero_le _, shown, trivial, fun _ => rfl⟩, rfl⟩
    · dsimp only
      split
      · exact ⟨⟨size, Nat.min_le_left _ _, Nat.zero_le _, shown, trivial, fun _ => rfl⟩, rfl⟩
      · exact ⟨⟨size, Nat.min_le_left _ _, missed, shown, trivial, fun _ => rfl⟩, rfl⟩
    · exact ⟨⟨size, good, Nat.zero_le _, shown, trivial, fun _ => rfl⟩, rfl⟩
    · exact ⟨⟨size, one, Nat.zero_le _, shown, trivial, fun _ => rfl⟩, rfl⟩
  · unfold SourceUnit.onMissed
    split
    · exact ⟨⟨size, Nat.zero_le _, missed, showing, filling, locked⟩, rfl⟩
    · exact ⟨⟨size, Nat.zero_le _, Nat.zero_le _, showing, filling, nofun⟩, rfl⟩
    · dsimp only
      split
      · exact ⟨⟨size, Nat.zero_le _, Nat.min_le_left _ _, showing, filling, nofun⟩, rfl⟩
      · exact ⟨⟨size, good, Nat.min_le_left _ _, showing, filling, locked⟩, rfl⟩
    · exact ⟨⟨size, good, Nat.min_le_left _ _, showing, filling, locked⟩, rfl⟩

/-- A packet keeps the law of a running unit (R110 to R112). -/
theorem SourceUnit.RunningLaw.filled (h : u.RunningLaw) (x : Packet) :
    ({ u with filling := x.fill u } : SourceUnit).RunningLaw := by
  obtain ⟨size, good, missed, showing, filling, locked⟩ := h
  refine ⟨size, good, missed, showing, ?_, locked⟩
  dsimp only
  cases x with
  | frameBegin => exact ⟨Nat.zero_le _, nofun⟩
  | damaged => exact u.filling.malformed_fits u.sw u.sh
  | line index pixels => exact filling.line index pixels
  | frameEnd => exact filling.frameEnd

/-- What the pulse and the waiting frame start are is free while ATTACHED. -/
theorem SourceUnit.Kept.withLines (h : u.Kept a) {f w : Bool} (pulsed : Bool)
    (quiet : a ≠ .attached → f = false ∧ w = false) :
    ({ u with fsync := f, pulsed := pulsed, frameWaiting := w } : SourceUnit).Kept a := by
  obtain ⟨⟨size, good, missed, showing, filling, locked, still, away⟩, rest⟩ := h
  exact ⟨⟨size, good, missed, showing, filling, locked, still, fun n => ⟨(away n).1, (away n).2.1, quiet n⟩⟩, rest⟩

theorem SourceUnit.Kept.lines (h : u.Kept a) (n : a ≠ .attached) : u.fsync = false ∧ u.frameWaiting = false := by
  obtain ⟨⟨-, -, -, -, -, -, -, away⟩, -⟩ := h
  exact (away n).2.2
end

/-! ### The part -/

section
variable {h h' : Option PortId} {s t : State}

theorem SourceLaw.at (j : s.SourceLaw) (p : PortId) (self : (s.unit p).Kept (s.port p).attach → (t.unit p).Kept (t.port p).attach)
    (others : ∀ q, q ≠ p → (t.port q).attach = (s.port q).attach ∧ t.unit q = s.unit q) : t.SourceLaw := by
  intro q
  by_cases hq : q = p
  · subst hq
    exact self (j q)
  · obtain ⟨attach, unit⟩ := others q hq
    rw [attach, unit]
    exact j q

theorem SourceLaw.same (j : s.SourceLaw) (attach : ∀ q, (t.port q).attach = (s.port q).attach)
    (unit : ∀ q, t.unit q = s.unit q) : t.SourceLaw := fun q => by
  rw [attach q, unit q]
  exact j q

theorem SameBlocks.sourceLaw (b : SameBlocks s t) (j : s.SourceLaw) : t.SourceLaw :=
  SourceLaw.same j b.attach fun q => by simp only [State.unit, b.sources]

theorem SourceLaw.setPort (j : s.SourceLaw) (p : PortId) {c : PortController} (same : c.attach = (s.port p).attach) :
    (s.setPort p c).SourceLaw := (SameBlocks.setPort s p same).sourceLaw j

/-- A unit whose port is told that its regions are retired. -/
theorem SourceUnit.Kept.retired {c : PortController} {u : SourceUnit} (k : u.Kept c.attach) (on : Bool) :
    (u.retired c).Kept (c.retired on).attach := by
  unfold SourceUnit.retired PortController.retired
  cases hl : c.leaves with
  | some why => exact u.rest_kept
  | none =>
    dsimp only
    cases ha : c.attach with
    | leaving why b =>
      rw [ha] at k
      exact ⟨⟨k.1.1, k.1.2.1, k.1.2.2.1, k.1.2.2.2.1, k.1.2.2.2.2.1, k.1.2.2.2.2.2.1,
        fun _ => k.1.2.2.2.2.2.2.1 (by simp [SourceUnit.runsWhen]), fun _ => k.1.2.2.2.2.2.2.2 (by simp)⟩, by simp [Attach.regionsRetired]⟩
    | _ =>
      rw [ha] at k
      exact k

theorem entered_sourceLaw (j : s.SourceLaw) (p : PortId) (reason : LeaveReason) (own : Option Response) :
    (entered p reason own s).SourceLaw :=
  SourceLaw.at j p (fun k => by
    simp only [entered_unit, entered_port, if_true, entered_attach]
    exact ⟨k.size.silenced, by simp⟩) fun q hq => by simp [hq]

/-- Every act keeps the source law. -/
theorem Act.sourceLaw (a : Act h s h' t) (j : s.SourceLaw) : t.SourceLaw := by
  cases a with
  | queue move => exact move.sameBlocks.sourceLaw j
  | pay _ p k res fields =>
    rw [placeDeferred_eq]
    exact SourceLaw.setPort j p rfl
  | keep p r => exact SourceLaw.setPort j p rfl
  | engine _ p e => exact SourceLaw.setPort j p rfl
  | layout => exact j
  | marks => exact j
  | attach _ p sw sh _ size detached =>
    refine SourceLaw.at j p (fun k => ?_) fun q hq => by simp [Machine.attach, hq]
    rw [detached] at k
    simp only [Machine.attach, State.unit_setUnit, State.port_setUnit, State.port_setPort, State.unit_setPort, if_true]
    refine ⟨SourceUnit.SizeLaw.of_clear ((sizeOk_iff).mp size) (k.1.clear nofun) fun n => absurd rfl n, by simp⟩
  | left _ p reason => exact entered_sourceLaw j p reason none
  | bye p reason own => exact entered_sourceLaw j p reason (some own)
  | told _ p =>
    rw [tellRetired_eq]
    refine (storeNotices_only _ _).sameBlocks.sourceLaw ?_
    exact SourceLaw.at j p (fun k => by simpa using k.retired _) fun q hq => by simp [hq]
  | depart _ p =>
    rcases leaveIfDone_cases p s with ⟨-, e⟩ | ⟨r, -, -, e⟩ <;> rw [e]
    · exact j
    · refine (storeNotice_only _ _ _).sameBlocks.sourceLaw ?_
      exact SourceLaw.at j p (fun _ => by simpa using (s.unit p).rest_kept) fun q hq => by simp [hq]
  | enable _ p =>
    exact SourceLaw.at j p (fun _ => by simpa [restUnit] using (s.unit p).rest_kept) fun q hq => by simp [restUnit, hq]
  | disable _ p =>
    exact SourceLaw.at j p (fun _ => by simpa [restUnit] using (s.unit p).rest_kept) fun q hq => by simp [restUnit, hq]
  | close _ p =>
    exact SourceLaw.at j p (fun _ => by simpa [disablePort] using (s.unit p).rest_kept) fun q hq => by
      simp [disablePort, hq]
  | judge _ p =>
    rcases takeFrameStart_cases p s with ⟨-, e⟩ | ⟨-, e⟩
    · rw [e]
      exact j
    · refine e.sameBlocks.sourceLaw (SourceLaw.at j p (fun k => ?_) fun q hq => by simp [hq])
      simp only [State.unit_setUnit, State.port_setUnit, if_true]
      by_cases runs : running p s = true
      · obtain ⟨attached, high⟩ := running_iff.mp runs
        rw [judgement_running runs]
        rw [attached] at k ⊢
        obtain ⟨law, same⟩ := k.1.runningLaw.judged (s.entry p) true
        exact ⟨by simpa [SourceUnit.taking] using law.sourceLaw (same.symm ▸ high), by simp⟩
      · rw [judgement_still (by simpa using runs)]
        exact k.withLines _ fun n => ⟨by simp [n], rfl⟩
  | fill _ p x _ runs =>
    obtain ⟨attached, high⟩ := running_iff.mp runs
    refine SourceLaw.at j p (fun k => ?_) fun q hq => by simp [hq]
    simp only [State.unit_setUnit, State.port_setUnit, if_true]
    rw [attached] at k ⊢
    exact ⟨(k.1.runningLaw.filled x).sourceLaw high, by simp⟩
  | format _ p sw sh _ size attached =>
    refine SourceLaw.at j p (fun k => ?_) fun q hq => by simp [hq]
    simp only [State.unit_setUnit, State.port_setUnit, if_true, attached]
    exact ⟨SourceUnit.SizeLaw.of_clear ((sizeOk_iff).mp size) ⟨rfl, rfl, rfl, rfl, rfl⟩ fun n => absurd rfl n, by simp⟩

theorem PanelAct.sourceLaw (a : PanelAct h s h' t) (j : s.SourceLaw) : t.SourceLaw := by
  cases a with
  | act a => exact a.sourceLaw j
  | scan => exact j
  | comp => exact j
  | raise =>
    intro p
    have k : (s.unit p).Kept (s.port p).attach := j p
    have e : (raiseFrame s).unit p = { s.unit p with
        pulsed := false, frameWaiting := decide ((s.port p).attach = .attached) } := by cases p <;> rfl
    rw [e]
    exact k.withLines false fun n => ⟨(k.lines n).1, by simp [n]⟩
  | quiet =>
    intro p
    have k : (s.unit p).Kept (s.port p).attach := j p
    have e : (endFsync s).unit p = { s.unit p with fsync := false } := by cases p <;> rfl
    rw [e]
    exact k.withLines _ fun n => ⟨rfl, (k.lines n).2⟩
  | force =>
    intro p
    have k : (s.unit p).Kept (s.port p).attach := j p
    have e : (forceAll s).unit p = { (s.unit p).forced with fsync := false, frameWaiting := false } := by cases p <;> rfl
    rw [e]
    exact ⟨k.size.silenced, k.2⟩

theorem AnyMove.sourceLaw (m : AnyMove h s h' t) (j : s.SourceLaw) : t.SourceLaw := by
  rcases m.acts with c | ⟨e, rfl⟩
  · exact c.keeps (J := fun _ s => s.SourceLaw) PanelAct.sourceLaw j
  · cases e
    exact reset_SourceLaw
end

/-- Settles O54, by the acts of each command. -/
theorem sourceLawKept : Obligations.SourceLawKept := fun _ _ j h =>
  step_keeps (J := fun _ s => s.SourceLaw) AnyMove.sourceLaw (fun _ j => j) j h

end Sys2Proof.Machine
end

