-- ==== Sys2Proof/Proofs/ScanLaw.lean ====
section
/-! PROOFS. The scan law (R137, R33, R34), and what no command but those of the frame changes: the commands that wait, and
the live state while the panel runs (R81). -/

namespace Sys2Proof.Machine

/-! ### The commands that wait -/

section
variable {h h' : Option PortId} {s t : State}

theorem Act.samePanel (a : Act h s h' t) : SamePanel s t := by
  cases a with
  | queue move => exact move.sameBlocks.panel
  | pay _ p k res fields => exact placeDeferred_samePanel p k res fields s
  | told _ p => exact tellRetired_samePanel p s
  | depart _ p => exact leaveIfDone_samePanel p s
  | judge _ p => exact (takeFrameStart_layout p s).2.2
  | left | bye => exact ⟨entered_scan, entered_comp, entered_pending⟩
  | _ => exact ⟨rfl, rfl, rfl⟩

theorem PanelAct.pending (a : PanelAct h s h' t) : t.pending = s.pending := by
  cases a with
  | act a => exact a.samePanel.pending
  | _ => rfl

theorem AnyMove.pending (m : AnyMove h s h' t) : t.pending = s.pending := by
  rcases m.acts with c | ⟨e, -⟩
  · exact c.keeps (J := fun _ u => u.pending = s.pending) (fun a e => a.pending.trans e) rfl
  · cases e
    rfl
end

/-- Settles O2: every command is a chain of moves, and no move touches the commands that wait. -/
theorem commandsGoOnAndLeaveQueue : Obligations.CommandsGoOnAndLeaveQueue := by
  intro c s
  obtain ⟨t, e, chain⟩ := exec_chain c s
  exact ⟨t, e, chain.keeps (J := fun _ u => u.pending = s.pending) (fun m g => m.pending.trans g) rfl⟩

/-! ### FSYNC and the frame starts that wait -/

/-- No unit gains a pulse or a frame start that waits, and a pulse that stands is one of the latest frame start. -/
structure SourceUnit.Quieter (u v : SourceUnit) : Prop where
  busy : v.fsync = true ∨ v.frameWaiting = true → u.fsync = true ∨ u.frameWaiting = true
  pulsed : (u.fsync = true → u.pulsed = true) → v.fsync = true → v.pulsed = true

theorem SourceUnit.Quieter.refl (u : SourceUnit) : u.Quieter u := ⟨id, id⟩

theorem SourceUnit.Quieter.trans {u v w : SourceUnit} (h : u.Quieter v) (g : v.Quieter w) : u.Quieter w :=
  ⟨fun b => h.busy (g.busy b), fun p => g.pulsed (h.pulsed p)⟩

theorem SourceUnit.Quieter.of_lines {u v : SourceUnit} (f : v.fsync = u.fsync) (p : v.pulsed = u.pulsed)
    (w : v.frameWaiting = u.frameWaiting) : u.Quieter v := ⟨by rw [f, w]; exact id, by rw [f, p]; exact id⟩

theorem SourceUnit.Quieter.of_quiet {u v : SourceUnit} (f : v.fsync = false) (w : v.frameWaiting = false) : u.Quieter v :=
  ⟨by simp [f, w], by simp [f]⟩

section
variable {h h' : Option PortId} {s t : State}

/-- The Scan Timer and the Compositor stay, and no Source Unit gains a pulse or a frame start. -/
structure PanelStill (s t : State) : Prop where
  panel : SamePanel s t
  units : ∀ p, (s.unit p).Quieter (t.unit p)

theorem PanelStill.refl (s : State) : PanelStill s s := ⟨.refl s, fun _ => .refl _⟩

theorem PanelStill.trans {u : State} (g : PanelStill s t) (k : PanelStill t u) : PanelStill s u :=
  ⟨g.panel.trans k.panel, fun p => (g.units p).trans (k.units p)⟩

theorem Quieter.set {p q : PortId} {v : SourceUnit} (hv : (s.unit p).Quieter v) :
    (s.unit q).Quieter (if q = p then v else s.unit q) := by
  split
  · rename_i e
    exact e ▸ hv
  · exact .refl _

theorem Act.quieter (a : Act h s h' t) (q : PortId) : (s.unit q).Quieter (t.unit q) := by
  have same : ∀ {u : State}, u.sources = s.sources → (s.unit q).Quieter (u.unit q) := fun e => by
    simp only [State.unit, e]
    exact .refl _
  cases a with
  | queue move => exact same move.sameBlocks.sources
  | pay _ p k res fields =>
    rw [placeDeferred_eq]
    exact .refl _
  | attach _ p =>
    rw [Machine.attach, State.unit_setUnit]
    exact Quieter.set (.of_lines rfl rfl rfl)
  | left | bye =>
    rw [entered_unit]
    exact Quieter.set (.of_quiet rfl rfl)
  | told _ p =>
    rw [tellRetired_eq, (storeNotices_only _ _).unit, State.unit_setUnit]
    refine Quieter.set ?_
    unfold SourceUnit.retired
    split
    · exact .of_quiet rfl rfl
    · exact .refl _
  | depart _ p =>
    rcases leaveIfDone_cases p s with ⟨-, e⟩ | ⟨r, -, -, e⟩ <;> rw [e]
    · exact .refl _
    · rw [(storeNotice_only _ _ _).unit, State.unit_setUnit]
      exact Quieter.set (.of_quiet rfl rfl)
  | enable | disable =>
    rw [restUnit, State.unit_setUnit]
    exact Quieter.set (.of_quiet rfl rfl)
  | close =>
    rw [disablePort, State.unit_setUnit]
    exact Quieter.set (.of_quiet rfl rfl)
  | judge _ p =>
    rcases takeFrameStart_cases p s with ⟨-, e⟩ | ⟨w, e⟩
    · rw [e]
      exact .refl _
    · rw [e.unit, State.unit_setUnit]
      exact Quieter.set ⟨fun _ => .inr w, fun _ => id⟩
  | fill | format =>
    rw [State.unit_setUnit]
    exact Quieter.set (.of_lines rfl rfl rfl)
  | _ => exact same rfl

theorem Chain.still (c : Chain Act h s h' t) : PanelStill s t :=
  c.keeps (J := fun _ u => PanelStill s u) (fun a j => j.trans ⟨a.samePanel, a.quieter⟩) (.refl s)

/-- What leaves the panel alone keeps the scan law. -/
theorem PanelStill.scanLaw (g : PanelStill s t) (j : s.ScanLaw) : t.ScanLaw := by
  obtain ⟨⟨scan, comp, -⟩, units⟩ := g
  obtain ⟨setup, warm, cool, warming, cooling, pos, dark, waiting, busy, pulsed⟩ := j
  unfold State.ScanLaw
  rw [scan, comp]
  exact ⟨setup, warm, cool, warming, cooling, pos, dark, waiting, fun p b => busy p ((units p).busy b),
    fun p => (units p).pulsed (pulsed p)⟩

/-! ### The moves of the Scan Timer -/

/-- The scan law while a frame start is raised and its works go on: the panel runs and the position is BLANK. -/
structure Raised (s : State) : Prop where
  law : s.ScanLaw
  runs : s.scan.panel ≠ .dark
  blank : s.scan.pos = none

theorem PanelStill.raised (g : PanelStill s t) (j : Raised s) : Raised t :=
  ⟨g.scanLaw j.law, by rw [g.panel.scan]; exact j.runs, by rw [g.panel.scan]; exact j.blank⟩

theorem takeWarmCount_scanLaw (j : s.ScanLaw) : (takeWarmCount s).ScanLaw := by
  obtain ⟨setup, warm, cool, warming, cooling, pos, dark, waiting, busy, pulsed⟩ := j
  rcases takeWarmCount_cases s with ⟨-, e⟩ | ⟨w, -, e⟩ | ⟨w, more, e⟩ <;> rw [e]
  · exact ⟨setup, warm, cool, warming, cooling, pos, dark, waiting, busy, pulsed⟩
  · have wasWarming : s.scan.panel = .warming := by
      by_contra n
      exact absurd w (by simp [(warming n).2])
    have still : PanelStill (s.setScan { s.scan with panel := .live, warm := 0, warmWaiting := false })
        (storeAll { kind := .panelState, subject := 0x02, frame := s.scan.frame, count := 1, detail := s.scan.panel.byte }
          (s.setScan { s.scan with panel := .live, warm := 0, warmWaiting := false })) :=
      Chain.still (h := none) (acts_storeNotices _)
    refine still.scanLaw ⟨setup, by simp only [State.setScan_scan]; exact setup.2.2.2.2.2.2.1, cool, fun _ => ⟨rfl, rfl⟩,
      fun _ => cooling (by simp [wasWarming]), pos, nofun, nofun, fun p b => ⟨nofun, (busy p b).2⟩, pulsed⟩
  · have wasWarming : s.scan.panel = .warming := by
      by_contra n
      exact absurd w (by simp [(warming n).2])
    exact ⟨setup, more, cool, fun n => absurd wasWarming n, cooling, pos, dark, nofun, busy, pulsed⟩

theorem takeWarmCount_panel : (takeWarmCount s).scan.panel = s.scan.panel ∨ (takeWarmCount s).scan.panel = .live := by
  rcases takeWarmCount_cases s with ⟨-, e⟩ | ⟨-, -, e⟩ | ⟨-, -, e⟩ <;> rw [e]
  · exact .inl rfl
  · exact .inr (congrArg ScanTimer.panel (storeAll_only _ _).scan)
  · exact .inl rfl

theorem Raised.takeWarmCount (j : Raised s) : Raised (takeWarmCount s) := by
  refine ⟨takeWarmCount_scanLaw j.law, ?_, by rw [takeWarmCount_pos]; exact j.blank⟩
  rcases takeWarmCount_panel (s := s) with e | e <;> rw [e]
  · exact j.runs
  · nofun

theorem Raised.doWork (j : Raised s) (w : FrameWork) : Raised (doWork s w) := by
  cases w with
  | commit => exact (Chain.still (h := none) acts_commit).raised j
  | unit p => exact (Chain.still (h := none) (.one (.judge none p s))).raised j
  | timer => exact j.takeWarmCount

theorem Raised.works (j : Raised s) (ws : List FrameWork) : Raised (ws.foldl Machine.doWork s) := by
  induction ws generalizing s with
  | nil => exact j
  | cons w ws ih => exact ih (j.doWork w)

theorem Raised.rest (j : Raised s) (now : List FrameWork) : Raised (settleUnits (commitLast now s)) :=
  (Chain.still (h := none) ((acts_commitLast now).trans acts_settleUnits)).raised j

theorem raiseFrame_raised (x : ScanTimer) (setup : x.setup.Lawful) (warm : x.warm < x.setup.warm)
    (cool : x.cool < x.setup.cool) (warming : x.panel ≠ .warming → x.warm = 0 ∧ x.warmWaiting = false)
    (cooling : x.panel ≠ .cooling → x.cool = 0 ∧ x.coolingFrame = false) (runs : x.panel ≠ .dark)
    (quiet : ∀ p, (s.unit p).fsync = false) : Raised (raiseFrame (s.setScan x)) := by
  refine ⟨⟨setup, warm, cool, warming, cooling, nofun, fun e => absurd e runs, fun _ => rfl, fun _ _ => ⟨runs, rfl⟩,
    fun p => ?_⟩, runs, rfl⟩
  have e : ((raiseFrame (s.setScan x)).unit p).fsync = (s.unit p).fsync := by cases p <;> rfl
  rw [e, quiet p]
  nofun

/-- At the end of a frame no pulse stands. -/
theorem State.ScanLaw.quiet (j : s.ScanLaw) (h : s.scan.pos ≠ none ∨ s.scan.panel = .dark) (p : PortId) :
    (s.unit p).fsync = false := by
  obtain ⟨-, -, -, -, -, -, -, -, busy, -⟩ := j
  rw [Bool.eq_false_iff]
  intro f
  obtain ⟨runs, blank⟩ := busy p (.inl f)
  exact h.elim (fun n => n blank) runs

theorem settleWarm_raised (j : Raised s) : Raised (settleWarm s) := by
  unfold settleWarm
  split
  · exact j
  · exact j.takeWarmCount

theorem startWarming_scanLaw (now : List FrameWork) (j : s.ScanLaw) (dark : s.scan.panel = .dark) :
    (startWarming now s).ScanLaw := by
  rw [startWarming_eq]
  have quiet : ∀ p, ((takeReports s).unit p).fsync = false := fun p => by
    rw [takeReports_unit]
    exact j.quiet (.inr dark) p
  have start : Raised (warmed (takeReports s)) := by
    obtain ⟨setup, -, cool, -, cooling, -⟩ := j
    unfold warmed
    rw [takeReports_scan]
    exact raiseFrame_raised _ setup setup.2.2.2.2.2.2.1 cool (fun n => absurd rfl n)
      (fun _ => ⟨(cooling (by simp [dark])).1, rfl⟩) nofun quiet
  have told := (Chain.still (h := none) (acts_announcePanel .dark)).raised (start.works (worksBefore now))
  exact ((told.works (worksAfter now)).rest now).law

theorem startLine_scanLaw {l : Nat} (next : nextLine s.scan = some l) (whole : workWaits s = false) (j : s.ScanLaw) :
    (startLine l s).ScanLaw := by
  obtain ⟨noWarm, noUnit⟩ := workWaits_eq_false.mp whole
  obtain ⟨setup, warm, cool, warming, cooling, pos, dark, waiting, busy, pulsed⟩ := j
  have runs : s.scan.panel ≠ .dark := fun e => by simp [nextLine, e] at next
  have low : l < s.scan.setup.h := by
    simp only [nextLine, if_neg runs, Option.ite_none_right_eq_some, Option.some.injEq] at next
    obtain ⟨g, rfl⟩ := next
    exact g
  have quiet : ∀ p, ((lineBegun l s).unit p).fsync = false ∧ ((lineBegun l s).unit p).frameWaiting = false := fun p => by
    rw [lineBegun_unit]
    exact ⟨rfl, noUnit p⟩
  have begun : (lineBegun l s).ScanLaw := by
    refine ⟨setup, warm, cool, warming, cooling, ?_, fun e => absurd e runs, fun e => ?_, fun p b => ?_, fun p b => ?_⟩
    · rintro _ ⟨⟩
      exact low
    · exact absurd (noWarm.symm.trans e) nofun
    · simp [quiet p] at b
    · simp [quiet p] at b
  rw [startLine_eq]
  split
  · exact (Chain.still (h := none) (.foldl (fun _ => acts_fireMarks l) PortId.all _)).scanLaw begun
  · exact begun

theorem PanelMove.scanLaw (m : PanelMove s t) (j : s.ScanLaw) : t.ScanLaw := by
  cases m with
  | warmCount => exact takeWarmCount_scanLaw j
  | setup u _ dark range =>
    have lawful := (Setup.inRange_iff u).mp range
    obtain ⟨-, -, -, warming, cooling, pos, isDark, waiting, busy, pulsed⟩ := j
    refine ⟨lawful, ?_, ?_, warming, cooling, ?_, isDark, waiting, busy, pulsed⟩
    · simp only [State.setScan_scan, (warming (by simp [dark])).1]
      exact lawful.2.2.2.2.2.2.1
    · simp only [State.setScan_scan, (cooling (by simp [dark])).1]
      exact lawful.2.2.2.2.2.2.2.2.1
    · simp only [State.setScan_scan, (isDark dark).1]
      nofun
  | panelOff _ runs taken =>
    obtain ⟨setup, warm, cool, warming, cooling, pos, isDark, waiting, busy, pulsed⟩ := j
    refine (Chain.still (h := none) (acts_announcePanel _)).scanLaw (s := State.setScan _ _) ?_
    exact ⟨setup, setup.2.2.2.2.2.2.1, setup.2.2.2.2.2.2.2.2.1, fun _ => ⟨rfl, taken⟩, fun n => absurd rfl n, pos, nofun,
      waiting, fun p b => ⟨nofun, (busy p b).2⟩, pulsed⟩
  | panelOn now _ dark => exact startWarming_scanLaw now j dark
  | line l _ next whole =>
    refine startLine_scanLaw ?_ ?_ ((Chain.still (h := none) acts_takeReports).scanLaw j)
    · rw [takeReports_scan]
      exact next
    · unfold workWaits at whole ⊢
      simpa using whole

/-- After its last line the frame has a position. -/
theorem pos_of_frameOver (ended : frameOver s.scan = true) : s.scan.pos ≠ none := fun e => by simp [frameOver, e] at ended

theorem frame_scanLaw (now : List FrameWork) (runs : s.scan.panel ≠ .dark) (ended : frameOver s.scan = true)
    (stays : coolCountDue s = false) (j : s.ScanLaw) :
    (frameWork now (raiseFrame ((takeReports s).setScan (countFrame (takeReports s).scan)))).ScanLaw := by
  have quiet : ∀ p, ((takeReports s).unit p).fsync = false := fun p => by
    rw [takeReports_unit]
    exact j.quiet (.inl (pos_of_frameOver ended)) p
  have start : Raised (raiseFrame ((takeReports s).setScan (countFrame (takeReports s).scan))) := by
    obtain ⟨setup, warm, cool, warming, cooling, -⟩ := j
    rw [takeReports_scan]
    cases hp : s.scan.panel with
    | dark => exact absurd hp runs
    | warming =>
      have e : countFrame s.scan = { s.scan with warmWaiting := true } := by simp [countFrame, hp]
      rw [e]
      exact raiseFrame_raised _ setup warm cool (fun n => absurd hp n) cooling runs quiet
    | live =>
      have e : countFrame s.scan = s.scan := by simp [countFrame, hp]
      rw [e]
      exact raiseFrame_raised _ setup warm cool warming cooling runs quiet
    | cooling =>
      have e : countFrame s.scan = { s.scan with
          cool := if s.scan.coolingFrame then s.scan.cool + 1 else s.scan.cool, coolingFrame := true } := by
        simp [countFrame, hp]
      rw [e]
      refine raiseFrame_raised _ setup warm ?_ warming (fun n => absurd hp n) runs quiet
      dsimp only
      split
      · rename_i g
        simpa [coolCountDue, hp, ended, g] using stays
      · exact cool
  rw [frameWork_eq]
  exact (settleWarm_raised ((start.works now).rest now)).law

theorem forceAll_still (s : State) : PanelStill s (forceAll s) :=
  ⟨⟨rfl, rfl, rfl⟩, fun p => .of_quiet (by cases p <;> rfl) (by cases p <;> rfl)⟩

theorem enterDark_scanLaw (noticeFirst : Bool) (due : coolCountDue s = true) (j : s.ScanLaw) :
    (enterDark noticeFirst s).ScanLaw := by
  simp only [coolCountDue, Bool.and_eq_true, decide_eq_true_eq] at due
  obtain ⟨⟨⟨cooling, ended⟩, -⟩, -⟩ := due
  have positioned := pos_of_frameOver ended
  have dark : (darkened (takeReports s)).ScanLaw := by
    obtain ⟨setup, warm, cool, warming, -, -, -, -, busy, -⟩ := j
    have idle : ∀ p, ¬(((darkened (takeReports s)).unit p).fsync = true ∨
        ((darkened (takeReports s)).unit p).frameWaiting = true) := fun p b => by
      rw [show (darkened (takeReports s)).unit p = s.unit p from takeReports_unit s p] at b
      exact positioned (busy p b).2
    unfold State.ScanLaw
    rw [show (darkened (takeReports s)).scan =
      { s.scan with panel := .dark, cool := 0, pos := none, coolingFrame := false } from
        congrArg (fun x : ScanTimer => { x with panel := .dark, cool := 0, pos := none, coolingFrame := false })
          (takeReports_scan s)]
    exact ⟨setup, warm, setup.2.2.2.2.2.2.2.2.1, fun _ => warming (by simp [cooling]), fun _ => ⟨rfl, rfl⟩, nofun,
      fun _ => ⟨rfl, rfl⟩, fun _ => rfl, fun p b => absurd b (idle p), fun p b => absurd (.inl b) (idle p)⟩
  rw [enterDark_eq]
  have done : (if noticeFirst then commit (announcePanel .cooling (darkened (takeReports s)))
      else announcePanel .cooling (commit (darkened (takeReports s)))).ScanLaw := by
    cases noticeFirst
    · exact (Chain.still (h := none) (acts_commit.trans (acts_announcePanel .cooling))).scanLaw dark
    · exact (Chain.still (h := none) ((acts_announcePanel .cooling).trans acts_commit)).scanLaw dark
  exact (forceAll_still _).scanLaw done

theorem AnyMove.scanLaw (m : AnyMove h s h' t) (j : s.ScanLaw) : t.ScanLaw := by
  cases m with
  | move move =>
    rcases move.still with c | ⟨-, move⟩
    · exact c.still.scanLaw j
    · exact move.scanLaw j
  | restart r => exact (acts_restartBody r).still.scanLaw j
  | frame now _ runs ended stays => exact frame_scanLaw now runs ended stays j
  | enterDark b _ due => exact enterDark_scanLaw b due j
  | reset _ _ e =>
    cases e
    exact reset_ScanLaw
end

/-- Settles O53, by the acts of each command. -/
theorem scanLawKept : Obligations.ScanLawKept := fun _ _ j h =>
  step_keeps (J := fun _ s => s.ScanLaw) AnyMove.scanLaw (fun _ j => j) j h

end Sys2Proof.Machine
end

