-- ==== Sys2Proof/Proofs/Parts.lean ====
section
/-! PROOFS. A port's part of the state, and that the steps of a commit at one port leave the parts of the others alone; so a
step made at every port in turn can be looked at one port at a time. -/

namespace Sys2Proof.Machine

/-! ### Slots and their owners -/

theorem Slot.owner?_of_liveOf {p : PortId} {x : Slot} (h : x.liveOf p = true) : x.owner? = some p := by
  cases x <;> simp_all [Slot.liveOf, Slot.owner?]

theorem Slot.owner?_of_reservedOf {p : PortId} {x : Slot} (h : x.reservedOf p = true) : x.owner? = some p := by
  cases x <;> simp_all [Slot.reservedOf, Slot.owner?]

theorem Slot.owner?_eq_some {p : PortId} {x : Slot} : x.owner? = some p ↔ x.liveOf p = true ∨ x.reservedOf p = true := by
  cases x <;> simp [Slot.liveOf, Slot.reservedOf, Slot.owner?]

theorem Slot.liveOf_iff {p : PortId} {x : Slot} : x.liveOf p = true ↔ ∃ k g c, x = .live p k g c := by
  cases x <;> simp [Slot.liveOf]

theorem Slot.reservedOf_iff {p : PortId} {x : Slot} : x.reservedOf p = true ↔ ∃ k, x = .reserved p k := by
  cases x <;> simp [Slot.reservedOf]

theorem Slot.not_both {p : PortId} {x : Slot} (h : x.liveOf p = true) : x.reservedOf p = false := by
  cases x <;> simp_all [Slot.liveOf, Slot.reservedOf]

/-- There is no slot beyond the table. -/
theorem State.slot_of_length_le {s : State} {i : Nat} (h : s.layout.slots.length ≤ i) : s.slot i = .free := by
  rw [State.slot, List.getD_eq_getElem?_getD, List.getElem?_eq_none h]
  rfl

theorem State.lt_of_owner? {s : State} {i : Nat} {p : PortId} (h : (s.slot i).owner? = some p) :
    i < s.layout.slots.length := by
  by_contra n
  rw [State.slot_of_length_le (Nat.not_lt.mp n)] at h
  cases h

/-! ### A port's part -/

/-- The part of port q is the same in two states, but for its notices and its link, and so are the plan and the panel. -/
structure Same (q : PortId) (s t : State) : Prop where
  port : (s.port q).Alike (t.port q)
  lay : t.lay q = s.lay q
  unit : t.unit q = s.unit q
  marks : t.markList q = s.markList q
  slot : ∀ id, (s.slot id).owner? = some q ∨ (t.slot id).owner? = some q → t.slot id = s.slot id
  retiring : q ∈ t.layout.retiring ↔ q ∈ s.layout.retiring
  length : t.layout.slots.length = s.layout.slots.length
  plan : t.layout.plan = s.layout.plan
  panel : SamePanel s t

section
variable {p q : PortId} {s t u : State}

theorem Same.refl (q : PortId) (s : State) : Same q s s :=
  ⟨.refl _, rfl, rfl, rfl, fun _ _ => rfl, .rfl, rfl, rfl, .refl s⟩

theorem Same.trans (h : Same q s t) (g : Same q t u) : Same q s u where
  port := h.port.trans g.port
  lay := g.lay.trans h.lay
  unit := g.unit.trans h.unit
  marks := g.marks.trans h.marks
  slot id own := by
    rcases own with own | own
    · have e := h.slot id (.inl own)
      exact (g.slot id (.inl (by rwa [e]))).trans e
    · have e := g.slot id (.inr own)
      exact e.trans (h.slot id (.inr (by rwa [← e])))
  retiring := g.retiring.trans h.retiring
  length := g.length.trans h.length
  plan := g.plan.trans h.plan
  panel := h.panel.trans g.panel

section
variable (h : Same q s t)
include h
theorem Same.entry (r : PortId) : t.entry r = s.entry r := by simp only [State.entry, h.plan]

theorem Same.owner (id : Nat) : (t.slot id).owner? = some q ↔ (s.slot id).owner? = some q :=
  ⟨fun o => by rwa [h.slot id (.inr o)] at o, fun o => by rwa [h.slot id (.inl o)]⟩

theorem Same.liveOf (id : Nat) : (t.slot id).liveOf q = (s.slot id).liveOf q := by
  by_cases o : (s.slot id).owner? = some q
  · rw [h.slot id (.inl o)]
  · have none : ∀ x : Slot, x.owner? ≠ some q → x.liveOf q = false := fun x n =>
      Bool.eq_false_iff.mpr fun l => n (Slot.owner?_of_liveOf l)
    rw [none _ o, none _ (mt (h.owner id).mp o)]

theorem Same.reservedOf (id : Nat) : (t.slot id).reservedOf q = (s.slot id).reservedOf q := by
  by_cases o : (s.slot id).owner? = some q
  · rw [h.slot id (.inl o)]
  · have none : ∀ x : Slot, x.owner? ≠ some q → x.reservedOf q = false := fun x n =>
      Bool.eq_false_iff.mpr fun l => n (Slot.owner?_of_reservedOf l)
    rw [none _ o, none _ (mt (h.owner id).mp o)]
end

/-- A change of one port's Port Controller. -/
theorem Same.setPort (hq : q ≠ p) (c : PortController) : Same q s (s.setPort p c) :=
  ⟨.of_eq (by simp [hq]), rfl, rfl, rfl, fun _ _ => rfl, .rfl, rfl, rfl, ⟨rfl, rfl, rfl⟩⟩

theorem Same.setLay (hq : q ≠ p) (l : PortLayout) : Same q s (s.setLay p l) :=
  ⟨.refl _, by simp [hq], rfl, rfl, fun _ _ => rfl, .rfl, rfl, rfl, ⟨rfl, rfl, rfl⟩⟩

theorem Same.setUnit (hq : q ≠ p) (v : SourceUnit) : Same q s (s.setUnit p v) :=
  ⟨.refl _, rfl, by simp [hq], rfl, fun _ _ => rfl, .rfl, rfl, rfl, ⟨rfl, rfl, rfl⟩⟩

/-- A change of the table that leaves the slots of a port alone. -/
theorem Same.mapSlots {f : Nat → Slot → Slot}
    (h : ∀ id, (s.slot id).owner? = some q ∨ ((s.mapSlots f).slot id).owner? = some q →
      (s.mapSlots f).slot id = s.slot id) : Same q s (s.mapSlots f) :=
  ⟨.refl _, rfl, rfl, rfl, h, .rfl, mapSlotsFrom_length _ _ _, rfl, ⟨rfl, rfl, rfl⟩⟩

/-- Slots of no concern to a port return to FREE. -/
theorem Same.freeSlots {ids : List Nat} (h : ∀ id ∈ ids, (s.slot id).owner? ≠ some q) : Same q s (freeSlots ids s) := by
  refine Same.mapSlots fun id own => ?_
  have e := slot_freeSlots ids s id
  rw [Machine.freeSlots] at e
  rw [e] at own ⊢
  split
  · rename_i hm
    rw [if_pos hm] at own
    exact absurd (own.resolve_right (by simp [Slot.owner?])) (h id hm)
  · rfl

theorem Same.releaseUnnamed (hq : q ≠ p) : Same q s (releaseUnnamed p s) := by
  refine Same.mapSlots fun id own => ?_
  have e := slot_releaseUnnamed p s id
  rw [Machine.releaseUnnamed] at e
  rw [e] at own ⊢
  split
  · rename_i hr
    rw [if_pos hr] at own
    have := Slot.owner?_of_reservedOf hr.1
    simp_all [Slot.owner?]
  · rfl

theorem Same.storeNotices (ns : List (PortId × Notice)) : Same q s (storeNotices ns s) := by
  have g := storeNotices_only ns s
  exact ⟨storeNotices_alike ns q s, g.lay q, g.unit q, g.markList q, fun id _ => g.slot id, by rw [g.layout], by rw [g.layout],
    by rw [g.layout], g.samePanel⟩

theorem Same.placeDeferred (hq : q ≠ p) (k : RequestKind) (res : Result) (fields : List Byte) :
    Same q s (placeDeferred p k res fields s) := by
  rw [placeDeferred_eq]
  exact .setPort hq _

theorem Same.dropProposals (hq : q ≠ p) (res : Result) (fields : List Byte) : Same q s (dropProposals p res fields s) :=
  ((Same.setLay hq _).trans (.releaseUnnamed hq)).trans (.placeDeferred hq _ _ _)

theorem Same.enterLeaving (hq : q ≠ p) (reason : LeaveReason) (own : Option Response) :
    Same q s (enterLeaving p reason own s) := by
  have slots : ∀ id, (s.slot id).owner? = some q ∨ ((entered p reason own s).slot id).owner? = some q →
      (entered p reason own s).slot id = s.slot id := fun id o => by
    rw [entered_slot] at o ⊢
    split
    · rename_i hr
      rw [if_pos hr] at o
      have := Slot.owner?_of_reservedOf hr
      simp_all [Slot.owner?]
    · rfl
  have first : Same q s (entered p reason own s) :=
    ⟨.of_eq (by simp [hq]), by simp [hq], by simp [hq], by simp [hq], slots, by simp, by simp, by simp,
      ⟨entered_scan, entered_comp, entered_pending⟩⟩
  by_cases ho : (s.lay p).order = []
  · have g := enterLeaving_of_none (reason := reason) (own := own) ho
    refine first.trans ⟨by simpa [hq] using g.ports q, by rw [g.lays q]; simp [hq], by rw [g.units q]; simp [hq],
      by simp only [State.markList, g.marks], fun id _ => ?_, by rw [g.retiring], g.length, g.plan, g.panel⟩
    rw [g.slots id, if_neg (by simp [ho])]
  · rw [enterLeaving_of_order ho]
    exact first.trans ⟨.refl _, rfl, rfl, rfl, fun _ _ => rfl, by simp [hq], rfl, rfl, ⟨rfl, rfl, rfl⟩⟩

theorem Same.handIfChanged (hq : q ≠ p) (old new : Plan) : Same q s (handIfChanged old new s p) := by
  unfold Machine.handIfChanged
  split
  · exact .refl q s
  · unfold handEnablement
    dsimp only
    split
    · exact (Same.setPort hq _).trans (.setUnit hq _)
    · split
      · exact (Same.setPort hq _).trans (.setUnit hq _)
      · exact .enterLeaving hq _ _
    · exact .enterLeaving hq _ _
    · exact .refl q s

/-- A step made at every port in turn, each leaving the parts of the others alone, as one port sees it: the step at that
port, from a state with the same part, to a state with the same part. `R` says what of a part is looked at, and the
invariant is what a step may rely on. -/
theorem foldl_all_at {X : Type} {I : X → Prop} {R : X → X → Prop} (refl : ∀ x, R x x)
    (trans : ∀ {x y z}, R x y → R y z → R x z) {f : X → PortId → X}
    (keep : ∀ x p, I x → I (f x p)) (q : PortId) (others : ∀ x p, I x → q ≠ p → R x (f x p)) (x : X)
    (i : I x) : ∃ y : X, I y ∧ R x y ∧ R (f y q) (PortId.all.foldl f x) := by
  have away : ∀ (ps : List PortId) (x : X), I x → q ∉ ps → R x (ps.foldl f x) ∧ I (ps.foldl f x) := by
    intro ps
    induction ps with
    | nil => exact fun x i _ => ⟨refl x, i⟩
    | cons p ps ih =>
      intro x i hq
      obtain ⟨hp, hps⟩ := List.ne_and_not_mem_of_not_mem_cons hq
      obtain ⟨g, j⟩ := ih (f x p) (keep x p i) hps
      exact ⟨trans (others x p i hp) g, j⟩
  obtain ⟨a, b, e, ha, hb⟩ : ∃ a b, PortId.all = a ++ q :: b ∧ q ∉ a ∧ q ∉ b := by
    cases q
    · exact ⟨[], [.p1, .p2, .p3], rfl, by decide, by decide⟩
    · exact ⟨[.p0], [.p2, .p3], rfl, by decide, by decide⟩
    · exact ⟨[.p0, .p1], [.p3], rfl, by decide, by decide⟩
    · exact ⟨[.p0, .p1, .p2], [], rfl, by decide, by decide⟩
  obtain ⟨before, j⟩ := away a x i ha
  refine ⟨a.foldl f x, j, before, ?_⟩
  rw [e, List.foldl_append, List.foldl_cons]
  exact (away b _ (keep _ q j) hb).1
end

end Sys2Proof.Machine
end

