-- ==== Sys2Proof/Proofs/TableLaw.lean ====
section
/-! PROOFS. The table law (R1, R17, R42, R70, R153): every move keeps it, the steps of a commit one by one. -/

namespace Sys2Proof.Machine

/-! ### The law of one port -/

/-- The table law of one port, part by part. -/
structure TableOf (s : State) (p : PortId) : Prop where
  nodup : (s.lay p).order.Nodup
  live : ∀ id ∈ (s.lay p).order, (s.slot id).liveOf p = true
  listed : ∀ id < 24, (s.slot id).liveOf p = true → id ∈ (s.lay p).order
  draft : ∀ pr, (s.lay p).draft = some pr → pr.OwnedBy p s
  set : ∀ pr, (s.lay p).sealedSet = some pr → pr.OwnedBy p s
  named : ∀ id < 24, (s.slot id).reservedOf p = true →
    optNames (s.lay p).draft id = true ∨ optNames (s.lay p).sealedSet id = true
  over_set : ∀ d pr, (s.lay p).draft = some d → (s.lay p).sealedSet = some pr →
    ∀ id ∈ d.ids, (s.slot id).liveOf p = true → names pr id = true
  away : (s.port p).attach ≠ .attached → (s.lay p).draft = none ∧ (s.lay p).sealedSet = none
  empty : (s.port p).attach ≠ .attached → p ∉ s.layout.retiring → (s.lay p).order = []
  retires : p ∈ s.layout.retiring ↔ ∃ why, (s.port p).attach = .leaving why false

/-- A LIVE slot is not touched where RESERVED ones are freed. -/
theorem Slot.liveOf_release (p : PortId) (x : Slot) : (if x.reservedOf p = true then Slot.free else x).liveOf p = x.liveOf p := by
  cases hl : x.liveOf p
  · split
    · rfl
    · exact hl
  · rw [if_neg (by simp [Slot.not_both hl]), hl]

theorem Slot.reservedOf_release (p : PortId) (x : Slot) :
    (if x.reservedOf p = true then Slot.free else x).reservedOf p = false := by
  split
  · rfl
  · rename_i n
    simpa using n

theorem exists_leaving {a : Attach} : (∃ why, a = .leaving why false) ↔
    (a = .leaving .bye false ∨ a = .leaving .eject false ∨ a = .leaving .plan false) := by
  constructor
  · rintro ⟨why, rfl⟩
    cases why <;> simp
  · rintro (e | e | e) <;> exact ⟨_, e⟩

section
variable {p q : PortId} {s t : State}

theorem tableLawOf_iff : s.TableLawOf p ↔ TableOf s p := by
  unfold State.TableLawOf
  rw [← exists_leaving]
  exact ⟨fun ⟨a, b, c, d, e, f, g, h, i, j⟩ => ⟨a, b, c, d, e, f, g, h, i, j⟩,
    fun ⟨a, b, c, d, e, f, g, h, i, j⟩ => ⟨a, b, c, d, e, f, g, h, i, j⟩⟩

theorem State.TableLaw.at (h : s.TableLaw) (p : PortId) : TableOf s p := tableLawOf_iff.mp (h.2.2 p)

theorem TableLaw.of (length : s.layout.slots.length = 24) (nodup : s.layout.retiring.Nodup) (all : ∀ p, TableOf s p) :
    s.TableLaw := ⟨length, nodup, fun p => tableLawOf_iff.mpr (all p)⟩

/-- The law depends on the port's own part. -/
theorem TableOf.congr (h : TableOf s p) (lay : t.lay p = s.lay p) (live : ∀ id, (t.slot id).liveOf p = (s.slot id).liveOf p)
    (reserved : ∀ id, (t.slot id).reservedOf p = (s.slot id).reservedOf p)
    (attached : (t.port p).attach ≠ .attached → (s.port p).attach ≠ .attached)
    (listed : p ∈ s.layout.retiring → p ∈ t.layout.retiring)
    (retires : p ∈ t.layout.retiring ↔ ∃ why, (t.port p).attach = .leaving why false) : TableOf t p := by
  have owned : ∀ id, (t.slot id).owner? = some p ↔ (s.slot id).owner? = some p := fun id => by
    rw [Slot.owner?_eq_some, Slot.owner?_eq_some, live, reserved]
  have ownedBy : ∀ pr : Proposal, pr.OwnedBy p s → pr.OwnedBy p t := fun pr o =>
    ⟨o.1, fun id hid => (owned id).mpr (o.2 id hid)⟩
  obtain ⟨nodup, isLive, isListed, draft, set, named, over_set, away, empty, -⟩ := h
  constructor
  all_goals try simp only [lay, live, reserved]
  · exact nodup
  · exact isLive
  · exact isListed
  · exact fun pr e => ownedBy pr (draft pr e)
  · exact fun pr e => ownedBy pr (set pr e)
  · exact named
  · exact over_set
  · exact fun n => away (attached n)
  · exact fun n m => empty (attached n) (mt listed m)
  · exact retires

theorem Same.tableOf (g : Same p s t) (h : TableOf s p) : TableOf t p :=
  h.congr g.lay g.liveOf g.reservedOf (by rw [g.port.attach]; exact id) g.retiring.mpr (by
    rw [g.retiring, g.port.attach]
    exact h.retires)

theorem SameBlocks.tableLaw (g : SameBlocks s t) (h : s.TableLaw) : t.TableLaw := by
  have slot : ∀ id, t.slot id = s.slot id := fun id => by simp only [State.slot, g.layout]
  refine TableLaw.of (by rw [g.layout]; exact h.1) (by rw [g.layout]; exact h.2.1) fun p => ?_
  refine (h.at p).congr (by simp only [State.lay, g.layout]) (fun id => by rw [slot]) (fun id => by rw [slot])
    (by rw [g.attach]; exact id) (by rw [g.layout]; exact id) ?_
  rw [g.layout, g.attach]
  exact (h.at p).retires

/-- A step at one port: its own law, and what it leaves of the others. -/
theorem TableLaw.step (h : s.TableLaw) (self : TableOf s p → TableOf t p) (others : ∀ q, q ≠ p → Same q s t)
    (length : t.layout.slots.length = s.layout.slots.length) (nodup : s.layout.retiring.Nodup → t.layout.retiring.Nodup) :
    t.TableLaw :=
  TableLaw.of (length.trans h.1) (nodup h.2.1) fun q => by
    by_cases hq : q = p
    · subst hq
      exact self (h.at q)
    · exact (others q hq).tableOf (h.at q)

theorem TableOf.lt_24 (h : s.TableLaw) {id : Nat} (o : (s.slot id).owner? = some p) : id < 24 :=
  h.1 ▸ State.lt_of_owner? o

/-- The ids of an order list belong to the port. -/
theorem TableOf.owner (h : TableOf s p) {id : Nat} (m : id ∈ (s.lay p).order) : (s.slot id).owner? = some p :=
  Slot.owner?_of_liveOf (h.live id m)

/-- What belongs to one port does not belong to another. -/
theorem owner?_ne (hq : q ≠ p) {id : Nat} (o : (s.slot id).owner? = some p) : (s.slot id).owner? ≠ some q := fun g =>
  hq (Option.some.inj (g.symm.trans o))

/-! ### The steps of a commit, each at one port -/

/-- A port not ATTACHED and not about to be retired has nothing. -/
theorem TableOf.nothing (h : TableOf s p) (away : (s.port p).attach ≠ .attached)
    (not_retiring : ∀ why, (s.port p).attach ≠ .leaving why false) :
    s.lay p = { order := [], draft := none, sealedSet := none } := by
  obtain ⟨hd, hs⟩ := h.away away
  have ho := h.empty away fun m => by
    obtain ⟨why, e⟩ := h.retires.mp m
    exact not_retiring why e
  cases hl : s.lay p with
  | mk order draft sealedSet => rw [hl] at hd hs ho; simp_all

/-- A port with neither draft nor set has no RESERVED slot. -/
theorem TableOf.not_reserved (h : TableOf s p) (hd : (s.lay p).draft = none) (hs : (s.lay p).sealedSet = none)
    (length : s.layout.slots.length = 24) (id : Nat) : (s.slot id).reservedOf p = false := by
  rw [Bool.eq_false_iff]
  intro r
  have := h.named id (length ▸ State.lt_of_owner? (Slot.owner?_of_reservedOf r)) r
  simp [hd, hs, optNames] at this

/-- The draft and the set of a port go (R66, R67). -/
theorem dropProposals_tableLaw (h : s.TableLaw) (res : Result) (fields : List Byte) :
    (dropProposals p res fields s).TableLaw := by
  refine TableLaw.step (p := p) h (fun o => ?_) (fun q hq => .dropProposals hq res fields) ?_ ?_
  · have lay : (dropProposals p res fields s).lay p = { s.lay p with draft := none, sealedSet := none } := by
      simp [dropProposals, placeDeferred_eq, releaseUnnamed, State.mapSlots]
    have slot : ∀ id, (dropProposals p res fields s).slot id = if (s.slot id).reservedOf p then .free else s.slot id := by
      intro id
      rw [dropProposals, placeDeferred_eq]
      refine (slot_releaseUnnamed _ _ _).trans ?_
      simp [optNames]
    have attach : ((dropProposals p res fields s).port p).attach = (s.port p).attach := by
      simp [dropProposals, placeDeferred_eq, releaseUnnamed, State.mapSlots, PortController.paid]
    have retiring : (dropProposals p res fields s).layout.retiring = s.layout.retiring := by
      simp [dropProposals, placeDeferred_eq, releaseUnnamed, State.mapSlots]
    have live : ∀ id, ((dropProposals p res fields s).slot id).liveOf p = (s.slot id).liveOf p := fun id => by
      rw [slot, Slot.liveOf_release]
    have reserved : ∀ id, ((dropProposals p res fields s).slot id).reservedOf p = false := fun id => by
      rw [slot, Slot.reservedOf_release]
    constructor
    all_goals try simp only [lay, live, attach, retiring]
    · exact o.nodup
    · exact o.live
    · exact o.listed
    · nofun
    · nofun
    · exact fun id _ r => absurd (reserved id) (by simp [r])
    · nofun
    · simp
    · exact o.empty
    · exact o.retires
  · simp [dropProposals, placeDeferred_eq, releaseUnnamed, State.mapSlots]
  · simp [dropProposals, placeDeferred_eq, releaseUnnamed, State.mapSlots]

/-- A port told that its regions are retired does not go on LEAVING with them. -/
theorem retired_attach_ne (on : Bool) (c : PortController) (why : LeaveReason) :
    (c.retired on).attach ≠ .leaving why false := by
  unfold PortController.retired
  dsimp only
  split
  · cases on <;> simp
  · cases ha : c.attach <;> simp [Attach.regionsRetired]

theorem enterLeaving_slot (reason : LeaveReason) (own : Option Response) (s : State) (id : Nat) :
    (enterLeaving p reason own s).slot id = if (s.slot id).reservedOf p = true then .free else s.slot id := by
  by_cases ho : (s.lay p).order = []
  · rw [(enterLeaving_of_none ho).slots id, if_neg (by simp [ho]), entered_slot]
  · rw [enterLeaving_of_order ho]
    exact entered_slot (reason := reason) (own := own) id

theorem enterLeaving_length (reason : LeaveReason) (own : Option Response) (s : State) :
    (enterLeaving p reason own s).layout.slots.length = s.layout.slots.length := by
  by_cases ho : (s.lay p).order = []
  · rw [(enterLeaving_of_none ho).length, entered_slots_length]
  · rw [enterLeaving_of_order ho]
    exact entered_slots_length (reason := reason) (own := own)

/-- The entry of a port into LEAVING (R165). -/
theorem enterLeaving_tableLaw (h : s.TableLaw) (reason : LeaveReason) (own : Option Response)
    (present : ∀ why, (s.port p).attach ≠ .leaving why false) : (enterLeaving p reason own s).TableLaw := by
  have f := enterLeaving_left (p := p) (reason := reason) (own := own) (s := s)
  have absent : p ∉ s.layout.retiring := fun m => by
    obtain ⟨why, e⟩ := (h.at p).retires.mp m
    exact present why e
  have retiring : (enterLeaving p reason own s).layout.retiring =
      s.layout.retiring ++ if (s.lay p).order = [] then [] else [p] := by simpa using f.retiring
  refine TableLaw.step (p := p) h (fun o => ?_) (fun q hq => .enterLeaving hq reason own) (enterLeaving_length _ _ _) ?_
  · have lay : (enterLeaving p reason own s).lay p = { order := (s.lay p).order, draft := none, sealedSet := none } := by
      simpa using f.lay
    have live : ∀ id, ((enterLeaving p reason own s).slot id).liveOf p = (s.slot id).liveOf p := fun id => by
      rw [enterLeaving_slot, Slot.liveOf_release]
    have reserved : ∀ id, ((enterLeaving p reason own s).slot id).reservedOf p = false := fun id => by
      rw [enterLeaving_slot, Slot.reservedOf_release]
    have port := f.port
    simp only [Bool.false_eq_true, or_false] at port
    constructor
    all_goals try simp only [lay, live]
    · exact o.nodup
    · exact o.live
    · exact o.listed
    · nofun
    · nofun
    · exact fun id _ r => absurd (reserved id) (by simp [r])
    · nofun
    · simp
    · intro _ n
      by_contra ho
      exact n (by simp [retiring, ho])
    · rw [retiring, port]
      by_cases ho : (s.lay p).order = []
      · simp only [ho, if_true, List.append_nil]
        exact ⟨fun m => absurd m absent, fun ⟨why, e⟩ => absurd e (retired_attach_ne _ _ why)⟩
      · simp [ho, entered_attach]
  · intro n
    rw [retiring]
    split
    · simpa using n
    · exact List.nodup_append.mpr ⟨n, List.nodup_singleton p, fun a ha b hb e => absent (by simp_all)⟩

/-- A change of the attach state between states that neither hold regions nor wait for retirement. -/
theorem TableOf.withAttach (o : TableOf s p) {c : PortController} (away : (s.port p).attach ≠ .attached)
    (before : ∀ why, (s.port p).attach ≠ .leaving why false) (after : ∀ why, c.attach ≠ .leaving why false) (v : SourceUnit) :
    TableOf ((s.setPort p c).setUnit p v) p := by
  refine o.congr rfl (fun _ => rfl) (fun _ => rfl) (fun _ => away) id ?_
  simp only [State.port_setUnit, State.port_setPort, if_true]
  exact ⟨fun m => absurd (o.retires.mp m) (fun ⟨why, e⟩ => before why e), fun ⟨why, e⟩ => absurd e (after why)⟩

theorem handIfChanged_tableLaw (h : s.TableLaw) (old new : Plan) (p : PortId) : (handIfChanged old new s p).TableLaw := by
  unfold handIfChanged
  split
  · exact h
  · unfold handEnablement
    dsimp only
    split
    · rename_i ha _
      exact TableLaw.step (p := p) h (fun o => o.withAttach (by simp [ha]) (by simp [ha]) (by simp) _)
        (fun q hq => (Same.setPort hq _).trans (.setUnit hq _)) rfl id
    · rename_i ha _
      split
      · exact TableLaw.step (p := p) h (fun o => o.withAttach (by simp [ha]) (by simp [ha]) (by simp) _)
          (fun q hq => (Same.setPort hq _).trans (.setUnit hq _)) rfl id
      · exact enterLeaving_tableLaw h _ _ (by simp [ha])
    · rename_i ha _
      exact enterLeaving_tableLaw h _ _ (by simp [ha])
    · exact h
end

/-! ### The eviction passes (R100) -/

/-- What the passes keep and what they evict. -/
structure Parted (pr kept : Proposal) (gone : List Nat) : Prop where
  sub : kept.Sublist pr
  cover : ∀ x ∈ pr, x ∈ kept ∨ x.id ∈ gone
  names : ∀ id ∈ gone, id ∈ pr.ids
  apart : pr.ids.Nodup → ∀ id ∈ gone, id ∉ kept.ids

theorem Parted.nil (pr : Proposal) : Parted pr pr [] := ⟨.refl _, fun _ h => .inl h, nofun, fun _ => nofun⟩

theorem Parted.nodup {pr kept : Proposal} {gone : List Nat} (h : Parted pr kept gone) (n : pr.ids.Nodup) : kept.ids.Nodup :=
  n.sublist (h.sub.map _)

theorem Parted.trans {a b c : Proposal} {g k : List Nat} (h : Parted a b g) (l : Parted b c k) : Parted a c (g ++ k) where
  sub := l.sub.trans h.sub
  cover x hx := by
    rcases h.cover x hx with m | m
    · exact (l.cover x m).imp_right fun m => List.mem_append_right _ m
    · exact .inr (List.mem_append_left _ m)
  names id m := by
    rcases List.mem_append.mp m with m | m
    · exact h.names id m
    · exact (h.sub.map _).subset (l.names id m)
  apart n id m := by
    rcases List.mem_append.mp m with m | m
    · exact fun k => h.apart n id m ((l.sub.map _).subset k)
    · exact l.apart (h.nodup n) id m

/-- What a filter keeps and what it drops. -/
theorem Parted.filter (f : DraftEntry → Bool) (pr : Proposal) :
    Parted pr (pr.filter fun x => !f x) ((pr.filter f).map DraftEntry.id) where
  sub := List.filter_sublist
  cover x hx := by
    cases hf : f x
    · exact .inl (by simp [hx, hf])
    · exact .inr (List.mem_map.mpr ⟨x, by simp [hx, hf], rfl⟩)
  names id m := by
    obtain ⟨x, hx, rfl⟩ := List.mem_map.mp m
    exact List.mem_map_of_mem (List.mem_of_mem_filter hx)
  apart n id m k := by
    obtain ⟨x, hx, rfl⟩ := List.mem_map.mp m
    obtain ⟨y, hy, e⟩ := List.mem_map.mp k
    obtain ⟨hxm, hfx⟩ := List.mem_filter.mp hx
    obtain ⟨hym, hfy⟩ := List.mem_filter.mp hy
    obtain rfl := List.inj_on_of_nodup_map n hym hxm e
    simp [hfx] at hfy

/-- What stays and what goes where the first entries go. -/
theorem Parted.drop (k : Nat) (pr : Proposal) : Parted pr (pr.drop k) ((pr.take k).map DraftEntry.id) where
  sub := List.drop_sublist k pr
  cover x hx := by
    rw [← List.take_append_drop k pr, List.mem_append] at hx
    exact hx.symm.imp_right fun m => List.mem_map_of_mem m
  names id m := ((List.take_sublist k pr).map _).subset m
  apart n id m := by
    rw [← List.take_append_drop k pr, Proposal.ids_append] at n
    exact fun l => (List.nodup_append.mp n).2.2 id m id l rfl

theorem Parted.share (share h n : Nat) (pr : Proposal) :
    Parted pr (evictByShare share h n pr).1 (evictByShare share h n pr).2 := by
  induction n generalizing pr with
  | zero => exact .nil pr
  | succ n ih =>
    unfold evictByShare
    split
    · exact .nil pr
    · rename_i l _
      split
      · exact .nil pr
      · rename_i x hx
        have hxm : x ∈ pr := List.mem_of_mem_filter (List.mem_of_mem_head? hx)
        have first : Parted pr (pr.filter fun y => y.id != x.id) [x.id] := by
          refine ⟨List.filter_sublist, fun y hy => ?_, fun id m => ?_, fun _ id m k => ?_⟩
          · by_cases e : y.id = x.id
            · exact .inr (by simp [e])
            · exact .inl (by simp [hy, e])
          · exact List.mem_singleton.mp m ▸ List.mem_map_of_mem hxm
          · obtain ⟨y, hy, e⟩ := List.mem_map.mp k
            simp [e, List.mem_singleton.mp m] at hy
        exact first.trans (ih _)

theorem evict_parted (e : PlanEntry) (h : Nat) (pr : Proposal) :
    Parted pr (evict e h pr).1 ((evict e h pr).2.map Prod.fst) := by
  have three := ((Parted.filter (evictedByPlace e) pr).trans
    (Parted.drop ((pr.filter fun x => !evictedByPlace e x).length - e.quota) _)).trans
    (Parted.share e.share h ((pr.filter fun x => !evictedByPlace e x).drop
      ((pr.filter fun x => !evictedByPlace e x).length - e.quota)).length _)
  simpa [evict, Function.comp_def] using three

section
variable {p q : PortId} {s t : State}

/-- A port's LIVE regions are those of its order list. -/
theorem liveEntries_ids (h : TableOf s p) : (liveEntries p s).ids = (s.lay p).order := by
  have key : ∀ ids : List Nat, (∀ id ∈ ids, (s.slot id).liveOf p = true) →
      (ids.filterMap fun id => (s.slot id).liveCopy?.map fun c => ({ id := id, copy := c } : DraftEntry)).map
        DraftEntry.id = ids := by
    intro ids all
    induction ids with
    | nil => rfl
    | cons id ids ih =>
      obtain ⟨first, others⟩ := List.forall_mem_cons.mp all
      obtain ⟨k, g, c, e⟩ := Slot.liveOf_iff.mp first
      have e' : (s.slot id).liveCopy? = some c := by rw [e]; rfl
      simp [e', ih others]
  exact key _ h.live

theorem evictPort_lay (sh : State × Settled) (q : PortId) : (evictPort p sh).1.lay q =
    if q = p then { sh.1.lay p with
      order := (evict (sh.1.entry p) sh.1.scan.setup.h (liveEntries p sh.1)).1.ids } else sh.1.lay q := by
  simp [evictPort, freeSlots, State.mapSlots]

theorem evictPort_slot (sh : State × Settled) (id : Nat) : (evictPort p sh).1.slot id =
    if id ∈ (evict (sh.1.entry p) sh.1.scan.setup.h (liveEntries p sh.1)).2.map Prod.fst then .free else sh.1.slot id := by
  simp only [evictPort, State.slot_setLay]
  exact slot_freeSlots _ _ _

theorem Same.evictPort (sh : State × Settled) (o : TableOf sh.1 p) (hq : q ≠ p) : Same q sh.1 (evictPort p sh).1 := by
  refine (Same.freeSlots fun id m => ?_).trans (.setLay hq _)
  have hm := (evict_parted _ _ _).names id m
  rw [liveEntries_ids o] at hm
  exact owner?_ne hq (o.owner hm)

/-- The eviction of a port without a draft and without a set (R100). -/
theorem evictPort_tableLaw (sh : State × Settled) (h : sh.1.TableLaw) (hd : (sh.1.lay p).draft = none)
    (hs : (sh.1.lay p).sealedSet = none) : (evictPort p sh).1.TableLaw := by
  refine TableLaw.step (p := p) h (fun o => ?_) (fun q hq => .evictPort sh (h.at p) hq) (mapSlotsFrom_length _ _ _) id
  have parted := evict_parted (sh.1.entry p) sh.1.scan.setup.h (liveEntries p sh.1)
  have ids := liveEntries_ids o
  have nodup : (liveEntries p sh.1).ids.Nodup := ids ▸ o.nodup
  have apart := parted.apart nodup
  have kept_live : ∀ id ∈ (evict (sh.1.entry p) sh.1.scan.setup.h (liveEntries p sh.1)).1.ids,
      (sh.1.slot id).liveOf p = true := fun id m => o.live id (ids ▸ (parted.sub.map _).subset m)
  have lay := evictPort_lay (p := p) sh p
  rw [if_pos rfl] at lay
  have unreserved := o.not_reserved hd hs h.1
  constructor
  all_goals try simp only [lay, hd, hs, evictPort_slot]
  · exact parted.nodup nodup
  · intro id m
    rw [if_neg fun g => apart id g m]
    exact kept_live id m
  · intro id lt l
    split at l
    · cases l
    · rename_i n
      have m : id ∈ (liveEntries p sh.1).ids := ids ▸ o.listed id lt l
      obtain ⟨x, hx, rfl⟩ := List.mem_map.mp m
      exact List.mem_map_of_mem ((parted.cover x hx).resolve_right n)
  · nofun
  · nofun
  · intro id _ r
    split at r
    · cases r
    · exact absurd (unreserved id) (by simp [r])
  · nofun
  · simp
  · intro away n
    have empty : (sh.1.lay p).order = [] := o.empty away n
    rw [empty] at ids
    have := parted.sub.map DraftEntry.id
    exact List.sublist_nil.mp (ids ▸ this)
  · exact o.retires

theorem dropProposals_lay (res : Result) (fields : List Byte) (s : State) (q : PortId) :
    (dropProposals p res fields s).lay q = if q = p then { s.lay p with draft := none, sealedSet := none } else s.lay q := by
  simp [dropProposals, placeDeferred_eq, releaseUnnamed, State.mapSlots]

/-- The handing over of enablement leaves a port without draft and set so. -/
theorem handIfChanged_lay (old new : Plan) (s : State) (p : PortId) (hd : (s.lay p).draft = none)
    (hs : (s.lay p).sealedSet = none) :
    (handIfChanged old new s p).lay p = s.lay p := by
  have left : ∀ reason, (enterLeaving p reason none s).lay p = s.lay p := fun reason => by
    rw [(enterLeaving_left (p := p) (reason := reason) (own := none) (s := s)).lay, ← hd]
    simp only [Bool.false_eq_true, if_false]
    rw [hd]
    cases hl : s.lay p
    simp_all
  unfold handIfChanged
  split
  · rfl
  · unfold handEnablement
    dsimp only
    split
    · rfl
    · split
      · rfl
      · exact left _
    · exact left _
    · rfl

theorem settleEvictPort_tableLaw (old new : Plan) (sh : State × Settled) (p : PortId) (h : sh.1.TableLaw) :
    (settleEvictPort old new sh p).1.TableLaw := by
  unfold settleEvictPort
  split
  · exact h
  · have law := handIfChanged_tableLaw (dropProposals_tableLaw (p := p) h .draftVoid [EditState.idle.byte]) old new p
    dsimp only
    split
    · have lay := dropProposals_lay (p := p) .draftVoid [EditState.idle.byte] sh.1 p
      rw [if_pos rfl] at lay
      have kept := handIfChanged_lay old new (dropProposals p .draftVoid [EditState.idle.byte] sh.1) p
        (by rw [lay]) (by rw [lay])
      exact evictPort_tableLaw (_, _) law (by rw [kept, lay]) (by rw [kept, lay])
    · exact law

theorem Same.settleEvictPort (old new : Plan) (sh : State × Settled) (h : sh.1.TableLaw) (hq : q ≠ p) :
    Same q sh.1 (settleEvictPort old new sh p).1 := by
  have law := handIfChanged_tableLaw (dropProposals_tableLaw (p := p) h .draftVoid [EditState.idle.byte]) old new p
  have first := (Same.dropProposals hq .draftVoid [EditState.idle.byte] (s := sh.1)).trans (.handIfChanged hq old new)
  unfold Machine.settleEvictPort
  split
  · exact .refl q sh.1
  · dsimp only
    split
    · exact first.trans (.evictPort (_, _) (law.at p) hq)
    · exact first

/-- A fold over the ports that collects something beside the state keeps what each step keeps. -/
theorem foldl_keeps {α β : Type} {I : State → Prop} {f : State × β → α → State × β} (keep : ∀ x a, I x.1 → I (f x a).1)
    (xs : List α) (x : State × β) (i : I x.1) : I (xs.foldl f x).1 := by
  induction xs generalizing x with
  | nil => exact i
  | cons a xs ih => exact ih (f x a) (keep x a i)

/-- What settling a plan keeps, its response being placed by an operation that keeps it. -/
theorem settlePlan_tableLaw {answer : Result → List Byte → State → State}
    (ha : ∀ res fields u, u.TableLaw → (answer res fields u).TableLaw) (new : Plan) (mode : PlanMode) (h : s.TableLaw) :
    (settlePlan answer new mode s).1.TableLaw := by
  cases mode with
  | keep =>
    simp only [settlePlan]
    split
    · exact ha _ _ _ h
    · refine ha _ _ _ ?_
      have all := foldl_keeps (β := Unit) (I := State.TableLaw) (f := fun x p => (handIfChanged s.layout.plan new x.1 p, ()))
        (fun x p i => handIfChanged_tableLaw i _ _ p) PortId.all (s.setPlan new, ()) h
      exact all
  | evict =>
    exact foldl_keeps (I := State.TableLaw) (fun x p i => settleEvictPort_tableLaw _ _ x p i) PortId.all (_, .nothing)
      (ha _ _ _ (show (s.setPlan new).TableLaw from h))

theorem placeDeferred_tableLaw (h : s.TableLaw) (p : PortId) (k : RequestKind) (res : Result) (fields : List Byte) :
    (placeDeferred p k res fields s).TableLaw := by
  rw [placeDeferred_eq]
  exact SameBlocks.tableLaw (.setPort s p (by rfl)) h

theorem settleSealed_tableLaw (h : s.TableLaw) : (settleSealed s).1.TableLaw := by
  unfold settleSealed
  split
  · exact h
  · exact settlePlan_tableLaw (fun res fields u i => placeDeferred_tableLaw i _ _ _ _) _ _ h

/-! ### The retirement list (R73) -/

theorem retireListed_tableLaw (h : s.TableLaw) : (retireListed s).1.TableLaw := by
  have g := retireListed_retired s
  have none_left : (retireListed s).1.layout.retiring = [] := g.retiring
  refine TableLaw.of (g.length.trans h.1) (none_left ▸ List.nodup_nil) fun p => ?_
  have o := h.at p
  have lay := g.lays p
  have slot : ∀ i, (retireListed s).1.slot i =
      if ∃ p ∈ s.layout.retiring, i ∈ (s.lay p).order then .free else s.slot i := g.slots
  have port := g.ports p
  simp only [State.lay_setRetiring, State.port_setRetiring, State.entry_setRetiring] at lay port
  by_cases hm : p ∈ s.layout.retiring
  · obtain ⟨why, ha⟩ := o.retires.mp hm
    obtain ⟨hd, hs⟩ := o.away (by simp [ha])
    rw [if_pos hm] at lay port
    have unreserved := o.not_reserved hd hs h.1
    constructor
    all_goals try simp only [lay, hd, hs, slot]
    · exact List.nodup_nil
    · nofun
    · intro id lt l
      split at l
      · cases l
      · rename_i n
        exact absurd ⟨p, hm, o.listed id lt l⟩ n
    · nofun
    · nofun
    · intro id _ r
      split at r
      · cases r
      · exact absurd (unreserved id) (by simp [r])
    · nofun
    · simp
    · exact fun _ _ => trivial
    · rw [none_left, port.attach]
      exact ⟨nofun, fun ⟨w, e⟩ => absurd e (retired_attach_ne _ _ w)⟩
  · rw [if_neg hm] at lay port
    have untouched : ∀ id, (s.slot id).owner? = some p → (retireListed s).1.slot id = s.slot id := fun id own => by
      rw [slot, if_neg]
      rintro ⟨r, hr, hid⟩
      exact owner?_ne (by rintro rfl; exact hm hr) ((h.at r).owner hid) own
    have freed : ∀ id, (retireListed s).1.slot id = s.slot id ∨ (retireListed s).1.slot id = .free := fun id => by
      rw [slot]
      split
      · exact .inr rfl
      · exact .inl rfl
    refine o.congr lay (fun id => ?_) (fun id => ?_) (by rw [port.attach]; exact id) (fun m => absurd m hm) ?_
    · cases l : (s.slot id).liveOf p
      · rcases freed id with e | e <;> rw [e]
        · exact l
        · rfl
      · rw [untouched id (Slot.owner?_of_liveOf l), l]
    · cases l : (s.slot id).reservedOf p
      · rcases freed id with e | e <;> rw [e]
        · exact l
        · rfl
      · rw [untouched id (Slot.owner?_of_reservedOf l), l]
    · rw [none_left, port.attach]
      exact ⟨nofun, fun e => absurd (o.retires.mpr e) hm⟩

/-! ### The application of a set (R74, R75) -/

theorem applySet_slot {pr : Proposal} (hs : (s.lay p).sealedSet = some pr) (id : Nat) : (applySet p s).1.slot id =
    applyToSlot pr ((s.lay p).order.filter fun id => !names pr id) id (s.slot id) := by
  rcases applySet_cases p s with ⟨e, -⟩ | ⟨pr', e, eq⟩
  · exact nomatch hs.symm.trans e
  · obtain rfl : pr = pr' := Option.some.inj (hs.symm.trans e)
    rw [eq, State.slot_setLay, State.slot_mapSlots _ _ (fun i => ?_)]
    unfold applyToSlot
    split
    · rfl
    · split <;> rfl

theorem applySet_lay {pr : Proposal} (hs : (s.lay p).sealedSet = some pr) (q : PortId) : (applySet p s).1.lay q =
    if q = p then { s.lay p with order := pr.ids, sealedSet := none } else s.lay q := by
  rcases applySet_cases p s with ⟨e, -⟩ | ⟨pr', e, eq⟩
  · exact nomatch hs.symm.trans e
  · obtain rfl : pr = pr' := Option.some.inj (hs.symm.trans e)
    simp [eq, State.mapSlots]

/-- A slot that the set names becomes LIVE with the set's copy; a LIVE one it leaves out is FREE; any other stays. -/
theorem applyToSlot_cases (o : TableOf s p) {pr : Proposal} (hs : (s.lay p).sealedSet = some pr) (id : Nat) :
    (id ∈ pr.ids ∧ (s.slot id).owner? = some p ∧
        ∃ k g c, copyIn pr id = some c ∧ (s.slot id).kind? = some k ∧ (applySet p s).1.slot id = .live p k g c) ∨
      (id ∉ pr.ids ∧ id ∈ (s.lay p).order ∧ (applySet p s).1.slot id = .free) ∨
      (id ∉ pr.ids ∧ id ∉ (s.lay p).order ∧ (applySet p s).1.slot id = s.slot id) := by
  rw [applySet_slot hs]
  by_cases hm : id ∈ pr.ids
  · obtain ⟨x, hx, rfl⟩ := List.mem_map.mp hm
    have own := (o.set pr hs).2 _ hm
    have copy := copyIn_of_mem (o.set pr hs).1 hx
    refine .inl ⟨hm, own, ?_⟩
    unfold applyToSlot
    rw [copy]
    cases hl : s.slot x.id with
    | free => rw [hl] at own; cases own
    | reserved o' k => rw [hl] at own; cases own; exact ⟨k, 0, _, rfl, rfl, rfl⟩
    | live o' k g c => rw [hl] at own; cases own; exact ⟨k, g, _, rfl, rfl, rfl⟩
  · unfold applyToSlot
    rw [copyIn_eq_none.mpr hm]
    by_cases ho : id ∈ (s.lay p).order
    · exact .inr (.inl ⟨hm, ho, by simp [ho, hm]⟩)
    · exact .inr (.inr ⟨hm, ho, by simp [ho]⟩)

theorem Same.applySet (o : TableOf s p) (hq : q ≠ p) : Same q s (applySet p s).1 := by
  cases hs : (s.lay p).sealedSet with
  | none =>
    rcases applySet_cases p s with ⟨-, e⟩ | ⟨pr, e, -⟩
    · rw [e]
      exact .refl q s
    · exact nomatch hs.symm.trans e
  | some pr =>
    rcases applySet_cases p s with ⟨e, -⟩ | ⟨pr', -, eq⟩
    · exact nomatch hs.symm.trans e
    · refine ⟨.of_eq (by rw [eq]; rfl), by rw [applySet_lay hs, if_neg hq], by rw [eq]; rfl, by rw [eq]; rfl, fun id own => ?_,
        by rw [eq]; rfl, by rw [eq]; exact mapSlotsFrom_length _ _ _, by rw [eq]; rfl, applySet_samePanel p s⟩
      rcases applyToSlot_cases o hs id with ⟨-, own', k, g, c, -, -, e⟩ | ⟨-, m, e⟩ | ⟨-, -, e⟩
      · refine absurd own (not_or.mpr ⟨owner?_ne hq own', fun g => ?_⟩)
        rw [e] at g
        exact hq (Option.some.inj g).symm
      · refine absurd own (not_or.mpr ⟨owner?_ne hq (o.owner m), fun g => ?_⟩)
        rw [e] at g
        cases g
      · exact e

theorem applySet_tableLaw (h : s.TableLaw) (p : PortId) : (applySet p s).1.TableLaw := by
  cases hs : (s.lay p).sealedSet with
  | none =>
    rcases applySet_cases p s with ⟨-, e⟩ | ⟨pr, e, -⟩
    · rw [e]
      exact h
    · exact nomatch hs.symm.trans e
  | some pr =>
    have only : (applySet p s).1.layout.slots.length = s.layout.slots.length ∧
        (applySet p s).1.layout.retiring = s.layout.retiring ∧ (applySet p s).1.port = s.port := by
      rcases applySet_cases p s with ⟨-, e⟩ | ⟨pr, -, e⟩ <;> rw [e]
      · exact ⟨rfl, rfl, rfl⟩
      · exact ⟨mapSlotsFrom_length _ _ _, rfl, rfl⟩
    obtain ⟨length, retiring, port⟩ := only
    refine TableLaw.step (p := p) h (fun o => ?_) (fun q hq => .applySet (h.at p) hq) length (by rw [retiring]; exact id)
    have lay := applySet_lay hs p
    rw [if_pos rfl] at lay
    have cases' := applyToSlot_cases o hs
    constructor
    all_goals try simp only [lay, retiring, port]
    · exact (o.set pr hs).1
    · intro id m
      rcases cases' id with ⟨-, -, k, g, c, -, -, e⟩ | ⟨n, -, -⟩ | ⟨n, -, -⟩
      · simp [e, Slot.liveOf]
      · exact absurd m n
      · exact absurd m n
    · intro id lt l
      rcases cases' id with ⟨m, -⟩ | ⟨-, -, e⟩ | ⟨-, n, e⟩
      · exact m
      · rw [e] at l; cases l
      · exact absurd (o.listed id lt (e ▸ l)) n
    · intro d hd
      refine ⟨(o.draft d hd).1, fun id m => ?_⟩
      have own := (o.draft d hd).2 id m
      rcases cases' id with ⟨-, -, k, g, c, -, -, e⟩ | ⟨n, m', -⟩ | ⟨-, -, e⟩
      · rw [e]; rfl
      · exact absurd (names_iff pr id |>.mp (o.over_set d pr hd hs id m (o.live id m'))) n
      · rw [e]; exact own
    · nofun
    · intro id lt r
      rcases cases' id with ⟨-, -, k, g, c, -, -, e⟩ | ⟨-, -, e⟩ | ⟨n, -, e⟩
      · rw [e] at r; cases r
      · rw [e] at r; cases r
      · refine .inl ((o.named id lt (e ▸ r)).resolve_right ?_)
        simp [hs, optNames, n]
    · nofun
    · exact fun n => ⟨(o.away n).1, trivial⟩
    · intro n
      exact nomatch hs.symm.trans (o.away n).2
    · exact o.retires

theorem applySets_tableLaw (h : s.TableLaw) : (applySets s).1.1.TableLaw :=
  foldl_keeps (I := State.TableLaw) (f := fun sr p => let r := applySet p sr.1; (r.1, sr.2 ++ r.2))
    (fun _ p i => applySet_tableLaw i p) PortId.all (s, []) h

/-! ### The commit -/

theorem advanceGenerations_tableLaw (s0 : State) (h : s.TableLaw) : (advanceGenerations s0 s).TableLaw := by
  have live : ∀ p id, ((advanceGenerations s0 s).slot id).liveOf p = (s.slot id).liveOf p := fun p id => by
    rw [slot_advanceGenerations]
    cases s.slot id <;> rfl
  have reserved : ∀ p id, ((advanceGenerations s0 s).slot id).reservedOf p = (s.slot id).reservedOf p := fun p id => by
    rw [slot_advanceGenerations]
    cases s.slot id <;> rfl
  exact TableLaw.of ((mapSlotsFrom_length _ _ _).trans h.1) h.2.1 fun p =>
    (h.at p).congr rfl (live p) (reserved p) id id (h.at p).retires

theorem answerApplied_sameBlocks (s : State) (ps : List PortId) : SameBlocks s (ps.foldl answerApplied s) := by
  refine foldl_related (R := SameBlocks) (fun s => ⟨rfl, rfl, rfl, .refl s, fun _ => rfl⟩)
    (fun s t u a b => ⟨b.layout.trans a.layout, b.sources.trans a.sources, b.marks.trans a.marks, a.panel.trans b.panel,
      fun p => (b.attach p).trans (a.attach p)⟩) (fun s p => ?_) ps s
  rw [answerApplied, placeDeferred_eq]
  exact .setPort s p rfl

theorem releaseEngines_port (s : State) (q : PortId) : (releaseEngines s).port q = { s.port q with engine := .ready } := by
  cases q <;> rfl

theorem releaseEngines_sameBlocks (s : State) : SameBlocks s (releaseEngines s) :=
  ⟨rfl, rfl, rfl, ⟨rfl, rfl, rfl⟩, fun q => by rw [releaseEngines_port]⟩

theorem commit_tableLaw (h : s.TableLaw) : (commit s).TableLaw := by
  have applied := advanceGenerations_tableLaw s (applySets_tableLaw (retireListed_tableLaw (settleSealed_tableLaw h)))
  have told := (storeNotices_only (settleSealed s).2.notices _).sameBlocks.tableLaw
    ((answerApplied_sameBlocks _ (applySets (retireListed (settleSealed s).1).1).2).tableLaw applied)
  exact (releaseEngines_sameBlocks _).tableLaw (s := handCommitReports _ _) told
end

end Sys2Proof.Machine
end

