-- ==== Sys2Proof/Proofs/Works.lean ====
section
/-! PROOFS. A frame start, the start of warming and the entry into DARK as commits between steps that leave the Layout
Store, the queues and the declared sizes alone. -/

namespace Sys2Proof.Machine

/-- The Layout Store, the setup, the declared sizes and the Port Controllers, but for their notices, stay. -/
structure Calm (s t : State) : Prop where
  layout : t.layout = s.layout
  setup : t.scan.setup = s.scan.setup
  port : ∀ q, (s.port q).Alike (t.port q)
  size : ∀ q, (t.unit q).sw = (s.unit q).sw ∧ (t.unit q).sh = (s.unit q).sh

section
variable {s t u : State}

theorem Calm.refl (s : State) : Calm s s := ⟨rfl, rfl, fun _ => .refl _, fun _ => ⟨rfl, rfl⟩⟩

theorem Calm.trans (h : Calm s t) (g : Calm t u) : Calm s u :=
  ⟨g.layout.trans h.layout, g.setup.trans h.setup, fun q => (h.port q).trans (g.port q),
    fun q => ⟨(g.size q).1.trans (h.size q).1, (g.size q).2.trans (h.size q).2⟩⟩

theorem calm_storeNotices (ns : List (PortId × Notice)) (s : State) : Calm s (storeNotices ns s) :=
  have g := storeNotices_only ns s
  ⟨g.layout, by rw [g.scan], fun q => storeNotices_alike ns q s, fun q => by rw [g.unit]; exact ⟨rfl, rfl⟩⟩

theorem calm_takeReports (s : State) : Calm s (takeReports s) := by
  obtain ⟨-, -, layout, sources, scan, -⟩ := takeReports_spec s
  exact ⟨layout, by rw [scan], fun q => takeReports_alike q s, fun q => by simp only [State.unit, sources, true_and]⟩

theorem SourceUnit.judged_size (e : PlanEntry) (u : SourceUnit) : (u.judged e).1.sw = u.sw ∧ (u.judged e).1.sh = u.sh := by
  unfold SourceUnit.judged
  split
  · unfold SourceUnit.onFresh
    dsimp only
    repeat' split
    all_goals exact ⟨rfl, rfl⟩
  · unfold SourceUnit.onMissed
    dsimp only
    repeat' split
    all_goals exact ⟨rfl, rfl⟩

theorem judgement_size (p : PortId) (s : State) :
    (judgement p s).1.sw = (s.unit p).sw ∧ (judgement p s).1.sh = (s.unit p).sh := by
  unfold judgement
  split
  · exact SourceUnit.judged_size _ _
  · exact ⟨rfl, rfl⟩

theorem calm_setUnit {p : PortId} {v : SourceUnit} (sw : v.sw = (s.unit p).sw) (sh : v.sh = (s.unit p).sh) :
    Calm s (s.setUnit p v) := by
  refine ⟨rfl, rfl, fun _ => .refl _, fun q => ?_⟩
  by_cases hq : q = p
  · subst hq
    simp [sw, sh]
  · simp [hq]

theorem calm_takeFrameStart (p : PortId) (s : State) : Calm s (takeFrameStart p s) := by
  unfold takeFrameStart
  split
  · have taken : Calm s (s.setUnit p ((judgement p s).1.taking (decide ((s.port p).attach = .attached)))) :=
      calm_setUnit (judgement_size p s).1 (judgement_size p s).2
    exact taken.trans (calm_storeNotices _ _)
  · exact .refl s

theorem calm_settleUnits (s : State) : Calm s (settleUnits s) :=
  foldl_related Calm.refl (fun _ _ _ => .trans) (fun s p => by
    unfold settleUnit
    split
    · exact calm_takeFrameStart p s
    · exact .refl s) PortId.all s

theorem calm_setScan {x : ScanTimer} (h : x.setup = s.scan.setup) : Calm s (s.setScan x) :=
  ⟨rfl, h, fun _ => .refl _, fun _ => ⟨rfl, rfl⟩⟩

theorem calm_takeWarmCount (s : State) : Calm s (takeWarmCount s) := by
  rcases takeWarmCount_cases s with ⟨-, e⟩ | ⟨-, -, e⟩ | ⟨-, -, e⟩ <;> rw [e]
  · exact .refl s
  · have live : Calm s (s.setScan { s.scan with panel := .live, warm := 0, warmWaiting := false }) := calm_setScan rfl
    exact live.trans (calm_storeNotices _ _)
  · exact calm_setScan rfl

theorem calm_settleWarm (s : State) : Calm s (settleWarm s) := by
  unfold settleWarm
  split
  · exact .refl s
  · exact calm_takeWarmCount s

theorem calm_raiseFrame (s : State) : Calm s (raiseFrame s) := by
  rw [raiseFrame_eq]
  exact ⟨rfl, rfl, fun _ => .refl _, fun q => by cases q <;> exact ⟨rfl, rfl⟩⟩

theorem calm_forceAll (s : State) : Calm s (forceAll s) := by
  rw [forceAll_eq]
  exact ⟨rfl, rfl, fun _ => .refl _, fun q => by cases q <;> exact ⟨rfl, rfl⟩⟩

theorem calm_darkened (s : State) : Calm s (darkened s) := ⟨rfl, rfl, fun _ => .refl _, fun _ => ⟨rfl, rfl⟩⟩

theorem calm_startLine (l : Nat) (s : State) : Calm s (startLine l s) := by
  have begun : Calm s (lineBegun l s) :=
    ⟨rfl, rfl, fun _ => .refl _, fun q => by rw [lineBegun_unit]; exact ⟨rfl, rfl⟩⟩
  rw [startLine_eq]
  split
  · refine begun.trans (foldl_related Calm.refl (fun _ _ _ => .trans) (fun s p => ?_) PortId.all _)
    have set : ∀ ms, Calm s (s.setMarkList p ms) := fun ms => ⟨rfl, rfl, fun _ => .refl _, fun _ => ⟨rfl, rfl⟩⟩
    exact (set _).trans (calm_storeNotices _ _)
  · exact begun

/-! ### The works -/

/-- A calm step that leaves the marks alone and does not enter DARK. -/
structure Calmer (s t : State) : Prop where
  calm : Calm s t
  marks : t.marks = s.marks
  runs : s.scan.panel ≠ .dark → t.scan.panel ≠ .dark

theorem Calmer.of_panel (calm : Calm s t) (marks : t.marks = s.marks) (panel : t.scan = s.scan) : Calmer s t :=
  ⟨calm, marks, by rw [panel]; exact id⟩

theorem calmer_takeFrameStart (p : PortId) (s : State) : Calmer s (takeFrameStart p s) :=
  .of_panel (calm_takeFrameStart p s) (takeFrameStart_layout p s).2.1 (takeFrameStart_layout p s).2.2.scan

theorem calmer_takeWarmCount (s : State) : Calmer s (takeWarmCount s) := by
  refine ⟨calm_takeWarmCount s, takeWarmCount_marks s, fun n => ?_⟩
  rcases takeWarmCount_panel (s := s) with e | e <;> rw [e]
  · exact n
  · nofun

theorem calmer_settleWarm (s : State) : Calmer s (settleWarm s) := by
  unfold settleWarm
  split
  · exact .of_panel (.refl s) rfl rfl
  · exact calmer_takeWarmCount s

theorem calmer_announcePanel (left : PanelState) (s : State) : Calmer s (announcePanel left s) :=
  .of_panel (calm_storeNotices _ _) (storeNotices_only _ _).marks (storeNotices_only _ _).scan

theorem calmer_panelOff (s : State) :
    Calmer s (enterPanel .cooling (s.setScan { s.scan with warm := 0, cool := 0, coolingFrame := false })) := by
  have off : Calm s ((s.setScan { s.scan with warm := 0, cool := 0, coolingFrame := false }).setScan
      { s.scan with warm := 0, cool := 0, coolingFrame := false, panel := .cooling }) := (calm_setScan rfl).trans (calm_setScan rfl)
  have told := storeNotices_only (PortId.all.map fun p => (p, noticeNow ((s.setScan
      { s.scan with warm := 0, cool := 0, coolingFrame := false }).setScan
      { s.scan with warm := 0, cool := 0, coolingFrame := false, panel := .cooling }) .panelState PanelState.cooling.byte
      s.scan.panel.byte)) ((s.setScan { s.scan with warm := 0, cool := 0, coolingFrame := false }).setScan
      { s.scan with warm := 0, cool := 0, coolingFrame := false, panel := .cooling })
  refine ⟨off.trans (calm_storeNotices _ _), told.marks, fun _ => ?_⟩
  have scan : _ = ScanTimer.panel { s.scan with warm := 0, cool := 0, coolingFrame := false, panel := .cooling } :=
    congrArg ScanTimer.panel told.scan
  exact fun e => nomatch scan.symm.trans e

theorem leaveIfDone_layout (p : PortId) (s : State) : (leaveIfDone p s).layout = s.layout := by
  rcases leaveIfDone_cases p s with ⟨-, e⟩ | ⟨why, -, -, e⟩ <;> rw [e]
  exact (storeNotice_only _ _ _).layout

/-- Commits, and calm steps between them. -/
def Works : State → State → Prop := Relation.ReflTransGen fun s t => Calmer s t ∨ t = commit s

theorem Works.refl (s : State) : Works s s := Relation.ReflTransGen.refl

theorem Works.trans (h : Works s t) (g : Works t u) : Works s u := Relation.ReflTransGen.trans h g

theorem Works.calm (h : Calmer s t) : Works s t := .single (.inl h)

theorem Works.commit (s : State) : Works s (commit s) := .single (.inr rfl)

/-- What a commit and a calm step keep the works keep. -/
theorem Works.keeps {J : State → Prop} (h : Works s t) (calm : ∀ {s t}, Calmer s t → J s → J t)
    (commit : ∀ {s}, J s → J (Machine.commit s)) (j : J s) : J t := by
  induction h with
  | refl => exact j
  | tail _ step ih =>
    rcases step with c | rfl
    · exact calm c ih
    · exact commit ih

theorem Works.runs (h : Works s t) (n : s.scan.panel ≠ .dark) : t.scan.panel ≠ .dark :=
  h.keeps (J := fun u => u.scan.panel ≠ .dark) (fun c => c.runs) (fun n => by rw [(commit_samePanel _).scan]; exact n) n

theorem Works.setup (h : Works s t) : t.scan.setup = s.scan.setup :=
  h.keeps (J := fun u => u.scan.setup = s.scan.setup) (fun c e => c.calm.setup.trans e)
    (fun e => by rw [(commit_samePanel _).scan]; exact e) rfl

theorem Works.list (ws : List FrameWork) (s : State) : Works s (ws.foldl doWork s) :=
  foldl_related Works.refl (fun _ _ _ => Works.trans) (fun s w => by
    cases w with
    | commit => exact Works.commit s
    | unit p => exact Works.calm (calmer_takeFrameStart p s)
    | timer => exact Works.calm (calmer_takeWarmCount s)) ws s

theorem Works.last (now : List FrameWork) (s : State) : Works s (commitLast now s) := by
  unfold commitLast
  split
  · exact .refl s
  · exact .commit s

theorem Works.units (s : State) : Works s (settleUnits s) :=
  have g := settleUnits_only s
  .calm (.of_panel (calm_settleUnits s) g.2.2.2.1 g.2.2.2.2.scan)

theorem works_frameWork (now : List FrameWork) (s : State) : Works s (frameWork now s) := by
  rw [frameWork_eq]
  exact (((Works.list now s).trans (.last now _)).trans (.units _)).trans (.calm (calmer_settleWarm _))

/-- The work of a frame start, the panel having counted it. -/
theorem works_frame (now : List FrameWork) (s : State) :
    Works s (frameWork now (raiseFrame (s.setScan (countFrame s.scan)))) := by
  have counted : (countFrame s.scan).setup = s.scan.setup ∧ (countFrame s.scan).panel = s.scan.panel := by
    unfold countFrame
    split <;> exact ⟨rfl, rfl⟩
  have raised : Works s (raiseFrame (s.setScan (countFrame s.scan))) :=
    .calm ⟨(calm_setScan counted.1).trans (calm_raiseFrame _), rfl, fun n => counted.2 ▸ n⟩
  exact raised.trans (works_frameWork now _)

/-- The start of warming after the frame start is raised. -/
theorem works_startWarming (now : List FrameWork) (s : State) : Works (takeReports s) (startWarming now s) := by
  rw [startWarming_eq]
  have raised : Works (takeReports s) (warmed (takeReports s)) :=
    have on : Calm (takeReports s) ((takeReports s).setScan
        { (takeReports s).scan with panel := .warming, warm := 0, coolingFrame := false, warmWaiting := false }) := calm_setScan rfl
    .calm ⟨on.trans (calm_raiseFrame _), rfl, fun _ => nofun⟩
  have before := (raised.trans (.list (worksBefore now) _)).trans (.calm (calmer_announcePanel .dark _))
  exact ((before.trans (.list (worksAfter now) _)).trans (.last now _)).trans (.units _)

theorem startWarming_runs (now : List FrameWork) (s : State) : (startWarming now s).scan.panel ≠ .dark := by
  rw [startWarming_eq]
  have before := (Works.list (worksBefore now) (warmed (takeReports s))).trans (.calm (calmer_announcePanel .dark _))
  exact (((before.trans (.list (worksAfter now) _)).trans (.last now _)).trans (.units _)).runs nofun

/-- The entry into DARK is one commit between calm steps. -/
theorem enterDark_commits (noticeFirst : Bool) (s : State) :
    ∃ u, Calmer (darkened (takeReports s)) u ∧ Calmer (commit u) (enterDark noticeFirst s) := by
  rw [enterDark_eq]
  have force : ∀ u, Calmer u (forceAll u) := fun u => .of_panel (calm_forceAll u) rfl rfl
  cases noticeFirst
  · have told := calmer_announcePanel .cooling (commit (darkened (takeReports s)))
    exact ⟨_, .of_panel (.refl _) rfl rfl, told.calm.trans (force _).calm, (force _).marks.trans told.marks,
      fun n => (force _).runs (told.runs n)⟩
  · exact ⟨_, calmer_announcePanel .cooling _, force _⟩
end

end Sys2Proof.Machine
end

