-- ==== Sys2Proof/Proofs/TableKept.lean ====
section
/-! PROOFS. The table law over every move (R1, R10, R11, R17, R42, R70, R153). -/

namespace Sys2Proof.Machine

section
variable {p q : PortId} {s t : State}

/-- The law speaks of the Layout Store and the attach states. -/
theorem tableLaw_of_layout (layout : t.layout = s.layout) (attach : ∀ q, (t.port q).attach = (s.port q).attach)
    (h : s.TableLaw) : t.TableLaw := by
  have same : SameBlocks s { s with ports := t.ports } := ⟨rfl, rfl, rfl, ⟨rfl, rfl, rfl⟩, attach⟩
  have law := same.tableLaw h
  unfold State.TableLaw State.TableLawOf Proposal.OwnedBy at law ⊢
  simp only [State.lay, State.slot, layout]
  exact law

theorem Calm.tableLaw (g : Calm s t) (h : s.TableLaw) : t.TableLaw :=
  tableLaw_of_layout g.layout (fun q => (g.port q).attach) h

theorem Works.tableLaw (g : Works s t) (h : s.TableLaw) : t.TableLaw :=
  g.keeps (J := State.TableLaw) (fun c => c.calm.tableLaw) commit_tableLaw h

/-! ### The drafts -/

/-- A change of a port's draft alone. -/
theorem setDraft_tableLaw (h : s.TableLaw) (attached : (s.port p).attach = .attached) {d : Option Proposal}
    (owned : ∀ pr, d = some pr → pr.OwnedBy p s)
    (named : ∀ id, (s.slot id).reservedOf p = true → optNames (s.lay p).draft id = true → optNames d id = true ∨
      optNames (s.lay p).sealedSet id = true)
    (over_set : ∀ pr set, d = some pr → (s.lay p).sealedSet = some set → ∀ id ∈ pr.ids, (s.slot id).liveOf p = true →
      names set id = true) : (setDraft p d s).TableLaw := by
  refine TableLaw.step (p := p) h (fun o => ?_) (fun q hq => .setLay hq _) rfl id
  have lay : (setDraft p d s).lay p = { s.lay p with draft := d } := by simp [setDraft]
  have slot : ∀ id, (setDraft p d s).slot id = s.slot id := fun _ => rfl
  constructor
  all_goals try simp only [lay, slot]
  · exact o.nodup
  · exact o.live
  · exact o.listed
  · exact fun pr e => owned pr e
  · exact fun pr e => o.set pr e
  · exact fun id lt r => (o.named id lt r).elim (named id r) .inr
  · exact over_set
  · exact fun n => absurd attached n
  · exact fun n => absurd attached n
  · exact o.retires

theorem liveEntries_owned (o : TableOf s p) : (liveEntries p s).OwnedBy p s := by
  unfold Proposal.OwnedBy
  rw [liveEntries_ids o]
  exact ⟨o.nodup, fun id m => o.owner m⟩

theorem optNames_iff {d : Proposal} {id : Nat} : optNames (some d) id = true ↔ id ∈ d.ids := names_iff d id

/-- What a smaller draft leaves unnamed goes back to FREE (R11, R50, R51). -/
theorem releaseUnnamed_cut_tableLaw (h : s.TableLaw) (attached : (s.port p).attach = .attached) {d : Proposal}
    {d' : Option Proposal} (draft : (s.lay p).draft = some d) (less : ∀ pr, d' = some pr → pr.Sublist d) :
    (releaseUnnamed p (setDraft p d' s)).TableLaw := by
  refine TableLaw.step (p := p) h (fun o => ?_) (fun q hq => (Same.setLay hq _).trans (.releaseUnnamed hq))
    (mapSlotsFrom_length _ _ _) id
  have lay : (releaseUnnamed p (setDraft p d' s)).lay p = { s.lay p with draft := d' } := by
    simp [releaseUnnamed, setDraft, State.mapSlots]
  have slot : ∀ id, (releaseUnnamed p (setDraft p d' s)).slot id =
      if (s.slot id).reservedOf p = true ∧ optNames d' id = false ∧ optNames (s.lay p).sealedSet id = false then .free
      else s.slot id := fun id => by
    rw [slot_releaseUnnamed]
    simp [setDraft]
  have live : ∀ id, ((releaseUnnamed p (setDraft p d' s)).slot id).liveOf p = (s.slot id).liveOf p := fun id => by
    rw [slot]
    split
    · rename_i g
      cases hl : (s.slot id).liveOf p
      · rfl
      · simp [Slot.not_both hl] at g
    · rfl
  have named : ∀ id, ((releaseUnnamed p (setDraft p d' s)).slot id).reservedOf p = true →
      optNames d' id = true ∨ optNames (s.lay p).sealedSet id = true := fun id r => by
    rw [slot] at r
    split at r
    · cases r
    · rename_i g
      by_contra n
      exact g ⟨r, by simpa using n⟩
  have kept : ∀ id, optNames d' id = true ∨ optNames (s.lay p).sealedSet id = true →
      (releaseUnnamed p (setDraft p d' s)).slot id = s.slot id := fun id n => by
    rw [slot, if_neg]
    rintro ⟨-, a, b⟩
    simp [a, b] at n
  constructor
  all_goals try simp only [lay, live]
  · exact o.nodup
  · exact o.live
  · exact o.listed
  · intro pr e
    have sub := (less pr e).map DraftEntry.id
    refine ⟨(o.draft d draft).1.sublist sub, fun id m => ?_⟩
    rw [kept id (.inl (e ▸ optNames_iff.mpr m))]
    exact (o.draft d draft).2 id (sub.subset m)
  · intro pr e
    refine ⟨(o.set pr e).1, fun id m => ?_⟩
    rw [kept id (.inr (e ▸ optNames_iff.mpr m))]
    exact (o.set pr e).2 id m
  · exact fun id _ => named id
  · exact fun pr set e e' id m l => o.over_set d set draft e' id (((less pr e).map DraftEntry.id).subset m) l
  · exact fun n => absurd attached n
  · exact fun n => absurd attached n
  · exact o.retires

theorem free_of_lowestFree {id : Nat} (free : lowestFree s = some id) :
    id < s.layout.slots.length ∧ s.slot id = .free := by
  obtain ⟨lt, e, -⟩ := List.findIdx?_eq_some_iff_getElem.mp free
  exact ⟨lt, by simpa [State.slot, List.getD_eq_getElem?_getD, List.getElem?_eq_getElem lt] using e⟩

theorem reserveSlot_slot {id : Nat} (lt : id < s.layout.slots.length) (k : RegionKind) (d : Proposal) (i : Nat) :
    (reserveSlot p k id d s).slot i = if i = id then .reserved p k else s.slot i := by
  simp only [reserveSlot, setDraft, State.slot, State.setSlots, List.getD_eq_getElem?_getD]
  by_cases hi : i = id
  · subst hi
    simp [lt]
  · simp [hi, Ne.symm hi]

/-- CREATE takes a FREE slot (R10, R45). -/
theorem reserveSlot_tableLaw (h : s.TableLaw) (attached : (s.port p).attach = .attached) {d : Proposal} {k : RegionKind}
    {id : Nat} (draft : (s.lay p).draft = some d) (free : lowestFree s = some id) : (reserveSlot p k id d s).TableLaw := by
  obtain ⟨lt, isFree⟩ := free_of_lowestFree free
  have lay : ∀ q, (reserveSlot p k id d s).lay q =
      if q = p then { s.lay p with draft := some (d ++ [{ id := id, copy := defaultCopy (s.entry p) }]) } else s.lay q :=
    fun q => by simp [reserveSlot, setDraft]
  have slot := reserveSlot_slot (p := p) (s := s) lt k d
  have other : ∀ i, (s.slot i).owner? ≠ none → i ≠ id := by
    rintro i o rfl
    rw [isFree] at o
    exact o rfl
  refine TableLaw.step (p := p) h (fun o => ?_) (fun q hq => ?_) (by simp [reserveSlot, setDraft]) (by
    simp [reserveSlot, setDraft])
  · have live : ∀ i, ((reserveSlot p k id d s).slot i).liveOf p = (s.slot i).liveOf p := fun i => by
      rw [slot]
      split
      · rename_i e
        rw [e, isFree]
        rfl
      · rfl
    have owner : ∀ i, (s.slot i).owner? = some p → ((reserveSlot p k id d s).slot i).owner? = some p := fun i e => by
      rw [slot, if_neg (other i (by simp [e]))]
      exact e
    have lay := lay p
    rw [if_pos rfl] at lay
    have retiring : (reserveSlot p k id d s).layout.retiring = s.layout.retiring := by simp [reserveSlot, setDraft]
    have ids : Proposal.ids (d ++ [{ id := id, copy := defaultCopy (s.entry p) }]) = d.ids ++ [id] := by
      simp [Proposal.ids]
    constructor
    all_goals try simp only [lay, live, retiring]
    · exact o.nodup
    · exact o.live
    · exact o.listed
    · intro pr e
      obtain rfl := Option.some.inj e
      obtain ⟨nodup, owned⟩ := o.draft d draft
      unfold Proposal.OwnedBy
      rw [ids]
      refine ⟨List.nodup_append.mpr ⟨nodup, List.nodup_singleton _, ?_⟩, ?_⟩
      · intro a ha b hb
        rw [List.mem_singleton.mp hb]
        exact other a (by simp [owned a ha])
      · intro i m
        rcases List.mem_append.mp m with m | m
        · exact owner i (owned i m)
        · rw [List.mem_singleton.mp m, slot, if_pos rfl]
          rfl
    · exact fun pr e => ⟨(o.set pr e).1, fun i m => owner i ((o.set pr e).2 i m)⟩
    · intro i _ r
      rw [optNames_iff, ids]
      rw [slot] at r
      split at r
      · rename_i e
        exact .inl (by simp [e])
      · refine (o.named i (TableOf.lt_24 h (Slot.owner?_of_reservedOf r)) r).imp_left fun n => ?_
        rw [draft, optNames_iff] at n
        exact List.mem_append_left _ n
    · intro pr set e e' i m l
      obtain rfl := Option.some.inj e
      rw [ids] at m
      refine o.over_set d set draft e' i ((List.mem_append.mp m).resolve_right fun g => ?_) l
      rw [List.mem_singleton.mp g, isFree] at l
      cases l
    · exact fun n => absurd attached n
    · exact fun n => absurd attached n
    · exact o.retires
  · refine ⟨.refl _, by rw [lay, if_neg hq], rfl, rfl, fun i own => ?_, .rfl, by simp [reserveSlot, setDraft], rfl, ⟨rfl, rfl, rfl⟩⟩
    rw [slot]
    split
    · rename_i e
      subst e
      rw [slot, if_pos rfl, isFree] at own
      rcases own with own | own
      · cases own
      · exact absurd (Option.some.inj own) (Ne.symm hq)
    · rfl

theorem DraftMove.tableLaw (m : DraftMove p s t) (attached : (s.port p).attach = .attached) (h : s.TableLaw) : t.TableLaw := by
  have o := h.at p
  cases m with
  | opened d _ closed copies =>
    refine setDraft_tableLaw h attached (fun pr e => ?_) (fun id _ n => by simp [closed, optNames] at n) fun pr set e e' id m _ => ?_
    · obtain rfl := Option.some.inj e
      rcases copies with e | ⟨-, rfl⟩
      · exact o.set d e
      · exact liveEntries_owned o
    · obtain rfl := Option.some.inj e
      rcases copies with g | ⟨g, -⟩
      · obtain rfl := Option.some.inj (g.symm.trans e')
        exact (names_iff d id).mpr m
      · exact nomatch g.symm.trans e'
  | created d k id _ draft _ free => exact reserveSlot_tableLaw h attached draft free
  | edited d d' _ draft ids =>
    have perm := ids (o.draft d draft).1
    have same : ∀ id, optNames (some d') id = true ↔ optNames (some d) id = true := fun id => by
      rw [optNames_iff, optNames_iff]
      exact perm.mem_iff
    refine setDraft_tableLaw h attached (fun pr e => ?_) (fun id _ n => .inl ((same id).mpr (draft ▸ n))) fun pr set e e' id m l => ?_
    · obtain rfl := Option.some.inj e
      exact ⟨perm.nodup_iff.mpr (o.draft d draft).1, fun id m => (o.draft d draft).2 id (perm.mem_iff.mp m)⟩
    · obtain rfl := Option.some.inj e
      exact o.over_set d set draft e' id (perm.mem_iff.mp m) l
  | cut d d' _ draft less =>
    refine releaseUnnamed_cut_tableLaw h attached draft fun pr e => ?_
    rcases less with rfl | ⟨id, rfl⟩
    · cases e
    · obtain rfl := Option.some.inj e
      exact List.filter_sublist

/-- A draft becomes the set (R59). -/
theorem sealed_tableLaw (h : s.TableLaw) (attached : (s.port p).attach = .attached) {d : Proposal}
    (draft : (s.lay p).draft = some d) (unsealed : (s.lay p).sealedSet = none) :
    (s.setLay p { s.lay p with draft := none, sealedSet := some d }).TableLaw := by
  refine TableLaw.step (p := p) h (fun o => ?_) (fun q hq => .setLay hq _) rfl id
  have lay : (s.setLay p { s.lay p with draft := none, sealedSet := some d }).lay p =
      { s.lay p with draft := none, sealedSet := some d } := by simp
  constructor
  all_goals try simp only [lay, State.slot_setLay]
  · exact o.nodup
  · exact o.live
  · exact o.listed
  · nofun
  · intro pr e
    obtain rfl := Option.some.inj e
    exact o.draft d draft
  · refine fun id lt r => .inr ((draft ▸ o.named id lt r).resolve_right ?_)
    simp [unsealed, optNames]
  · nofun
  · exact fun n => absurd attached n
  · exact fun n => absurd attached n
  · exact o.retires

/-! ### The ports -/

theorem leaveIfDone_tableLaw (h : s.TableLaw) (p : PortId) : (leaveIfDone p s).TableLaw := by
  rcases leaveIfDone_cases p s with ⟨-, e⟩ | ⟨why, ha, -, e⟩ <;> rw [e]
  · exact h
  · refine (calm_storeNotices [(.p0, noticeNow s .portLeft (portByte p) why.byte)] _).tableLaw ?_
    refine TableLaw.step (p := p) h (fun o => o.withAttach (by simp [ha]) (by simp [ha]) ?_ _)
      (fun q hq => (Same.setPort hq _).trans (.setUnit hq _)) rfl id
    cases (s.entry p).enabled <;> simp

theorem attach_tableLaw (h : s.TableLaw) (detached : (s.port p).attach = .detached) (sw sh : Nat) :
    (attach p sw sh s).TableLaw := by
  refine TableLaw.step (p := p) h (fun o => ?_) (fun q hq => (Same.setPort hq _).trans (.setUnit hq _)) rfl id
  refine o.congr rfl (fun _ => rfl) (fun _ => rfl) (fun _ => by simp [detached]) id ?_
  simp only [attach, State.port_setUnit, State.port_setPort, if_true]
  exact ⟨fun m => absurd (o.retires.mp m) (by simp [detached]), nofun⟩

theorem retireIfDark_tableLaw (h : s.TableLaw) : (retireIfDark s).TableLaw := by
  unfold retireIfDark
  split
  · exact (calm_takeReports _).tableLaw (tableLaw_of_layout (s := (retireListed s).1) rfl (fun _ => rfl) (retireListed_tableLaw h))
  · exact h

/-- A Layout Store with nothing in it is lawful where no port waits to be retired. -/
theorem tableLaw_of_empty {plan : Plan} (layout : t.layout = { LayoutStore.reset with plan := plan })
    (attach : ∀ p why, (t.port p).attach ≠ .leaving why false) : t.TableLaw := by
  have lay : ∀ p, t.lay p = { order := [], draft := none, sealedSet := none } := fun p => by
    simp only [State.lay, layout]
    cases p <;> rfl
  have slot : ∀ id, t.slot id = .free := fun id => by
    simp only [State.slot, layout, LayoutStore.reset, List.getD_eq_getElem?_getD, List.getElem?_replicate]
    split <;> rfl
  have retiring : t.layout.retiring = [] := by rw [layout]; rfl
  refine TableLaw.of (by rw [layout]; rfl) (by simp [retiring]) fun p => ?_
  constructor
  all_goals simp only [lay, slot, retiring]
  · exact List.nodup_nil
  · nofun
  · nofun
  · nofun
  · nofun
  · nofun
  · nofun
  · simp
  · simp
  · exact ⟨nofun, fun ⟨why, e⟩ => absurd e (attach p why)⟩

theorem restartBody_tableLaw (r : Request) (attached : (s.port .p0).attach = .attached) : (restartBody .p0 r s).TableLaw := by
  have law : (restarted r (takeReports s)).TableLaw := by
    refine tableLaw_of_empty rfl fun p why => ?_
    have zero : (((takeReports s).port .p0).restarted r (takeReports s).frameField).attach = .attached := by
      rw [← attached, ← (takeReports_alike .p0 s).attach]
      rfl
    cases p
    · exact fun e => nomatch zero.symm.trans e
    all_goals exact fun e => nomatch e
  rw [restartBody_eq]
  unfold settleUnit
  split
  · exact (calm_takeFrameStart _ _).tableLaw ((calm_storeNotices [(.p0, _)] _).tableLaw law)
  · exact (calm_storeNotices [(.p0, _)] _).tableLaw law

theorem applyInDark_tableLaw (h : s.TableLaw) (attached : (s.port p).attach = .attached) {d : Proposal}
    (draft : (s.lay p).draft = some d) (unsealed : (s.lay p).sealedSet = none) : (applyInDark p d s).TableLaw := by
  have applied := advanceGenerations_tableLaw s (applySet_tableLaw (sealed_tableLaw h attached draft unsealed) p)
  exact (calm_takeReports _).tableLaw (tableLaw_of_layout (t := handReports _ _) rfl (fun _ => rfl) applied)

theorem settleInDark_tableLaw (h : s.TableLaw) (r : Request) (new : Plan) (mode : PlanMode) :
    (settleInDark r new mode s).TableLaw := by
  have settled := settlePlan_tableLaw (answer := respond .p0 r)
    (fun _ _ u i => SameBlocks.tableLaw (.setPort u .p0 (by rfl)) i) new mode h
  have advanced := advanceGenerations_tableLaw s (retireListed_tableLaw settled)
  have told := (calm_storeNotices (settlePlan (respond .p0 r) new mode s).2.notices _).tableLaw advanced
  exact (calm_takeReports _).tableLaw (tableLaw_of_layout (t := handReports _ _) rfl (fun _ => rfl) told)

theorem settleUnit_calm (p : PortId) (s : State) : Calm s (settleUnit p s) := by
  unfold settleUnit
  split
  · exact calm_takeFrameStart p s
  · exact .refl s

/-! ### The moves -/

theorem Move.tableLaw {h h' : Option PortId} (m : Move h s h' t) (j : s.TableLaw) : t.TableLaw := by
  cases m with
  | queue move => exact move.sameBlocks.tableLaw j
  | draft _ attached move => exact move.tableLaw attached j
  | block p => exact SameBlocks.tableLaw (.setPort s p (by rfl)) j
  | depart _ p => exact leaveIfDone_tableLaw j p
  | reports => exact (calm_takeReports s).tableLaw j
  | panel _ move =>
    cases move with
    | warmCount => exact (calm_takeWarmCount s).tableLaw j
    | setup => exact tableLaw_of_layout rfl (fun _ => rfl) j
    | panelOff => exact (calmer_panelOff s).calm.tableLaw j
    | panelOn now => exact (works_startWarming now s).tableLaw ((calm_takeReports s).tableLaw j)
    | line l => exact (calm_startLine l _).tableLaw ((calm_takeReports s).tableLaw j)
  | sealSet p r d _ _ attached _ draft unsealed =>
    exact SameBlocks.tableLaw (.setPort _ p (by rfl)) (sealed_tableLaw j attached draft unsealed)
  | applySet p d _ _ attached draft unsealed => exact applyInDark_tableLaw j attached draft unsealed
  | sealPlan r mode => exact SameBlocks.tableLaw (.setPort _ .p0 (by rfl)) (show (s.setSealedPlan _).TableLaw from j)
  | settlePlan r mode => exact settleInDark_tableLaw j r _ mode
  | attach p sw sh _ _ detached => exact attach_tableLaw j detached sw sh
  | bye p r _ attached => exact retireIfDark_tableLaw (enterLeaving_tableLaw j _ _ (by simp [attached]))
  | eject _ q _ _ attached => exact retireIfDark_tableLaw (enterLeaving_tableLaw j _ _ (by simp [attached]))
  | format p => exact (settleUnit_calm p _).tableLaw (tableLaw_of_layout (s := s) rfl (fun _ => rfl) j)
  | packet p x _ runs =>
    unfold Machine.packet
    rw [if_pos runs]
    exact (settleUnit_calm p _).tableLaw (tableLaw_of_layout (s := s) rfl (fun _ => rfl) j)
  | judge p => exact (calm_takeFrameStart p s).tableLaw j
  | mark => exact tableLaw_of_layout rfl (fun _ => rfl) j
  | unmark => exact tableLaw_of_layout rfl (fun _ => rfl) j

theorem AnyMove.tableLaw {h h' : Option PortId} (m : AnyMove h s h' t) (j : s.TableLaw) : t.TableLaw := by
  cases m with
  | move move => exact move.tableLaw j
  | restart r _ attached => exact restartBody_tableLaw r attached
  | frame now =>
    have reports := (calm_takeReports s).tableLaw j
    exact (works_frame now (takeReports s)).tableLaw reports
  | enterDark b =>
    obtain ⟨u, before, after⟩ := enterDark_commits b s
    have dark := (calm_darkened _).tableLaw ((calm_takeReports s).tableLaw j)
    exact after.calm.tableLaw (commit_tableLaw (before.calm.tableLaw dark))
  | reset _ _ eq =>
    cases eq
    exact tableLaw_of_layout (s := State.reset) rfl (fun p => by cases p <;> rfl) reset_TableLaw

/-- Settles O55: every move keeps the table law. -/
theorem tableLawKept : Obligations.TableLawKept := fun _ _ j h =>
  step_keeps (J := fun _ u => u.TableLaw) (fun m => m.tableLaw) (fun _ j => j) j h
end

end Sys2Proof.Machine
end

