-- ==== Sys2Proof/Proofs/LiveState.lean ====
section
/-! PROOFS. While the panel is not DARK the live state changes only at commits, RESTART and device reset (R81). -/

namespace Sys2Proof.Machine

section
variable {p : PortId} {s t u : State}

theorem sameLive_of_slots (length : t.layout.slots.length = s.layout.slots.length)
    (slots : ∀ i, (t.slot i).liveView = (s.slot i).liveView) (order : ∀ p, (t.lay p).order = (s.lay p).order)
    (plan : t.layout.plan = s.layout.plan) : s.sameLive t := by
  refine ⟨List.ext_getElem (by simp [length]) fun i ht hs => ?_, order, plan⟩
  simp only [List.length_map] at ht hs
  have := slots i
  simp only [State.slot, List.getD_eq_getElem?_getD, List.getElem?_eq_getElem ht, List.getElem?_eq_getElem hs,
    Option.getD_some] at this
  simpa using this

theorem sameLive_of_layout (h : t.layout = s.layout) : s.sameLive t := by
  unfold State.sameLive State.lay
  rw [h]
  exact ⟨rfl, fun _ => rfl, rfl⟩

theorem State.sameLive.trans (h : s.sameLive t) (g : t.sameLive u) : s.sameLive u :=
  ⟨g.1.trans h.1, fun p => (g.2.1 p).trans (h.2.1 p), g.2.2.trans h.2.2⟩

theorem SameBlocks.sameLive (h : SameBlocks s t) : s.sameLive t := sameLive_of_layout h.layout

/-- A change of a port's draft and set. -/
theorem sameLive_setLay {l : PortLayout} (h : l.order = (s.lay p).order) : s.sameLive (s.setLay p l) := by
  refine sameLive_of_slots rfl (fun _ => rfl) (fun q => ?_) rfl
  rw [State.lay_setLay]
  split
  · rename_i e
    rw [h, e]
  · rfl

theorem Slot.liveView_release (p : PortId) (x : Slot) :
    (if x.reservedOf p = true then Slot.free else x).liveView = x.liveView := by
  split
  · rename_i h
    obtain ⟨k, rfl⟩ := Slot.reservedOf_iff.mp h
    rfl
  · rfl

theorem sameLive_releaseUnnamed (p : PortId) (s : State) : s.sameLive (releaseUnnamed p s) := by
  refine sameLive_of_slots (mapSlotsFrom_length _ _ _) (fun i => ?_) (fun _ => rfl) rfl
  rw [slot_releaseUnnamed]
  split
  · rename_i h
    obtain ⟨k, e⟩ := Slot.reservedOf_iff.mp h.1
    rw [e]
    rfl
  · rfl

theorem DraftMove.sameLive (m : DraftMove p s t) : s.sameLive t := by
  cases m with
  | opened => exact sameLive_setLay rfl
  | created d k id _ _ _ free =>
    obtain ⟨lt, isFree⟩ := free_of_lowestFree free
    refine sameLive_of_slots (by simp [reserveSlot, setDraft]) (fun i => ?_) (fun q => ?_) rfl
    · rw [reserveSlot_slot lt]
      split
      · rename_i e
        rw [e, isFree]
        rfl
      · rfl
    · simp only [reserveSlot, setDraft, State.lay_setLay, State.lay_setSlots]
      split
      · rename_i e
        rw [e]
      · rfl
  | edited => exact sameLive_setLay rfl
  | cut d d' => exact State.sameLive.trans (t := setDraft p d' s) (sameLive_setLay rfl) (sameLive_releaseUnnamed p _)

theorem sameLive_enterLeaving (reason : LeaveReason) (own : Option Response) : s.sameLive (enterLeaving p reason own s) := by
  have left := enterLeaving_left (p := p) (reason := reason) (own := own) (s := s)
  refine sameLive_of_slots (enterLeaving_length _ _ _) (fun i => ?_) (fun q => ?_) left.plan
  · rw [enterLeaving_slot, Slot.liveView_release]
  · by_cases hq : q = p
    · subst hq
      rw [left.lay]
      rfl
    · rw [(Same.enterLeaving hq reason own).lay]

theorem settleUnit_samePanel (p : PortId) (s : State) : SamePanel s (settleUnit p s) :=
  (Chain.still (h := none) (acts_settleUnit (p := p) (s := s))).panel

theorem startLine_panel (l : Nat) (s : State) : (startLine l s).scan.panel = s.scan.panel := by
  rw [startLine_eq]
  split
  · have fired := SamePanel.foldl (f := fireMarks l) (fun u p => ⟨(fireMarks_only l u p).scan, (fireMarks_only l u p).comp,
      (fireMarks_only l u p).pending⟩) PortId.all (lineBegun l s)
    rw [fired.scan]
    rfl
  · rfl

/-- In a panel that is not DARK a move other than those of DARK keeps the live state, and the panel stays so. -/
theorem Move.sameLive {h h' : Option PortId} (m : Move h s h' t) (n : s.scan.panel ≠ .dark) :
    s.sameLive t ∧ t.scan.panel ≠ .dark := by
  have calm : ∀ {u}, Calm s u → u.scan.panel ≠ .dark → s.sameLive u ∧ u.scan.panel ≠ .dark := fun c d =>
    ⟨sameLive_of_layout c.layout, d⟩
  have blocks : ∀ {u}, SameBlocks s u → s.sameLive u ∧ u.scan.panel ≠ .dark := fun b =>
    ⟨b.sameLive, by rw [b.panel.scan]; exact n⟩
  cases m with
  | queue move => exact blocks move.sameBlocks
  | draft _ _ move => exact ⟨move.sameLive, by rw [(Chain.still (h := none) (acts_draft move)).panel.scan]; exact n⟩
  | block p => exact blocks (.setPort s p rfl)
  | depart _ p =>
    exact ⟨sameLive_of_layout (leaveIfDone_layout p s), by rw [(leaveIfDone_samePanel p s).scan]; exact n⟩
  | reports => exact calm (calm_takeReports s) (by rw [takeReports_scan]; exact n)
  | panel _ move =>
    cases move with
    | warmCount => exact calm (calm_takeWarmCount s) ((calmer_takeWarmCount s).runs n)
    | setup _ _ dark => exact absurd dark n
    | panelOff => exact calm (calmer_panelOff s).calm ((calmer_panelOff s).runs n)
    | panelOn _ _ dark => exact absurd dark n
    | line l =>
      exact calm ((calm_takeReports s).trans (calm_startLine l _)) (by rw [startLine_panel, takeReports_scan]; exact n)
  | sealSet p r d =>
    exact ⟨State.sameLive.trans (t := s.setLay p { s.lay p with draft := none, sealedSet := some d }) (sameLive_setLay rfl)
      (sameLive_of_layout rfl), n⟩
  | applySet _ _ _ _ _ _ _ _ dark => exact absurd dark n
  | sealPlan r mode =>
    exact ⟨sameLive_of_slots rfl (fun _ => rfl) (fun _ => rfl) rfl, n⟩
  | settlePlan _ _ _ _ _ _ _ dark => exact absurd dark n
  | attach p sw sh => exact ⟨sameLive_of_layout rfl, n⟩
  | bye p r =>
    have left := enterLeaving_samePanel p .bye (some (r.answer .done s.frameField)) s
    unfold byeBody
    rw [retireIfDark_of_not_dark (by rw [left.scan]; exact n), left.scan]
    exact ⟨sameLive_enterLeaving _ _, n⟩
  | eject _ q =>
    have left := enterLeaving_samePanel q .eject none s
    rw [retireIfDark_of_not_dark (by rw [left.scan]; exact n), left.scan]
    exact ⟨sameLive_enterLeaving _ _, n⟩
  | format p =>
    exact ⟨sameLive_of_layout (settleUnit_calm p _).layout, by rw [(settleUnit_samePanel p _).scan]; exact n⟩
  | packet p x _ runs =>
    unfold Machine.packet
    rw [if_pos runs]
    exact ⟨sameLive_of_layout (settleUnit_calm p _).layout, by rw [(settleUnit_samePanel p _).scan]; exact n⟩
  | judge p => exact calm (calm_takeFrameStart p s) ((calmer_takeFrameStart p s).runs n)
  | mark => exact ⟨sameLive_of_layout rfl, n⟩
  | unmark => exact ⟨sameLive_of_layout rfl, n⟩

/-- Settles O59: a command other than the four is a chain of moves, and each keeps the live state. -/
theorem liveStateOnlyAtCommits : Obligations.LiveStateOnlyAtCommits := by
  intro c s t n h frame dark restart reset
  obtain ⟨u, e, chain⟩ := exec_quiet c s frame dark restart reset
  rw [e] at h
  cases h
  refine (chain.keeps (J := fun _ u => s.sameLive u ∧ u.scan.panel ≠ .dark) (fun m ⟨same, runs⟩ => ?_)
    ⟨sameLive_of_layout rfl, n⟩).1
  obtain ⟨more, runs⟩ := m.sameLive runs
  exact ⟨same.trans more, runs⟩
end

end Sys2Proof.Machine
end

