-- ==== Sys2Proof/Proofs/CommitFacts.lean ====
section
/-! PROOFS. What a commit leaves of the Layout Store and of each Port Controller, stage by stage (R71 to R78). -/

namespace Sys2Proof.Machine

section
variable {p q : PortId} {s t : State}

/-- A fold with nothing beside the state. -/
theorem foldl_alone {α : Type} (f : State → α → State) (xs : List α) (s : State) :
    (xs.foldl (fun (x : State × Unit) a => (f x.1 a, ())) (s, ())).1 = xs.foldl f s := by
  induction xs generalizing s with
  | nil => rfl
  | cons a xs ih => exact ih (f s a)

/-! ### The settling of the plan -/

theorem enterLeaving_sealedPlan (reason : LeaveReason) (own : Option Response) (s : State) :
    (enterLeaving p reason own s).layout.sealedPlan = if p = .p0 then none else s.layout.sealedPlan := by
  by_cases ho : (s.lay p).order = []
  · rw [(enterLeaving_of_none ho).sealedPlan, entered_sealedPlan]
  · rw [enterLeaving_of_order ho]
    exact entered_sealedPlan (reason := reason) (own := own)

/-- The handing over of enablement leaves the plan, and a sealed plan only where port 0 keeps it. -/
theorem handIfChanged_plan (old new : Plan) (s : State) (p : PortId) :
    (handIfChanged old new s p).layout.plan = s.layout.plan ∧
      ((handIfChanged old new s p).layout.sealedPlan = s.layout.sealedPlan ∨
        (handIfChanged old new s p).layout.sealedPlan = none) := by
  have left : ∀ reason, (enterLeaving p reason none s).layout.plan = s.layout.plan ∧
      ((enterLeaving p reason none s).layout.sealedPlan = s.layout.sealedPlan ∨
        (enterLeaving p reason none s).layout.sealedPlan = none) := fun reason => by
    refine ⟨enterLeaving_left.plan, ?_⟩
    rw [enterLeaving_sealedPlan]
    split
    · exact .inr rfl
    · exact .inl rfl
  unfold handIfChanged
  split
  · exact ⟨rfl, .inl rfl⟩
  · unfold handEnablement
    dsimp only
    split
    · exact ⟨rfl, .inl rfl⟩
    · split
      · exact ⟨rfl, .inl rfl⟩
      · exact left _
    · exact left _
    · exact ⟨rfl, .inl rfl⟩

theorem dropProposals_plans (res : Result) (fields : List Byte) (s : State) :
    (dropProposals p res fields s).layout.plan = s.layout.plan ∧
      (dropProposals p res fields s).layout.sealedPlan = s.layout.sealedPlan := by
  simp [dropProposals, placeDeferred_eq, releaseUnnamed, State.mapSlots]

theorem settleEvictPort_plan (old new : Plan) (sh : State × Settled) (p : PortId) :
    (settleEvictPort old new sh p).1.layout.plan = sh.1.layout.plan ∧
      ((settleEvictPort old new sh p).1.layout.sealedPlan = sh.1.layout.sealedPlan ∨
        (settleEvictPort old new sh p).1.layout.sealedPlan = none) := by
  obtain ⟨plan, sealedPlan⟩ := dropProposals_plans (p := p) .draftVoid [EditState.idle.byte] sh.1
  have hand := handIfChanged_plan old new (dropProposals p .draftVoid [EditState.idle.byte] sh.1) p
  rw [plan, sealedPlan] at hand
  unfold settleEvictPort
  split
  · exact ⟨rfl, .inl rfl⟩
  · dsimp only
    split
    · exact hand
    · exact hand

/-- What the settling of a plan makes of the live plan and of a sealed one. -/
theorem settlePlan_plan {answer : Result → List Byte → State → State} (ha : ∀ res fields u, (answer res fields u).layout = u.layout)
    (new : Plan) (mode : PlanMode) (s : State) :
    (settlePlan answer new mode s).1.layout.plan =
        (if mode = .keep ∧ keepConflict new s ≠ none then s.layout.plan else new) ∧
      ((settlePlan answer new mode s).1.layout.sealedPlan = s.layout.sealedPlan ∨
        (settlePlan answer new mode s).1.layout.sealedPlan = none) := by
  have fold : ∀ {β : Type} {f : State × β → PortId → State × β} (x : State × β),
      (∀ x p, (f x p).1.layout.plan = x.1.layout.plan ∧ ((f x p).1.layout.sealedPlan = x.1.layout.sealedPlan ∨
        (f x p).1.layout.sealedPlan = none)) → x.1.layout.plan = new →
      (x.1.layout.sealedPlan = s.layout.sealedPlan) → (PortId.all.foldl f x).1.layout.plan = new ∧
        ((PortId.all.foldl f x).1.layout.sealedPlan = s.layout.sealedPlan ∨
          (PortId.all.foldl f x).1.layout.sealedPlan = none) := fun x step plan sealedPlan =>
    foldl_keeps (I := fun u => u.layout.plan = new ∧ (u.layout.sealedPlan = s.layout.sealedPlan ∨ u.layout.sealedPlan = none))
      (fun x p ⟨plan, i⟩ => ⟨(step x p).1.trans plan, (step x p).2.elim (fun e => e ▸ i) .inr⟩) PortId.all x
      ⟨plan, .inl sealedPlan⟩
  cases mode with
  | keep =>
    simp only [settlePlan]
    split
    · rename_i e
      simp [ha, e]
    · rename_i e
      have all := fold (f := fun x p => (handIfChanged s.layout.plan new x.1 p, ())) (s.setPlan new, ())
        (fun x p => handIfChanged_plan _ _ x.1 p) rfl rfl
      rw [ha, if_neg (by simp [e])]
      rw [foldl_alone] at all
      exact all
  | evict =>
    rw [if_neg (by simp)]
    have all := fold (f := settleEvictPort s.layout.plan new) (answer .done (planFields s none none) (s.setPlan new), .nothing)
      (fun x p => settleEvictPort_plan _ _ x p) (by rw [ha]; rfl) (by rw [ha]; rfl)
    exact all

theorem settleSealed_none (e : s.layout.sealedPlan = none) : settleSealed s = (s, .nothing) := by
  simp only [settleSealed, e]

theorem settleSealed_some {sp : SealedPlan} (e : s.layout.sealedPlan = some sp) : settleSealed s =
    ((settlePlan (placeDeferred .p0 .planSet) sp.plan sp.mode s).1.setSealedPlan none,
      (settlePlan (placeDeferred .p0 .planSet) sp.plan sp.mode s).2) := by
  simp only [settleSealed, e]

theorem settleSealed_sealedPlan (s : State) : (settleSealed s).1.layout.sealedPlan = none := by
  cases e : s.layout.sealedPlan with
  | none => rw [settleSealed_none e, e]
  | some sp =>
    rw [settleSealed_some e]
    rfl

/-- What step 1 of a commit makes of the live plan. -/
theorem settleSealed_plan {sp : SealedPlan} (e : s.layout.sealedPlan = some sp) : (settleSealed s).1.layout.plan =
    if sp.mode = .keep ∧ keepConflict sp.plan s ≠ none then s.layout.plan else sp.plan := by
  rw [settleSealed_some e]
  exact (settlePlan_plan (fun res fields u => by rw [placeDeferred_eq]; rfl) sp.plan sp.mode s).1

/-! ### The sets -/

/-- What the application of the sets leaves beside the table and the order lists. -/
structure Applied (s t : State) : Prop where
  ports : t.ports = s.ports
  links : t.links = s.links
  sources : t.sources = s.sources
  marks : t.marks = s.marks
  plan : t.layout.plan = s.layout.plan
  sealedPlan : t.layout.sealedPlan = s.layout.sealedPlan
  retiring : t.layout.retiring = s.layout.retiring
  length : t.layout.slots.length = s.layout.slots.length
  panel : SamePanel s t

theorem Applied.refl (s : State) : Applied s s := ⟨rfl, rfl, rfl, rfl, rfl, rfl, rfl, rfl, .refl s⟩

theorem Applied.trans {u : State} (h : Applied s t) (g : Applied t u) : Applied s u :=
  ⟨g.ports.trans h.ports, g.links.trans h.links, g.sources.trans h.sources, g.marks.trans h.marks, g.plan.trans h.plan,
    g.sealedPlan.trans h.sealedPlan, g.retiring.trans h.retiring, g.length.trans h.length, h.panel.trans g.panel⟩

theorem applySet_applied (p : PortId) (s : State) : Applied s (applySet p s).1 := by
  rcases applySet_cases p s with ⟨-, e⟩ | ⟨pr, -, e⟩ <;> rw [e]
  · exact .refl s
  · exact ⟨rfl, rfl, rfl, rfl, rfl, rfl, rfl, mapSlotsFrom_length _ _ _, ⟨rfl, rfl, rfl⟩⟩

theorem applySet_lay_none (hs : (s.lay p).sealedSet = none) : (applySet p s).1 = s := by
  rcases applySet_cases p s with ⟨-, e⟩ | ⟨pr, e, -⟩
  · rw [e]
  · exact nomatch hs.symm.trans e

/-- The part of a port after its set, if one waits, is applied. -/
def PortLayout.applied (l : PortLayout) : PortLayout :=
  match l.sealedSet with
  | none => l
  | some pr => { l with order := pr.ids, sealedSet := none }

theorem PortLayout.applied_sealedSet (l : PortLayout) : l.applied.sealedSet = none := by
  unfold PortLayout.applied
  split
  · assumption
  · rfl

theorem applySet_layout (p : PortId) (s : State) (q : PortId) :
    (applySet p s).1.lay q = if q = p then (s.lay p).applied else s.lay q := by
  unfold PortLayout.applied
  cases hs : (s.lay p).sealedSet with
  | none =>
    rw [applySet_lay_none hs]
    split
    · rename_i e
      rw [e]
    · rfl
  | some pr => exact applySet_lay hs q

/-- The fold over the ports that applies the sets. -/
theorem applySets_eq (s : State) : (applySets s).1.1 = PortId.all.foldl (fun u p => (applySet p u).1) s := by
  have key : ∀ (ps : List PortId) (x : State × List Report),
      (ps.foldl (fun sr p => let r := applySet p sr.1; (r.1, sr.2 ++ r.2)) x).1 =
        ps.foldl (fun u p => (applySet p u).1) x.1 := by
    intro ps
    induction ps with
    | nil => exact fun _ => rfl
    | cons p ps ih => exact fun x => ih _
  exact key PortId.all (s, [])

theorem applySets_applied (s : State) : Applied s (applySets s).1.1 := by
  rw [applySets_eq]
  exact foldl_related Applied.refl (fun _ _ _ => .trans) (fun s p => applySet_applied p s) PortId.all s

theorem applySets_lay (s : State) (q : PortId) : (applySets s).1.1.lay q = (s.lay q).applied := by
  rw [applySets_eq]
  simp only [PortId.all, List.foldl_cons, List.foldl_nil, applySet_layout]
  cases q <;> simp

/-! ### The whole commit -/

/-- The ports whose sets a commit applies. -/
theorem applySets_snd (s : State) : (applySets s).2 = PortId.all.filter fun p => (s.lay p).sealedSet.isSome := rfl

/-- A Port Controller after the response of step 3 (R77), the set of its port being applied or not. -/
def PortController.answeredSet (l : PortLayout) (frame : List Byte) (c : PortController) : PortController :=
  if l.sealedSet.isSome then c.paid .publish .done (l.applied.editState.byte :: frame) else c

theorem foldl_answerApplied (ps : List PortId) (nodup : ps.Nodup) (s : State) (q : PortId) :
    (ps.foldl answerApplied s).port q = if q ∈ ps then
      (s.port q).paid .publish .done ((s.editState q).byte :: s.frameField) else s.port q := by
  induction ps generalizing s with
  | nil => rfl
  | cons p ps ih =>
    obtain ⟨hp, hps⟩ := List.nodup_cons.mp nodup
    rw [List.foldl_cons, ih hps, answerApplied, placeDeferred_eq]
    by_cases hq : q = p
    · subst hq
      simp [hp]
    · simp [hq]

/-- The state of a commit before the notices of step 1 and the reports go out. -/
def committed (s : State) : State :=
  (applySets (retireListed (settleSealed s).1).1).2.foldl answerApplied
    (advanceGenerations s (applySets (retireListed (settleSealed s).1).1).1.1)

/-- The reports of a commit. -/
def commitReports (s : State) : List Report :=
  (settleSealed s).2.reports ++ (retireListed (settleSealed s).1).2 ++ (applySets (retireListed (settleSealed s).1).1).1.2

theorem commit_eq (s : State) : commit s =
    releaseEngines (handCommitReports (commitReports s) (storeNotices (settleSealed s).2.notices (committed s))) := rfl

theorem commit_layout (s : State) : (commit s).layout =
    (advanceGenerations s (applySets (retireListed (settleSealed s).1).1).1.1).layout := by
  rw [commit_eq]
  exact (releaseEngines_sameBlocks _).layout.trans
    ((storeNotices_only _ _).layout.trans (answerApplied_sameBlocks _ _).layout)

theorem commit_sources (s : State) : (commit s).sources = (retireListed (settleSealed s).1).1.sources := by
  rw [commit_eq]
  exact (releaseEngines_sameBlocks _).sources.trans ((storeNotices_only _ _).sources.trans
    ((answerApplied_sameBlocks _ _).sources.trans (applySets_applied _).sources))

theorem commit_lay (s : State) (p : PortId) :
    (commit s).lay p = ((retireListed (settleSealed s).1).1.lay p).applied := by
  rw [State.lay, commit_layout]
  exact applySets_lay _ p

theorem PortController.Alike.ready {c d : PortController} (h : c.Alike d) :
    { c with engine := .ready }.Alike { d with engine := .ready } := by
  obtain ⟨e, n⟩ := h
  refine ⟨?_, fun away => by rw [n away]⟩
  cases d
  simp_all

/-- The Port Controller of a port after a commit, but for the notices of step 1. -/
theorem commit_port (s : State) (p : PortId) :
    { ((retireListed (settleSealed s).1).1.port p).answeredSet ((retireListed (settleSealed s).1).1.lay p) s.frameField with
      engine := .ready }.Alike ((commit s).port p) := by
  generalize hb : (retireListed (settleSealed s).1).1 = b
  have frame : b.scan = s.scan := by
    subst hb
    have settled : SamePanel s (settleSealed s).1 := (Chain.still (h := none) acts_settleSealed).panel
    exact (retireListed_samePanel _).scan.trans settled.scan
  have answered : (committed s).port p = (b.port p).answeredSet (b.lay p) s.frameField := by
    unfold committed PortController.answeredSet
    rw [hb, applySets_snd, foldl_answerApplied _ ((show PortId.all.Nodup by decide).filter _) _ p]
    have port : (advanceGenerations s (applySets b).1.1).port p = b.port p := by
      show (applySets b).1.1.port p = _
      rw [State.port, (applySets_applied b).ports]
      rfl
    have edit : (advanceGenerations s (applySets b).1.1).editState p = (b.lay p).applied.editState := by
      show ((applySets b).1.1.lay p).editState = _
      rw [applySets_lay]
    have field : (advanceGenerations s (applySets b).1.1).frameField = s.frameField := by
      show frameBytes (applySets b).1.1.scan.frame = _
      rw [(applySets_applied b).panel.scan, frame]
      rfl
    have mem : p ∈ (PortId.all.filter fun p => (b.lay p).sealedSet.isSome) ↔ (b.lay p).sealedSet.isSome = true := by
      rw [List.mem_filter]
      cases p <;> simp [PortId.all]
    rw [port, edit, field]
    simp only [mem]
  rw [commit_eq, releaseEngines_port, ← answered]
  have told := storeNotices_alike (settleSealed s).2.notices p (committed s)
  exact told.ready

/-- Nothing waits at the Layout Store after a commit (R41, R84). -/
theorem commit_clears (s : State) : (commit s).layout.sealedPlan = none ∧ (commit s).layout.retiring = [] ∧
    ∀ p, ((commit s).lay p).sealedSet = none := by
  refine ⟨?_, ?_, fun p => ?_⟩
  · rw [commit_layout]
    exact (applySets_applied _).sealedPlan.trans ((retireListed_retired _).sealedPlan.trans (settleSealed_sealedPlan s))
  · rw [commit_layout]
    exact (applySets_applied _).retiring.trans (retireListed_retired _).retiring
  · rw [commit_lay]
    exact PortLayout.applied_sealedSet _

theorem commit_plan (s : State) : (commit s).layout.plan = (settleSealed s).1.layout.plan := by
  rw [commit_layout]
  exact (applySets_applied _).plan.trans (retireListed_retired _).plan
end

end Sys2Proof.Machine
end

