-- ==== Sys2Proof/Proofs/PlanRows.lean ====
section
/-! PROOFS. The validity of a plan, row by row (R91): the row that fails first names the port, and a plan that fails no row
obeys the conditions of a live plan. -/

namespace Sys2Proof.Machine

/-! ### The first port with a property -/

/-- If a port has a property, one of them is the first. -/
theorem PortId.exists_first {P : PortId → Prop} (h : ∃ q, P q) : ∃ q, P q ∧ ∀ j : PortId, j.toNat < q.toNat → ¬P j := by
  classical
  by_cases h0 : P .p0
  · exact ⟨.p0, h0, fun j hj => absurd hj (Nat.not_lt_zero _)⟩
  by_cases h1 : P .p1
  · exact ⟨.p1, h1, fun j hj => by cases j <;> simp_all [PortId.toNat]⟩
  by_cases h2 : P .p2
  · exact ⟨.p2, h2, fun j hj => by cases j <;> simp_all [PortId.toNat]⟩
  obtain ⟨q, hq⟩ := h
  exact ⟨.p3, by cases q <;> simp_all, fun j hj => by cases j <;> simp_all [PortId.toNat]⟩

/-- A number of each port, in port order. -/
def portList (f : PortId → Nat) : List (PortId × Nat) := PortId.all.map fun p => (p, f p)

section
variable {w h : Nat} {es : PerPort RawEntry}

/-! ### The rows -/

theorem RawEntry.ok_iff (e : RawEntry) : e.ok w h = true ↔ e.Valid w h := by
  unfold RawEntry.ok RawEntry.Valid
  by_cases he : e.enabled = 1
  · simp [he]
    omega
  · simp [he]
    omega

theorem sumFault_of_breaksSum {limit : Nat} {f : PortId → Nat} {q : PortId} (b : breaksSum limit f q) :
    sumFault limit 0 (portList f) = some q := by
  obtain ⟨above, before⟩ := b
  simp only [portList, PortId.all, List.map_cons, List.map_nil, sumFault]
  cases q
  case p0 =>
    rw [if_pos (by simpa [sumUpTo] using above)]
  case p1 =>
    have h0 := before .p0 (by decide)
    simp only [sumUpTo] at above h0
    rw [if_neg (by omega), if_pos (by omega)]
  case p2 =>
    have h0 := before .p0 (by decide)
    have h1 := before .p1 (by decide)
    simp only [sumUpTo] at above h0 h1
    rw [if_neg (by omega), if_neg (by omega), if_pos (by omega)]
  case p3 =>
    have h0 := before .p0 (by decide)
    have h1 := before .p1 (by decide)
    have h2 := before .p2 (by decide)
    simp only [sumUpTo] at above h0 h1 h2
    rw [if_neg (by omega), if_neg (by omega), if_neg (by omega), if_pos (by omega)]

/-- If no port brings the sum above the limit, the whole sum keeps it. -/
theorem sum_le_of_not_breaksSum {limit : Nat} {f : PortId → Nat} (n : ∀ q, ¬breaksSum limit f q) : sumUpTo f .p3 ≤ limit := by
  by_contra above
  obtain ⟨i, hi, before⟩ := PortId.exists_first (P := fun q => limit < sumUpTo f q) ⟨.p3, Nat.not_le.mp above⟩
  exact n i ⟨hi, fun j hj => Nat.not_lt.mp (before j hj)⟩

theorem sumFault_eq_none {limit : Nat} {f : PortId → Nat} (le : sumUpTo f .p3 ≤ limit) :
    sumFault limit 0 (portList f) = none := by
  simp only [sumUpTo] at le
  simp only [portList, PortId.all, List.map_cons, List.map_nil, sumFault]
  rw [if_neg (by omega), if_neg (by omega), if_neg (by omega), if_neg (by omega)]

/-- A port has the number of a lower-numbered one. -/
def repeats (f : PortId → Nat) (q : PortId) : Prop := ∃ j : PortId, j.toNat < q.toNat ∧ f j = f q

theorem repeatFault_of_repeats {f : PortId → Nat} {q : PortId} (r : repeats f q)
    (before : ∀ i : PortId, i.toNat < q.toNat → ¬repeats f i) : repeatFault [] (portList f) = some q := by
  obtain ⟨j, hj, e⟩ := r
  have apart : ∀ i : PortId, i.toNat < q.toNat → ∀ j : PortId, j.toNat < i.toNat → f j ≠ f i :=
    fun i hi j hj e => before i hi ⟨j, hj, e⟩
  simp only [portList, PortId.all, List.map_cons, List.map_nil, repeatFault]
  cases q
  case p0 => exact absurd hj (Nat.not_lt_zero _)
  case p1 =>
    cases j
    case p0 => simp [e]
    all_goals exact absurd hj (by decide)
  case p2 =>
    have h10 := apart .p1 (by decide) .p0 (by decide)
    cases j
    case p0 => simp [e, e ▸ h10.symm]
    case p1 => simp [e, e ▸ h10.symm]
    all_goals exact absurd hj (by decide)
  case p3 =>
    have h10 := apart .p1 (by decide) .p0 (by decide)
    have h20 := apart .p2 (by decide) .p0 (by decide)
    have h21 := apart .p2 (by decide) .p1 (by decide)
    cases j
    case p0 => simp [e, e ▸ h10.symm, e ▸ h20.symm, h21.symm]
    case p1 => simp [e, e ▸ h10.symm, h20.symm, e ▸ h21.symm]
    case p2 => simp [e, h10.symm, e ▸ h20.symm, e ▸ h21.symm]
    all_goals exact absurd hj (by decide)

theorem repeatFault_eq_none {f : PortId → Nat} (n : ∀ q, ¬repeats f q) : repeatFault [] (portList f) = none := by
  have apart : ∀ i j : PortId, j.toNat < i.toNat → f j ≠ f i := fun i j hj e => n i ⟨j, hj, e⟩
  have h10 := apart .p1 .p0 (by decide)
  have h20 := apart .p2 .p0 (by decide)
  have h21 := apart .p2 .p1 (by decide)
  have h30 := apart .p3 .p0 (by decide)
  have h31 := apart .p3 .p1 (by decide)
  have h32 := apart .p3 .p2 (by decide)
  simp [portList, PortId.all, repeatFault, Ne.symm h10, Ne.symm h20, Ne.symm h21, Ne.symm h30, Ne.symm h31, Ne.symm h32]

/-- The last rows: the port that holds the guard right behind another, or one alone with a rank other than 3. -/
def guardRow (es : PerPort RawEntry) : Option PortId :=
  match (entryList es).filter fun pe => pe.2.guard == 1 with
  | [] => none
  | [pe] => if pe.2.rank = 3 then none else some pe.1
  | _ :: pe :: _ => some pe.1

/-- Among four ports, the second one with a property, and one that is alone with it. -/
theorem filter_all_second : ∀ b0 b1 b2 b3 : Bool, ∀ q ∈ PortId.all, ∀ j ∈ PortId.all,
    PerPort.get ⟨b0, b1, b2, b3⟩ q = true → j.toNat < q.toNat → PerPort.get ⟨b0, b1, b2, b3⟩ j = true →
    (∀ i ∈ PortId.all, i.toNat < q.toNat → PerPort.get ⟨b0, b1, b2, b3⟩ i = true → i = j) →
    (PortId.all.filter (PerPort.get ⟨b0, b1, b2, b3⟩)).take 2 = [j, q] := by decide

theorem filter_all_single : ∀ b0 b1 b2 b3 : Bool, ∀ q ∈ PortId.all, PerPort.get ⟨b0, b1, b2, b3⟩ q = true →
    (∀ i ∈ PortId.all, PerPort.get ⟨b0, b1, b2, b3⟩ i = true → i = q) →
    PortId.all.filter (PerPort.get ⟨b0, b1, b2, b3⟩) = [q] := by decide

/-- The ports that hold the guard right. -/
def guardHolders (es : PerPort RawEntry) : List PortId := PortId.all.filter fun p => (es.get p).guard == 1

theorem guardHolders_eq (es : PerPort RawEntry) : guardHolders es =
    PortId.all.filter (PerPort.get ⟨es.p0.guard == 1, es.p1.guard == 1, es.p2.guard == 1, es.p3.guard == 1⟩) :=
  List.filter_congr fun p _ => by cases p <;> rfl

theorem get_guards (es : PerPort RawEntry) (p : PortId) :
    PerPort.get ⟨es.p0.guard == 1, es.p1.guard == 1, es.p2.guard == 1, es.p3.guard == 1⟩ p = true ↔ (es.get p).guard = 1 := by
  cases p <;> simp [PerPort.get]

theorem guardRow_eq (es : PerPort RawEntry) : (entryList es).filter (fun pe => pe.2.guard == 1) =
    (guardHolders es).map fun p => (p, es.get p) := by
  unfold entryList guardHolders
  rw [List.filter_map]
  rfl

theorem guardRow_of_second {q : PortId} (b : planCheck w h es 6 q) : guardRow es = some q := by
  obtain ⟨hq, j, hj, hg, only⟩ := b
  have two := filter_all_second _ _ _ _ q (PortId.mem_all q) j (PortId.mem_all j) ((get_guards es q).mpr hq) hj
    ((get_guards es j).mpr hg) fun i _ lt g => only i lt ((get_guards es i).mp g)
  rw [← guardHolders_eq] at two
  unfold guardRow
  rw [guardRow_eq]
  match e : guardHolders es, two with
  | _ :: _ :: _, two =>
    obtain ⟨rfl, rfl⟩ : _ = j ∧ _ = q := by simpa using two
    rfl

/-- Where row 6 does not fail, one port at most holds the guard right. -/
theorem guard_unique (single : ∀ k, ¬planCheck w h es 6 k) {i j : PortId} (hi : (es.get i).guard = 1)
    (hj : (es.get j).guard = 1) : i = j := by
  have below : ∀ i j : PortId, (es.get i).guard = 1 → (es.get j).guard = 1 → ¬j.toNat < i.toNat := by
    intro i j hi hj lt
    obtain ⟨q, ⟨hq, k, hk, gk⟩, before⟩ := PortId.exists_first
      (P := fun q => (es.get q).guard = 1 ∧ ∃ j : PortId, j.toNat < q.toNat ∧ (es.get j).guard = 1) ⟨i, hi, j, lt, hj⟩
    refine single q ⟨hq, k, hk, gk, fun m hm gm => ?_⟩
    by_contra n
    rcases Nat.lt_trichotomy m.toNat k.toNat with l | l | l
    · exact before k hk ⟨gk, m, l, gm⟩
    · exact n (by cases m <;> cases k <;> simp_all [PortId.toNat])
    · exact before m hm ⟨gm, k, l, gk⟩
  rcases Nat.lt_trichotomy i.toNat j.toNat with l | l | l
  · exact absurd l (below j i hj hi)
  · cases i <;> cases j <;> simp_all [PortId.toNat]
  · exact absurd l (below i j hi hj)

theorem guardHolders_single (single : ∀ k, ¬planCheck w h es 6 k) {q : PortId} (hq : (es.get q).guard = 1) :
    guardHolders es = [q] := by
  rw [guardHolders_eq]
  exact filter_all_single _ _ _ _ q (PortId.mem_all q) ((get_guards es q).mpr hq) fun i _ g =>
    guard_unique single ((get_guards es i).mp g) hq

theorem guardRow_of_rank {q : PortId} (b : planCheck w h es 7 q) (single : ∀ k, ¬planCheck w h es 6 k) :
    guardRow es = some q := by
  unfold guardRow
  rw [guardRow_eq, guardHolders_single single b.1]
  exact if_neg b.2

theorem guardRow_eq_none (single : ∀ k, ¬planCheck w h es 6 k) (rank : ∀ k, ¬planCheck w h es 7 k) : guardRow es = none := by
  unfold guardRow
  rw [guardRow_eq]
  by_cases g : ∃ q, (es.get q).guard = 1
  · obtain ⟨q, hq⟩ := g
    rw [guardHolders_single single hq]
    exact if_pos (not_not.mp fun n => rank q ⟨hq, n⟩)
  · have none : guardHolders es = [] := List.filter_eq_nil_iff.mpr fun p _ e => g ⟨p, by simpa using e⟩
    rw [none]
    rfl

/-! ### The table -/

/-- The checks of R91 in their order. -/
theorem planFault_eq (w h : Nat) (es : PerPort RawEntry) : planFault w h es =
    if es.p0.enabled ≠ 1 then some .p0
    else (PortId.all.find? fun p => !(es.get p).ok w h).or
      ((sumFault 24 0 (portList fun p => (es.get p).quota)).or
        ((sumFault 8 0 (portList fun p => (es.get p).share)).or
          ((repeatFault [] (portList fun p => (es.get p).rank)).or (guardRow es)))) := by
  have found : ((entryList es).find? fun pe => !pe.2.ok w h) =
      (PortId.all.find? fun p => !(es.get p).ok w h).map fun p => (p, es.get p) := List.find?_map ..
  have lists : ∀ f : RawEntry → Nat, ((entryList es).map fun pe => (pe.1, f pe.2)) = portList fun p => f (es.get p) :=
    fun _ => rfl
  unfold planFault
  rw [found, lists, lists, lists]
  split
  · rfl
  · cases PortId.all.find? fun p => !(es.get p).ok w h with
    | some p => rfl
    | none =>
      cases sumFault 24 0 (portList fun p => (es.get p).quota) with
      | some p => rfl
      | none =>
        cases sumFault 8 0 (portList fun p => (es.get p).share) with
        | some p => rfl
        | none => cases repeatFault [] (portList fun p => (es.get p).rank) <;> rfl

theorem valid_of_not_check (n : ∀ k, ¬planCheck w h es 2 k) (p : PortId) : (es.get p).Valid w h := by
  by_contra bad
  obtain ⟨q, hq, before⟩ := PortId.exists_first (P := fun q => ¬(es.get q).Valid w h) ⟨p, bad⟩
  exact n q ⟨hq, fun j hj => not_not.mp (before j hj)⟩

theorem find?_valid (n : ∀ k, ¬planCheck w h es 2 k) : (PortId.all.find? fun p => !(es.get p).ok w h) = none :=
  PortId.find?_all_eq_none fun q => by simp [RawEntry.ok_iff, valid_of_not_check n q]

theorem not_repeats_of_not_check (n : ∀ k, ¬planCheck w h es 5 k) (q : PortId) : ¬repeats (fun p => (es.get p).rank) q := by
  intro r
  obtain ⟨i, hi, before⟩ := PortId.exists_first (P := repeats fun p => (es.get p).rank) ⟨q, r⟩
  exact n i ⟨hi, fun i' j hi' hj e => before i' hi' ⟨j, hj, e⟩⟩

/-- The row that fails first names the port. -/
theorem planFault_of_check {i : Nat} {q : PortId} (b : planCheck w h es i q) (first : ∀ j < i, ∀ k, ¬planCheck w h es j k) :
    planFault w h es = some q := by
  have enabled : 1 < i → es.p0.enabled = 1 := fun lt => not_not.mp fun n => first 1 lt .p0 ⟨n, rfl⟩
  have valid : 2 < i → _ := fun lt => find?_valid (first 2 lt)
  have quota : 3 < i → _ := fun lt => sumFault_eq_none (sum_le_of_not_breaksSum (first 3 lt))
  have share : 4 < i → _ := fun lt => sumFault_eq_none (sum_le_of_not_breaksSum (first 4 lt))
  have rank : 5 < i → _ := fun lt => repeatFault_eq_none (not_repeats_of_not_check (first 5 lt))
  rw [planFault_eq]
  match i, b with
  | 1, b =>
    obtain ⟨n, rfl⟩ := b
    exact if_pos n
  | 2, b =>
    obtain ⟨bad, before⟩ := b
    rw [if_neg (by simp [enabled]), PortId.find?_all_eq_some (q := q) (by simpa only [Bool.not_eq_true', Bool.eq_false_iff, ne_eq, RawEntry.ok_iff] using bad)
      fun j hj => by simpa [RawEntry.ok_iff] using before j hj]
    rfl
  | 3, b => simp [enabled, valid, sumFault_of_breaksSum b]
  | 4, b => simp [enabled, valid, quota, sumFault_of_breaksSum b]
  | 5, b =>
    obtain ⟨r, before⟩ := b
    simp [enabled, valid, quota, share, repeatFault_of_repeats r fun i hi ⟨j, hj, e⟩ => before i j hi hj e]
  | 6, b => simp [enabled, valid, quota, share, rank, guardRow_of_second b]
  | 7, b => simp [enabled, valid, quota, share, rank, guardRow_of_rank b (first 6 (by decide))]

/-- A plan is valid exactly if it fails no row. -/
theorem planFault_eq_none_iff : planFault w h es = none ↔ ∀ i q, ¬planCheck w h es i q := by
  classical
  constructor
  · intro e i q b
    have some : ∃ i, ∃ q, planCheck w h es i q := ⟨i, q, b⟩
    obtain ⟨k, hk⟩ := Nat.find_spec some
    exact nomatch e.symm.trans (planFault_of_check hk fun j lt k' b' => Nat.find_min some lt ⟨k', b'⟩)
  · intro n
    have enabled : es.p0.enabled = 1 := not_not.mp fun e => n 1 .p0 ⟨e, rfl⟩
    rw [planFault_eq, if_neg (by simp [enabled]), find?_valid (n 2), sumFault_eq_none (sum_le_of_not_breaksSum (n 3)),
      sumFault_eq_none (sum_le_of_not_breaksSum (n 4)), repeatFault_eq_none (not_repeats_of_not_check (n 5)),
      guardRow_eq_none (n 6) (n 7)]
    rfl

/-- Four different ranks up to 3 are all of them. -/
theorem exists_rank {f : PortId → Nat} (le : ∀ p, f p ≤ 3) (n : ∀ q, ¬repeats f q) {r : Nat} (hr : r < 4) : ∃ p, f p = r := by
  by_contra none
  have ne : ∀ p, f p ≠ r := fun p e => none ⟨p, e⟩
  have apart : ∀ i j : PortId, j.toNat < i.toNat → f j ≠ f i := fun i j hj e => n i ⟨j, hj, e⟩
  have h10 := apart .p1 .p0 (by decide)
  have h20 := apart .p2 .p0 (by decide)
  have h21 := apart .p2 .p1 (by decide)
  have h30 := apart .p3 .p0 (by decide)
  have h31 := apart .p3 .p1 (by decide)
  have h32 := apart .p3 .p2 (by decide)
  have l0 := le .p0
  have l1 := le .p1
  have l2 := le .p2
  have l3 := le .p3
  have n0 := ne .p0
  have n1 := ne .p1
  have n2 := ne .p2
  have n3 := ne .p3
  omega

/-- A plan that fails no row obeys the conditions of a live plan (R89, R91). -/
theorem paramPlan_lawful {ps : List Byte} (valid : planFault w h (rawEntries ps) = none) : (paramPlan ps).Lawful w h := by
  have n := planFault_eq_none_iff.mp valid
  have entry : ∀ p, (paramPlan ps).entries.get p = ((rawEntries ps).get p).entry := fun p => by cases p <;> rfl
  have ok := valid_of_not_check (n 2)
  have enabled : (rawEntries ps).p0.enabled = 1 := not_not.mp fun e => n 1 .p0 ⟨e, rfl⟩
  refine ⟨beq_iff_eq.mpr enabled, sum_le_of_not_breaksSum (n 3), sum_le_of_not_breaksSum (n 4),
    fun p => ?_, fun r hr => ?_⟩
  · rw [entry]
    have ok' := ok p
    unfold RawEntry.Valid at ok'
    obtain ⟨e1, g1, l1, l7, t1, t15, -, -, -, off, on⟩ := ok'
    refine ⟨fun e => ?_, fun e => on (by simpa [RawEntry.entry] using e), fun g => ?_, l1, l7, t1, t15⟩
    · have zero : ((rawEntries ps).get p).enabled = 0 := by
        have : ((rawEntries ps).get p).enabled ≠ 1 := by simpa [RawEntry.entry] using e
        omega
      obtain ⟨a, b, c, d, e, f, -⟩ := off zero
      exact ⟨a, b, c, d, e, f⟩
    · have guard : ((rawEntries ps).get p).guard = 1 := by simpa [RawEntry.entry] using g
      have rank : ((rawEntries ps).get p).rank = 3 := not_not.mp fun ne => n 7 p ⟨guard, ne⟩
      refine ⟨?_, rank⟩
      have : ((rawEntries ps).get p).enabled ≠ 0 := fun z => by
        have := (off z).2.2.2.2.2.2
        omega
      have : ((rawEntries ps).get p).enabled = 1 := by omega
      simp [RawEntry.entry, this]
  · obtain ⟨p, e⟩ := exists_rank (f := fun p => ((rawEntries ps).get p).rank)
      (fun p => by
        have ok' := ok p
        unfold RawEntry.Valid at ok'
        obtain ⟨-, -, -, -, -, -, -, -, rank, -⟩ := ok'
        exact rank) (not_repeats_of_not_check (n 5)) hr
    exact ⟨p, by rw [entry]; exact e⟩
end

end Sys2Proof.Machine
end

