-- ==== Sys2Proof/Proofs/PlanKept.lean ====
section
/-! PROOFS. The plan law and the enablement law over every move (R89, R102, R166, R167, R169). -/

namespace Sys2Proof.Machine

section
variable {h h' : Option PortId} {p q : PortId} {s t : State}

/-! ### The plans -/

/-- The setup is in range, and the live plan and a sealed one obey the conditions of 5.1 for it. -/
structure Planned (s : State) : Prop where
  setup : s.scan.setup.Lawful
  plan : s.layout.plan.Lawful s.scan.setup.w s.scan.setup.h
  sealedPlan : ∀ sp, s.layout.sealedPlan = some sp → sp.plan.Lawful s.scan.setup.w s.scan.setup.h

theorem State.PlanLaw.planned (j : s.PlanLaw) : Planned s := ⟨j.1, j.2.1, fun sp e => (j.2.2 sp e).1⟩

theorem Planned.planLaw (j : Planned s) (waits : s.layout.sealedPlan ≠ none → s.scan.panel ≠ .dark) : s.PlanLaw :=
  ⟨j.setup, j.plan, fun sp e => ⟨j.sealedPlan sp e, waits (by simp [e])⟩⟩

theorem Planned.same (j : Planned s) (plan : t.layout.plan = s.layout.plan)
    (waits : t.layout.sealedPlan = s.layout.sealedPlan ∨ t.layout.sealedPlan = none) (setup : t.scan.setup = s.scan.setup) :
    Planned t := by
  refine ⟨by rw [setup]; exact j.setup, by rw [plan, setup]; exact j.plan, fun sp e => ?_⟩
  rcases waits with w | w
  · rw [setup]
    exact j.sealedPlan sp (w ▸ e)
  · exact nomatch w.symm.trans e

theorem planLaw_of_same (j : s.PlanLaw) (plan : t.layout.plan = s.layout.plan)
    (waits : t.layout.sealedPlan = s.layout.sealedPlan ∨ t.layout.sealedPlan = none) (setup : t.scan.setup = s.scan.setup)
    (runs : s.scan.panel ≠ .dark → t.scan.panel ≠ .dark) : t.PlanLaw := by
  refine (j.planned.same plan waits setup).planLaw fun n => ?_
  have e : t.layout.sealedPlan = s.layout.sealedPlan := waits.resolve_right n
  obtain ⟨sp, e'⟩ := Option.ne_none_iff_exists'.mp (e ▸ n)
  exact runs (j.2.2 sp e').2

theorem planLaw_of_layout (j : s.PlanLaw) (layout : t.layout = s.layout) (scan : t.scan = s.scan) : t.PlanLaw :=
  planLaw_of_same j (by rw [layout]) (.inl (by rw [layout])) (by rw [scan]) (by rw [scan]; exact id)

theorem Calmer.planLaw (g : Calmer s t) (j : s.PlanLaw) : t.PlanLaw :=
  planLaw_of_same j (by rw [g.calm.layout]) (.inl (by rw [g.calm.layout])) g.calm.setup g.runs

theorem commit_planned (j : Planned s) : Planned (commit s) := by
  have scan : (commit s).scan = s.scan := (commit_samePanel s).scan
  refine ⟨by rw [scan]; exact j.setup, ?_, fun sp e => nomatch (commit_clears s).1.symm.trans e⟩
  rw [commit_plan, scan]
  cases e : s.layout.sealedPlan with
  | none =>
    rw [settleSealed_none e]
    exact j.plan
  | some sp =>
    rw [settleSealed_plan e]
    split
    · exact j.plan
    · exact j.sealedPlan sp e

theorem Works.planned (g : Works s t) (j : Planned s) : Planned t :=
  g.keeps (fun c j => j.same (by rw [c.calm.layout]) (.inl (by rw [c.calm.layout])) c.calm.setup) commit_planned j

theorem takeReports_planLaw (j : s.PlanLaw) : (takeReports s).PlanLaw :=
  planLaw_of_layout j (takeReports_layout s) (takeReports_scan s)

/-- The setting of a setup that every enabled territory fits (R148). -/
theorem Planned.setup_taken (j : Planned s) {u : Setup} (range : u.inRange = true) (fits : setupFault u s = none)
    (unsealed : s.layout.sealedPlan = none) : Planned (s.setScan { s.scan with setup := u }) := by
  refine ⟨(Setup.inRange_iff u).mp range, ?_, fun sp e => nomatch unsealed.symm.trans e⟩
  obtain ⟨zero, quota, share, entries, ranks⟩ := j.plan
  refine ⟨zero, quota, share, fun p => ?_, ranks⟩
  obtain ⟨off, on, guard, counts⟩ := entries p
  refine ⟨off, fun e => ?_, guard, counts⟩
  obtain ⟨tw, th, -, -⟩ := on e
  have fit : u.w < (s.entry p).tx + (s.entry p).tw ∨ u.h < (s.entry p).ty + (s.entry p).th → False := fun out =>
    List.find?_eq_none.mp fits p (PortId.mem_all p) (by
      have on : (s.entry p).enabled = true := e
      simpa [on] using out)
  rw [imp_false, not_or, Nat.not_lt, Nat.not_lt] at fit
  exact ⟨tw, th, fit.1, fit.2⟩

theorem DraftMove.plans (m : DraftMove p s t) : t.layout.plan = s.layout.plan ∧ t.layout.sealedPlan = s.layout.sealedPlan ∧
    t.scan = s.scan := by
  cases m <;> exact ⟨rfl, rfl, rfl⟩

theorem retireIfDark_plans (s : State) : (retireIfDark s).layout.plan = s.layout.plan ∧
    (retireIfDark s).layout.sealedPlan = s.layout.sealedPlan ∧ (retireIfDark s).scan = s.scan := by
  unfold retireIfDark
  split
  · have g := retireListed_retired s
    rw [takeReports_layout, takeReports_scan]
    exact ⟨g.plan, g.sealedPlan, g.panel.scan⟩
  · exact ⟨rfl, rfl, rfl⟩

theorem left_planLaw (j : s.PlanLaw) (reason : LeaveReason) (own : Option Response) :
    (retireIfDark (enterLeaving p reason own s)).PlanLaw := by
  obtain ⟨plan, sealedPlan, scan⟩ := retireIfDark_plans (enterLeaving p reason own s)
  have left := enterLeaving_left (p := p) (reason := reason) (own := own) (s := s)
  rw [left.panel.scan] at scan
  refine planLaw_of_same j (plan.trans left.plan) ?_ (by rw [scan]) (by rw [scan]; exact id)
  rw [sealedPlan, enterLeaving_sealedPlan]
  split
  · exact .inr rfl
  · exact .inl rfl

theorem settleInDark_layout (r : Request) (new : Plan) (mode : PlanMode) (s : State) : (settleInDark r new mode s).layout =
    (advanceGenerations s (retireListed (settlePlan (respond .p0 r) new mode s).1).1).layout := by
  unfold settleInDark
  rw [takeReports_layout]
  exact (storeNotices_only _ _).layout

theorem settleInDark_scan (r : Request) (new : Plan) (mode : PlanMode) (s : State) :
    (settleInDark r new mode s).scan = s.scan :=
  (Chain.still (acts_settleInDark r new mode)).panel.scan

theorem settleInDark_planLaw (j : s.PlanLaw) (r : Request) {new : Plan} (mode : PlanMode)
    (valid : new.Lawful s.scan.setup.w s.scan.setup.h) (unsealed : s.layout.sealedPlan = none) :
    (settleInDark r new mode s).PlanLaw := by
  obtain ⟨plan, waits⟩ := settlePlan_plan (answer := respond .p0 r) (fun _ _ _ => rfl) new mode s
  have none : (settleInDark r new mode s).layout.sealedPlan = none := by
    rw [settleInDark_layout]
    refine (retireListed_retired _).sealedPlan.trans ?_
    rcases waits with w | w
    · exact w.trans unsealed
    · exact w
  refine Planned.planLaw ⟨?_, ?_, fun sp e => nomatch none.symm.trans e⟩ (fun n => absurd none n)
  · rw [settleInDark_scan]
    exact j.1
  · have same : (settleInDark r new mode s).layout.plan = (settlePlan (respond .p0 r) new mode s).1.layout.plan := by
      rw [settleInDark_layout]
      exact (retireListed_retired _).plan
    rw [same, settleInDark_scan, plan]
    split
    · exact j.2.1
    · exact valid

theorem applyInDark_plans (d : Proposal) (s : State) : (applyInDark p d s).layout.plan = s.layout.plan ∧
    (applyInDark p d s).layout.sealedPlan = s.layout.sealedPlan ∧ (applyInDark p d s).scan = s.scan := by
  have g := applySet_applied p (s.setLay p { s.lay p with draft := none, sealedSet := some d })
  unfold applyInDark
  rw [takeReports_layout, takeReports_scan]
  exact ⟨g.plan, g.sealedPlan, g.panel.scan⟩

theorem Move.planLaw (m : Move h s h' t) (j : s.PlanLaw) : t.PlanLaw := by
  have unit : ∀ (p : PortId) (v : SourceUnit), (settleUnit p (s.setUnit p v)).PlanLaw := fun p v =>
    planLaw_of_layout (s := s) j (settleUnit_calm p (s.setUnit p v)).layout (settleUnit_samePanel p (s.setUnit p v)).scan
  cases m with
  | queue move => exact planLaw_of_layout j move.sameBlocks.layout move.sameBlocks.panel.scan
  | draft _ _ move =>
    obtain ⟨plan, sealedPlan, scan⟩ := move.plans
    exact planLaw_of_same j plan (.inl sealedPlan) (by rw [scan]) (by rw [scan]; exact id)
  | block p => exact planLaw_of_layout j rfl rfl
  | depart _ p => exact planLaw_of_layout j (leaveIfDone_layout p s) (leaveIfDone_samePanel p s).scan
  | reports => exact takeReports_planLaw j
  | panel _ move =>
    cases move with
    | warmCount => exact (calmer_takeWarmCount s).planLaw j
    | setup u _ dark range fits =>
      have unsealed : s.layout.sealedPlan = none := Option.eq_none_iff_forall_ne_some.mpr fun sp e => (j.2.2 sp e).2 dark
      exact (j.planned.setup_taken range fits unsealed).planLaw fun n => absurd unsealed n
    | panelOff => exact (calmer_panelOff s).planLaw j
    | panelOn now =>
      exact ((works_startWarming now s).planned (takeReports_planLaw j).planned).planLaw fun _ => startWarming_runs now s
    | line l =>
      have calm := calm_startLine l (takeReports s)
      exact planLaw_of_same (takeReports_planLaw j) (by rw [calm.layout]) (.inl (by rw [calm.layout])) calm.setup
        (by rw [startLine_panel]; exact id)
  | sealSet p r d => exact planLaw_of_same j rfl (.inl rfl) rfl id
  | applySet p d =>
    obtain ⟨plan, sealedPlan, scan⟩ := applyInDark_plans (p := p) d s
    exact planLaw_of_same j plan (.inl sealedPlan) (by rw [scan]) (by rw [scan]; exact id)
  | sealPlan r mode _ _ _ _ _ valid runs =>
    refine Planned.planLaw ⟨j.1, j.2.1, fun sp e => ?_⟩ fun _ => runs
    obtain rfl := Option.some.inj e
    exact paramPlan_lawful valid
  | settlePlan r mode _ _ _ unsealed valid => exact settleInDark_planLaw j r mode (paramPlan_lawful valid) unsealed
  | attach p sw sh => exact planLaw_of_layout j rfl rfl
  | bye p r => exact left_planLaw j _ _
  | eject _ q => exact left_planLaw j _ _
  | format p => exact unit p _
  | packet p x _ runs =>
    unfold Machine.packet
    rw [if_pos runs]
    exact unit p _
  | judge p => exact (calmer_takeFrameStart p s).planLaw j
  | mark => exact planLaw_of_layout j rfl rfl
  | unmark => exact planLaw_of_layout j rfl rfl

theorem AnyMove.planLaw (m : AnyMove h s h' t) (j : s.PlanLaw) : t.PlanLaw := by
  cases m with
  | move move => exact move.planLaw j
  | restart r =>
    have scan : (restartBody .p0 r s).scan = s.scan := (Chain.still (acts_restartBody r)).panel.scan
    have layout : (restartBody .p0 r s).layout =
        { LayoutStore.reset with plan := .default (takeReports s).scan.setup.w (takeReports s).scan.setup.h } := by
      rw [restartBody_eq, (settleUnit_calm _ _).layout, (storeNotice_only _ _ _).layout]
      rfl
    have none : (restartBody .p0 r s).layout.sealedPlan = none := by rw [layout]; rfl
    refine Planned.planLaw ⟨by rw [scan]; exact j.1, ?_, fun sp e => nomatch none.symm.trans e⟩ fun n => absurd none n
    obtain ⟨w, -, h, -⟩ := j.1
    rw [layout, scan, takeReports_scan]
    exact Plan.default_Lawful (Nat.le_trans (by decide) w) (Nat.le_trans (by decide) h)
  | frame now _ runs =>
    have reports := takeReports_planLaw j
    have works := works_frame now (takeReports s)
    exact (works.planned reports.planned).planLaw fun _ => works.runs (by rw [takeReports_scan]; exact runs)
  | enterDark b =>
    obtain ⟨u, before, after⟩ := enterDark_commits b s
    have dark : Planned (darkened (takeReports s)) := (takeReports_planLaw j).planned.same rfl (.inl rfl) rfl
    have whole := ((Works.calm before).trans ((Works.commit u).trans (.calm after))).planned dark
    refine whole.planLaw fun n => absurd ?_ n
    rw [after.calm.layout]
    exact (commit_clears u).1
  | reset _ _ eq =>
    cases eq
    exact reset_PlanLaw
end

end Sys2Proof.Machine
end

