-- ==== Sys2Proof/Proofs/EnablementKept.lean ====
section
/-! PROOFS. The enablement law over every move: a port's attach state is in step with its entry in the live plan (R102, R166,
R167, R169). -/

namespace Sys2Proof.Machine

section
variable {h h' : Option PortId} {p q : PortId} {s t : State}

/-- An attach state is in step with the enabled field of an entry. -/
def Attach.InStep (on : Bool) (a : Attach) : Prop :=
  (a = .detached ∨ a = .attached → on = true) ∧ (a = .disabled → on = false)

/-- The port's attach state is in step with the live plan. -/
def InStep (s : State) (p : PortId) : Prop := (s.port p).attach.InStep (s.entry p).enabled

theorem InStep.same (j : InStep s p) (attach : (t.port p).attach = (s.port p).attach) (plan : t.layout.plan = s.layout.plan) :
    InStep t p := by
  unfold InStep State.entry
  rw [attach, plan]
  exact j

theorem Attach.inStep_leaving (on : Bool) (why : LeaveReason) (b : Bool) : Attach.InStep on (.leaving why b) := ⟨by simp, nofun⟩

/-- Where a port goes that leaves LEAVING. -/
theorem Attach.inStep_left (on : Bool) : Attach.InStep on (if on then .detached else .disabled) := by
  cases on
  · exact ⟨by simp, fun _ => rfl⟩
  · exact ⟨fun _ => rfl, nofun⟩

/-- A port told that its regions are retired stays in step. -/
theorem PortController.retired_inStep {on : Bool} {c : PortController} (j : c.attach.InStep on) :
    (c.retired on).attach.InStep on := by
  unfold PortController.retired
  dsimp only
  split
  · exact Attach.inStep_left on
  · cases hc : c.attach with
    | leaving why b => exact Attach.inStep_leaving _ _ _
    | _ =>
      rw [hc] at j
      exact j

theorem enterLeaving_inStep (reason : LeaveReason) (own : Option Response) (s : State) :
    InStep (enterLeaving p reason own s) p := by
  have left := enterLeaving_left (p := p) (reason := reason) (own := own) (s := s)
  have same : (enterLeaving p reason own s).entry p = s.entry p := by simp only [State.entry, left.plan]
  unfold InStep
  rw [left.port, same]
  split
  · exact PortController.retired_inStep (Attach.inStep_leaving _ _ _)
  · exact Attach.inStep_leaving _ _ _

/-- The handing over of enablement brings a port in step with the new plan. -/
theorem handIfChanged_inStep {old new : Plan} (j : (s.port p).attach.InStep (old.entries.get p).enabled)
    (plan : s.layout.plan = new) : InStep (handIfChanged old new s p) p := by
  have entry : s.entry p = new.entries.get p := by rw [State.entry, plan]
  unfold handIfChanged
  split
  · rename_i e
    unfold InStep
    rw [entry, ← e]
    exact j
  · unfold handEnablement
    dsimp only
    split
    · rename_i on
      unfold InStep
      simp only [restUnit, State.port_setUnit, State.port_setPort, if_true, State.entry_setUnit, State.entry_setPort, entry]
      exact ⟨fun _ => on, nofun⟩
    · rename_i off
      split
      · unfold InStep
        simp only [restUnit, State.port_setUnit, State.port_setPort, if_true, State.entry_setUnit, State.entry_setPort, entry]
        exact ⟨by simp, fun _ => off⟩
      · exact enterLeaving_inStep _ _ s
    · exact enterLeaving_inStep _ _ s
    · rename_i disabled detached attached
      unfold InStep
      rw [entry]
      refine ⟨fun a => ?_, fun a => ?_⟩
      · by_contra off
        rcases a with a | a
        · exact detached a (by simpa using off)
        · exact attached a (by simpa using off)
      · by_contra on
        exact disabled a (by simpa using on)

theorem dropProposals_attach (res : Result) (fields : List Byte) (s : State) :
    ((dropProposals p res fields s).port q).attach = (s.port q).attach := by
  by_cases hq : q = p
  · subst hq
    simp [dropProposals, placeDeferred_eq, releaseUnnamed, State.mapSlots, PortController.paid]
  · exact (Same.dropProposals hq res fields).port.attach

theorem settleEvictPort_inStep {old new : Plan} {sh : State × Settled}
    (j : (sh.1.port p).attach.InStep (old.entries.get p).enabled) (plan : sh.1.layout.plan = new) :
    InStep (settleEvictPort old new sh p).1 p := by
  have handed : InStep (handIfChanged old new (dropProposals p .draftVoid [EditState.idle.byte] sh.1) p) p :=
    handIfChanged_inStep (by rw [dropProposals_attach]; exact j) ((dropProposals_plans _ _ _).1.trans plan)
  unfold settleEvictPort
  split
  · rename_i e
    have same : old.entries.get p = new.entries.get p := by simpa [changed] using e
    unfold InStep State.entry
    rw [plan, ← same]
    exact j
  · dsimp only
    split
    · exact handed
    · exact handed

/-- What the settling of a plan at one port leaves of another's attach state and of the plan. -/
def AttachKept (q : PortId) (s t : State) : Prop :=
  (t.port q).attach = (s.port q).attach ∧ t.layout.plan = s.layout.plan

theorem Same.attachKept (g : Same q s t) : AttachKept q s t := ⟨g.port.attach, g.plan⟩

theorem settleEvictPort_attachKept (old new : Plan) (sh : State × Settled) (hq : q ≠ p) :
    AttachKept q sh.1 (settleEvictPort old new sh p).1 := by
  have handed := ((Same.dropProposals hq .draftVoid [EditState.idle.byte] (s := sh.1)).trans (.handIfChanged hq old new)).attachKept
  unfold settleEvictPort
  split
  · exact ⟨rfl, rfl⟩
  · dsimp only
    split
    · exact handed
    · exact handed

theorem settlePlan_inStep {answer : Result → List Byte → State → State}
    (ha : ∀ res fields u q, AttachKept q u (answer res fields u)) (new : Plan) (mode : PlanMode) (j : ∀ q, InStep s q) (q : PortId) :
    InStep (settlePlan answer new mode s).1 q := by
  have trans : ∀ {s t u}, AttachKept q s t → AttachKept q t u → AttachKept q s u := fun a b =>
    ⟨b.1.trans a.1, b.2.trans a.2⟩
  have keeps : ∀ {s t}, AttachKept q s t → InStep s q → InStep t q := fun a i => i.same a.1 a.2
  cases mode with
  | keep =>
    simp only [settlePlan]
    split
    · exact keeps (ha _ _ _ q) (j q)
    · refine keeps (ha _ _ _ q) ?_
      obtain ⟨y, plan, before, after⟩ := foldl_all_at (R := AttachKept q) (I := fun u => u.layout.plan = new)
        (f := handIfChanged s.layout.plan new) (fun _ => ⟨rfl, rfl⟩) trans
        (fun x p e => (handIfChanged_plan _ _ x p).1.trans e) q
        (fun x p _ hq => (Same.handIfChanged hq _ _).attachKept) (s.setPlan new) rfl
      exact keeps after (handIfChanged_inStep (by rw [before.1]; exact j q) plan)
  | evict =>
    obtain ⟨y, plan, before, after⟩ := foldl_all_at (R := fun x y : State × Settled => AttachKept q x.1 y.1)
      (I := fun x => x.1.layout.plan = new) (f := settleEvictPort s.layout.plan new) (fun _ => ⟨rfl, rfl⟩) trans
      (fun x p e => (settleEvictPort_plan _ _ x p).1.trans e) q
      (fun x p _ hq => settleEvictPort_attachKept _ _ x hq)
      (answer .done (planFields s none none) (s.setPlan new), Settled.nothing) (ha _ _ _ q).2
    exact keeps after (settleEvictPort_inStep (by rw [before.1, (ha _ _ _ q).1]; exact j q) plan)

theorem retireListed_inStep (j : InStep s q) : InStep (retireListed s).1 q := by
  have g := retireListed_retired s
  have attach := (g.ports q).attach
  have entry : (retireListed s).1.entry q = s.entry q := (g.entry q).trans rfl
  unfold InStep
  rw [attach, entry]
  split
  · exact PortController.retired_inStep j
  · exact j

theorem placeDeferred_attachKept (p : PortId) (k : RequestKind) (res : Result) (fields : List Byte) (s : State) :
    AttachKept q s (placeDeferred p k res fields s) := by
  rw [placeDeferred_eq]
  refine ⟨?_, rfl⟩
  by_cases hq : q = p
  · subst hq
    simp [PortController.paid]
  · simp [hq]

theorem commit_inStep (j : s.EnablementLaw) : (commit s).EnablementLaw := fun q => by
  have settled : InStep (settleSealed s).1 q := by
    unfold settleSealed
    split
    · exact j q
    · exact settlePlan_inStep (fun _ _ u q => placeDeferred_attachKept _ _ _ _ u) _ _ j q
  have attach : ((commit s).port q).attach = ((retireListed (settleSealed s).1).1.port q).attach := by
    rw [(commit_port s q).attach]
    unfold PortController.answeredSet
    split <;> rfl
  exact (retireListed_inStep settled).same attach ((commit_plan s).trans (retireListed_retired _).plan.symm)

/-! ### The moves -/

theorem enablementLaw_of_same (j : s.EnablementLaw) (attach : ∀ q, (t.port q).attach = (s.port q).attach)
    (plan : t.layout.plan = s.layout.plan) : t.EnablementLaw := fun q => InStep.same (j q) (attach q) plan

theorem Calm.enablementLaw (g : Calm s t) (j : s.EnablementLaw) : t.EnablementLaw :=
  enablementLaw_of_same j (fun q => (g.port q).attach) (by rw [g.layout])

theorem Works.enablementLaw (g : Works s t) (j : s.EnablementLaw) : t.EnablementLaw :=
  g.keeps (fun c => c.calm.enablementLaw) commit_inStep j

/-- A step at one port that leaves the attach states of the others. -/
theorem enablementLaw_at (j : s.EnablementLaw) (self : InStep t p) (others : ∀ q, q ≠ p → AttachKept q s t) :
    t.EnablementLaw := fun q => by
  by_cases hq : q = p
  · subst hq
    exact self
  · obtain ⟨attach, plan⟩ := others q hq
    exact InStep.same (j q) attach plan

theorem left_enablementLaw (j : s.EnablementLaw) (reason : LeaveReason) (own : Option Response) :
    (retireIfDark (enterLeaving p reason own s)).EnablementLaw := by
  have left : (enterLeaving p reason own s).EnablementLaw :=
    enablementLaw_at j (enterLeaving_inStep reason own s) fun q hq => (Same.enterLeaving hq reason own).attachKept
  unfold retireIfDark
  split
  · exact (calm_takeReports _).enablementLaw fun q => retireListed_inStep (left q)
  · exact left

theorem deferRequest_attach (p : PortId) (r : Request) (s : State) (q : PortId) :
    ((deferRequest p r s).port q).attach = (s.port q).attach := SameBlocks.attach (.setPort s p (by rfl)) q

theorem settleInDark_enablementLaw (j : s.EnablementLaw) (r : Request) (new : Plan) (mode : PlanMode) :
    (settleInDark r new mode s).EnablementLaw := by
  have respond_kept : ∀ res fields u q, AttachKept q u (respond .p0 r res fields u) := fun _ _ u q =>
    ⟨SameBlocks.attach (.setPort u .p0 (by rfl)) q, rfl⟩
  have retired : (retireListed (settlePlan (respond .p0 r) new mode s).1).1.EnablementLaw := fun q =>
    retireListed_inStep (settlePlan_inStep respond_kept new mode j q)
  have told := (calm_storeNotices (settlePlan (respond .p0 r) new mode s).2.notices
    (advanceGenerations s (retireListed (settlePlan (respond .p0 r) new mode s).1).1)).enablementLaw
    (enablementLaw_of_same retired (fun _ => rfl) rfl)
  exact (calm_takeReports _).enablementLaw (enablementLaw_of_same told (t := handReports _ _) (fun _ => rfl) rfl)

theorem Move.enablementLaw (m : Move h s h' t) (j : s.EnablementLaw) : t.EnablementLaw := by
  have unit : ∀ (p : PortId) (v : SourceUnit), (settleUnit p (s.setUnit p v)).EnablementLaw := fun p v =>
    (settleUnit_calm p (s.setUnit p v)).enablementLaw (enablementLaw_of_same (s := s) j (fun _ => rfl) rfl)
  cases m with
  | queue move => exact enablementLaw_of_same j move.sameBlocks.attach (by rw [move.sameBlocks.layout])
  | draft _ _ move => exact enablementLaw_of_same j (fun q => by cases move <;> rfl) move.plans.1
  | block p => exact enablementLaw_of_same j (SameBlocks.attach (.setPort s p (by rfl))) rfl
  | depart _ p =>
    rcases leaveIfDone_cases p s with ⟨-, e⟩ | ⟨why, -, -, e⟩ <;> rw [e]
    · exact j
    · refine (calm_storeNotices [(.p0, _)] _).enablementLaw (enablementLaw_at (p := p) j ?_ fun q hq => ?_)
      · unfold InStep
        simp only [State.port_setUnit, State.port_setPort, if_true]
        exact Attach.inStep_left _
      · exact ⟨by simp [hq], rfl⟩
  | reports => exact (calm_takeReports s).enablementLaw j
  | panel _ move =>
    cases move with
    | warmCount => exact (calm_takeWarmCount s).enablementLaw j
    | setup => exact enablementLaw_of_same j (fun _ => rfl) rfl
    | panelOff => exact (calmer_panelOff s).calm.enablementLaw j
    | panelOn now => exact (works_startWarming now s).enablementLaw ((calm_takeReports s).enablementLaw j)
    | line l => exact (calm_startLine l _).enablementLaw ((calm_takeReports s).enablementLaw j)
  | sealSet p r d => exact enablementLaw_of_same j (fun q => deferRequest_attach p r _ q) rfl
  | applySet p d =>
    have g := applySet_applied p (s.setLay p { s.lay p with draft := none, sealedSet := some d })
    refine (calm_takeReports _).enablementLaw (enablementLaw_of_same j (fun q => ?_) g.plan)
    exact congrArg (fun x : PerPort PortController => (x.get q).attach) g.ports
  | sealPlan r mode => exact enablementLaw_of_same j (fun q => deferRequest_attach .p0 r _ q) rfl
  | settlePlan r mode => exact settleInDark_enablementLaw j r _ mode
  | attach p sw sh _ _ detached =>
    refine enablementLaw_at (p := p) j ?_ fun q hq => ⟨by simp [Machine.attach, hq], rfl⟩
    have on := (j p).1 (.inl detached)
    unfold InStep
    simp only [Machine.attach, State.port_setUnit, State.port_setPort, if_true]
    exact ⟨fun _ => on, nofun⟩
  | bye p r => exact left_enablementLaw j _ _
  | eject _ q => exact left_enablementLaw j _ _
  | format p => exact unit p _
  | packet p x _ runs =>
    unfold Machine.packet
    rw [if_pos runs]
    exact unit p _
  | judge p => exact (calm_takeFrameStart p s).enablementLaw j
  | mark => exact enablementLaw_of_same j (fun _ => rfl) rfl
  | unmark => exact enablementLaw_of_same j (fun _ => rfl) rfl

theorem AnyMove.enablementLaw (m : AnyMove h s h' t) (j : s.EnablementLaw) : t.EnablementLaw := by
  cases m with
  | move move => exact move.enablementLaw j
  | restart r _ attached =>
    have layout : (restartBody .p0 r s).layout =
        { LayoutStore.reset with plan := .default (takeReports s).scan.setup.w (takeReports s).scan.setup.h } := by
      rw [restartBody_eq, (settleUnit_calm _ _).layout, (storeNotice_only _ _ _).layout]
      rfl
    have attach : ∀ q, ((restartBody .p0 r s).port q).attach = if q = .p0 then .attached else .disabled := fun q => by
      rw [restartBody_eq, ((settleUnit_calm _ _).port q).attach, (storeNotice_alike _ _ _ _).attach]
      have zero : (((takeReports s).port .p0).restarted r (takeReports s).frameField).attach = .attached := by
        rw [← attached, ← (takeReports_alike .p0 s).attach]
        rfl
      cases q
      · exact zero
      all_goals rfl
    intro q
    show InStep _ q
    unfold InStep State.entry
    rw [attach, layout]
    cases q
    · exact ⟨fun _ => rfl, nofun⟩
    all_goals exact ⟨by simp, fun _ => rfl⟩
  | frame now => exact (works_frame now (takeReports s)).enablementLaw ((calm_takeReports s).enablementLaw j)
  | enterDark b =>
    obtain ⟨u, before, after⟩ := enterDark_commits b s
    have dark := (calm_darkened _).enablementLaw ((calm_takeReports s).enablementLaw j)
    exact after.calm.enablementLaw (commit_inStep (before.calm.enablementLaw dark))
  | reset _ _ eq =>
    cases eq
    exact enablementLaw_of_same (s := State.reset) reset_EnablementLaw (fun q => by cases q <;> rfl) rfl

/-- Settles O52: every move keeps the plan law, and every move keeps the enablement law. -/
theorem planLawKept : Obligations.PlanLawKept :=
  ⟨fun _ _ j h => step_keeps (J := fun _ u => u.PlanLaw) (fun m => m.planLaw) (fun _ j => j) j h,
    fun _ _ j h => step_keeps (J := fun _ u => u.EnablementLaw) (fun m => m.enablementLaw) (fun _ j => j) j h⟩
end

end Sys2Proof.Machine
end

