-- ==== Sys2Proof/Proofs/WaitingKept.lean ====
section
/-! PROOFS. The accounts of what waits over every move (R41, R61, R84, R93, R157). -/

namespace Sys2Proof.Machine

section
variable {h h' : Option PortId} {p q : PortId} {s t : State} {c d : PortController}

/-! ### The deferred requests of one port -/

/-- A port owes a deferred PUBLISH exactly while a set waits, at most n deferred PLAN-SET, and nothing else. -/
structure Owes (set : Bool) (n : Nat) (c : PortController) : Prop where
  publish : deferredOf .publish c = if set then 1 else 0
  planSet : deferredOf .planSet c ≤ n
  whole : c.deferred.length = deferredOf .publish c + deferredOf .planSet c

theorem Owes.congr {set : Bool} {n : Nat} (o : Owes set n c) (e : d.deferred = c.deferred) : Owes set n d := by
  obtain ⟨a, b, w⟩ := o
  unfold deferredOf at a b w
  rw [← e] at a b w
  exact ⟨a, b, w⟩

/-- The counts of a list that loses its first member of one kind. -/
theorem countP_eraseP_of_disjoint {α : Type} {f g : α → Bool} (disjoint : ∀ x, f x = true → g x = false) (xs : List α) :
    (xs.eraseP f).countP f = xs.countP f - 1 ∧ (xs.eraseP f).countP g = xs.countP g ∧
      (xs.eraseP f).length = xs.length - min 1 (xs.countP f) := by
  induction xs with
  | nil => exact ⟨rfl, rfl, rfl⟩
  | cons x xs ih =>
    obtain ⟨a, b, l⟩ := ih
    cases hf : f x
    · have le := List.countP_le_length (p := f) (l := xs)
      simp only [List.eraseP_cons, hf, cond_false, List.countP_cons, if_false, List.length_cons, a, b, l, Bool.false_eq_true, Nat.add_zero, true_and]
      omega
    · simp [hf, disjoint x hf]

theorem deferredOf_paid (k : RequestKind) (res : Result) (fields : List Byte) (c : PortController) :
    deferredOf k (c.paid k res fields) = deferredOf k c - 1 ∧
      (c.paid k res fields).deferred.length = c.deferred.length - min 1 (deferredOf k c) := by
  obtain ⟨a, -, l⟩ := countP_eraseP_of_disjoint (f := fun r : Request => r.code == k.code) (g := fun _ => false)
    (fun _ _ => rfl) c.deferred
  exact ⟨a, l⟩

theorem deferredOf_paid_ne {j k : RequestKind} (ne : j.code ≠ k.code) (res : Result) (fields : List Byte) (c : PortController) :
    deferredOf j (c.paid k res fields) = deferredOf j c :=
  (countP_eraseP_of_disjoint (f := fun r : Request => r.code == k.code) (g := fun r => r.code == j.code)
    (fun x hx => by rw [beq_iff_eq] at hx; simpa [hx] using ne.symm) c.deferred).2.1

theorem Owes.paid_publish {set : Bool} {n : Nat} (o : Owes set n c) (res : Result) (fields : List Byte) :
    Owes false n (c.paid .publish res fields) := by
  obtain ⟨a, b, w⟩ := o
  obtain ⟨a', l⟩ := deferredOf_paid .publish res fields c
  have b' := deferredOf_paid_ne (j := .planSet) (k := .publish) (by decide) res fields c
  constructor
  · rw [a', a]
    cases set <;> rfl
  · rw [b']
    exact b
  · rw [l, a', b', w, a]
    cases set <;> simp

theorem Owes.paid_planSet {set : Bool} {n : Nat} (o : Owes set (n + 1) c) (res : Result) (fields : List Byte) :
    Owes set n (c.paid .planSet res fields) := by
  obtain ⟨a, b, w⟩ := o
  obtain ⟨b', l⟩ := deferredOf_paid .planSet res fields c
  have a' := deferredOf_paid_ne (j := .publish) (k := .planSet) (by decide) res fields c
  constructor
  · rw [a', a]
  · rw [b']
    omega
  · rw [l, a', b', w]
    omega

theorem Owes.mono {set : Bool} {n m : Nat} (o : Owes set n c) (le : n ≤ m) : Owes set m c :=
  ⟨o.publish, Nat.le_trans o.planSet le, o.whole⟩

/-- Where no PLAN-SET is owed the placing of one changes nothing. -/
theorem Owes.paid_planSet_zero {set : Bool} {n : Nat} (o : Owes set n c) (le : n ≤ 1) (res : Result) (fields : List Byte) :
    Owes set 0 (c.paid .planSet res fields) := (o.mono le).paid_planSet res fields

/-- The entry into LEAVING answers what is owed (R165). -/
theorem Owes.entered {set : Bool} {n : Nat} (o : Owes set n c) (zero : Bool) (reason : LeaveReason) (own : Option Response)
    (le : n ≤ 1) : Owes false (if zero then 0 else n) (c.entered zero reason own) := by
  cases zero
  · exact (o.paid_publish .cancelled []).congr rfl
  · exact ((o.paid_planSet_zero le .cancelled []).paid_publish .cancelled []).congr rfl

/-- What is owed after the response to a PUBLISH whose set is applied (R77). -/
theorem Owes.answeredSet {l : PortLayout} {n : Nat} (o : Owes l.sealedSet.isSome n c) (frame : List Byte) :
    Owes false n (c.answeredSet l frame) := by
  unfold PortController.answeredSet
  split
  · exact o.paid_publish _ _
  · rename_i e
    rw [Bool.not_eq_true] at e
    rw [e] at o
    exact o

/-! ### The law of one port -/

/-- The waiting law of one port. -/
structure WaitOf (s : State) (p : PortId) : Prop where
  owes : Owes (s.lay p).sealedSet.isSome 1 (s.port p)
  planSet : deferredOf .planSet (s.port p) = if p = .p0 ∧ s.layout.sealedPlan.isSome then 1 else 0
  blocked : (s.port p).engine = .blocked → blockedFor p s

theorem waitingLaw_iff : s.WaitingLaw ↔
    (s.scan.panel = .dark → s.layout.sealedPlan = none ∧ s.layout.retiring = [] ∧ ∀ p, (s.lay p).sealedSet = none) ∧
      ∀ p, WaitOf s p := by
  unfold State.WaitingLaw
  refine and_congr_right fun _ => forall_congr' fun p => ⟨fun ⟨a, b, w, e⟩ => ⟨⟨a, ?_, w⟩, b, e⟩, fun ⟨⟨a, _, w⟩, b, e⟩ => ⟨a, b, w, e⟩⟩
  rw [b]
  split <;> decide

theorem WaitOf.congr (j : WaitOf s p) (deferred : (t.port p).deferred = (s.port p).deferred)
    (set : (t.lay p).sealedSet.isSome = (s.lay p).sealedSet.isSome)
    (plan : p = .p0 → t.layout.sealedPlan.isSome = s.layout.sealedPlan.isSome)
    (blocked : (t.port p).engine = .blocked → blockedFor p t) : WaitOf t p := by
  refine ⟨?_, ?_, blocked⟩
  · rw [set]
    exact j.owes.congr deferred
  · unfold deferredOf
    rw [deferred]
    refine j.planSet.trans ?_
    by_cases hp : p = .p0
    · rw [plan hp]
    · simp [hp]

theorem blockedFor_congr (b : blockedFor p s) (attach : (t.port p).attach = (s.port p).attach)
    (head : (t.port p).requests.head? = (s.port p).requests.head?) (edit : t.editState p = s.editState p)
    (plan : p = .p0 → t.layout.sealedPlan.isSome = s.layout.sealedPlan.isSome) : blockedFor p t := by
  obtain ⟨a, b⟩ := b
  unfold blockedFor
  rw [attach, head, edit]
  refine ⟨a, b.imp_right fun ⟨hp, e, w⟩ => ⟨hp, e, ?_⟩⟩
  rw [plan hp]
  exact w

/-- A port of which the engine, the queue, the draft and the set stay. -/
theorem WaitOf.same (j : WaitOf s p) (deferred : (t.port p).deferred = (s.port p).deferred)
    (engine : (t.port p).engine = (s.port p).engine) (attach : (t.port p).attach = (s.port p).attach)
    (head : (s.port p).engine = .blocked → (t.port p).requests.head? = (s.port p).requests.head?) (lay : t.lay p = s.lay p)
    (plan : p = .p0 → t.layout.sealedPlan.isSome = s.layout.sealedPlan.isSome) : WaitOf t p :=
  j.congr deferred (by rw [lay]) plan fun b => by
    rw [engine] at b
    exact blockedFor_congr (j.blocked b) attach (head b) (by simp only [State.editState, lay]) plan

theorem WaitOf.alike (j : WaitOf s p) (port : (s.port p).Alike (t.port p)) (lay : t.lay p = s.lay p)
    (plan : p = .p0 → t.layout.sealedPlan.isSome = s.layout.sealedPlan.isSome) : WaitOf t p :=
  j.same port.deferred port.engine port.attach (fun _ => by rw [port.requests]) lay plan

theorem Calm.waitOf (g : Calm s t) (j : WaitOf s p) : WaitOf t p :=
  j.alike (g.port p) (by simp only [State.lay, g.layout]) (fun _ => by rw [g.layout])

/-! ### The commit -/

/-- What a stage of a commit or of an immediate application keeps of a port: what it owes, and, where that is asked, that
its engine is READY and no set waits. -/
structure Stage (idle : Prop) (n : Nat) (s : State) (q : PortId) : Prop where
  owes : Owes (s.lay q).sealedSet.isSome n (s.port q)
  rests : idle → (s.port q).engine = .ready ∧ (s.lay q).sealedSet = none

/-- What of a port the stages look at. -/
def StageKept (q : PortId) (s t : State) : Prop :=
  (t.port q).deferred = (s.port q).deferred ∧ (t.port q).engine = (s.port q).engine ∧ t.lay q = s.lay q

theorem Same.stageKept (g : Same q s t) : StageKept q s t := ⟨g.port.deferred, g.port.engine, g.lay⟩

theorem Stage.kept {idle : Prop} {n : Nat} (j : Stage idle n s q) (g : StageKept q s t) : Stage idle n t q := by
  obtain ⟨deferred, engine, lay⟩ := g
  exact ⟨by rw [lay]; exact j.owes.congr deferred, fun i => ⟨engine.trans (j.rests i).1, by rw [lay]; exact (j.rests i).2⟩⟩

theorem enterLeaving_stage {idle : Prop} {n : Nat} (le : n ≤ 1) (j : Stage idle n s p) (reason : LeaveReason)
    (own : Option Response) : Stage True (if p = .p0 then 0 else n) (enterLeaving p reason own s) p := by
  have left := enterLeaving_left (p := p) (reason := reason) (own := own) (s := s)
  have deferred : ((enterLeaving p reason own s).port p).deferred =
      ((s.port p).entered (decide (p = .p0)) reason own).deferred := by
    rw [left.port]
    split <;> rfl
  have engine : ((enterLeaving p reason own s).port p).engine = .ready := by
    rw [left.port]
    split <;> rfl
  have owes := j.owes.entered (decide (p = .p0)) reason own le
  refine ⟨?_, fun _ => ⟨engine, by rw [left.lay]⟩⟩
  rw [left.lay]
  refine Owes.congr (c := (s.port p).entered (decide (p = .p0)) reason own) ?_ deferred
  simpa using owes

theorem handIfChanged_stage {idle : Prop} {n : Nat} (le : n ≤ 1) (j : Stage idle n s p) (old new : Plan) :
    Stage idle n (handIfChanged old new s p) p := by
  have left : ∀ reason, Stage idle n (enterLeaving p reason none s) p := fun reason => by
    obtain ⟨owes, rests⟩ := enterLeaving_stage le j reason none
    refine ⟨owes.mono ?_, fun _ => rests trivial⟩
    split <;> omega
  have kept : ∀ c v, c.deferred = (s.port p).deferred → c.engine = (s.port p).engine →
      Stage idle n ((s.setPort p c).setUnit p v) p := fun c v deferred engine =>
    j.kept ⟨by simpa using deferred, by simpa using engine, rfl⟩
  unfold handIfChanged
  split
  · exact j
  · unfold handEnablement
    dsimp only
    split
    · exact kept _ _ rfl rfl
    · split
      · exact kept _ _ rfl rfl
      · exact left _
    · exact left _
    · exact j

theorem dropProposals_stage {idle : Prop} {n : Nat} (j : Stage idle n s p) (res : Result) (fields : List Byte) :
    Stage idle n (dropProposals p res fields s) p := by
  have port : (dropProposals p res fields s).port p = (s.port p).paid .publish res fields := by
    simp [dropProposals, placeDeferred_eq, releaseUnnamed, State.mapSlots]
  have lay := dropProposals_lay (p := p) res fields s p
  rw [if_pos rfl] at lay
  refine ⟨?_, fun r => ?_⟩
  · rw [port, lay]
    exact j.owes.paid_publish res fields
  · rw [port, lay]
    exact ⟨(j.rests r).1, rfl⟩

theorem evictPort_stageKept (sh : State × Settled) : (evictPort p sh).1.port = sh.1.port ∧
    ((evictPort p sh).1.lay q).sealedSet = (sh.1.lay q).sealedSet := by
  refine ⟨rfl, ?_⟩
  rw [evictPort_lay]
  split
  · rename_i e
    rw [e]
  · rfl

theorem evictPort_stage {idle : Prop} {n : Nat} {sh : State × Settled} (j : Stage idle n sh.1 q) :
    Stage idle n (evictPort p sh).1 q := by
  obtain ⟨port, set⟩ := evictPort_stageKept (p := p) (q := q) sh
  exact ⟨by rw [port, set]; exact j.owes, fun i => by rw [port, set]; exact j.rests i⟩

theorem settleEvictPort_stage {idle : Prop} {n : Nat} (le : n ≤ 1) {sh : State × Settled} (j : Stage idle n sh.1 p)
    (old new : Plan) : Stage idle n (settleEvictPort old new sh p).1 p := by
  have handed := handIfChanged_stage le (dropProposals_stage j .draftVoid [EditState.idle.byte]) old new
  unfold settleEvictPort
  split
  · exact j
  · dsimp only
    split
    · exact evictPort_stage (sh := (_, _)) handed
    · exact handed

theorem settleEvictPort_stageKept (old new : Plan) (sh : State × Settled) (hq : q ≠ p) :
    StageKept q sh.1 (settleEvictPort old new sh p).1 := by
  have handed := ((Same.dropProposals hq .draftVoid [EditState.idle.byte] (s := sh.1)).trans (.handIfChanged hq old new)).stageKept
  unfold settleEvictPort
  split
  · exact ⟨rfl, rfl, rfl⟩
  · dsimp only
    split
    · refine ⟨handed.1, handed.2.1, ?_⟩
      rw [evictPort_lay, if_neg hq]
      exact handed.2.2
    · exact handed

theorem StageKept.trans {u : State} (g : StageKept q s t) (k : StageKept q t u) : StageKept q s u :=
  ⟨k.1.trans g.1, k.2.1.trans g.2.1, k.2.2.trans g.2.2⟩

/-- The settling of a plan: `answer` takes what is owed from n to m. -/
theorem settlePlan_stage {answer : Result → List Byte → State → State} {idle : Prop} {n m : Nat} (le : n ≤ 1) (le' : m ≤ 1)
    (ha : ∀ res fields u, Stage idle n u q → Stage idle m (answer res fields u) q)
    (new : Plan) (mode : PlanMode) (j : Stage idle n s q) : Stage idle m (settlePlan answer new mode s).1 q := by
  have refl : ∀ s, StageKept q s s := fun _ => ⟨rfl, rfl, rfl⟩
  cases mode with
  | keep =>
    simp only [settlePlan]
    split
    · exact ha _ _ _ j
    · refine ha _ _ _ ?_
      obtain ⟨y, -, before, after⟩ := foldl_all_at (R := StageKept q) (I := fun _ => True)
        (f := handIfChanged s.layout.plan new) refl .trans (fun _ _ i => i) q
        (fun x p _ hq => (Same.handIfChanged hq _ _).stageKept) (s.setPlan new) trivial
      exact (handIfChanged_stage le ((show Stage idle n (s.setPlan new) q from ⟨j.owes, j.rests⟩).kept before) _ _).kept after
  | evict =>
    obtain ⟨y, -, before, after⟩ := foldl_all_at (R := fun x y : State × Settled => StageKept q x.1 y.1)
      (I := fun _ => True) (f := settleEvictPort s.layout.plan new) (fun x => refl x.1) .trans (fun _ _ i => i) q
      (fun x p _ hq => settleEvictPort_stageKept _ _ x hq)
      (answer .done (planFields s none none) (s.setPlan new), Settled.nothing) trivial
    have first := ha .done (planFields s none none) (s.setPlan new) ⟨j.owes, j.rests⟩
    exact (settleEvictPort_stage le' (first.kept before) _ _).kept after

theorem retireListed_stage {idle : Prop} {n : Nat} (j : Stage idle n s q) : Stage idle n (retireListed s).1 q := by
  have g := retireListed_retired s
  have port := g.ports q
  have set : ((retireListed s).1.lay q).sealedSet = (s.lay q).sealedSet := by
    rw [g.lays]
    split <;> rfl
  refine ⟨?_, fun r => ?_⟩
  · rw [set]
    refine j.owes.congr (port.deferred.trans ?_)
    split <;> rfl
  · refine ⟨port.engine.trans (Eq.trans ?_ (j.rests r).1), set.trans (j.rests r).2⟩
    split <;> rfl

theorem commit_waitOf (j : ∀ p, WaitOf s p) (p : PortId) : WaitOf (commit s) p := by
  have settled : Stage False 0 (settleSealed s).1 p := by
    have count := (j p).planSet
    unfold settleSealed
    split
    · rename_i e
      rw [e] at count
      exact ⟨⟨(j p).owes.publish, by simp [count], (j p).owes.whole⟩, False.elim⟩
    · rename_i sp e
      have paid : ∀ res fields u, Stage False (if p = .p0 then 1 else 0) u p →
          Stage False 0 (placeDeferred .p0 .planSet res fields u) p := by
        intro res fields u i
        rw [placeDeferred_eq]
        by_cases hp : p = .p0
        · subst hp
          refine ⟨?_, False.elim⟩
          simp only [State.port_setPort, if_true, State.lay_setPort]
          exact (i.owes.mono (by simp)).paid_planSet res fields
        · rw [if_neg hp] at i
          exact i.kept ⟨by simp [hp], by simp [hp], rfl⟩
      have owes : Owes (s.lay p).sealedSet.isSome (if p = .p0 then 1 else 0) (s.port p) := by
        refine ⟨(j p).owes.publish, ?_, (j p).owes.whole⟩
        rw [count]
        split <;> split <;> simp_all
      have whole := settlePlan_stage (q := p) (idle := False) (by split <;> decide) (by decide) paid sp.plan sp.mode
        ⟨owes, False.elim⟩
      exact ⟨whole.owes, False.elim⟩
  have retired := (retireListed_stage settled).owes
  have port := commit_port s p
  obtain ⟨unsealed, -, unset⟩ := commit_clears s
  have ready : ((commit s).port p).engine = .ready := commit_engine s p
  have owes : Owes false 0 ((commit s).port p) := by
    refine Owes.congr ?_ port.deferred
    exact (retired.answeredSet s.frameField).congr rfl
  refine ⟨?_, ?_, fun b => nomatch ready.symm.trans b⟩
  · rw [unset p]
    exact owes.mono (by decide)
  · rw [unsealed]
    simpa using owes.planSet
end

end Sys2Proof.Machine
end

