-- ==== Sys2Proof/Proofs/WaitingLaw.lean ====
section
/-! PROOFS. The waiting law over every move (R41, R84, R93, R157). -/

namespace Sys2Proof.Machine

section
variable {h h' : Option PortId} {p q : PortId} {s t : State}

/-- What the law asks of a DARK panel. -/
def DarkIdle (s : State) : Prop :=
  s.scan.panel = .dark → s.layout.sealedPlan = none ∧ s.layout.retiring = [] ∧ ∀ p, (s.lay p).sealedSet = none

theorem DarkIdle.of_layout (j : DarkIdle s) (layout : t.layout = s.layout)
    (runs : s.scan.panel ≠ .dark → t.scan.panel ≠ .dark) : DarkIdle t := fun d => by
  have e := j (not_not.mp fun n => runs n d)
  simp only [State.lay, layout]
  exact e

theorem DarkIdle.of_runs (runs : s.scan.panel ≠ .dark) : DarkIdle s := fun d => absurd d runs

/-- A step that leaves the Layout Store and, of the ports, all but the notices and the responses. -/
theorem waitingLaw_of_same (j : s.WaitingLaw) (layout : t.layout = s.layout)
    (runs : s.scan.panel ≠ .dark → t.scan.panel ≠ .dark) (deferred : ∀ q, (t.port q).deferred = (s.port q).deferred)
    (engine : ∀ q, (t.port q).engine = (s.port q).engine) (attach : ∀ q, (t.port q).attach = (s.port q).attach)
    (head : ∀ q, (s.port q).engine = .blocked → (t.port q).requests.head? = (s.port q).requests.head?) : t.WaitingLaw := by
  obtain ⟨dark, wait⟩ := waitingLaw_iff.mp j
  exact waitingLaw_iff.mpr ⟨DarkIdle.of_layout dark layout runs, fun q => (wait q).same (deferred q) (engine q) (attach q)
    (head q) (by simp only [State.lay, layout]) fun _ => by rw [layout]⟩

theorem waitingLaw_of_ports (j : s.WaitingLaw) (layout : t.layout = s.layout) (scan : t.scan = s.scan)
    (port : ∀ q, (s.port q).Alike (t.port q)) : t.WaitingLaw :=
  waitingLaw_of_same j layout (by rw [scan]; exact id) (fun q => (port q).deferred) (fun q => (port q).engine)
    (fun q => (port q).attach) fun q _ => by rw [(port q).requests]

theorem Calmer.waitingLaw (g : Calmer s t) (j : s.WaitingLaw) : t.WaitingLaw :=
  waitingLaw_of_same j g.calm.layout g.runs (fun q => (g.calm.port q).deferred) (fun q => (g.calm.port q).engine)
    (fun q => (g.calm.port q).attach) fun q _ => by rw [(g.calm.port q).requests]

theorem takeReports_waitingLaw (j : s.WaitingLaw) : (takeReports s).WaitingLaw :=
  waitingLaw_of_ports j (takeReports_layout s) (takeReports_scan s) fun q => takeReports_alike q s

theorem Works.waitOf (g : Works s t) (j : ∀ p, WaitOf s p) : ∀ p, WaitOf t p :=
  g.keeps (J := fun u => ∀ p, WaitOf u p) (fun c j p => c.calm.waitOf (j p)) (fun j p => commit_waitOf j p) j

/-- A change of one port's Port Controller that keeps what the law looks at. -/
theorem waitingLaw_setPort (j : s.WaitingLaw) (p : PortId) {c : PortController} (deferred : c.deferred = (s.port p).deferred)
    (engine : c.engine = (s.port p).engine) (attach : c.attach = (s.port p).attach)
    (head : (s.port p).engine = .blocked → c.requests.head? = (s.port p).requests.head?) : (s.setPort p c).WaitingLaw := by
  refine waitingLaw_of_same j rfl id (fun q => ?_) (fun q => ?_) (fun q => ?_) fun q => ?_
  all_goals
    by_cases hq : q = p
    · subst hq
      simp_all
    · simp [hq]

theorem waitingLaw_setPort_of_ready (j : s.WaitingLaw) (p : PortId) {c : PortController}
    (deferred : c.deferred = (s.port p).deferred) (ready : c.engine = .ready) : (s.setPort p c).WaitingLaw := by
  obtain ⟨dark, wait⟩ := waitingLaw_iff.mp j
  refine waitingLaw_iff.mpr ⟨dark, fun q => ?_⟩
  by_cases hq : q = p
  · subst hq
    exact (wait q).congr (by simpa using deferred) rfl (fun _ => rfl) fun b => by simp [ready] at b
  · exact (wait q).alike (.of_eq (by simp [hq])) rfl fun _ => rfl

/-! ### The moves -/

theorem QueueMove.waitingLaw (m : QueueMove h s h' t) (j : s.WaitingLaw) : t.WaitingLaw := by
  cases m with
  | link _ p l => exact waitingLaw_of_ports j rfl rfl fun _ => .refl _
  | refusal _ p why => exact waitingLaw_setPort j p rfl rfl rfl fun _ => rfl
  | accept p r =>
    refine waitingLaw_setPort j p rfl rfl rfl fun b => ?_
    obtain ⟨-, wait⟩ := waitingLaw_iff.mp j
    obtain ⟨-, reason⟩ := (wait p).blocked b
    cases hr : (s.port p).requests with
    | nil => simp [hr] at reason
    | cons x xs => rfl
  | read p => exact waitingLaw_setPort j p rfl rfl rfl fun _ => rfl
  | readNotice p since =>
    unfold removeNotice
    split <;> exact waitingLaw_setPort j p rfl rfl rfl fun _ => rfl
  | notice _ p n =>
    exact waitingLaw_of_ports j (storeNotice_only p n s).layout (storeNotice_only p n s).scan fun q => storeNotice_alike p q n s
  | take p r _ head => exact waitingLaw_setPort_of_ready j p rfl (headOf_some head).1
  | answer p r res fields => exact waitingLaw_setPort j p rfl rfl rfl fun _ => rfl

/-- A step at one port p whose engine is READY, which leaves the other ports' parts and the sealed plan. -/
theorem waitingLaw_at (j : s.WaitingLaw) (others : ∀ q, q ≠ p → StageKept q s t ∧ (t.port q).attach = (s.port q).attach ∧
      (t.port q).requests = (s.port q).requests)
    (deferred : (t.port p).deferred = (s.port p).deferred) (set : (t.lay p).sealedSet = (s.lay p).sealedSet)
    (ready : (t.port p).engine = .ready) (plan : t.layout.sealedPlan = s.layout.sealedPlan)
    (retiring : t.layout.retiring = s.layout.retiring) (scan : t.scan = s.scan) : t.WaitingLaw := by
  obtain ⟨dark, wait⟩ := waitingLaw_iff.mp j
  refine waitingLaw_iff.mpr ⟨fun d => ?_, fun q => ?_⟩
  · obtain ⟨a, b, c⟩ := dark (scan ▸ d)
    refine ⟨plan.trans a, retiring.trans b, fun q => ?_⟩
    by_cases hq : q = p
    · subst hq
      exact set.trans (c q)
    · rw [(others q hq).1.2.2]
      exact c q
  · by_cases hq : q = p
    · subst hq
      exact (wait q).congr deferred (by rw [set]) (fun _ => by rw [plan]) fun b => nomatch ready.symm.trans b
    · obtain ⟨⟨deferred, engine, lay⟩, attach, requests⟩ := others q hq
      exact (wait q).same deferred engine attach (fun _ => by rw [requests]) lay fun _ => by rw [plan]

theorem DraftMove.waitingLaw (m : DraftMove p s t) (ready : (s.port p).engine = .ready) (j : s.WaitingLaw) : t.WaitingLaw := by
  have port : t.port = s.port := by cases m <;> rfl
  have retiring : t.layout.retiring = s.layout.retiring := by cases m <;> rfl
  have lay : ∀ q, ∃ d, t.lay q = if q = p then { s.lay p with draft := d } else s.lay q := fun q => by
    cases m with
    | opened d => exact ⟨some d, by simp [setDraft]⟩
    | created d k id => exact ⟨_, by simp only [reserveSlot, setDraft, State.lay_setLay, State.lay_setSlots]; rfl⟩
    | edited d d' => exact ⟨some d', by simp [setDraft]⟩
    | cut d d' => exact ⟨d', by simp [setDraft, releaseUnnamed, State.mapSlots]⟩
  refine waitingLaw_at j (p := p) (fun q hq => ?_) (by rw [port]) ?_ (by rw [port]; exact ready) m.plans.2.1 retiring m.plans.2.2
  · obtain ⟨d, e⟩ := lay q
    rw [if_neg hq] at e
    exact ⟨⟨by rw [port], by rw [port], e⟩, by rw [port], by rw [port]⟩
  · obtain ⟨d, e⟩ := lay p
    rw [if_pos rfl] at e
    rw [e]

/-- A request of one kind is deferred. -/
theorem deferredOf_append {c : PortController} {k : RequestKind} (r : Request) (hc : r.code = k.code) :
    deferredOf k { c with deferred := c.deferred ++ [r] } = deferredOf k c + 1 ∧
      ∀ j : RequestKind, j.code ≠ k.code → deferredOf j { c with deferred := c.deferred ++ [r] } = deferredOf j c := by
  unfold deferredOf
  simp only [List.countP_append, List.countP_singleton, hc]
  refine ⟨by simp, fun j ne => ?_⟩
  rw [if_neg (by simpa using ne.symm)]
  rfl

theorem sealSet_waitingLaw (j : s.WaitingLaw) {r : Request} {d : Proposal} (ready : (s.port p).engine = .ready)
    (code : r.code = RequestKind.publish.code) (unsealed : (s.lay p).sealedSet = none) (runs : s.scan.panel ≠ .dark) :
    (sealDraft p r d s).WaitingLaw := by
  obtain ⟨-, wait⟩ := waitingLaw_iff.mp j
  refine waitingLaw_iff.mpr ⟨DarkIdle.of_runs runs, fun q => ?_⟩
  by_cases hq : q = p
  · subst hq
    have port : (sealDraft q r d s).port q = { s.port q with deferred := (s.port q).deferred ++ [r] } := by
      simp [sealDraft, deferRequest]
    have set : ((sealDraft q r d s).lay q).sealedSet = some d := by simp [sealDraft, deferRequest]
    obtain ⟨⟨publish, planSet, whole⟩, count, -⟩ := wait q
    obtain ⟨more, others⟩ := deferredOf_append (c := s.port q) r code
    have same := others .planSet (by decide)
    rw [unsealed] at publish
    refine ⟨?_, ?_, fun b => ?_⟩
    · rw [port, set]
      refine ⟨by rw [more, publish]; rfl, by rw [same]; exact planSet, ?_⟩
      rw [more, same, List.length_append, whole]
      simp [Nat.add_right_comm]
    · rw [port, same]
      exact count
    · rw [port] at b
      exact nomatch ready.symm.trans b
  · exact (wait q).alike (.of_eq (by simp [sealDraft, deferRequest, hq])) (by simp [sealDraft, deferRequest, hq]) fun _ => rfl

theorem sealPlan_waitingLaw (j : s.WaitingLaw) {r : Request} {sp : SealedPlan} (ready : (s.port .p0).engine = .ready)
    (code : r.code = RequestKind.planSet.code) (unsealed : s.layout.sealedPlan = none) (runs : s.scan.panel ≠ .dark) :
    (deferRequest .p0 r (s.setSealedPlan (some sp))).WaitingLaw := by
  obtain ⟨-, wait⟩ := waitingLaw_iff.mp j
  refine waitingLaw_iff.mpr ⟨DarkIdle.of_runs runs, fun q => ?_⟩
  by_cases hq : q = .p0
  · subst hq
    have port : (deferRequest .p0 r (s.setSealedPlan (some sp))).port .p0 =
        { s.port .p0 with deferred := (s.port .p0).deferred ++ [r] } := by
      simp [deferRequest]
    have sealedPlan : (deferRequest .p0 r (s.setSealedPlan (some sp))).layout.sealedPlan = some sp := rfl
    obtain ⟨⟨publish, -, whole⟩, count, -⟩ := wait .p0
    obtain ⟨more, others⟩ := deferredOf_append (c := s.port .p0) r code
    have same := others .publish (by decide)
    rw [unsealed] at count
    have one : deferredOf .planSet { s.port .p0 with deferred := (s.port .p0).deferred ++ [r] } = 1 := by
      rw [more, count]
      rfl
    refine ⟨?_, ?_, fun b => ?_⟩
    · rw [port]
      refine ⟨by rw [same]; exact publish, Nat.le_of_eq one, ?_⟩
      rw [more, same, List.length_append, whole]
      rfl
    · rw [port, sealedPlan, one]
      rfl
    · rw [port] at b
      exact nomatch ready.symm.trans b
  · exact (wait q).alike (.of_eq (by simp [deferRequest, hq])) rfl fun e => absurd e hq

/-! ### The ports -/

theorem retireIfDark_waitOf (j : WaitOf s q) : WaitOf (retireIfDark s) q := by
  unfold retireIfDark
  split
  · have g := retireListed_retired s
    have port := g.ports q
    have lay := g.lays q
    have reports : WaitOf (retireListed s).1 q := by
      refine j.congr (port.deferred.trans (by split <;> rfl)) ?_ (fun _ => by rw [g.sealedPlan]; rfl) fun b => ?_
      · rw [lay]
        split <;> rfl
      · have b' : (s.port q).engine = .blocked := by
          rw [port.engine] at b
          refine Eq.trans ?_ b
          split <;> rfl
        have reason := j.blocked b'
        have still : (if q ∈ s.layout.retiring then
            ((s.setRetiring []).port q).retired ((s.setRetiring []).entry q).enabled else (s.setRetiring []).port q) = s.port q := by
          split
          · exact retired_of_attached reason.1
          · rfl
        rw [still] at port
        refine blockedFor_congr reason port.attach (by rw [port.requests]) ?_ fun _ => by rw [g.sealedPlan]; rfl
        by_cases hm : q ∈ s.layout.retiring
        · simp only [State.editState, PortLayout.editState, lay, hm, if_true]
          rfl
        · simp only [State.editState, lay, hm, if_false]
          rfl
    exact (calm_takeReports _).waitOf (s := handReports (retireListed s).2 (retireListed s).1)
      (reports.alike (t := handReports _ _) (.refl _) rfl fun _ => rfl)
  · exact j

theorem left_waitingLaw (j : s.WaitingLaw) (reason : LeaveReason) (own : Option Response) :
    (retireIfDark (enterLeaving p reason own s)).WaitingLaw := by
  obtain ⟨dark, wait⟩ := waitingLaw_iff.mp j
  have left : ∀ q, WaitOf (enterLeaving p reason own s) q := fun q => by
    by_cases hq : q = p
    · subst hq
      have owes : Owes (s.lay q).sealedSet.isSome (if q = .p0 then 1 else 0) (s.port q) := by
        refine ⟨(wait q).owes.publish, ?_, (wait q).owes.whole⟩
        rw [(wait q).planSet]
        split <;> split <;> simp_all
      obtain ⟨owes, rests⟩ := enterLeaving_stage (p := q) (idle := False) (by split <;> decide) ⟨owes, False.elim⟩ reason own
      obtain ⟨ready, unset⟩ := rests trivial
      have none : deferredOf .planSet ((enterLeaving q reason own s).port q) = 0 := by
        have le := owes.planSet
        by_cases hz : q = .p0
        · simpa [hz] using le
        · simpa [hz] using le
      refine ⟨owes.mono (by split <;> decide), ?_, fun b => nomatch ready.symm.trans b⟩
      rw [none, enterLeaving_sealedPlan]
      by_cases hz : q = .p0
      · simp [hz]
      · simp [hz]
    · have same := Same.enterLeaving hq reason own (s := s)
      refine (wait q).alike same.port same.lay fun e => ?_
      rw [enterLeaving_sealedPlan, if_neg fun e' => hq (e.trans e'.symm)]
  refine waitingLaw_iff.mpr ⟨fun d => ?_, fun q => retireIfDark_waitOf (left q)⟩
  have whole := retireIfDark_left (p := p) (reason := reason) (own := own) (s := s)
  rw [whole.panel.scan] at d
  obtain ⟨a, b, c⟩ := dark d
  refine ⟨?_, ?_, fun q => ?_⟩
  · rw [(retireIfDark_plans _).2.1, enterLeaving_sealedPlan, a]
    split <;> rfl
  · rw [whole.retiring, if_pos (by simpa using d)]
  · by_cases hq : q = p
    · subst hq
      rw [whole.lay]
    · have same := (Same.enterLeaving hq reason own (s := s)).lay
      have dark' : (enterLeaving p reason own s).scan.panel = .dark := by
        rw [(enterLeaving_samePanel p reason own s).scan]
        exact d
      unfold retireIfDark
      rw [if_pos dark', State.lay, takeReports_layout]
      refine Eq.trans (b := ((enterLeaving p reason own s).lay q).sealedSet) ?_ (by rw [same]; exact c q)
      have lay := (retireListed_retired (enterLeaving p reason own s)).lays q
      show ((retireListed (enterLeaving p reason own s)).1.lay q).sealedSet = _
      rw [lay]
      split <;> rfl

theorem settleInDark_waitingLaw (j : s.WaitingLaw) (dark : s.scan.panel = .dark) (r : Request) (new : Plan) (mode : PlanMode) :
    (settleInDark r new mode s).WaitingLaw := by
  obtain ⟨idle, wait⟩ := waitingLaw_iff.mp j
  obtain ⟨unplanned, -, unset⟩ := idle dark
  have before : ∀ q, Stage True 0 s q := fun q => by
    obtain ⟨⟨publish, -, whole⟩, count, blocked⟩ := wait q
    have zero : deferredOf .planSet (s.port q) = 0 := by simpa [unplanned] using count
    refine ⟨⟨publish, Nat.le_of_eq zero, whole⟩, fun _ => ⟨?_, unset q⟩⟩
    cases e : (s.port q).engine with
    | ready => rfl
    | blocked =>
      obtain ⟨-, ⟨-, edit⟩ | ⟨-, -, waits⟩⟩ := blocked e
      · simp only [State.editState, PortLayout.editState, unset q] at edit
        cases hd : (s.lay q).draft <;> simp [hd] at edit
      · simp [unplanned] at waits
  have responded : ∀ (q : PortId) res fields u, Stage True 0 u q → Stage True 0 (respond .p0 r res fields u) q := by
    intro q res fields u i
    by_cases hq : q = .p0
    · subst hq
      exact i.kept ⟨by simp [respond], by simp [respond], rfl⟩
    · exact i.kept ⟨by simp [respond, hq], by simp [respond, hq], rfl⟩
  have stages : ∀ q, Stage True 0 (retireListed (settlePlan (respond .p0 r) new mode s).1).1 q := fun q =>
    retireListed_stage (settlePlan_stage (by decide) (by decide) (responded q) new mode (before q))
  have none : (settleInDark r new mode s).layout.sealedPlan = none := by
    rw [settleInDark_layout]
    refine (retireListed_retired _).sealedPlan.trans ?_
    rcases (settlePlan_plan (answer := respond .p0 r) (fun _ _ _ => rfl) new mode s).2 with w | w
    · exact w.trans unplanned
    · exact w
  have after : ∀ q, Stage True 0 (settleInDark r new mode s) q := fun q => by
    have told := storeNotices_alike (settlePlan (respond .p0 r) new mode s).2.notices q
      (advanceGenerations s (retireListed (settlePlan (respond .p0 r) new mode s).1).1)
    have port := told.trans (takeReports_alike q (handReports ((settlePlan (respond .p0 r) new mode s).2.reports ++
      (retireListed (settlePlan (respond .p0 r) new mode s).1).2) (storeNotices (settlePlan (respond .p0 r) new mode s).2.notices
        (advanceGenerations s (retireListed (settlePlan (respond .p0 r) new mode s).1).1))))
    exact (stages q).kept ⟨port.deferred, port.engine, by rw [State.lay, settleInDark_layout]; rfl⟩
  refine waitingLaw_iff.mpr ⟨fun _ => ⟨none, ?_, fun q => ((after q).rests trivial).2⟩, fun q => ?_⟩
  · rw [settleInDark_layout]
    exact (retireListed_retired _).retiring
  · refine ⟨(after q).owes.mono (by decide), ?_, fun b => nomatch ((after q).rests trivial).1.symm.trans b⟩
    rw [none]
    simpa using (after q).owes.planSet

theorem applyInDark_waitingLaw (j : s.WaitingLaw) (ready : (s.port p).engine = .ready)
    (unsealed : (s.lay p).sealedSet = none) (d : Proposal) : (applyInDark p d s).WaitingLaw := by
  have g := applySet_applied p (s.setLay p { s.lay p with draft := none, sealedSet := some d })
  have port : ∀ q, (s.port q).Alike ((applyInDark p d s).port q) := fun q => by
    refine PortController.Alike.trans (.of_eq ?_) (takeReports_alike q (handReports
      (applySet p (s.setLay p { s.lay p with draft := none, sealedSet := some d })).2
      (advanceGenerations s (applySet p (s.setLay p { s.lay p with draft := none, sealedSet := some d })).1)))
    exact congrArg (fun x : PerPort PortController => x.get q) g.ports
  have layout : (applyInDark p d s).layout = (advanceGenerations s
      (applySet p (s.setLay p { s.lay p with draft := none, sealedSet := some d })).1).layout := takeReports_layout _
  have lay : ∀ q, (applyInDark p d s).lay q = if q = p then { order := d.ids, draft := none, sealedSet := none } else s.lay q :=
    fun q => by
      rw [State.lay, layout]
      refine (applySet_layout p _ q).trans ?_
      by_cases hq : q = p
      · simp [hq, PortLayout.applied]
      · simp [hq]
  refine waitingLaw_at j (p := p) (fun q hq => ?_) (port p).deferred ?_ ((port p).engine.trans ready) (applyInDark_plans d s).2.1
    ?_ (applyInDark_plans d s).2.2
  · exact ⟨⟨(port q).deferred, (port q).engine, by rw [lay, if_neg hq]⟩, (port q).attach, (port q).requests⟩
  · rw [lay, if_pos rfl, unsealed]
  · rw [layout]
    exact g.retiring

theorem Move.waitingLaw (m : Move h s h' t) (j : s.WaitingLaw) : t.WaitingLaw := by
  have unit : ∀ (p : PortId) (v : SourceUnit), (settleUnit p (s.setUnit p v)).WaitingLaw := fun p v =>
    waitingLaw_of_ports (s := s) j (settleUnit_calm p (s.setUnit p v)).layout (settleUnit_samePanel p (s.setUnit p v)).scan
      (settleUnit_calm p (s.setUnit p v)).port
  cases m with
  | queue move => exact move.waitingLaw j
  | draft ready _ move => exact move.waitingLaw ready j
  | block p _ reason =>
    obtain ⟨dark, wait⟩ := waitingLaw_iff.mp j
    refine waitingLaw_iff.mpr ⟨dark, fun q => ?_⟩
    by_cases hq : q = p
    · subst hq
      refine (wait q).congr (by simp [setEngine]) rfl (fun _ => rfl) fun _ => ?_
      exact blockedFor_congr reason (by simp [setEngine]) (by simp [setEngine]) rfl fun _ => rfl
    · exact (wait q).alike (.of_eq (by simp [setEngine, hq])) rfl fun _ => rfl
  | depart _ p =>
    rcases leaveIfDone_cases p s with ⟨-, e⟩ | ⟨why, ha, -, e⟩ <;> rw [e]
    · exact j
    · obtain ⟨dark, wait⟩ := waitingLaw_iff.mp j
      have told := storeNotice_only .p0 (noticeNow s .portLeft (portByte p) why.byte)
        ((s.setPort p { s.port p with attach := if (s.entry p).enabled then .detached else .disabled }).setUnit p
          (s.unit p).silenced.undeclared)
      refine waitingLaw_of_ports ?_ told.layout told.scan fun q => storeNotice_alike _ q _ _
      refine waitingLaw_iff.mpr ⟨dark, fun q => ?_⟩
      by_cases hq : q = p
      · subst hq
        refine (wait q).congr (by simp) rfl (fun _ => rfl) fun b => ?_
        have attached := ((wait q).blocked (by simpa using b)).1
        exact nomatch ha.symm.trans attached
      · exact (wait q).alike (.of_eq (by simp [hq])) rfl fun _ => rfl
  | reports => exact takeReports_waitingLaw j
  | panel _ move =>
    cases move with
    | warmCount => exact (calmer_takeWarmCount s).waitingLaw j
    | setup => exact waitingLaw_of_same j rfl id (fun _ => rfl) (fun _ => rfl) (fun _ => rfl) fun _ _ => rfl
    | panelOff => exact (calmer_panelOff s).waitingLaw j
    | panelOn now =>
      obtain ⟨-, wait⟩ := waitingLaw_iff.mp (takeReports_waitingLaw j)
      exact waitingLaw_iff.mpr ⟨DarkIdle.of_runs (startWarming_runs now s), (works_startWarming now s).waitOf wait⟩
    | line l =>
      have calm := calm_startLine l (takeReports s)
      exact waitingLaw_of_same (takeReports_waitingLaw j) calm.layout (by rw [startLine_panel]; exact id)
        (fun q => (calm.port q).deferred) (fun q => (calm.port q).engine) (fun q => (calm.port q).attach)
        fun q _ => by rw [(calm.port q).requests]
  | sealSet p r d _ ready _ code _ unsealed _ runs => exact sealSet_waitingLaw j ready code unsealed runs
  | applySet p d _ ready _ _ unsealed => exact applyInDark_waitingLaw j ready unsealed d
  | sealPlan r mode _ ready _ code unsealed _ runs => exact sealPlan_waitingLaw j ready code unsealed runs
  | settlePlan r mode _ _ _ _ _ dark => exact settleInDark_waitingLaw j dark r _ mode
  | attach p sw sh _ _ _ ready =>
    exact waitingLaw_of_ports (waitingLaw_setPort_of_ready j p (c := { s.port p with
      attach := .attached, notices := [], noticeLost := false }) rfl ready) rfl rfl fun _ => .refl _
  | bye p r => exact left_waitingLaw j _ _
  | eject _ q => exact left_waitingLaw j _ _
  | format p => exact unit p _
  | packet p x _ runs =>
    unfold Machine.packet
    rw [if_pos runs]
    exact unit p _
  | judge p => exact (calmer_takeFrameStart p s).waitingLaw j
  | mark => exact waitingLaw_of_ports j rfl rfl fun _ => .refl _
  | unmark => exact waitingLaw_of_ports j rfl rfl fun _ => .refl _

theorem Owes.cleared {set : Bool} {n : Nat} {c : PortController} (o : Owes set n c) (le : n ≤ 1) (res : Result)
    (fields fields' : List Byte) : Owes false 0 ((c.paid .planSet res fields).paid .publish res fields') :=
  (o.paid_planSet_zero le res fields).paid_publish res fields'

theorem restartBody_waitingLaw (j : s.WaitingLaw) (r : Request) : (restartBody .p0 r s).WaitingLaw := by
  obtain ⟨-, wait⟩ := waitingLaw_iff.mp (takeReports_waitingLaw j)
  have port : ∀ q, ((restarted r (takeReports s)).port q).Alike ((restartBody .p0 r s).port q) := fun q => by
    rw [restartBody_eq]
    exact (storeNotice_alike .p0 q _ _).trans ((settleUnit_calm .p0 _).port q)
  have layout : (restartBody .p0 r s).layout =
      { LayoutStore.reset with plan := .default (takeReports s).scan.setup.w (takeReports s).scan.setup.h } := by
    rw [restartBody_eq, (settleUnit_calm _ _).layout, (storeNotice_only _ _ _).layout]
    rfl
  have unset : ∀ q, ((restartBody .p0 r s).lay q).sealedSet = none := fun q => by
    rw [State.lay, layout]
    cases q <;> rfl
  have unplanned : (restartBody .p0 r s).layout.sealedPlan = none := by rw [layout]; rfl
  have owes : ∀ q, Owes false 0 ((restarted r (takeReports s)).port q) := fun q => by
    cases q
    · exact ((wait .p0).owes.cleared (by decide) .cancelled [] []).congr rfl
    all_goals exact ⟨rfl, Nat.le_refl 0, rfl⟩
  have ready : ∀ q, ((restarted r (takeReports s)).port q).engine = .ready := fun q => by cases q <;> rfl
  refine waitingLaw_iff.mpr ⟨fun _ => ⟨unplanned, by rw [layout]; rfl, unset⟩, fun q => ?_⟩
  have o := (owes q).congr (port q).deferred
  refine ⟨by rw [unset]; exact o.mono (by decide), ?_, fun b => ?_⟩
  · rw [unplanned]
    simpa using o.planSet
  · rw [(port q).engine, ready] at b
    cases b

theorem AnyMove.waitingLaw (m : AnyMove h s h' t) (j : s.WaitingLaw) : t.WaitingLaw := by
  cases m with
  | move move => exact move.waitingLaw j
  | restart r => exact restartBody_waitingLaw j r
  | frame now _ runs =>
    obtain ⟨-, wait⟩ := waitingLaw_iff.mp (takeReports_waitingLaw j)
    have works := works_frame now (takeReports s)
    exact waitingLaw_iff.mpr ⟨DarkIdle.of_runs (works.runs (by rw [takeReports_scan]; exact runs)), works.waitOf wait⟩
  | enterDark b =>
    obtain ⟨u, before, after⟩ := enterDark_commits b s
    obtain ⟨-, wait⟩ := waitingLaw_iff.mp (takeReports_waitingLaw j)
    have committed : ∀ p, WaitOf (commit u) p := commit_waitOf fun p => before.calm.waitOf ((calm_darkened _).waitOf (wait p))
    obtain ⟨a, b, c⟩ := commit_clears u
    refine waitingLaw_iff.mpr ⟨fun _ => ?_, fun p => after.calm.waitOf (committed p)⟩
    simp only [State.lay, after.calm.layout]
    exact ⟨a, b, c⟩
  | reset _ _ eq =>
    cases eq
    exact waitingLaw_of_ports (s := State.reset) reset_WaitingLaw rfl rfl fun q => .of_eq (by cases q <;> rfl)

/-- Settles O51: every move keeps the waiting law. -/
theorem waitingLawKept : Obligations.WaitingLawKept := fun _ _ j h =>
  step_keeps (J := fun _ u => u.WaitingLaw) (fun m => m.waitingLaw) (fun _ j => j) j h
end

end Sys2Proof.Machine
end

