-- ==== Sys2Proof/Proofs/Reports.lean ====
section
/-! PROOFS. The reports of an application (R79): they name exactly the LIVE regions that go, and every one whose height
changes, stage by stage of a commit. -/

namespace Sys2Proof.Machine

/-! ### What reports tell of a step -/

/-- Reports tell what a step does to the LIVE regions of port q: which go, and which change their height. -/
structure Shown (q : PortId) (s t : State) (rs : List Report) : Prop where
  free : ∀ id, s.slot id = .free → t.slot id = .free
  stays : ∀ id, (s.slot id).liveOf q = true → (t.slot id).liveOf q = true ∨ t.slot id = .free
  gone : ∀ id, (q, id) ∈ withdrawnBy rs ↔ (s.slot id).liveOf q = true ∧ (t.slot id).liveOf q = false
  height : ∀ id k g c k' g' c', s.slot id = .live q k g c → t.slot id = .live q k' g' c' →
    c.h = c'.h ∨ ∃ f, Report.reshaped q id c'.h f ∈ rs

/-- The same for a step that makes no region LIVE. -/
structure Fades (q : PortId) (s t : State) (rs : List Report) : Prop extends Shown q s t rs where
  old : ∀ id, (t.slot id).liveOf q = true → (s.slot id).liveOf q = true

section
variable {p q : PortId} {s t u : State} {rs rs' : List Report}

theorem withdrawnBy_append (rs rs' : List Report) : withdrawnBy (rs ++ rs') = withdrawnBy rs ++ withdrawnBy rs' :=
  List.filterMap_append

theorem Shown.after (h : Fades q s t rs) (g : Shown q t u rs') : Shown q s u (rs ++ rs') where
  free id e := g.free id (h.free id e)
  stays id l := (h.stays id l).elim (g.stays id) fun e => .inr (g.free id e)
  gone id := by
    rw [withdrawnBy_append, List.mem_append, h.gone, g.gone]
    constructor
    · rintro (⟨l, n⟩ | ⟨l, n⟩)
      · have e := (h.stays id l).resolve_left (by simp [n])
        exact ⟨l, by rw [g.free id e]; rfl⟩
      · exact ⟨h.old id l, n⟩
    · rintro ⟨l, n⟩
      cases m : (t.slot id).liveOf q
      · exact .inl ⟨l, rfl⟩
      · exact .inr ⟨rfl, n⟩
  height id k a c k'' a'' c'' e e'' := by
    rcases h.stays id (by simp [e, Slot.liveOf]) with l | l
    · obtain ⟨k', a', c', e'⟩ := Slot.liveOf_iff.mp l
      rcases g.height id _ _ _ _ _ _ e' e'' with n | ⟨f, m⟩
      · rcases h.height id _ _ _ _ _ _ e e' with n' | ⟨f, m⟩
        · exact .inl (n'.trans n)
        · exact .inr ⟨f, List.mem_append_left _ (n ▸ m)⟩
      · exact .inr ⟨f, List.mem_append_right _ m⟩
    · exact nomatch (g.free id l).symm.trans e''

theorem Fades.trans (h : Fades q s t rs) (g : Fades q t u rs') : Fades q s u (rs ++ rs') :=
  ⟨.after h g.toShown, fun id l => h.old id (g.old id l)⟩

theorem Fades.of_slots (slot : ∀ id, t.slot id = s.slot id) : Fades q s t [] where
  free id e := (slot id).trans e
  stays id l := .inl (by rw [slot]; exact l)
  gone id := by simp [slot, withdrawnBy]
  height id k g c k' g' c' e e' := by
    rw [slot, e] at e'
    cases e'
    exact .inl rfl
  old id l := by rw [← slot]; exact l

theorem Fades.of_layout (layout : t.layout = s.layout) : Fades q s t [] :=
  .of_slots fun id => by simp only [State.slot, layout]

theorem Fades.of_slots_after (h : Fades q s t rs) (slot : ∀ id, u.slot id = t.slot id) : Fades q s u rs := by
  have both := h.trans (.of_slots slot)
  rwa [List.append_nil] at both

/-- RESERVED slots alone are released. -/
def Released (s t : State) : Prop := ∀ id, t.slot id = s.slot id ∨ ∃ p, (s.slot id).reservedOf p = true ∧ t.slot id = .free

theorem Released.fades (r : Released s t) (q : PortId) : Fades q s t [] where
  free id e := by
    rcases r id with h | ⟨p, h, f⟩
    · exact h.trans e
    · exact f
  stays id l := by
    rcases r id with h | ⟨p, h, f⟩
    · exact .inl (h ▸ l)
    · exact .inr f
  gone id := by
    refine ⟨nofun, fun ⟨l, n⟩ => ?_⟩
    rcases r id with h | ⟨p, h, -⟩
    · simp [h, l] at n
    · obtain ⟨k, e⟩ := Slot.reservedOf_iff.mp h
      rw [e] at l
      cases l
  height id k g c k' g' c' e e' := by
    rcases r id with h | ⟨p, -, f⟩
    · rw [h, e] at e'
      cases e'
      exact .inl rfl
    · exact nomatch f.symm.trans e'
  old id l := by
    rcases r id with h | ⟨p, -, f⟩
    · exact h ▸ l
    · rw [f] at l
      cases l

/-- LIVE regions of one port are withdrawn, each with its report. -/
theorem Fades.freeing {ids : List Nat} (live : ∀ id ∈ ids, (s.slot id).liveOf p = true)
    (slot : ∀ id, t.slot id = if id ∈ ids then .free else s.slot id) (f : FrameNo) (q : PortId) :
    Fades q s t (ids.map fun id => .withdrawn p id f) where
  free id e := by
    rw [slot]
    split
    · rfl
    · exact e
  stays id l := by
    rw [slot]
    split
    · exact .inr rfl
    · exact .inl l
  gone id := by
    rw [mem_withdrawnBy]
    simp only [List.mem_map, Report.withdrawn.injEq]
    constructor
    · rintro ⟨_, i, m, rfl, rfl, rfl⟩
      exact ⟨live _ m, by rw [slot, if_pos m]; rfl⟩
    · rintro ⟨l, n⟩
      rw [slot] at n
      split at n
      · rename_i m
        obtain ⟨k, g, c, e⟩ := Slot.liveOf_iff.mp l
        obtain ⟨k', g', c', e'⟩ := Slot.liveOf_iff.mp (live id m)
        rw [e] at e'
        cases e'
        exact ⟨f, id, m, rfl, rfl, rfl⟩
      · rw [l] at n
        cases n
  height id k g c k' g' c' e e' := by
    rw [slot] at e'
    split at e'
    · cases e'
    · rw [e] at e'
      cases e'
      exact .inl rfl
  old id l := by
    rw [slot] at l
    split at l
    · cases l
    · exact l

/-! ### Step 1: the plan -/

theorem Released.refl (s : State) : Released s s := fun _ => .inl rfl

theorem Released.trans (h : Released s t) (g : Released t u) : Released s u := fun id => by
  rcases g id with e | ⟨p, e, f⟩
  · rw [e]
    exact h id
  · rcases h id with e' | ⟨p', e', f'⟩
    · exact .inr ⟨p, e' ▸ e, f⟩
    · exact .inr ⟨p', e', f⟩

theorem Released.of_layout (layout : t.layout = s.layout) : Released s t := fun id =>
  .inl (by simp only [State.slot, layout])

theorem released_releaseUnnamed (p : PortId) (s : State) : Released s (releaseUnnamed p s) := fun id => by
  rw [slot_releaseUnnamed]
  split
  · rename_i h
    exact .inr ⟨p, h.1, rfl⟩
  · exact .inl rfl

theorem released_dropProposals (res : Result) (fields : List Byte) (s : State) :
    Released s (dropProposals p res fields s) := by
  rw [dropProposals, placeDeferred_eq]
  exact released_releaseUnnamed p (s.setLay p { s.lay p with draft := none, sealedSet := none })

theorem released_enterLeaving (reason : LeaveReason) (own : Option Response) (s : State) :
    Released s (enterLeaving p reason own s) := fun id => by
  rw [enterLeaving_slot]
  split
  · rename_i h
    exact .inr ⟨p, h, rfl⟩
  · exact .inl rfl

theorem released_handIfChanged (old new : Plan) (s : State) (p : PortId) : Released s (handIfChanged old new s p) := by
  unfold handIfChanged
  split
  · exact .refl s
  · unfold handEnablement
    dsimp only
    split
    · exact .of_layout rfl
    · split
      · exact .of_layout rfl
      · exact released_enterLeaving _ _ s
    · exact released_enterLeaving _ _ s
    · exact .refl s

/-- A step hands on further reports, which tell what it does. -/
def ReportsStep {β : Type} (reports : β → List Report) (x y : State × β) : Prop :=
  ∃ rs, reports y.2 = reports x.2 ++ rs ∧ ∀ q, Fades q x.1 y.1 rs

theorem ReportsStep.refl {β : Type} {reports : β → List Report} (x : State × β) : ReportsStep reports x x :=
  ⟨[], (List.append_nil _).symm, fun _ => .of_slots fun _ => rfl⟩

theorem ReportsStep.trans {β : Type} {reports : β → List Report} {x y z : State × β} (h : ReportsStep reports x y)
    (g : ReportsStep reports y z) : ReportsStep reports x z := by
  obtain ⟨rs, e, h⟩ := h
  obtain ⟨rs', e', g⟩ := g
  exact ⟨rs ++ rs', by rw [e', e, List.append_assoc], fun q => (h q).trans (g q)⟩

theorem ReportsStep.foldl {β : Type} {reports : β → List Report} {I : State → Prop} {f : State × β → PortId → State × β}
    (keep : ∀ x p, I x.1 → I (f x p).1) (step : ∀ x p, I x.1 → ReportsStep reports x (f x p)) (ps : List PortId)
    (x : State × β) (i : I x.1) : ReportsStep reports x (ps.foldl f x) := by
  induction ps generalizing x with
  | nil => exact .refl x
  | cons p ps ih => exact (step x p i).trans (ih _ (keep x p i))

theorem evictPort_reports (sh : State × Settled) (o : TableOf sh.1 p) :
    ReportsStep Settled.reports sh (evictPort p sh) := by
  refine ⟨_, rfl, fun q => ?_⟩
  have fades := Fades.freeing (p := p) (s := sh.1) (t := (evictPort p sh).1)
    (ids := (evict (sh.1.entry p) sh.1.scan.setup.h (liveEntries p sh.1)).2.map Prod.fst)
    (fun id m => o.live id (liveEntries_ids o ▸ (evict_parted _ _ _).names id m)) (evictPort_slot sh) sh.1.scan.frame q
  rw [List.map_map] at fades
  exact fades

theorem settleEvictPort_reports (old new : Plan) (sh : State × Settled) (p : PortId) (h : sh.1.TableLaw) :
    ReportsStep Settled.reports sh (settleEvictPort old new sh p) := by
  have law := handIfChanged_tableLaw (dropProposals_tableLaw (p := p) h .draftVoid [EditState.idle.byte]) old new p
  have released := (released_dropProposals (p := p) .draftVoid [EditState.idle.byte] sh.1).trans
    (released_handIfChanged old new _ p)
  have first : ∀ d : Settled, d.reports = sh.2.reports → ReportsStep Settled.reports sh
      (handIfChanged old new (dropProposals p .draftVoid [EditState.idle.byte] sh.1) p, d) := fun d e =>
    ⟨[], by rw [e, List.append_nil], released.fades⟩
  unfold settleEvictPort
  split
  · exact .refl sh
  · dsimp only
    split
    · exact (first _ rfl).trans (evictPort_reports (_, _) (law.at p))
    · exact first _ rfl

theorem settlePlan_reports {answer : Result → List Byte → State → State}
    (ha : ∀ res fields u, (answer res fields u).layout = u.layout)
    (law : ∀ res fields u, u.TableLaw → (answer res fields u).TableLaw) (new : Plan) (mode : PlanMode) (h : s.TableLaw)
    (q : PortId) : Fades q s (settlePlan answer new mode s).1 (settlePlan answer new mode s).2.reports := by
  cases mode with
  | keep =>
    simp only [settlePlan]
    split
    · exact .of_layout (ha _ _ _)
    · have all := foldl_keeps (β := Unit) (I := Released s) (f := fun x p => (handIfChanged s.layout.plan new x.1 p, ()))
        (fun x p i => i.trans (released_handIfChanged _ _ _ p)) PortId.all (s.setPlan new, ()) (fun _ => .inl rfl)
      rw [foldl_alone] at all
      exact (all.trans (.of_layout (ha _ _ _))).fades q
  | evict =>
    obtain ⟨rs, e, fades⟩ := ReportsStep.foldl (reports := Settled.reports) (I := State.TableLaw)
      (fun x p i => settleEvictPort_tableLaw s.layout.plan new x p i) (fun x p i => settleEvictPort_reports _ _ x p i)
      PortId.all (answer .done (planFields s none none) (s.setPlan new), .nothing)
      (law _ _ _ (show (s.setPlan new).TableLaw from h))
    have start : Fades q s (answer .done (planFields s none none) (s.setPlan new)) [] := .of_slots fun id => by
      simp only [State.slot, ha]
      rfl
    simp only [settlePlan, e]
    exact start.trans (fades q)

theorem settleSealed_reports (h : s.TableLaw) (q : PortId) : Fades q s (settleSealed s).1 (settleSealed s).2.reports := by
  cases e : s.layout.sealedPlan with
  | none =>
    rw [settleSealed_none e]
    exact .of_slots fun _ => rfl
  | some sp =>
    have settled := settlePlan_reports (answer := placeDeferred .p0 .planSet) (fun res fields u => by rw [placeDeferred_eq]; rfl)
      (fun res fields u i => placeDeferred_tableLaw i _ _ _ _) sp.plan sp.mode h q
    rw [settleSealed_some e]
    exact settled.of_slots_after fun _ => rfl

/-! ### Step 2: the leaving ports -/

/-- Every order list holds LIVE regions of its port. -/
def Ordered (s : State) : Prop := ∀ p, ∀ id ∈ (s.lay p).order, (s.slot id).liveOf p = true

theorem tellRetired_layout (p : PortId) (s : State) : (tellRetired p s).layout = s.layout := by
  rw [tellRetired_eq]
  exact (storeNotices_only _ _).layout

theorem retireOne_slot (x : State × List Report) (id : Nat) : (retireOne x p).1.slot id =
    if id ∈ (x.1.lay p).order then .free else x.1.slot id := by
  simp only [retireOne, State.slot, tellRetired_layout]
  exact slot_freeSlots _ _ _

theorem retireOne_lay (x : State × List Report) (q : PortId) : (retireOne x p).1.lay q =
    if q = p then { x.1.lay p with order := [] } else x.1.lay q := by
  simp only [retireOne, State.lay, tellRetired_layout]
  exact State.lay_setLay _ _ _ _

theorem retireOne_ordered (x : State × List Report) (p : PortId) (i : Ordered x.1) : Ordered (retireOne x p).1 := by
  intro q id m
  rw [retireOne_lay] at m
  split at m
  · cases m
  · rename_i hq
    rw [retireOne_slot, if_neg]
    · exact i q id m
    · intro m'
      exact owner?_ne hq (Slot.owner?_of_liveOf (i p id m')) (Slot.owner?_of_liveOf (i q id m))

theorem retireListed_reports (i : Ordered s) (q : PortId) : Fades q s (retireListed s).1 (retireListed s).2 := by
  obtain ⟨rs, e, fades⟩ := ReportsStep.foldl (reports := id) (I := Ordered) retireOne_ordered
    (fun x p i => ⟨_, rfl, Fades.freeing (i p) (retireOne_slot x) x.1.scan.frame⟩) s.layout.retiring (s.setRetiring [], []) i
  rw [show (retireListed s).2 = rs from e]
  exact Fades.trans (s := s) (t := s.setRetiring []) (.of_slots fun _ => rfl) (fades q)

theorem State.TableLaw.ordered (h : s.TableLaw) : Ordered s := fun p => (h.at p).live

/-! ### Step 3: the sets -/

/-- The reports of an application at its port, and those of a step at another port. -/
theorem applySet_reports (o : TableOf s p) : Shown p s (applySet p s).1 (applySet p s).2 := by
  cases hs : (s.lay p).sealedSet with
  | none =>
    rcases applySet_cases p s with ⟨-, e⟩ | ⟨pr, e, -⟩
    · rw [e]
      exact (Fades.of_slots fun _ => rfl).toShown
    · exact nomatch hs.symm.trans e
  | some pr =>
    have reports : (applySet p s).2 = applyReports p pr s := by
      rcases applySet_cases p s with ⟨e, -⟩ | ⟨pr', e, eq⟩
      · exact nomatch hs.symm.trans e
      · rw [eq, Option.some.inj (hs.symm.trans e)]
    have cases' := applyToSlot_cases o hs
    rw [reports]
    constructor
    · intro id e
      rcases cases' id with ⟨-, own, -⟩ | ⟨-, -, e'⟩ | ⟨-, -, e'⟩
      · rw [e] at own
        cases own
      · exact e'
      · exact e'.trans e
    · intro id l
      rcases cases' id with ⟨-, -, k, g, c, -, -, e⟩ | ⟨-, -, e⟩ | ⟨-, -, e⟩ <;> rw [e]
      · exact .inl (Slot.liveOf_iff.mpr ⟨k, g, c, rfl⟩)
      · exact .inr rfl
      · exact .inl l
    · intro id
      have told : (p, id) ∈ withdrawnBy (applyReports p pr s) ↔ id ∈ (s.lay p).order ∧ id ∉ pr.ids := by
        rw [mem_withdrawnBy]
        simp only [applyReports, List.mem_append, List.mem_map, List.mem_filter, reduceCtorEq, and_false, exists_false,
          or_false, Report.withdrawn.injEq, true_and, Bool.not_eq_true', ← Bool.not_eq_true, names_iff]
        exact ⟨fun ⟨_, _, m, e, _⟩ => e ▸ m, fun m => ⟨_, id, m, rfl, rfl⟩⟩
      rw [told]
      rcases cases' id with ⟨m, -, k, g, c, -, -, e⟩ | ⟨n, m, e⟩ | ⟨-, n, e⟩ <;> rw [e]
      · simp [m, Slot.liveOf]
      · exact ⟨fun _ => ⟨o.live id m, rfl⟩, fun _ => ⟨m, n⟩⟩
      · simp [n]
    · intro id k g c k' g' c' e e'
      rcases cases' id with ⟨m, -, k, g, d, copy, -, f⟩ | ⟨-, -, f⟩ | ⟨-, -, f⟩
      · rw [f] at e'
        cases e'
        obtain ⟨x, hx, rfl⟩ := List.mem_map.mp m
        rw [copyIn_of_mem (o.set pr hs).1 hx] at copy
        cases copy
        by_cases he : c.h = x.copy.h
        · exact .inl he
        · refine .inr ⟨s.scan.frame, List.mem_append_right _ (List.mem_map.mpr ⟨x, List.mem_filter.mpr ⟨hx, ?_⟩, rfl⟩)⟩
          simp [liveHeight, e, Slot.liveCopy?, he]
      · exact nomatch f.symm.trans e'
      · rw [f, e] at e'
        cases e'
        exact .inl rfl

/-- A step at another port: what port q owns stays, and no report is of port q. -/
structure Apart (q : PortId) (s t : State) (rs : List Report) : Prop where
  same : Same q s t
  free : ∀ id, s.slot id = .free → t.slot id = .free
  others : ∀ r ∈ rs, r.owner ≠ q

theorem Apart.not_withdrawn (h : Apart q s t rs) (id : Nat) : (q, id) ∉ withdrawnBy rs := fun m => by
  obtain ⟨f, hf⟩ := (mem_withdrawnBy rs q id).mp m
  exact h.others _ hf rfl

theorem Apart.trans (h : Apart q s t rs) (g : Apart q t u rs') : Apart q s u (rs ++ rs') :=
  ⟨h.same.trans g.same, fun id e => g.free id (h.free id e), fun r m => (List.mem_append.mp m).elim (h.others r) (g.others r)⟩

theorem Apart.fades (h : Apart q s t rs) : Fades q s t rs where
  free := h.free
  stays id l := .inl ((h.same.liveOf id).trans l)
  gone id := ⟨fun m => absurd m (h.not_withdrawn id), fun ⟨l, n⟩ => absurd (h.same.liveOf id) (by simp [l, n])⟩
  height id k g c k' g' c' e e' := by
    rw [h.same.slot id (.inl (by rw [e]; rfl)), e] at e'
    cases e'
    exact .inl rfl
  old id l := (h.same.liveOf id).symm.trans l

theorem Shown.apart (h : Shown q s t rs) (g : Apart q t u rs') : Shown q s u (rs ++ rs') where
  free id e := g.free id (h.free id e)
  stays id l := (h.stays id l).imp (fun l => (g.same.liveOf id).trans l) (g.free id)
  gone id := by
    rw [withdrawnBy_append, List.mem_append, or_iff_left (g.not_withdrawn id), g.same.liveOf]
    exact h.gone id
  height id k a c k' a' c' e e' := by
    have own : u.slot id = t.slot id := g.same.slot id (.inr (by rw [e']; rfl))
    exact (h.height id _ _ _ _ _ _ e (own.symm.trans e')).imp_right fun ⟨f, m⟩ => ⟨f, List.mem_append_left _ m⟩

theorem applySet_apart (h : s.TableLaw) (hq : q ≠ p) : Apart q s (applySet p s).1 (applySet p s).2 := by
  refine ⟨.applySet (h.at p) hq, (applySet_reports (h.at p)).free, fun r m => ?_⟩
  rcases applySet_cases p s with ⟨-, e⟩ | ⟨pr, -, e⟩ <;> rw [e] at m
  · cases m
  · rcases List.mem_append.mp m with m | m <;> obtain ⟨_, -, rfl⟩ := List.mem_map.mp m <;> exact Ne.symm hq

theorem applySets_reports (h : s.TableLaw) (q : PortId) : Shown q s (applySets s).1.1 (applySets s).1.2 := by
  obtain ⟨y, i, ⟨rs, e, before⟩, ⟨rs', e', after⟩⟩ := foldl_all_at (X := State × List Report) (I := fun x => x.1.TableLaw)
    (R := fun x y => ∃ rs, y.2 = x.2 ++ rs ∧ Apart q x.1 y.1 rs)
    (fun x => ⟨[], (List.append_nil _).symm, .refl q _, fun _ e => e, nofun⟩)
    (fun ⟨rs, e, h⟩ ⟨rs', e', g⟩ => ⟨rs ++ rs', by rw [e', e, List.append_assoc], h.trans g⟩)
    (f := fun sr p => ((applySet p sr.1).1, sr.2 ++ (applySet p sr.1).2)) (fun x p i => applySet_tableLaw i p) q
    (fun x p i hq => ⟨_, rfl, applySet_apart i hq⟩) (s, []) h
  rw [show (applySets s).1.2 = y.2 ++ (applySet q y.1).2 ++ rs' from e', e]
  exact (Shown.after before.fades (applySet_reports (i.at q))).apart after

/-! ### The commit -/

theorem Shown.congr (h : Shown q s t rs) (view : ∀ id, u.slot id = .free ↔ t.slot id = .free)
    (live : ∀ id, (u.slot id).liveOf q = (t.slot id).liveOf q)
    (copy : ∀ id, (u.slot id).liveCopy? = (t.slot id).liveCopy?) : Shown q s u rs where
  free id e := (view id).mpr (h.free id e)
  stays id l := by
    rw [live, view]
    exact h.stays id l
  gone id := by
    rw [live]
    exact h.gone id
  height id k a c k' a' c' e e' := by
    obtain ⟨k'', a'', c'', e''⟩ := Slot.liveOf_iff.mp ((live id).symm.trans (Slot.liveOf_iff.mpr ⟨_, _, _, e'⟩))
    have same := copy id
    rw [e', e''] at same
    cases same
    exact h.height id _ _ _ _ _ _ e e''

theorem Shown.of_layout (h : Shown q s t rs) (layout : u.layout = t.layout) : Shown q s u rs := by
  have slot : ∀ id, u.slot id = t.slot id := fun id => by simp only [State.slot, layout]
  exact h.congr (fun id => by rw [slot]) (fun id => by rw [slot]) (fun id => by rw [slot])

theorem Shown.advanced (h : Shown q s t rs) (s0 : State) : Shown q s (advanceGenerations s0 t) rs := by
  refine h.congr (fun id => ?_) (fun id => ?_) (fun id => liveCopy?_advanceGenerations _ _ _) <;>
    rw [slot_advanceGenerations] <;> cases t.slot id <;> simp [Slot.liveOf]

/-- The reports of a commit tell what it does to the LIVE regions of each port. -/
theorem commit_reports (h : s.TableLaw) (q : PortId) : Shown q s (commit s) (commitReports s) := by
  have settled := settleSealed_tableLaw h
  have two := (settleSealed_reports h q).trans (retireListed_reports settled.ordered q)
  exact ((Shown.after two (applySets_reports (retireListed_tableLaw settled) q)).advanced s).of_layout (commit_layout s)

/-- The Mark Unit keeps what a commit withdrew. -/
theorem commit_withdrawn (s : State) : (commit s).marks.withdrawn = withdrawnBy (commitReports s) := rfl

/-- The Mark Unit keeps exactly what a commit withdrew (R79, log 30). -/
theorem commit_withdrawnKept (h : s.TableLaw) : withdrawnKept s (commit s) := fun q id => by
  have told := commit_reports h q
  rw [commit_withdrawn, told.gone, ← Slot.liveOf_iff]
  refine and_congr_right fun l => ⟨fun n => (told.stays id l).resolve_left (by simp [n]), fun e => by rw [e]; rfl⟩
end

end Sys2Proof.Machine
end

