-- ==== Sys2Proof/Proofs/MarkLaw.lean ====
section
/-! PROOFS. The mark law (R125, R132): a mark whose region goes, or whose region becomes too low for it, is broken by a report
of the same application. -/

namespace Sys2Proof.Machine

/-! ### The law of one port -/

/-- Reports break a mark of port q. -/
def Broken (rs : List Report) (q : PortId) (m : Mark) : Prop := ∃ r ∈ rs, r.owner = q ∧ r.breaks m = true

/-- The mark law of one port while these reports wait. -/
structure MarksOf (rs : List Report) (s : State) (q : PortId) : Prop where
  ordered : (s.markList q).Pairwise fun m n => m.id < n.id
  sound : ∀ m ∈ s.markList q, m.id < 4 ∧ (m.Fits q s ∨ Broken rs q m)

section
variable {p q : PortId} {s t u : State} {rs rs' : List Report}

theorem markLaw_iff : s.MarkLaw ↔ ∀ q, MarksOf s.marks.reports s q :=
  ⟨fun j q => ⟨(j q).1, (j q).2⟩, fun j q => ⟨(j q).ordered, (j q).sound⟩⟩

theorem Mark.fits_iff {m : Mark} : m.Fits q s ↔ ∃ k g c, s.slot m.region = .live q k g c ∧ m.offset < c.h := by
  unfold Mark.Fits
  cases s.slot m.region with
  | live o k g c =>
    simp only [Slot.live.injEq]
    exact ⟨fun ⟨e, lt⟩ => ⟨k, g, c, ⟨e, rfl, rfl, rfl⟩, lt⟩, fun ⟨_, _, _, ⟨e, _, _, e'⟩, lt⟩ => ⟨e, e' ▸ lt⟩⟩
  | _ => exact ⟨False.elim, nofun⟩

theorem MarksOf.of_nil (nil : s.markList q = []) : MarksOf rs s q := ⟨by rw [nil]; exact .nil, by rw [nil]; nofun⟩

theorem markLaw_of_nil (nil : ∀ q, s.markList q = []) : s.MarkLaw := markLaw_iff.mpr fun q => .of_nil (nil q)

/-- A list of fewer marks keeps the law where each of them fits, or is broken, as before. -/
theorem MarksOf.cut (j : MarksOf rs s q) (list : (t.markList q).Sublist (s.markList q))
    (keep : ∀ m : Mark, m.Fits q s ∨ Broken rs q m → m.Fits q t ∨ Broken rs' q m) : MarksOf rs' t q :=
  ⟨j.ordered.sublist list, fun m hm => (j.sound m (list.subset hm)).imp_right (keep m)⟩

theorem Mark.Fits.congr {m : Mark} (h : m.Fits q s) (slot : ∀ id, (s.slot id).liveOf q = true → t.slot id = s.slot id) :
    m.Fits q t := by
  obtain ⟨k, g, c, e, lt⟩ := fits_iff.mp h
  exact fits_iff.mpr ⟨k, g, c, (slot _ (by rw [e]; exact Slot.liveOf_iff.mpr ⟨k, g, c, rfl⟩)).trans e, lt⟩

theorem Mark.Fits.of_sameLive {m : Mark} (h : m.Fits q s) (live : s.sameLive t) : m.Fits q t := by
  obtain ⟨k, g, c, e, lt⟩ := fits_iff.mp h
  have view : ∀ v : State, (v.layout.slots.map Slot.liveView).getD m.region none = (v.slot m.region).liveView := fun v => by
    rw [State.slot, show (none : Option Slot) = Slot.liveView .free from rfl, List.getD_map]
  have same := view t
  rw [live.1, view s, e] at same
  refine fits_iff.mpr ⟨k, g, c, ?_, lt⟩
  cases e' : t.slot m.region with
  | live o k' g' c' =>
    rw [e'] at same
    exact (Option.some.inj same).symm
  | _ =>
    rw [e'] at same
    cases same

/-- A step that keeps the live state and the reports, and adds no mark. -/
theorem markLaw_of_sameLive (j : s.MarkLaw) (live : s.sameLive t) (lists : ∀ q, (t.markList q).Sublist (s.markList q))
    (reports : t.marks.reports = s.marks.reports) : t.MarkLaw := markLaw_iff.mpr fun q => by
  rw [reports]
  exact (markLaw_iff.mp j q).cut (lists q) fun m h => h.imp_left (·.of_sameLive live)

theorem markLaw_of_layout (j : s.MarkLaw) (layout : t.layout = s.layout) (marks : t.marks = s.marks) : t.MarkLaw :=
  markLaw_of_sameLive j (sameLive_of_layout layout) (fun q => by simp only [State.markList, marks]; exact .refl _)
    (by rw [marks])

/-- A mark that fits before a step fits after it, or a report of the step breaks it (R132). -/
theorem Shown.fits {m : Mark} (h : Shown q s t rs) (fits : m.Fits q s) : m.Fits q t ∨ Broken rs q m := by
  obtain ⟨k, g, c, e, lt⟩ := Mark.fits_iff.mp fits
  have l : (s.slot m.region).liveOf q = true := Slot.liveOf_iff.mpr ⟨k, g, c, e⟩
  cases l' : (t.slot m.region).liveOf q with
  | false =>
    obtain ⟨f, hf⟩ := (mem_withdrawnBy rs q m.region).mp ((h.gone _).mpr ⟨l, l'⟩)
    exact .inr ⟨_, hf, rfl, by simp [Report.breaks]⟩
  | true =>
    obtain ⟨k', g', c', e'⟩ := Slot.liveOf_iff.mp l'
    by_cases lt' : m.offset < c'.h
    · exact .inl (Mark.fits_iff.mpr ⟨k', g', c', e', lt'⟩)
    · rcases h.height _ _ _ _ _ _ _ e e' with n | ⟨f, hf⟩
      · exact absurd (n ▸ lt) lt'
      · exact .inr ⟨_, hf, rfl, by simp [Report.breaks, Nat.not_lt.mp lt']⟩

theorem MarksOf.shown (j : MarksOf rs s q) (h : Shown q s t rs') (list : (t.markList q).Sublist (s.markList q)) :
    MarksOf (rs ++ rs') t q :=
  j.cut list fun _ k => k.elim
    (fun f => (h.fits f).imp_right fun ⟨r, m, b⟩ => ⟨r, List.mem_append_right _ m, b⟩)
    fun ⟨r, m, b⟩ => .inr ⟨r, List.mem_append_left _ m, b⟩

/-! ### The reports taken -/

theorem takeReports_markLaw (j : ∀ q, MarksOf s.marks.reports s q) : (takeReports s).MarkLaw := markLaw_iff.mpr fun q => by
  rw [takeReports_reports]
  have list := takeReports_markList (s := s) q
  refine ⟨(j q).ordered.sublist (list ▸ List.filter_sublist), fun m hm => ?_⟩
  rw [list, List.mem_filter] at hm
  obtain ⟨small, sound⟩ := (j q).sound m hm.1
  refine ⟨small, .inl ((sound.resolve_right fun ⟨r, hr, own, breaks⟩ => ?_).congr fun id _ => takeReports_slot s id)⟩
  have := List.all_eq_true.mp hm.2 r hr
  simp [own, breaks] at this

/-! ### What a commit does to the mark lists -/

/-- The mark lists stay or are emptied, and no report is handed on. -/
structure MarksCut (s t : State) : Prop where
  lists : ∀ q, t.markList q = s.markList q ∨ t.markList q = []
  reports : t.marks.reports = s.marks.reports

theorem MarksCut.of_marks (marks : t.marks = s.marks) : MarksCut s t :=
  ⟨fun q => .inl (by simp only [State.markList, marks]), by rw [marks]⟩

theorem MarksCut.trans (h : MarksCut s t) (g : MarksCut t u) : MarksCut s u :=
  ⟨fun q => (g.lists q).elim (fun e => e ▸ h.lists q) .inr, g.reports.trans h.reports⟩

theorem MarksCut.sublist (h : MarksCut s t) (q : PortId) : (t.markList q).Sublist (s.markList q) := by
  rcases h.lists q with e | e <;> rw [e]
  exact List.nil_sublist _

theorem enterLeaving_marks (reason : LeaveReason) (own : Option Response) (s : State) :
    MarksCut s (enterLeaving p reason own s) := by
  have before : MarksCut s (entered p reason own s) := ⟨fun q => by
    rw [entered_markList]
    split
    · exact .inr rfl
    · exact .inl rfl, entered_reports⟩
  by_cases ho : (s.lay p).order = []
  · exact before.trans (.of_marks (enterLeaving_of_none ho).marks)
  · rw [enterLeaving_of_order ho]
    exact before.trans (.of_marks rfl)

theorem handIfChanged_marks (old new : Plan) (s : State) (p : PortId) : MarksCut s (handIfChanged old new s p) := by
  unfold handIfChanged
  split
  · exact .of_marks rfl
  · unfold handEnablement
    dsimp only
    split
    · exact .of_marks rfl
    · split
      · exact .of_marks rfl
      · exact enterLeaving_marks _ _ s
    · exact enterLeaving_marks _ _ s
    · exact .of_marks rfl

theorem settleEvictPort_marks (old new : Plan) (sh : State × Settled) (p : PortId) :
    MarksCut sh.1 (settleEvictPort old new sh p).1 := by
  have hand := (MarksCut.of_marks (s := sh.1) (t := dropProposals p .draftVoid [EditState.idle.byte] sh.1)
    (by rw [dropProposals, placeDeferred_eq]; rfl)).trans (handIfChanged_marks old new _ p)
  unfold settleEvictPort
  split
  · exact .of_marks rfl
  · dsimp only
    split
    · exact hand.trans (.of_marks rfl)
    · exact hand

theorem settlePlan_marks {answer : Result → List Byte → State → State} (ha : ∀ res fields u, (answer res fields u).marks = u.marks)
    (new : Plan) (mode : PlanMode) (s : State) : MarksCut s (settlePlan answer new mode s).1 := by
  cases mode with
  | keep =>
    simp only [settlePlan]
    split
    · exact .of_marks (ha _ _ _)
    · have all := foldl_keeps (β := Unit) (I := MarksCut s) (f := fun x p => (handIfChanged s.layout.plan new x.1 p, ()))
        (fun x p i => i.trans (handIfChanged_marks _ _ _ p)) PortId.all (s.setPlan new, ()) (.of_marks rfl)
      rw [foldl_alone] at all
      exact all.trans (.of_marks (ha _ _ _))
  | evict =>
    exact foldl_keeps (I := MarksCut s) (fun x p i => i.trans (settleEvictPort_marks _ _ x p)) PortId.all (_, .nothing)
      (.of_marks (ha _ _ (s.setPlan new)))

theorem settleSealed_marks (s : State) : MarksCut s (settleSealed s).1 := by
  cases e : s.layout.sealedPlan with
  | none =>
    rw [settleSealed_none e]
    exact .of_marks rfl
  | some sp =>
    rw [settleSealed_some e]
    exact (settlePlan_marks (fun res fields u => by rw [placeDeferred_eq]; rfl) sp.plan sp.mode s).trans (.of_marks rfl)

theorem retireListed_marks (s : State) : MarksCut s (retireListed s).1 := .of_marks (retireListed_retired s).marks

/-- A commit keeps or empties each mark list, and hands its reports on behind those that wait. -/
theorem commit_marks (s : State) : (∀ q, ((commit s).markList q).Sublist (s.markList q)) ∧
    (commit s).marks.reports = s.marks.reports ++ commitReports s := by
  have before : MarksCut s (storeNotices (settleSealed s).2.notices (committed s)) :=
    (((settleSealed_marks s).trans (retireListed_marks _)).trans (.of_marks (applySets_applied _).marks)).trans
      (.of_marks ((storeNotices_only _ _).marks.trans (answerApplied_sameBlocks _ _).marks))
  rw [commit_eq]
  exact ⟨before.sublist, congrArg (· ++ commitReports s) before.reports⟩

theorem commit_markLaw (h : s.TableLaw) (j : s.MarkLaw) : (commit s).MarkLaw := markLaw_iff.mpr fun q => by
  obtain ⟨lists, reports⟩ := commit_marks s
  rw [reports]
  exact (markLaw_iff.mp j q).shown (commit_reports h q) (lists q)

/-! ### The works of a frame start, and the applications of a DARK panel -/

theorem Calmer.markLaw (g : Calmer s t) (j : s.MarkLaw) : t.MarkLaw := markLaw_of_layout j g.calm.layout g.marks

theorem Works.markLaw (g : Works s t) (h : s.TableLaw) (j : s.MarkLaw) : t.MarkLaw :=
  (g.keeps (J := fun u => u.TableLaw ∧ u.MarkLaw) (fun c j => ⟨c.calm.tableLaw j.1, c.markLaw j.2⟩)
    (fun j => ⟨commit_tableLaw j.1, commit_markLaw j.1 j.2⟩) ⟨h, j⟩).2

/-- Reports that tell what was done are handed on and taken at once. -/
theorem taken_markLaw (j : s.MarkLaw) (h : ∀ q, Shown q s t rs) (cut : MarksCut s t) :
    (takeReports (handReports rs t)).MarkLaw :=
  takeReports_markLaw fun q => by
    have told := (markLaw_iff.mp j q).shown (h q) (cut.sublist q)
    rw [show (handReports rs t).marks.reports = s.marks.reports ++ rs from congrArg (· ++ rs) cut.reports]
    exact told.cut (t := handReports rs t) (.refl _) fun _ k => k

theorem retireIfDark_markLaw (h : s.TableLaw) (j : s.MarkLaw) : (retireIfDark s).MarkLaw := by
  unfold retireIfDark
  split
  · exact taken_markLaw j (fun q => (retireListed_reports h.ordered q).toShown) (retireListed_marks s)
  · exact j

theorem left_markLaw (h : s.TableLaw) (attached : (s.port p).attach = .attached) (j : s.MarkLaw) (reason : LeaveReason)
    (own : Option Response) : (retireIfDark (enterLeaving p reason own s)).MarkLaw :=
  retireIfDark_markLaw (enterLeaving_tableLaw h _ _ (by simp [attached]))
    (markLaw_of_sameLive j (sameLive_enterLeaving _ _) (enterLeaving_marks _ _ s).sublist (enterLeaving_marks _ _ s).reports)

theorem applyInDark_markLaw (h : s.TableLaw) (attached : (s.port p).attach = .attached) {d : Proposal}
    (draft : (s.lay p).draft = some d) (unsealed : (s.lay p).sealedSet = none) (j : s.MarkLaw) : (applyInDark p d s).MarkLaw := by
  have law := sealed_tableLaw h attached draft unsealed
  have begun : (s.setLay p { s.lay p with draft := none, sealedSet := some d }).MarkLaw :=
    markLaw_of_sameLive j (sameLive_setLay rfl) (fun _ => .refl _) rfl
  refine taken_markLaw begun (fun q => ?_) ((MarksCut.of_marks (applySet_applied p _).marks).trans (.of_marks rfl))
  by_cases hq : q = p
  · subst hq
    exact (applySet_reports (law.at q)).advanced s
  · exact (applySet_apart law hq).fades.toShown.advanced s

theorem respond_tableLaw (h : s.TableLaw) (r : Request) (res : Result) (fields : List Byte) :
    (respond p r res fields s).TableLaw := SameBlocks.tableLaw (.setPort s p (by rfl)) h

theorem settleInDark_markLaw (h : s.TableLaw) (j : s.MarkLaw) (r : Request) (new : Plan) (mode : PlanMode) :
    (settleInDark r new mode s).MarkLaw := by
  have settled : (settlePlan (respond .p0 r) new mode s).1.TableLaw :=
    settlePlan_tableLaw (fun res fields u i => respond_tableLaw i r res fields) new mode h
  have cut := (settlePlan_marks (answer := respond .p0 r) (fun _ _ _ => rfl) new mode s).trans (retireListed_marks _)
  refine taken_markLaw j (fun q => ?_) (cut.trans (.of_marks (storeNotices_only _ (advanceGenerations s _)).marks))
  have two := (settlePlan_reports (answer := respond .p0 r) (fun _ _ _ => rfl)
    (fun res fields u i => respond_tableLaw i r res fields) new mode h q).trans (retireListed_reports settled.ordered q)
  exact (two.toShown.advanced s).of_layout (storeNotices_only _ _).layout

/-! ### The marks of a line, MARK and UNMARK -/

/-- What the line leaves of a mark keeps its id, region and offset. -/
theorem markAfter_same {l : Nat} {x m : Mark} (h : (if markAt l s x then x.fired else some x) = some m) :
    m.id = x.id ∧ m.region = x.region ∧ m.offset = x.offset := by
  split at h
  · unfold Mark.fired at h
    split at h
    · cases h
      exact ⟨rfl, rfl, rfl⟩
    · split at h <;> cases h
      exact ⟨rfl, rfl, rfl⟩
  · cases h
    exact ⟨rfl, rfl, rfl⟩

theorem marksAfter_marksOf {l : Nat} (j : MarksOf rs s q) (list : t.markList q = marksAfter l s (s.markList q))
    (layout : t.layout = s.layout) : MarksOf rs t q := by
  constructor
  · rw [list]
    refine j.ordered.filterMap _ fun x y lt m hm n hn => ?_
    rw [(markAfter_same hm).1, (markAfter_same hn).1]
    exact lt
  · intro m hm
    obtain ⟨x, hx, e⟩ := List.mem_filterMap.mp (list ▸ hm)
    obtain ⟨id, region, offset⟩ := markAfter_same e
    refine id ▸ (j.sound x hx).imp_right (Or.imp (fun fits => ?_) fun ⟨r, hr, own, breaks⟩ => ⟨r, hr, own, ?_⟩)
    · unfold Mark.Fits State.slot at fits ⊢
      rw [region, offset, layout]
      exact fits
    · cases r <;> simp only [Report.breaks, region, offset] at breaks ⊢ <;> exact breaks

theorem startLine_markLaw {l : Nat} (j : s.MarkLaw) : (startLine l s).MarkLaw := by
  rw [startLine_eq]
  have begun : (lineBegun l s).MarkLaw := markLaw_of_layout j rfl rfl
  split
  · obtain ⟨-, layout, -, all⟩ := foldl_fireMarks (l := l) PortId.all (by decide) (lineBegun l s)
    have reports := foldl_keeps (β := Unit) (I := fun u => u.marks.reports = (lineBegun l s).marks.reports)
      (f := fun x p => (fireMarks l x.1 p, ())) (fun x p i => (congrArg MarkUnit.reports (fireMarks_only l x.1 p).marks).trans i)
      PortId.all (lineBegun l s, ()) rfl
    rw [foldl_alone] at reports
    refine markLaw_iff.mpr fun q => ?_
    rw [reports]
    exact marksAfter_marksOf (markLaw_iff.mp begun q) ((all q).2 (by cases q <;> decide)).2.2 layout
  · exact begun

theorem mem_insertMark {m x : Mark} {ms : List Mark} : x ∈ insertMark m ms ↔ x = m ∨ x ∈ ms := by
  induction ms with
  | nil => simp [insertMark]
  | cons y ms ih =>
    unfold insertMark
    split
    · simp
    · simp only [List.mem_cons, ih]
      exact or_left_comm

theorem insertMark_ordered {m : Mark} {ms : List Mark} (h : ms.Pairwise fun m n => m.id < n.id) (new : ∀ x ∈ ms, x.id ≠ m.id) :
    (insertMark m ms).Pairwise fun m n => m.id < n.id := by
  induction ms with
  | nil => exact List.pairwise_singleton _ _
  | cons y ms ih =>
    obtain ⟨first, rest⟩ := List.pairwise_cons.mp h
    unfold insertMark
    split
    · rename_i lt
      exact List.pairwise_cons.mpr ⟨fun x hx => (List.mem_cons.mp hx).elim (· ▸ lt) fun hx => lt.trans (first x hx), h⟩
    · rename_i ge
      have gt : y.id < m.id := lt_of_le_of_ne (Nat.not_lt.mp ge) (new y List.mem_cons_self)
      refine List.pairwise_cons.mpr ⟨fun x hx => ?_, ih rest fun x hx => new x (List.mem_cons_of_mem _ hx)⟩
      exact (mem_insertMark.mp hx).elim (· ▸ gt) (first x)

theorem new_of_lowestMarkId {ms : List Mark} {id : Nat} (h : lowestMarkId ms = some id) : id < 4 ∧ ∀ x ∈ ms, x.id ≠ id := by
  refine ⟨List.mem_range.mp (List.mem_of_find?_eq_some h), fun x hx e => ?_⟩
  have := List.find?_some h
  simp only [Bool.not_eq_true', List.any_eq_false, beq_iff_eq] at this
  exact this x hx e

theorem mark_markLaw {m : Mark} (j : s.MarkLaw) (fits : m.Fits p s) (id : lowestMarkId (s.markList p) = some m.id) :
    (s.setMarkList p (insertMark m (s.markList p))).MarkLaw := markLaw_iff.mpr fun q => by
  obtain ⟨small, new⟩ := new_of_lowestMarkId id
  have before := markLaw_iff.mp j q
  by_cases hq : q = p
  · subst hq
    constructor
    · rw [State.markList_setMarkList, if_pos rfl]
      exact insertMark_ordered before.ordered new
    · intro x hx
      rw [State.markList_setMarkList, if_pos rfl] at hx
      rcases mem_insertMark.mp hx with rfl | hx
      · exact ⟨small, .inl fits⟩
      · exact before.sound x hx
  · refine before.cut (t := s.setMarkList p (insertMark m (s.markList p))) ?_ fun _ k => k
    rw [State.markList_setMarkList, if_neg hq]

/-! ### The moves -/

theorem DraftMove.marks (m : DraftMove p s t) : t.marks = s.marks := by
  cases m <;> rfl

theorem PanelMove.markLaw (m : PanelMove s t) (h : s.TableLaw) (j : s.MarkLaw) : t.MarkLaw := by
  have taken := takeReports_markLaw (markLaw_iff.mp j)
  cases m with
  | warmCount => exact (calmer_takeWarmCount s).markLaw j
  | setup => exact markLaw_of_layout j rfl rfl
  | panelOff => exact (calmer_panelOff s).markLaw j
  | panelOn now => exact (works_startWarming now s).markLaw ((calm_takeReports s).tableLaw h) taken
  | line => exact startLine_markLaw taken

theorem Calmer.of_settleUnit (p : PortId) (s : State) : Calmer s (settleUnit p s) := by
  unfold settleUnit
  split
  · exact calmer_takeFrameStart p s
  · exact .of_panel (.refl s) rfl rfl

theorem leaveIfDone_marks (p : PortId) (s : State) : (leaveIfDone p s).marks = s.marks := by
  rcases leaveIfDone_cases p s with ⟨-, e⟩ | ⟨why, -, -, e⟩ <;> rw [e]
  exact (storeNotice_only _ _ _).marks

theorem Move.markLaw {h h' : Option PortId} (m : Move h s h' t) (l : s.TableLaw) (j : s.MarkLaw) : t.MarkLaw := by
  cases m with
  | queue move => exact markLaw_of_layout j move.sameBlocks.layout move.sameBlocks.marks
  | draft _ _ move =>
    exact markLaw_of_sameLive j move.sameLive (fun q => by simp only [State.markList, move.marks]; exact .refl _) (by rw [move.marks])
  | block p => exact markLaw_of_layout j rfl rfl
  | depart _ p => exact markLaw_of_layout j (leaveIfDone_layout p s) (leaveIfDone_marks p s)
  | reports => exact takeReports_markLaw (markLaw_iff.mp j)
  | panel _ move => exact move.markLaw l j
  | sealSet p r d =>
    exact markLaw_of_sameLive (t := s.setLay p { s.lay p with draft := none, sealedSet := some d }) j (sameLive_setLay rfl)
      (fun _ => .refl _) rfl
  | applySet p d _ _ attached draft unsealed => exact applyInDark_markLaw l attached draft unsealed j
  | sealPlan => exact markLaw_of_sameLive j (sameLive_of_slots rfl (fun _ => rfl) (fun _ => rfl) rfl) (fun _ => .refl _) rfl
  | settlePlan r mode => exact settleInDark_markLaw l j r _ mode
  | attach => exact markLaw_of_layout j rfl rfl
  | bye p r _ attached => exact left_markLaw l attached j _ _
  | eject _ q _ _ attached => exact left_markLaw l attached j _ _
  | format p => exact (Calmer.of_settleUnit p _).markLaw (markLaw_of_layout j rfl rfl)
  | packet p x _ runs =>
    unfold Machine.packet
    rw [if_pos runs]
    exact (Calmer.of_settleUnit p _).markLaw (markLaw_of_layout j rfl rfl)
  | judge p => exact (calmer_takeFrameStart p s).markLaw j
  | mark p m _ _ fits id => exact mark_markLaw j fits id
  | unmark p id =>
    refine markLaw_of_sameLive j (sameLive_of_layout rfl) (fun q => ?_) rfl
    rw [State.markList_setMarkList]
    split
    · rename_i e
      exact e ▸ List.filter_sublist
    · exact .refl _

theorem AnyMove.markLaw {h h' : Option PortId} (m : AnyMove h s h' t) (l : s.TableLaw) (j : s.MarkLaw) : t.MarkLaw := by
  have taken := takeReports_markLaw (markLaw_iff.mp j)
  have law := (calm_takeReports s).tableLaw l
  cases m with
  | move move => exact move.markLaw l j
  | restart r =>
    rw [restartBody_eq]
    refine (Calmer.of_settleUnit .p0 _).markLaw (markLaw_of_layout (s := restarted r (takeReports s)) ?_
      (storeNotice_only _ _ _).layout (storeNotice_only _ _ _).marks)
    exact markLaw_of_nil fun q => by cases q <;> rfl
  | frame now => exact (works_frame now (takeReports s)).markLaw law taken
  | enterDark b =>
    obtain ⟨u, before, after⟩ := enterDark_commits b s
    have dark : (darkened (takeReports s)).MarkLaw := markLaw_of_layout taken rfl rfl
    exact after.markLaw (commit_markLaw (before.calm.tableLaw ((calm_darkened _).tableLaw law)) (before.markLaw dark))
  | reset _ _ eq =>
    cases eq
    exact markLaw_of_nil fun q => by cases q <;> rfl

/-- Settles O57: every move keeps the mark law, on the table law. -/
theorem markLawKept : Obligations.MarkLawKept := fun _ _ l j h =>
  (step_keeps (J := fun _ u => u.TableLaw ∧ u.MarkLaw) (fun m j => ⟨m.tableLaw j.1, m.markLaw j.1 j.2⟩) (fun _ j => j) ⟨l, j⟩ h).2
end

end Sys2Proof.Machine
end

