-- ==== Sys2Proof/Proofs/Eviction.lean ====
section
/-! PROOFS. The eviction passes (R100) in the words of the statements, and the owned-slot count by its slots (R15). -/

namespace Sys2Proof.Machine

/-! ### Pass 3 -/

section
variable {e : PlanEntry} {share h : Nat} {d live : Proposal}

/-- The repetitions suffice: each evicts a region. -/
theorem sharePass_evictByShare (share h n : Nat) (d : Proposal) (enough : d.length ≤ n) :
    SharePass share h d (evictByShare share h n d).2 (evictByShare share h n d).1 := by
  induction n generalizing d with
  | zero =>
    rw [List.length_eq_zero_iff.mp (Nat.le_zero.mp enough)]
    exact .done [] fun l _ => Nat.zero_le _
  | succ n ih =>
    cases hc : crowdedLine share h d with
    | none =>
      simp only [evictByShare, hc]
      exact .done d (crowdedLine_eq_none.mp hc)
    | some l =>
      have crowded := crowdedLine_eq_some.mp hc
      cases lowest : crossing d l with
      | nil => exact absurd crowded.2.1 (by rw [show crossersOf d l = [] from lowest]; exact Nat.not_lt_zero _)
      | cons x more =>
        have mem : x ∈ d := List.mem_of_mem_filter (lowest ▸ List.mem_cons_self)
        simp only [evictByShare, hc, lowest, List.head?_cons]
        refine .evict d l x more _ _ crowded lowest (ih _ (Nat.le_of_lt_succ (lt_of_lt_of_le ?_ enough)))
        exact List.length_filter_lt_length_iff_exists.mpr ⟨x, mem, by simp⟩

theorem SharePass.fits {ids : List Nat} {out : Proposal} (g : SharePass share h d ids out) :
    ∀ l < h, (crossersOf out l).length ≤ share := by
  induction g with
  | done _ fits => exact fits
  | evict _ _ _ _ _ _ _ _ _ ih => exact ih

theorem SharePass.unique {ids ids' : List Nat} {out out' : Proposal} (g : SharePass share h d ids out)
    (g' : SharePass share h d ids' out') : ids = ids' ∧ out = out' := by
  induction g generalizing ids' out' with
  | done d fits =>
    cases g' with
    | done => exact ⟨rfl, rfl⟩
    | evict _ l _ _ _ _ crowded => exact absurd (fits l crowded.1) (Nat.not_le.mpr crowded.2.1)
  | evict d l x more ids out crowded lowest rest ih =>
    cases g' with
    | done _ fits => exact absurd (fits l crowded.1) (Nat.not_le.mpr crowded.2.1)
    | evict _ l' x' more' ids' out' crowded' lowest' rest' =>
      have line : l = l' := Option.some.inj ((crowdedLine_eq_some.mpr crowded).symm.trans (crowdedLine_eq_some.mpr crowded'))
      subst line
      obtain ⟨same, -⟩ := List.cons.inj (lowest.symm.trans lowest')
      subst same
      obtain ⟨i, o⟩ := ih rest'
      exact ⟨congrArg _ i, o⟩

/-! ### The three passes -/

theorem evictedByPlace_iff {x : DraftEntry} : evictedByPlace e x = true ↔
    ¬insideTerritory e x.copy ∨ (e.guard = false ∧ x.copy.guarded = true) := by
  rw [evictedByPlace, Bool.or_eq_true, Bool.and_eq_true, ← within_iff]
  simp

theorem not_evictedByPlace_iff {x : DraftEntry} : evictedByPlace e x = false ↔
    insideTerritory e x.copy ∧ (x.copy.guarded = true → e.guard = true) := by
  rw [← Bool.not_eq_true, evictedByPlace_iff, not_or, not_not]
  refine and_congr_right fun _ => ⟨fun n g => ?_, fun i ⟨n, g⟩ => ?_⟩
  · by_contra c
    exact n ⟨by simpa using c, g⟩
  · rw [i g] at n
    cases n

/-- The passes are those of the statements. -/
theorem evict_passes (e : PlanEntry) (h : Nat) (live : Proposal) :
    evictionPasses e h live (evict e h live).1 (evict e h live).2 := by
  refine ⟨live.filter (evictedByPlace e), live.filter fun x => !evictedByPlace e x, _,
    fun x m => evictedByPlace_iff.mp (List.mem_filter.mp m).2,
    fun x m => not_evictedByPlace_iff.mp (by simpa using (List.mem_filter.mp m).2), List.filter_sublist,
    List.filter_sublist, (List.length_eq_length_filter_add _).symm, sharePass_evictByShare _ _ _ _ le_rfl, rfl⟩

/-- A split of a list by a property is the one that filters it. -/
theorem eq_filter_of_split {α : Type} {f : α → Bool} {bad good xs : List α} (hb : ∀ x ∈ bad, f x = true)
    (hg : ∀ x ∈ good, f x = false) (sb : bad.Sublist xs) (sg : good.Sublist xs) (all : bad.length + good.length = xs.length) :
    bad = xs.filter f ∧ good = xs.filter fun x => !f x := by
  have b := sb.filter f
  have g := sg.filter fun x => !f x
  rw [List.filter_eq_self.mpr hb] at b
  rw [List.filter_eq_self.mpr (by simpa using hg)] at g
  have total := List.length_eq_length_filter_add (l := xs) f
  have := b.length_le
  have := g.length_le
  exact ⟨b.eq_of_length (by omega), g.eq_of_length (by omega)⟩

theorem evictionPasses_unique {kept : Proposal} {gone : List (Nat × Nat)} (g : evictionPasses e h live kept gone) :
    kept = (evict e h live).1 ∧ gone = (evict e h live).2 := by
  obtain ⟨bad, good, gone3, hb, hg, sb, sg, all, share, rfl⟩ := g
  obtain ⟨rfl, rfl⟩ := eq_filter_of_split (fun x m => evictedByPlace_iff.mpr (hb x m))
    (fun x m => not_evictedByPlace_iff.mpr (hg x m)) sb sg all
  obtain ⟨ids, out⟩ := share.unique (sharePass_evictByShare _ _ _ _ le_rfl)
  exact ⟨out, by rw [ids]; rfl⟩

/-- What stays after the passes: within the quota, in the territory, under the guard right, and no line crowded. -/
theorem evict_fits (e : PlanEntry) (h : Nat) (live : Proposal) : (evict e h live).1.length ≤ e.quota ∧
    (∀ x ∈ (evict e h live).1, x ∈ live ∧ insideTerritory e x.copy ∧ (x.copy.guarded = true → e.guard = true)) ∧
    ∀ l < h, (crossersOf (evict e h live).1 l).length ≤ e.share := by
  have sub : (evict e h live).1.Sublist ((live.filter fun x => !evictedByPlace e x).drop
    ((live.filter fun x => !evictedByPlace e x).length - e.quota)) := (Parted.share _ _ _ _).sub
  refine ⟨sub.length_le.trans (by rw [List.length_drop]; omega), fun x m => ?_,
    (sharePass_evictByShare _ _ _ _ le_rfl).fits⟩
  obtain ⟨mem, good⟩ := List.mem_filter.mp ((List.drop_sublist _ _).subset (sub.subset m))
  exact ⟨mem, not_evictedByPlace_iff.mp (by simpa using good)⟩
end

/-! ### The owned slots (R15) -/

section
variable {p : PortId} {s t : State}

/-- The ids of the slots that a port owns. -/
def ownedIds (p : PortId) (s : State) : List Nat :=
  (List.range s.layout.slots.length).filter fun i => (s.slot i).owner? == some p

theorem mem_ownedIds {id : Nat} : id ∈ ownedIds p s ↔ (s.slot id).owner? = some p := by
  rw [ownedIds, List.mem_filter, List.mem_range, beq_iff_eq]
  exact and_iff_right_of_imp State.lt_of_owner?

theorem ownedIds_nodup (p : PortId) (s : State) : (ownedIds p s).Nodup := List.nodup_range.filter _

theorem ownedCount_eq (p : PortId) (s : State) : ownedCount p s = (ownedIds p s).length := by
  have slots : s.layout.slots = (List.range s.layout.slots.length).map s.slot := by
    refine List.ext_getElem (by simp) fun i lt _ => ?_
    simp [State.slot, lt]
  rw [ownedCount, ownedIds, List.countP_eq_length_filter]
  conv_lhs => rw [slots]
  rw [List.filter_map, List.length_map]
  rfl

/-- A port owns at most as many slots as a list has that holds their ids. -/
theorem ownedCount_le {ids : List Nat} (h : ∀ id, (s.slot id).owner? = some p → id ∈ ids) : ownedCount p s ≤ ids.length := by
  rw [ownedCount_eq]
  exact (List.subperm_of_subset (ownedIds_nodup p s) fun id m => h id (mem_ownedIds.mp m)).length_le

theorem ownedCount_mono (h : ∀ id, (t.slot id).owner? = some p → (s.slot id).owner? = some p) :
    ownedCount p t ≤ ownedCount p s := by
  rw [ownedCount_eq p s]
  exact ownedCount_le fun id o => mem_ownedIds.mpr (h id o)

end

end Sys2Proof.Machine
end

