-- ==== Sys2Proof/Proofs/Placement.lean ====
section
/-! PROOFS. The placement law of one port under an entry, and what the steps of a commit make of it (R4, R8, R31, R64, R97 to
R100). -/

namespace Sys2Proof.Machine

/-! ### The law of one port under an entry -/

/-- The regions of a proposal may be live for port p under an entry. -/
structure Fitting (e : PlanEntry) (s : State) (p : PortId) (pr : Proposal) : Prop where
  lawful : ∀ x ∈ pr, x.copy.Lawful e (s.unit p) (s.slot x.id).kind?
  share : ∀ l < s.scan.setup.h, (crossing pr l).length ≤ e.share

/-- The placement law of one port, if this were its entry. -/
structure PlacementOf (e : PlanEntry) (s : State) (p : PortId) : Prop where
  quota : ownedCount p s ≤ e.quota
  live : Fitting e s p (liveEntries p s)
  set : ∀ pr, (s.lay p).sealedSet = some pr → Fitting e s p pr
  draft : ∀ d, (s.lay p).draft = some d → ∀ x ∈ d, x.copy.Drafted

/-- What the placement of a port's regions depends on stays. -/
structure Unmoved (q : PortId) (s t : State) : Prop where
  lay : t.lay q = s.lay q
  slot : ∀ id, (s.slot id).owner? = some q ∨ (t.slot id).owner? = some q → t.slot id = s.slot id
  size : (t.unit q).sw = (s.unit q).sw ∧ (t.unit q).sh = (s.unit q).sh
  setup : t.scan.setup = s.scan.setup
  attach : (t.port q).attach = (s.port q).attach

section
variable {e e' : PlanEntry} {p q : PortId} {s t u : State} {pr : Proposal}

theorem placementLaw_iff : s.PlacementLaw ↔ ∀ p, PlacementOf (s.entry p) s p := by
  constructor
  · intro j p
    obtain ⟨quota, live, set, draft⟩ := j p
    exact ⟨quota, ⟨live.1, live.2⟩, fun pr h => ⟨(set pr h).1, (set pr h).2⟩, draft⟩
  · intro j p
    obtain ⟨quota, live, set, draft⟩ := j p
    exact ⟨quota, ⟨live.lawful, live.share⟩, fun pr h => ⟨(set pr h).lawful, (set pr h).share⟩, draft⟩

theorem Unmoved.trans (h : Unmoved q s t) (g : Unmoved q t u) : Unmoved q s u where
  lay := g.lay.trans h.lay
  slot id own := by
    rcases own with own | own
    · have e := h.slot id (.inl own)
      exact (g.slot id (.inl (by rwa [e]))).trans e
    · have e := g.slot id (.inr own)
      exact e.trans (h.slot id (.inr (by rwa [← e])))
  size := ⟨g.size.1.trans h.size.1, g.size.2.trans h.size.2⟩
  setup := g.setup.trans h.setup
  attach := g.attach.trans h.attach

theorem Same.unmoved (g : Same q s t) : Unmoved q s t :=
  ⟨g.lay, g.slot, by rw [g.unit]; exact ⟨rfl, rfl⟩, by rw [g.panel.scan], g.port.attach⟩

/-- A step that leaves the regions, the sizes and the connections. -/
theorem Unmoved.of_regions (slots : t.layout.slots = s.layout.slots) (ports : t.layout.ports = s.layout.ports)
    (size : (t.unit q).sw = (s.unit q).sw ∧ (t.unit q).sh = (s.unit q).sh) (setup : t.scan.setup = s.scan.setup)
    (attach : (t.port q).attach = (s.port q).attach) : Unmoved q s t :=
  ⟨by simp only [State.lay, ports], fun id _ => by simp only [State.slot, slots], size, setup, attach⟩

theorem Calm.unmoved (g : Calm s t) (q : PortId) : Unmoved q s t :=
  .of_regions (by rw [g.layout]) (by rw [g.layout]) (g.size q) g.setup (g.port q).attach

/-! ### What keeps it -/

theorem Fitting.congr (j : Fitting e s p pr)
    (kind : ∀ x ∈ pr, (t.slot x.id).kind? = some .linked → (s.slot x.id).kind? = some .linked)
    (size : (t.unit p).sw = (s.unit p).sw ∧ (t.unit p).sh = (s.unit p).sh) (setup : t.scan.setup = s.scan.setup) :
    Fitting e t p pr := by
  refine ⟨fun x m => ?_, by rw [setup]; exact j.share⟩
  obtain ⟨w, h, within, guarded, window⟩ := j.lawful x m
  refine ⟨w, h, within, guarded, fun linked => ?_⟩
  rw [size.1, size.2]
  exact window (kind x m linked)

theorem Fitting.nil (e : PlanEntry) (s : State) (p : PortId) : Fitting e s p [] := ⟨nofun, fun _ _ => Nat.zero_le _⟩

theorem Fitting.drafted (j : Fitting e s p pr) : ∀ x ∈ pr, x.copy.Drafted := fun x m =>
  ⟨(j.lawful x m).1, (j.lawful x m).2.1, fun g => ((j.lawful x m).2.2.2.1 g).2⟩

/-- Regions that fit an entry fit another whose checks find no conflict (R97). -/
theorem Fitting.of_checks (j : Fitting e s p pr) (inside : ∀ x ∈ pr, insideTerritory e' x.copy)
    (guard : e'.guard = false → ∀ x ∈ pr, x.copy.guarded = false) (share : ∀ l < s.scan.setup.h, (crossersOf pr l).length ≤ e'.share) :
    Fitting e' s p pr := by
  refine ⟨fun x m => ?_, share⟩
  obtain ⟨w, h, -, guarded, window⟩ := j.lawful x m
  refine ⟨w, h, within_iff.mpr (inside x m), fun g => ⟨?_, (guarded g).2⟩, window⟩
  by_contra n
  rw [guard (by simpa using n) x m] at g
  cases g

/-- The slots that a port owns stay, but for RESERVED ones released. -/
def OwnKept (p : PortId) (s t : State) : Prop :=
  (∀ id, (t.slot id).owner? = some p → (s.slot id).owner? = some p) ∧
    ∀ id, (s.slot id).owner? = some p → t.slot id = s.slot id ∨ (s.slot id).reservedOf p = true ∧ t.slot id = .free

theorem OwnKept.kind (h : OwnKept p s t) {id : Nat} (own : (s.slot id).owner? = some p)
    (linked : (t.slot id).kind? = some .linked) : (s.slot id).kind? = some .linked := by
  rcases h.2 id own with e | ⟨-, e⟩
  · exact e ▸ linked
  · rw [e] at linked
    cases linked

theorem OwnKept.live (h : OwnKept p s t) {id : Nat} (live : (s.slot id).liveOf p = true) : t.slot id = s.slot id :=
  (h.2 id (Slot.owner?_of_liveOf live)).resolve_right fun ⟨r, _⟩ => by rw [Slot.not_both live] at r; cases r

theorem OwnKept.liveEntries (h : OwnKept p s t) (o : TableOf s p) (order : (t.lay p).order = (s.lay p).order) :
    liveEntries p t = liveEntries p s := by
  unfold Machine.liveEntries
  rw [order]
  exact List.filterMap_congr fun id m => by rw [h.live (o.live id m)]

/-- What a port's law needs of a step: its order list stays, its set stays or goes, its slots stay but for RESERVED ones. -/
theorem PlacementOf.step (j : PlacementOf e s p) (o : TableOf s p) (own : OwnKept p s t)
    (order : (t.lay p).order = (s.lay p).order) (set : ∀ pr, (t.lay p).sealedSet = some pr → (s.lay p).sealedSet = some pr)
    (draft : ∀ d, (t.lay p).draft = some d → ∀ x ∈ d, x.copy.Drafted)
    (size : (t.unit p).sw = (s.unit p).sw ∧ (t.unit p).sh = (s.unit p).sh) (setup : t.scan.setup = s.scan.setup) :
    PlacementOf e t p where
  quota := (ownedCount_mono own.1).trans j.quota
  live := by
    rw [own.liveEntries o order]
    exact j.live.congr (fun x m => own.kind (o.owner (liveEntries_ids o ▸ List.mem_map_of_mem m))) size setup
  set pr h := (j.set pr (set pr h)).congr (fun x m => own.kind ((o.set pr (set pr h)).2 _ (List.mem_map_of_mem m))) size setup
  draft := draft

theorem Unmoved.ownKept (g : Unmoved q s t) : OwnKept q s t :=
  ⟨fun id own => g.slot id (.inr own) ▸ own, fun id own => .inl (g.slot id (.inl own))⟩

theorem PlacementOf.unmoved (j : PlacementOf e s q) (o : TableOf s q) (g : Unmoved q s t) : PlacementOf e t q :=
  j.step o g.ownKept (by rw [g.lay]) (by rw [g.lay]; exact fun _ => id) (by rw [g.lay]; exact j.draft) g.size g.setup

/-- A port that owns no slot. -/
theorem PlacementOf.of_none_owned (o : TableOf s p) (none_owned : ∀ id, (s.slot id).owner? ≠ some p) (e : PlanEntry) :
    PlacementOf e s p := by
  have empty : ∀ pr : Proposal, pr.OwnedBy p s → pr = [] := fun pr own => by
    cases pr with
    | nil => rfl
    | cons x _ => exact absurd (own.2 x.id List.mem_cons_self) (none_owned _)
  refine ⟨(ownedCount_le (ids := []) fun id own => absurd own (none_owned id)).trans (Nat.zero_le _), ?_, fun pr h => ?_,
    fun d h => ?_⟩
  · rw [empty _ (liveEntries_owned o)]
    exact .nil e s p
  · rw [empty _ (o.set pr h)]
    exact .nil e s p
  · rw [empty _ (o.draft d h)]
    nofun

/-- A port that is neither ATTACHED nor on the retirement list owns no slot. -/
theorem TableOf.none_owned (o : TableOf s p) (length : s.layout.slots.length = 24) (away : (s.port p).attach ≠ .attached)
    (not_retiring : ∀ why, (s.port p).attach ≠ .leaving why false) (id : Nat) : (s.slot id).owner? ≠ some p := fun own => by
  have nothing := o.nothing away not_retiring
  rcases Slot.owner?_eq_some.mp own with l | r
  · have m := o.listed id (length ▸ State.lt_of_owner? own) l
    rw [nothing] at m
    cases m
  · rw [o.not_reserved (by rw [nothing]) (by rw [nothing]) length] at r
    cases r

theorem State.TableLaw.placementOf (h : s.TableLaw) (away : (s.port p).attach ≠ .attached)
    (not_retiring : ∀ why, (s.port p).attach ≠ .leaving why false) (e : PlanEntry) : PlacementOf e s p :=
  .of_none_owned (h.at p) ((h.at p).none_owned h.1 away not_retiring) e

/-! ### Step 1: the plan -/

/-- A port that is ATTACHED after its enablement was handed over was not touched. -/
theorem handIfChanged_of_attached {old new : Plan} (h : ((handIfChanged old new s p).port p).attach = .attached) :
    handIfChanged old new s p = s ∧ ((new.entries.get p).enabled = false → (old.entries.get p).enabled = false) := by
  have left : ∀ reason, ((enterLeaving p reason none s).port p).attach ≠ .attached := fun reason => by
    rw [(enterLeaving_left (p := p) (reason := reason) (own := none) (s := s)).port]
    split
    · exact retired_not_attached (by rw [entered_attach]; nofun)
    · rw [entered_attach]
      nofun
  have rest : ∀ a : Attach, a ≠ .attached →
      ((restUnit p (s.setPort p { s.port p with attach := a })).port p).attach ≠ .attached := fun a n => by
    simpa [restUnit] using n
  revert h
  unfold handIfChanged
  split
  · rename_i same
    exact fun _ => ⟨rfl, same.trans⟩
  · unfold handEnablement
    dsimp only
    split
    · intro h
      simp [restUnit] at h
    · split
      · exact fun h => absurd h (rest _ (by nofun))
      · exact fun h => absurd h (left _)
    · exact fun h => absurd h (left _)
    · rename_i no
      exact fun h => ⟨rfl, fun off => (no h off).elim⟩

theorem dropProposals_ownKept (res : Result) (fields : List Byte) (s : State) : OwnKept p s (dropProposals p res fields s) := by
  have slot : ∀ id, (dropProposals p res fields s).slot id = s.slot id ∨
      (s.slot id).reservedOf p = true ∧ (dropProposals p res fields s).slot id = .free := fun id => by
    rw [dropProposals, placeDeferred_eq]
    exact (slot_releaseUnnamed p (s.setLay p { s.lay p with draft := none, sealedSet := none }) id).symm ▸ by
      split
      · rename_i h
        exact .inr ⟨h.1, rfl⟩
      · exact .inl rfl
  refine ⟨fun id own => ?_, fun id _ => slot id⟩
  rcases slot id with e | ⟨-, e⟩ <;> rw [e] at own
  · exact own
  · cases own

theorem dropProposals_unit (res : Result) (fields : List Byte) (s : State) (q : PortId) :
    (dropProposals p res fields s).unit q = s.unit q := by
  rw [dropProposals, placeDeferred_eq]
  rfl

theorem dropProposals_scan (res : Result) (fields : List Byte) (s : State) : (dropProposals p res fields s).scan = s.scan := by
  rw [dropProposals, placeDeferred_eq]
  rfl

theorem copy_of_mem_liveEntries {x : DraftEntry} (m : x ∈ liveEntries p s) : (s.slot x.id).liveCopy? = some x.copy := by
  obtain ⟨id, -, h⟩ := List.mem_filterMap.mp m
  obtain ⟨c, hc, rfl⟩ := Option.map_eq_some_iff.mp h
  exact hc

/-- The LIVE regions of a port are those of a proposal that has its order and the live copies. -/
theorem liveEntries_eq (order : (s.lay p).order = pr.ids) (copy : ∀ x ∈ pr, (s.slot x.id).liveCopy? = some x.copy) :
    liveEntries p s = pr := by
  unfold liveEntries
  rw [order, Proposal.ids, List.filterMap_map]
  have each : ∀ x ∈ pr, ((s.slot x.id).liveCopy?.map fun c => ({ id := x.id, copy := c } : DraftEntry)) = some x :=
    fun x m => by rw [copy x m]; rfl
  exact (List.filterMap_congr each).trans List.filterMap_some

/-- A region that the passes keep has the slot it had. -/
theorem evictPort_kept {sh : State × Settled} (o : TableOf sh.1 p) {id : Nat}
    (m : id ∈ (evict (sh.1.entry p) sh.1.scan.setup.h (liveEntries p sh.1)).1.ids) :
    (evictPort p sh).1.slot id = sh.1.slot id := by
  rw [evictPort_slot, if_neg]
  exact fun g => (evict_parted _ _ _).apart (liveEntries_ids o ▸ o.nodup) id g m

theorem evictPort_liveEntries {sh : State × Settled} (o : TableOf sh.1 p) : liveEntries p (evictPort p sh).1 =
    (evict (sh.1.entry p) sh.1.scan.setup.h (liveEntries p sh.1)).1 := by
  have lay := evictPort_lay (p := p) sh p
  rw [if_pos rfl] at lay
  refine liveEntries_eq (by rw [lay]) fun x m => ?_
  rw [evictPort_kept o (List.mem_map_of_mem m)]
  exact copy_of_mem_liveEntries ((evict_fits _ _ _).2.1 x m).1

/-- The eviction leaves regions that fit the new entry (R100). -/
theorem evictPort_placement {sh : State × Settled} (h : sh.1.TableLaw) (hd : (sh.1.lay p).draft = none)
    (hs : (sh.1.lay p).sealedSet = none) (j : PlacementOf e sh.1 p) :
    PlacementOf (sh.1.entry p) (evictPort p sh).1 p := by
  have law := evictPort_tableLaw sh h hd hs
  have o := law.at p
  have lay := evictPort_lay (p := p) sh p
  rw [if_pos rfl] at lay
  obtain ⟨quota, kept, share⟩ := evict_fits (sh.1.entry p) sh.1.scan.setup.h (liveEntries p sh.1)
  have unreserved := o.not_reserved (by rw [lay, hd]) (by rw [lay, hs]) law.1
  refine ⟨(ownedCount_le (ids := ((evictPort p sh).1.lay p).order) fun id own => ?_).trans ?_, ?_, fun pr e => ?_, fun d e => ?_⟩
  · rcases Slot.owner?_eq_some.mp own with l | r
    · exact o.listed id (law.1 ▸ State.lt_of_owner? own) l
    · rw [unreserved] at r
      cases r
  · rw [lay]
    exact (List.length_map _).trans_le quota
  · rw [evictPort_liveEntries (h.at p)]
    refine Fitting.of_checks (e := e) ⟨fun x m => ?_, fun l lt => ?_⟩ (fun x m => (kept x m).2.1) (fun g x m => ?_) share
    · rw [evictPort_kept (h.at p) (List.mem_map_of_mem m)]
      exact j.live.lawful x (kept x m).1
    · exact (((evict_parted _ _ _).sub.filter _).length_le).trans (j.live.share l lt)
    · by_contra n
      rw [(kept x m).2.2 (by simpa using n)] at g
      cases g
  · rw [lay, hs] at e
    cases e
  · rw [lay, hd] at e
    cases e

/-- An entry that a lawful plan disables has no quota. -/
theorem Plan.Lawful.disabled {w h : Nat} {plan : Plan} (l : plan.Lawful w h) (off : (plan.entries.get p).enabled = false) :
    (plan.entries.get p).quota = 0 := ((l.2.2.2.1 p).1 off).1

/-- What an EVICT plan makes of a port that is ATTACHED after it. -/
theorem settleEvictPort_placement {old new : Plan} {sh : State × Settled} (h : sh.1.TableLaw)
    (j : PlacementOf (old.entries.get p) sh.1 p) (disabled : (old.entries.get p).enabled = false → (old.entries.get p).quota = 0)
    (plan : sh.1.layout.plan = new) (attached : ((settleEvictPort old new sh p).1.port p).attach = .attached) :
    PlacementOf (new.entries.get p) (settleEvictPort old new sh p).1 p := by
  have dropped := dropProposals_tableLaw (p := p) h .draftVoid [EditState.idle.byte]
  have lay := dropProposals_lay (p := p) .draftVoid [EditState.idle.byte] sh.1 p
  rw [if_pos rfl] at lay
  have draft : ((dropProposals p .draftVoid [EditState.idle.byte] sh.1).lay p).draft = none := by rw [lay]
  have set : ((dropProposals p .draftVoid [EditState.idle.byte] sh.1).lay p).sealedSet = none := by rw [lay]
  have after : PlacementOf (old.entries.get p) (dropProposals p .draftVoid [EditState.idle.byte] sh.1) p :=
    j.step (h.at p) (dropProposals_ownKept _ _ _) (by rw [lay]) (by rw [lay]; nofun) (by rw [lay]; nofun)
      (by rw [dropProposals_unit]; exact ⟨rfl, rfl⟩) (by rw [dropProposals_scan])
  have entry : (dropProposals p .draftVoid [EditState.idle.byte] sh.1).entry p = new.entries.get p := by
    rw [State.entry, (dropProposals_plans _ _ _).1, plan]
  unfold settleEvictPort at attached ⊢
  split
  · rename_i same
    rw [← not_not.mp (of_decide_eq_false same)]
    exact j
  · rename_i differs
    rw [if_neg differs] at attached
    dsimp only at attached ⊢
    obtain ⟨hand, off_before⟩ := handIfChanged_of_attached (p := p) (old := old) (new := new)
      (s := dropProposals p .draftVoid [EditState.idle.byte] sh.1) (by
      split at attached
      · exact attached
      · exact attached)
    rw [hand] at attached ⊢
    split
    · rw [← entry]
      exact evictPort_placement (sh := (dropProposals p .draftVoid [EditState.idle.byte] sh.1, _)) dropped draft set after
    · rename_i off
      rw [if_neg off] at attached
      have off : (new.entries.get p).enabled = false := by simpa [attached] using off
      refine .of_none_owned (dropped.at p) (fun id own => ?_) _
      have count := after.quota
      rw [disabled (off_before off), ownedCount_eq, Nat.le_zero, List.length_eq_zero_iff] at count
      exact absurd (mem_ownedIds.mpr own) (by rw [count]; exact List.not_mem_nil)

theorem proposalConflict_eq_none {h : Nat} : proposalConflict e h pr = none ↔ (∀ x ∈ pr, insideTerritory e x.copy) ∧
    (e.guard = false → ∀ x ∈ pr, x.copy.guarded = false) ∧ ∀ l < h, (crossersOf pr l).length ≤ e.share := by
  rw [← territoryFault_eq_none, ← guardFault_eq_none, ← rowShareFault_eq_none]
  unfold proposalConflict
  cases territoryFault e pr <;> cases guardFault e pr <;> simp

/-- A port without a conflict fits its new entry (R97). -/
theorem placementOf_of_portConflict {new : Plan} (j : PlacementOf (s.entry p) s p) (none_found : portConflict new s p = none) :
    PlacementOf (new.entries.get p) s p := by
  unfold portConflict at none_found
  dsimp only at none_found
  split at none_found
  · rename_i same
    rw [← not_not.mp (of_decide_eq_false same)]
    exact j
  · split at none_found
    · cases none_found
    · split at none_found
      · cases none_found
      · rename_i quota
        split at none_found
        · cases none_found
        · rename_i live
          have fits : ∀ pr, Fitting (s.entry p) s p pr → proposalConflict (new.entries.get p) s.scan.setup.h pr = none →
              Fitting (new.entries.get p) s p pr := fun pr f n =>
            have ⟨inside, guard, share⟩ := proposalConflict_eq_none.mp n
            f.of_checks inside guard share
          refine ⟨Nat.not_lt.mp quota, fits _ j.live live, fun pr h => ?_, j.draft⟩
          rw [h] at none_found
          exact fits pr (j.set pr h) (Option.map_eq_none_iff.mp none_found)

theorem keepConflict_eq_none {new : Plan} : keepConflict new s = none ↔ ∀ p, portConflict new s p = none := by
  simp only [keepConflict, List.findSome?_eq_none_iff, Option.map_eq_none_iff]
  exact ⟨fun h p => h p (by cases p <;> decide), fun h p _ => h p⟩

theorem unmoved_refl (q : PortId) (s : State) : Unmoved q s s := ⟨rfl, fun _ _ => rfl, ⟨rfl, rfl⟩, rfl, rfl⟩

/-- What a settled plan makes of a port that is ATTACHED after it. -/
theorem settlePlan_placement {answer : Result → List Byte → State → State}
    (ha : ∀ res fields u, (answer res fields u).layout = u.layout ∧ Unmoved q u (answer res fields u))
    (keeps : ∀ res fields u, u.TableLaw → (answer res fields u).TableLaw) {new : Plan} {mode : PlanMode} (h : s.TableLaw)
    (j : PlacementOf (s.entry q) s q) {w height : Nat} (lawful : s.layout.plan.Lawful w height)
    (attached : ((settlePlan answer new mode s).1.port q).attach = .attached) :
    PlacementOf ((settlePlan answer new mode s).1.entry q) (settlePlan answer new mode s).1 q := by
  have plan := (settlePlan_plan (fun res fields u => (ha res fields u).1) new mode s).1
  have entry : ∀ x : Plan, (settlePlan answer new mode s).1.layout.plan = x →
      (settlePlan answer new mode s).1.entry q = x.entries.get q := fun x e => by rw [State.entry, e]
  cases mode with
  | keep =>
    simp only [settlePlan] at attached plan entry ⊢
    split at attached
    · rename_i e
      simp only [e] at plan entry ⊢
      rw [entry _ (plan.trans (if_pos (by simp)))]
      exact j.unmoved (h.at q) (ha _ _ _).2
    · rename_i e
      simp only [e] at plan entry ⊢
      rw [entry _ (plan.trans (if_neg (by simp)))]
      have fits : PlacementOf (new.entries.get q) (s.setPlan new) q :=
        (placementOf_of_portConflict j (keepConflict_eq_none.mp e q)).unmoved (h.at q)
          (.of_regions (t := s.setPlan new) rfl rfl ⟨rfl, rfl⟩ rfl rfl)
      obtain ⟨y, law, before, after⟩ := foldl_all_at (X := State) (I := State.TableLaw) (R := Unmoved q) (unmoved_refl q) .trans
        (f := handIfChanged s.layout.plan new) (fun x p i => handIfChanged_tableLaw i _ _ p) q
        (fun x p _ hq => (Same.handIfChanged hq _ _).unmoved) (s.setPlan new) h
      have all := after.trans (ha .done (planFields s none none) _).2
      obtain ⟨untouched, -⟩ := handIfChanged_of_attached (all.attach.symm.trans attached)
      rw [untouched] at all
      exact fits.unmoved (State.TableLaw.at (s := s.setPlan new) h q) (before.trans all)
  | evict =>
    rw [entry _ (plan.trans (if_neg (by simp)))]
    simp only [settlePlan] at attached ⊢
    have answered := keeps .done (planFields s none none) (s.setPlan new) h
    have start := (Unmoved.of_regions (s := s) (t := s.setPlan new) (q := q) rfl rfl ⟨rfl, rfl⟩ rfl rfl).trans
      (ha .done (planFields s none none) (s.setPlan new)).2
    obtain ⟨y, ⟨law, same_plan⟩, before, after⟩ := foldl_all_at (X := State × Settled)
      (I := fun x => x.1.TableLaw ∧ x.1.layout.plan = new) (R := fun x y => Unmoved q x.1 y.1) (fun x => unmoved_refl q x.1) .trans
      (f := settleEvictPort s.layout.plan new)
      (fun x p i => ⟨settleEvictPort_tableLaw _ _ x p i.1, (settleEvictPort_plan _ _ x p).1.trans i.2⟩) q
      (fun x p i hq => (Same.settleEvictPort _ _ x i.1 hq).unmoved)
      (answer .done (planFields s none none) (s.setPlan new), .nothing) ⟨answered, congrArg LayoutStore.plan (ha _ _ _).1⟩
    have there := j.unmoved (h.at q) (start.trans before)
    have own := settleEvictPort_placement (old := s.layout.plan) (new := new) law there lawful.disabled same_plan
      (after.attach.symm.trans attached)
    exact own.unmoved ((settleEvictPort_tableLaw _ _ _ _ law).at q) after
end

end Sys2Proof.Machine
end

