-- ==== Sys2Proof/Proofs/PlacementKept.lean ====
section
/-! PROOFS. The placement law (R4, R8, R31, R64): every move keeps it, on the table, plan and waiting laws. -/

namespace Sys2Proof.Machine

section
variable {e : PlanEntry} {p q : PortId} {s t u : State} {pr : Proposal}

theorem PlacementOf.of_layout (j : PlacementOf e s q) (o : TableOf s q) (layout : t.layout = s.layout)
    (size : (t.unit q).sw = (s.unit q).sw ∧ (t.unit q).sh = (s.unit q).sh) (setup : t.scan.setup = s.scan.setup) :
    PlacementOf e t q := by
  have lay : t.lay q = s.lay q := by simp only [State.lay, layout]
  have slot : ∀ id, t.slot id = s.slot id := fun id => by simp only [State.slot, layout]
  exact j.step o ⟨fun id own => slot id ▸ own, fun id _ => .inl (slot id)⟩ (by rw [lay]) (by rw [lay]; exact fun _ => id)
    (by rw [lay]; exact j.draft) size setup

/-! ### Steps 2 and 3 of a commit -/

/-- A port that is not on the retirement list is not touched by the retirement of those on it. -/
theorem retireListed_same (h : s.TableLaw) (n : q ∉ s.layout.retiring) : Same q s (retireListed s).1 := by
  have g := retireListed_retired s
  have slot : ∀ i, (retireListed s).1.slot i =
      if ∃ p ∈ s.layout.retiring, i ∈ (s.lay p).order then .free else s.slot i := g.slots
  have port := g.ports q
  have lay := g.lays q
  have unit := g.units q
  rw [if_neg n] at port lay unit
  refine ⟨port, lay, unit, by simp only [State.markList, g.marks]; rfl, fun id own => ?_, ?_, g.length, g.plan, ?_⟩
  · rw [slot, if_neg]
    rintro ⟨r, hr, m⟩
    have owner := (h.at r).owner m
    rcases own with own | own
    · exact n (Option.some.inj (own.symm.trans owner) ▸ hr)
    · rw [slot, if_pos ⟨r, hr, m⟩] at own
      cases own
  · rw [show (retireListed s).1.layout.retiring = [] from g.retiring]
    exact iff_of_false List.not_mem_nil n
  · exact ⟨g.panel.scan, g.panel.comp, g.panel.pending⟩

/-- A port that is ATTACHED after the retirement was not on the list. -/
theorem not_retiring_of_attached (h : s.TableLaw) (attached : ((retireListed s).1.port q).attach = .attached) :
    q ∉ s.layout.retiring := fun m => by
  have port := (retireListed_retired s).ports q
  rw [if_pos m] at port
  obtain ⟨why, away⟩ := (h.at q).retires.mp m
  rw [port.attach] at attached
  exact retired_not_attached (c := (s.setRetiring []).port q) (by simp [away]) attached

theorem not_leaving_of_empty (h : s.TableLaw) (none_left : s.layout.retiring = []) (why : LeaveReason) :
    (s.port q).attach ≠ .leaving why false := fun l => by
  have m := (h.at q).retires.mpr ⟨why, l⟩
  rw [none_left] at m
  cases m

/-- While no port waits for its retirement, the law has something to say of ATTACHED ports alone. -/
theorem placementLaw_of_attached (h : s.TableLaw) (none_left : s.layout.retiring = [])
    (j : ∀ q, (s.port q).attach = .attached → PlacementOf (s.entry q) s q) : s.PlacementLaw := placementLaw_iff.mpr fun q => by
  by_cases a : (s.port q).attach = .attached
  · exact j q a
  · exact h.placementOf a (not_leaving_of_empty h none_left) _

theorem applySet_copies (o : TableOf s p) (hs : (s.lay p).sealedSet = some pr) {x : DraftEntry} (m : x ∈ pr) :
    ∃ k g, (applySet p s).1.slot x.id = .live p k g x.copy ∧ (s.slot x.id).kind? = some k := by
  rcases applyToSlot_cases o hs x.id with ⟨-, -, k, g, c, copy, kind, slot⟩ | ⟨n, -⟩ | ⟨n, -⟩
  · rw [copyIn_of_mem (o.set pr hs).1 m] at copy
    cases copy
    exact ⟨k, g, slot, kind⟩
  · exact absurd (List.mem_map_of_mem m) n
  · exact absurd (List.mem_map_of_mem m) n

theorem applySet_liveEntries (o : TableOf s p) (hs : (s.lay p).sealedSet = some pr) : liveEntries p (applySet p s).1 = pr := by
  have lay := applySet_lay hs p
  rw [if_pos rfl] at lay
  refine liveEntries_eq (by rw [lay]) fun x m => ?_
  obtain ⟨k, g, slot, -⟩ := applySet_copies o hs m
  rw [slot]
  rfl

/-- A placed set is placed when it is live (R74). -/
theorem applySet_placement (o : TableOf s p) (j : PlacementOf e s p) : PlacementOf e (applySet p s).1 p := by
  cases hs : (s.lay p).sealedSet with
  | none =>
    rw [applySet_lay_none hs]
    exact j
  | some pr =>
    have lay := applySet_lay hs p
    rw [if_pos rfl] at lay
    have applied := applySet_applied p s
    refine ⟨(ownedCount_mono fun id own => ?_).trans j.quota, ?_, by rw [lay]; nofun, by rw [lay]; exact j.draft⟩
    · rcases applyToSlot_cases o hs id with ⟨-, owner, -⟩ | ⟨-, -, f⟩ | ⟨-, -, f⟩
      · exact owner
      · rw [f] at own
        cases own
      · rwa [f] at own
    · rw [applySet_liveEntries o hs]
      refine (j.set pr hs).congr (fun x m linked => ?_) (by simp only [State.unit, applied.sources, and_self])
        (by rw [applied.panel.scan])
      obtain ⟨k, g, slot, kind⟩ := applySet_copies o hs m
      rw [slot] at linked
      exact kind.trans linked

theorem applySets_placement (h : s.TableLaw) (j : PlacementOf e s q) : PlacementOf e (applySets s).1.1 q := by
  obtain ⟨y, law, before, after⟩ := foldl_all_at (X := State) (I := State.TableLaw) (R := Unmoved q) (unmoved_refl q) .trans
    (f := fun u p => (applySet p u).1) (fun x p i => applySet_tableLaw i p) q
    (fun x p i hq => (Same.applySet (i.at p) hq).unmoved) s h
  rw [applySets_eq]
  exact (applySet_placement (law.at q) (j.unmoved (h.at q) before)).unmoved ((applySet_tableLaw law q).at q) after

/-- The law does not depend on the generations. -/
theorem PlacementOf.advanced (j : PlacementOf e s p) (s0 : State) : PlacementOf e (advanceGenerations s0 s) p := by
  have kind : ∀ id, ((advanceGenerations s0 s).slot id).kind? = (s.slot id).kind? := fun id => by
    rw [slot_advanceGenerations]
    cases s.slot id <;> rfl
  have owner : ∀ id, ((advanceGenerations s0 s).slot id).owner? = (s.slot id).owner? := fun id => by
    rw [slot_advanceGenerations]
    cases s.slot id <;> rfl
  have entries : liveEntries p (advanceGenerations s0 s) = liveEntries p s :=
    List.filterMap_congr fun id _ => by rw [liveCopy?_advanceGenerations]
  exact ⟨(ownedCount_mono fun id own => owner id ▸ own).trans j.quota,
    entries ▸ j.live.congr (fun x _ l => kind x.id ▸ l) ⟨rfl, rfl⟩ rfl,
    fun pr hs => (j.set pr hs).congr (fun x _ l => kind x.id ▸ l) ⟨rfl, rfl⟩ rfl, j.draft⟩

theorem settleSealed_samePanel (s : State) : SamePanel s (settleSealed s).1 := by
  cases e : s.layout.sealedPlan with
  | none =>
    rw [settleSealed_none e]
    exact .refl s
  | some sp =>
    rw [settleSealed_some e]
    exact (settlePlan_samePanel (fun _ _ _ => placeDeferred_samePanel _ _ _ _ _) sp.plan sp.mode s).trans ⟨rfl, rfl, rfl⟩

theorem settleSealed_placement (h : s.TableLaw) {w height : Nat} (lawful : s.layout.plan.Lawful w height)
    (j : PlacementOf (s.entry q) s q) (attached : ((settleSealed s).1.port q).attach = .attached) :
    PlacementOf ((settleSealed s).1.entry q) (settleSealed s).1 q := by
  cases hp : s.layout.sealedPlan with
  | none =>
    rw [settleSealed_none hp]
    exact j
  | some sp =>
    rw [settleSealed_some hp] at attached ⊢
    have settled := settlePlan_placement (answer := placeDeferred .p0 .planSet) (fun res fields u => by
        rw [placeDeferred_eq]
        exact ⟨rfl, .of_regions rfl rfl ⟨rfl, rfl⟩ rfl (SameBlocks.attach (.setPort u .p0 (by rfl)) q)⟩)
      (fun res fields u i => placeDeferred_tableLaw i _ _ _ _) (new := sp.plan) (mode := sp.mode) h j lawful attached
    have law := settlePlan_tableLaw (answer := placeDeferred .p0 .planSet)
      (fun res fields u i => placeDeferred_tableLaw i _ _ _ _) sp.plan sp.mode h
    exact settled.unmoved (law.at q) (.of_regions rfl rfl ⟨rfl, rfl⟩ rfl rfl)

theorem commit_placementLaw (h : s.TableLaw) {w height : Nat} (lawful : s.layout.plan.Lawful w height) (j : s.PlacementLaw) :
    (commit s).PlacementLaw := by
  refine placementLaw_of_attached (commit_tableLaw h) (commit_clears s).2.1 fun q attached => ?_
  have settled := settleSealed_tableLaw h
  have retired := retireListed_tableLaw settled
  rw [(commit_port s q).attach] at attached
  have stays : ((retireListed (settleSealed s).1).1.port q).attach = .attached := by
    unfold PortController.answeredSet at attached
    split at attached <;> exact attached
  have n := not_retiring_of_attached settled stays
  have same := retireListed_same settled n
  have one := settleSealed_placement h lawful (placementLaw_iff.mp j q) (same.port.attach.symm.trans stays)
  have two := applySets_placement retired (one.unmoved (settled.at q) same.unmoved)
  have applied := applySets_applied (retireListed (settleSealed s).1).1
  have scan := (((settleSealed_samePanel s).trans (retireListed_samePanel _)).trans applied.panel).scan
  have entry : (commit s).entry q = (settleSealed s).1.entry q := by rw [State.entry, commit_plan]; rfl
  rw [entry]
  refine (two.advanced s).of_layout ((advanceGenerations_tableLaw s (applySets_tableLaw retired)).at q) (commit_layout s) ?_
    (by rw [(commit_samePanel s).scan]; exact congrArg ScanTimer.setup (scan.symm))
  have source : (commit s).unit q = (applySets (retireListed (settleSealed s).1).1).1.1.unit q := by
    simp only [State.unit, commit_sources, applied.sources]
  exact ⟨congrArg SourceUnit.sw source, congrArg SourceUnit.sh source⟩

/-! ### What leaves the panel and the tables, and what moves one port -/

theorem placementLaw_of_regions (l : s.TableLaw) (j : s.PlacementLaw) (layout : t.layout = s.layout)
    (size : ∀ q, (t.unit q).sw = (s.unit q).sw ∧ (t.unit q).sh = (s.unit q).sh) (setup : t.scan.setup = s.scan.setup) :
    t.PlacementLaw := placementLaw_iff.mpr fun q => by
  rw [show t.entry q = s.entry q by simp only [State.entry, layout]]
  exact (placementLaw_iff.mp j q).of_layout (l.at q) layout (size q) setup

theorem Calm.placementLaw (g : Calm s t) (l : s.TableLaw) (j : s.PlacementLaw) : t.PlacementLaw :=
  placementLaw_of_regions l j g.layout g.size g.setup

theorem Works.placementLaw (g : Works s t) (l : s.TableLaw) (plan : Planned s) (j : s.PlacementLaw) : t.PlacementLaw :=
  (g.keeps (J := fun u => u.TableLaw ∧ Planned u ∧ u.PlacementLaw)
    (fun c ⟨l, plan, j⟩ => ⟨c.calm.tableLaw l, Works.planned (.calm c) plan, c.calm.placementLaw l j⟩)
    (fun ⟨l, plan, j⟩ => ⟨commit_tableLaw l, commit_planned plan, commit_placementLaw l plan.plan j⟩) ⟨l, plan, j⟩).2.2

/-- A move at one port, whose entry stays. -/
theorem placementLaw_at (l : s.TableLaw) (j : s.PlacementLaw) (plan : t.layout.plan = s.layout.plan)
    (others : ∀ q, q ≠ p → Unmoved q s t) (self : PlacementOf (s.entry p) s p → PlacementOf (s.entry p) t p) : t.PlacementLaw :=
  placementLaw_iff.mpr fun q => by
    rw [show t.entry q = s.entry q by simp only [State.entry, plan]]
    by_cases hq : q = p
    · subst hq
      exact self (placementLaw_iff.mp j q)
    · exact (placementLaw_iff.mp j q).unmoved (l.at q) (others q hq)

theorem enterLeaving_placementLaw (l : s.TableLaw) (attached : (s.port p).attach = .attached) (j : s.PlacementLaw)
    (reason : LeaveReason) (own : Option Response) : (enterLeaving p reason own s).PlacementLaw := by
  have left := enterLeaving_left (p := p) (reason := reason) (own := own) (s := s)
  have law := enterLeaving_tableLaw l reason own (p := p) (by simp [attached])
  refine placementLaw_at (p := p) l j left.plan (fun q hq => (Same.enterLeaving hq reason own).unmoved) fun before => ?_
  by_cases ho : (s.lay p).order = []
  · have port := left.port
    rw [if_pos (.inl ho)] at port
    refine law.placementOf ?_ (fun why => ?_) _
    · rw [port]
      exact retired_not_attached (by rw [entered_attach]; nofun)
    · rw [port]
      exact retired_attach_ne _ _ why
  · have unit := left.unit
    rw [if_neg (by simp [ho])] at unit
    refine before.step (l.at p) ⟨fun id o => ?_, fun id _ => ?_⟩ (by rw [left.lay]; rfl) (by rw [left.lay]; nofun)
      (by rw [left.lay]; nofun) (by rw [unit]; exact ⟨rfl, rfl⟩) (by rw [left.panel.scan])
    · rw [enterLeaving_slot] at o
      split at o
      · cases o
      · exact o
    · rw [enterLeaving_slot]
      split
      · rename_i r
        exact .inr ⟨r, rfl⟩
      · exact .inl rfl

theorem retireListed_placementLaw (l : s.TableLaw) (j : s.PlacementLaw) : (retireListed s).1.PlacementLaw :=
  placementLaw_of_attached (retireListed_tableLaw l) (retireListed_retired s).retiring fun q attached => by
    have same := retireListed_same l (not_retiring_of_attached l attached)
    rw [same.entry]
    exact (placementLaw_iff.mp j q).unmoved (l.at q) same.unmoved

theorem retireIfDark_placementLaw (l : s.TableLaw) (j : s.PlacementLaw) : (retireIfDark s).PlacementLaw := by
  unfold retireIfDark
  split
  · have law := retireListed_tableLaw l
    refine (calm_takeReports (handReports _ _)).placementLaw (tableLaw_of_layout rfl (fun _ => rfl) law) ?_
    exact placementLaw_of_regions law (retireListed_placementLaw l j) rfl (fun _ => ⟨rfl, rfl⟩) rfl
  · exact j

theorem left_placementLaw (l : s.TableLaw) (attached : (s.port p).attach = .attached) (j : s.PlacementLaw)
    (reason : LeaveReason) (own : Option Response) : (retireIfDark (enterLeaving p reason own s)).PlacementLaw :=
  retireIfDark_placementLaw (enterLeaving_tableLaw l _ _ (by simp [attached])) (enterLeaving_placementLaw l attached j _ _)

/-! ### The drafts and the sets -/

theorem setDraft_placementLaw (l : s.TableLaw) (j : s.PlacementLaw) {d : Option Proposal}
    (drafted : PlacementOf (s.entry p) s p → ∀ pr, d = some pr → ∀ x ∈ pr, x.copy.Drafted) : (setDraft p d s).PlacementLaw := by
  refine placementLaw_at (p := p) l j rfl (fun q hq => (Same.setLay hq _).unmoved) fun before => ?_
  have lay : (setDraft p d s).lay p = { s.lay p with draft := d } := by simp [setDraft]
  exact before.step (l.at p) ⟨fun _ => id, fun _ _ => .inl rfl⟩ (by rw [lay]) (by rw [lay]; exact fun _ => id)
    (by rw [lay]; exact drafted before) ⟨rfl, rfl⟩ rfl

theorem defaultCopy_drafted (e : PlanEntry) : (defaultCopy e).Drafted := ⟨le_rfl, le_rfl, nofun⟩

theorem reserveSlot_placementLaw (l : s.TableLaw) (j : s.PlacementLaw) {d : Proposal} {k : RegionKind} {id : Nat}
    (draft : (s.lay p).draft = some d) (quota : ownedCount p s < (s.entry p).quota) (free : lowestFree s = some id) :
    (reserveSlot p k id d s).PlacementLaw := by
  obtain ⟨lt, is_free⟩ := free_of_lowestFree free
  have slot := reserveSlot_slot (p := p) lt k d
  have kept : ∀ q i, (s.slot i).owner? = some q → (reserveSlot p k id d s).slot i = s.slot i := fun q i own => by
    rw [slot, if_neg]
    rintro rfl
    rw [is_free] at own
    cases own
  have lay : ∀ q, (reserveSlot p k id d s).lay q = if q = p then
      { s.lay p with draft := some (d ++ [{ id := id, copy := defaultCopy (s.entry p) }]) } else s.lay q := fun q => by
    simp [reserveSlot, setDraft]
  refine placementLaw_at (p := p) l j rfl (fun q hq => ⟨by rw [lay, if_neg hq], fun i own => ?_, ⟨rfl, rfl⟩, rfl, rfl⟩) fun before => ?_
  · rcases own with own | own
    · exact kept q i own
    · rw [slot] at own ⊢
      split at own
      · exact absurd (Option.some.inj own) (Ne.symm hq)
      · rename_i n
        rw [if_neg n]
  · have at_p := lay p
    rw [if_pos rfl] at at_p
    have entries : liveEntries p (reserveSlot p k id d s) = liveEntries p s := by
      unfold liveEntries
      rw [at_p]
      exact List.filterMap_congr fun i m => by rw [kept p i ((l.at p).owner m)]
    refine ⟨(ownedCount_le (ids := id :: ownedIds p s) fun i own => ?_).trans ?_, ?_, fun pr e => ?_, fun d' e x m => ?_⟩
    · rw [slot] at own
      split at own
      · rename_i same
        exact same ▸ List.mem_cons_self
      · exact List.mem_cons_of_mem _ (mem_ownedIds.mpr own)
    · rw [List.length_cons, ← ownedCount_eq]
      exact quota
    · rw [entries]
      refine before.live.congr (fun x m => ?_) ⟨rfl, rfl⟩ rfl
      rw [kept p x.id ((l.at p).owner (liveEntries_ids (l.at p) ▸ List.mem_map_of_mem m))]
      exact fun h => h
    · rw [at_p] at e
      refine (before.set pr e).congr (fun x m => ?_) ⟨rfl, rfl⟩ rfl
      rw [kept p x.id (((l.at p).set pr e).2 _ (List.mem_map_of_mem m))]
      exact fun h => h
    · rw [at_p] at e
      cases e
      rcases List.mem_append.mp m with m | m
      · exact before.draft d draft x m
      · rw [List.mem_singleton.mp m]
        exact defaultCopy_drafted _

theorem releaseUnnamed_cut_placementLaw (l : s.TableLaw) (j : s.PlacementLaw) {d : Proposal} {d' : Option Proposal}
    (draft : (s.lay p).draft = some d) (less : ∀ pr, d' = some pr → pr.Sublist d) :
    (releaseUnnamed p (setDraft p d' s)).PlacementLaw := by
  refine placementLaw_at (p := p) l j rfl (fun q hq => ((Same.setLay hq _).trans (.releaseUnnamed hq)).unmoved) fun before => ?_
  have lay : (releaseUnnamed p (setDraft p d' s)).lay p = { s.lay p with draft := d' } := by
    simp [releaseUnnamed, setDraft, State.mapSlots]
  have slot : ∀ id, (releaseUnnamed p (setDraft p d' s)).slot id = s.slot id ∨
      (s.slot id).reservedOf p = true ∧ (releaseUnnamed p (setDraft p d' s)).slot id = .free := fun id => by
    rw [slot_releaseUnnamed]
    split
    · rename_i h
      exact .inr ⟨h.1, rfl⟩
    · exact .inl rfl
  refine before.step (l.at p) ⟨fun id own => ?_, fun id _ => slot id⟩ (by rw [lay]) (by rw [lay]; exact fun _ => id) ?_ ⟨rfl, rfl⟩ rfl
  · rcases slot id with e | ⟨-, e⟩ <;> rw [e] at own
    · exact own
    · cases own
  · rw [lay]
    exact fun pr e x m => before.draft d draft x ((less pr e).subset m)

theorem DraftMove.placementLaw (m : DraftMove p s t) (l : s.TableLaw) (j : s.PlacementLaw) : t.PlacementLaw := by
  cases m with
  | opened d _ _ copies =>
    refine setDraft_placementLaw l j fun before pr e => ?_
    cases e
    rcases copies with e | ⟨-, rfl⟩
    · exact (before.set d e).drafted
    · exact before.live.drafted
  | created d k id _ draft quota free => exact reserveSlot_placementLaw l j draft quota free
  | edited d d' _ draft _ drafted =>
    refine setDraft_placementLaw l j fun before pr e => ?_
    cases e
    exact drafted (before.draft d draft)
  | cut d d' _ draft less =>
    refine releaseUnnamed_cut_placementLaw l j draft fun pr e => ?_
    rcases less with rfl | ⟨id, rfl⟩
    · cases e
    · cases e
      exact List.filter_sublist

/-- A draft that passes seal validation is placed (R54 to R58). -/
theorem fitting_of_sealFault {d : Proposal} (passes : sealFault p d s = none) (drafted : ∀ x ∈ d, x.copy.Drafted) :
    Fitting (s.entry p) s p d := by
  obtain ⟨inside, window, guard, share⟩ := sealFault_eq_none.mp passes
  refine ⟨fun x m => ?_, share⟩
  obtain ⟨w, h, guarded⟩ := drafted x m
  exact ⟨w, h, within_iff.mpr (inside x m), fun g => ⟨guard x m g, guarded g⟩, window x m⟩

theorem sealed_placementLaw (l : s.TableLaw) (j : s.PlacementLaw) {d : Proposal} (draft : (s.lay p).draft = some d)
    (passes : sealFault p d s = none) : (s.setLay p { s.lay p with draft := none, sealedSet := some d }).PlacementLaw := by
  refine placementLaw_at (p := p) l j rfl (fun q hq => (Same.setLay hq _).unmoved) fun before => ?_
  have lay : (s.setLay p { s.lay p with draft := none, sealedSet := some d }).lay p =
      { s.lay p with draft := none, sealedSet := some d } := by simp
  have entries : liveEntries p (s.setLay p { s.lay p with draft := none, sealedSet := some d }) = liveEntries p s := by
    unfold liveEntries
    rw [lay]
    rfl
  refine ⟨before.quota, ?_, fun pr e => ?_, by rw [lay]; nofun⟩
  · rw [entries]
    exact before.live.congr (fun _ _ h => h) ⟨rfl, rfl⟩ rfl
  · rw [lay] at e
    cases e
    exact (fitting_of_sealFault passes (before.draft d draft)).congr (fun _ _ h => h) ⟨rfl, rfl⟩ rfl

theorem applyInDark_placementLaw (l : s.TableLaw) (attached : (s.port p).attach = .attached) (j : s.PlacementLaw) {d : Proposal}
    (draft : (s.lay p).draft = some d) (unsealed : (s.lay p).sealedSet = none) (passes : sealFault p d s = none) :
    (applyInDark p d s).PlacementLaw := by
  have law := sealed_tableLaw l attached draft unsealed
  have begun := sealed_placementLaw l j draft passes
  have applied : (applySet p (s.setLay p { s.lay p with draft := none, sealedSet := some d })).1.PlacementLaw :=
    placementLaw_at (p := p) law begun (applySet_applied p _).plan (fun q hq => (Same.applySet (law.at p) hq).unmoved)
      (applySet_placement (law.at p))
  have advanced : (advanceGenerations s (applySet p (s.setLay p { s.lay p with draft := none, sealedSet := some d })).1).PlacementLaw :=
    placementLaw_iff.mpr fun q => (placementLaw_iff.mp applied q).advanced s
  have advanced_law := advanceGenerations_tableLaw s (applySet_tableLaw law p)
  exact (calm_takeReports (handReports _ _)).placementLaw (tableLaw_of_layout rfl (fun _ => rfl) advanced_law)
    (placementLaw_of_regions advanced_law advanced rfl (fun _ => ⟨rfl, rfl⟩) rfl)

theorem settleInDark_placementLaw (l : s.TableLaw) (plan : s.PlanLaw) (j : s.PlacementLaw) (r : Request) (new : Plan)
    (mode : PlanMode) : (settleInDark r new mode s).PlacementLaw := by
  have settled := settlePlan_tableLaw (answer := respond .p0 r) (fun res fields u i => respond_tableLaw i r res fields) new mode l
  have retired := retireListed_tableLaw settled
  have none_left : (retireListed (settlePlan (respond .p0 r) new mode s).1).1.layout.retiring = [] := (retireListed_retired _).retiring
  have placed : (retireListed (settlePlan (respond .p0 r) new mode s).1).1.PlacementLaw :=
    placementLaw_of_attached retired none_left fun q attached => by
      have same := retireListed_same settled (not_retiring_of_attached settled attached)
      rw [same.entry]
      refine PlacementOf.unmoved ?_ (settled.at q) same.unmoved
      refine settlePlan_placement (answer := respond .p0 r) (fun res fields u => ⟨rfl, .of_regions rfl rfl ⟨rfl, rfl⟩ rfl ?_⟩)
        (fun res fields u i => respond_tableLaw i r res fields) l (placementLaw_iff.mp j q) plan.2.1
        (same.port.attach.symm.trans attached)
      exact SameBlocks.attach (.setPort u .p0 (by rfl)) q
  have advanced : (advanceGenerations s (retireListed (settlePlan (respond .p0 r) new mode s).1).1).PlacementLaw :=
    placementLaw_iff.mpr fun q => (placementLaw_iff.mp placed q).advanced s
  have advanced_law := advanceGenerations_tableLaw s retired
  have told := (calm_storeNotices (settlePlan (respond .p0 r) new mode s).2.notices _).placementLaw advanced_law advanced
  have told_law := (calm_storeNotices (settlePlan (respond .p0 r) new mode s).2.notices _).tableLaw advanced_law
  exact (calm_takeReports (handReports _ _)).placementLaw (tableLaw_of_layout rfl (fun _ => rfl) told_law)
    (placementLaw_of_regions told_law told rfl (fun _ => ⟨rfl, rfl⟩) rfl)

/-! ### The moves -/

/-- While DARK the setup can change: no region reaches beyond the old panel (R151). -/
theorem setup_placementLaw (plan : s.PlanLaw) (unsealed : ∀ p, (s.lay p).sealedSet = none) (j : s.PlacementLaw)
    (setup : Setup) : (s.setScan { s.scan with setup := setup }).PlacementLaw := placementLaw_iff.mpr fun q => by
  obtain ⟨quota, live, -, draft⟩ := placementLaw_iff.mp j q
  refine ⟨quota, ⟨live.lawful, fun line _ => ?_⟩, fun pr e => (nomatch (unsealed q).symm.trans e), draft⟩
  by_cases lt : line < s.scan.setup.h
  · exact live.share line lt
  · have lawful := plan.2.1.2.2.2.1 q
    have bottom : (s.entry q).ty + (s.entry q).th ≤ s.scan.setup.h := by
      cases on : (s.entry q).enabled with
      | true => exact (lawful.2.1 on).2.2.2
      | false =>
        obtain ⟨-, -, -, ty, -, th⟩ := lawful.1 on
        rw [State.entry, ty, th]
        exact Nat.zero_le _
    have none_cross : crossing (liveEntries q s) line = [] := List.filter_eq_nil_iff.mpr fun x m c => by
      obtain ⟨-, -, -, height⟩ := within_iff.mp (live.lawful x m).2.2.1
      simp only [Copy.crosses, Bool.and_eq_true, decide_eq_true_eq] at c
      omega
    rw [show liveEntries q (s.setScan { s.scan with setup := setup }) = liveEntries q s from rfl, none_cross]
    exact Nat.zero_le _

theorem PanelMove.placementLaw (m : PanelMove s t) (l : s.TableLaw) (plan : s.PlanLaw) (waits : s.WaitingLaw)
    (j : s.PlacementLaw) : t.PlacementLaw := by
  have law := (calm_takeReports s).tableLaw l
  have taken := (calm_takeReports s).placementLaw l j
  cases m with
  | warmCount => exact (calm_takeWarmCount s).placementLaw l j
  | setup u _ dark => exact setup_placementLaw plan (waits.1 dark).2.2 j u
  | panelOff => exact (calmer_panelOff s).calm.placementLaw l j
  | panelOn now => exact (works_startWarming now s).placementLaw law (takeReports_planLaw plan).planned taken
  | line k => exact (calm_startLine k _).placementLaw law taken

/-- A port that leaves LEAVING owns nothing any more. -/
theorem leaveIfDone_placementLaw (l : s.TableLaw) (j : s.PlacementLaw) (p : PortId) : (leaveIfDone p s).PlacementLaw := by
  have law := leaveIfDone_tableLaw l p
  rcases leaveIfDone_cases p s with ⟨-, e⟩ | ⟨why, leaving, -, e⟩ <;> rw [e] at law ⊢
  · exact j
  · have empty := (l.at p).none_owned l.1 (by rw [leaving]; nofun) (by rw [leaving]; nofun)
    have only := storeNotice_only .p0 (noticeNow s .portLeft (portByte p) why.byte)
      ((s.setPort p { s.port p with attach := if (s.entry p).enabled then .detached else .disabled }).setUnit p
        (s.unit p).silenced.undeclared)
    refine placementLaw_at (p := p) l j (congrArg LayoutStore.plan only.layout) (fun q hq => ?_) fun _ =>
      .of_none_owned (law.at p) (fun id => by rw [only.slot]; exact empty id) _
    exact ((Same.setPort hq _).trans (.setUnit hq _)).unmoved.trans ((calm_storeNotices [(.p0, noticeNow s .portLeft (portByte p) why.byte)] _).unmoved q)

theorem attach_placementLaw (l : s.TableLaw) (detached : (s.port p).attach = .detached) (j : s.PlacementLaw) (sw sh : Nat) :
    (attach p sw sh s).PlacementLaw := by
  refine placementLaw_at (p := p) l j rfl (fun q hq => ((Same.setPort hq _).trans (.setUnit hq _)).unmoved) fun before => ?_
  exact .of_none_owned ((attach_tableLaw l detached sw sh).at p)
    ((l.at p).none_owned l.1 (by rw [detached]; nofun) (by rw [detached]; nofun)) _

/-- A port without a LINKED slot can declare another size (R120). -/
theorem format_placementLaw (l : s.TableLaw) (free : holdsLinked p s = false) (j : s.PlacementLaw) (v : SourceUnit) :
    (s.setUnit p v).PlacementLaw := by
  refine placementLaw_at (p := p) l j rfl (fun q hq => (Same.setUnit hq v).unmoved) fun before => ?_
  have no_linked : ∀ id, (s.slot id).owner? = some p → (s.slot id).kind? ≠ some .linked := fun id own linked => by
    have lt := State.lt_of_owner? own
    simp only [holdsLinked, List.any_eq_false, Bool.and_eq_true, decide_eq_true_eq, not_and] at free
    have slot : s.slot id = s.layout.slots[id] := by simp [State.slot, lt]
    exact free _ (List.getElem_mem lt) (slot ▸ own) (slot ▸ linked)
  have fits : ∀ pr : Proposal, (∀ x ∈ pr, (s.slot x.id).owner? = some p) → Fitting (s.entry p) s p pr →
      Fitting (s.entry p) (s.setUnit p v) p pr := fun pr own f =>
    ⟨fun x m => have ⟨w, h, within, guarded, _⟩ := f.lawful x m
      ⟨w, h, within, guarded, fun linked => absurd linked (no_linked x.id (own x m))⟩, f.share⟩
  exact ⟨before.quota, fits _ (fun x m => (l.at p).owner (liveEntries_ids (l.at p) ▸ List.mem_map_of_mem m)) before.live,
    fun pr e => fits pr (fun x m => ((l.at p).set pr e).2 _ (List.mem_map_of_mem m)) (before.set pr e), before.draft⟩

theorem Move.placementLaw {h h' : Option PortId} (m : Move h s h' t) (l : s.TableLaw) (plan : s.PlanLaw) (waits : s.WaitingLaw)
    (j : s.PlacementLaw) : t.PlacementLaw := by
  cases m with
  | queue move =>
    exact placementLaw_of_regions l j move.sameBlocks.layout (fun q => by simp only [State.unit, move.sameBlocks.sources, and_self])
      (by rw [move.sameBlocks.panel.scan])
  | draft _ _ move => exact move.placementLaw l j
  | block p => exact placementLaw_of_regions l j rfl (fun _ => ⟨rfl, rfl⟩) rfl
  | depart _ p => exact leaveIfDone_placementLaw l j p
  | reports => exact (calm_takeReports s).placementLaw l j
  | panel _ move => exact move.placementLaw l plan waits j
  | sealSet p r d _ _ attached _ draft unsealed passes =>
    exact placementLaw_of_regions (sealed_tableLaw l attached draft unsealed) (sealed_placementLaw l j draft passes) rfl
      (fun _ => ⟨rfl, rfl⟩) rfl
  | applySet p d _ _ attached draft unsealed passes => exact applyInDark_placementLaw l attached j draft unsealed passes
  | sealPlan r mode =>
    refine placementLaw_iff.mpr fun q => (placementLaw_iff.mp j q).unmoved (l.at q) (.of_regions rfl rfl ⟨rfl, rfl⟩ rfl ?_)
    exact deferRequest_attach .p0 r _ q
  | settlePlan r mode => exact settleInDark_placementLaw l plan j r _ mode
  | attach p sw sh _ _ detached => exact attach_placementLaw l detached j sw sh
  | bye p r _ attached => exact left_placementLaw l attached j _ _
  | eject _ q _ _ attached => exact left_placementLaw l attached j _ _
  | format p sw sh _ _ free =>
    exact (settleUnit_calm p _).placementLaw (tableLaw_of_layout (s := s) rfl (fun _ => rfl) l) (format_placementLaw l free j _)
  | packet p x _ runs =>
    unfold Machine.packet
    rw [if_pos runs]
    have filled := calm_setUnit (s := s) (p := p) (v := { s.unit p with filling := x.fill (s.unit p) }) rfl rfl
    exact (settleUnit_calm p _).placementLaw (filled.tableLaw l) (filled.placementLaw l j)
  | judge p => exact (calm_takeFrameStart p s).placementLaw l j
  | mark => exact placementLaw_of_regions l j rfl (fun _ => ⟨rfl, rfl⟩) rfl
  | unmark => exact placementLaw_of_regions l j rfl (fun _ => ⟨rfl, rfl⟩) rfl

theorem placementLaw_of_empty {plan : Plan} (layout : t.layout = { LayoutStore.reset with plan := plan })
    (l : t.TableLaw) : t.PlacementLaw := placementLaw_iff.mpr fun q =>
  .of_none_owned (l.at q) (fun id own => by
    have free : t.slot id = .free := by
      simp only [State.slot, layout, LayoutStore.reset, List.getD_eq_getElem?_getD, List.getElem?_replicate]
      split <;> rfl
    rw [free] at own
    cases own) _

theorem AnyMove.placementLaw {h h' : Option PortId} (m : AnyMove h s h' t) (l : s.TableLaw) (plan : s.PlanLaw)
    (waits : s.WaitingLaw) (j : s.PlacementLaw) : t.PlacementLaw := by
  have law := (calm_takeReports s).tableLaw l
  have taken := (calm_takeReports s).placementLaw l j
  have planned := (takeReports_planLaw plan).planned
  cases m with
  | move move => exact move.placementLaw l plan waits j
  | restart r _ attached =>
    have after := restartBody_tableLaw r attached
    rw [restartBody_eq] at after ⊢
    refine placementLaw_of_empty (plan := .default (takeReports s).scan.setup.w (takeReports s).scan.setup.h) ?_ after
    exact (settleUnit_calm .p0 _).layout.trans (storeNotice_only _ _ _).layout
  | frame now => exact (works_frame now (takeReports s)).placementLaw law planned taken
  | enterDark b =>
    obtain ⟨u, before, after⟩ := enterDark_commits b s
    have dark := (calm_darkened (takeReports s)).trans before.calm
    have planned' : Planned u := planned.same (by rw [dark.layout]) (.inl (by rw [dark.layout])) dark.setup
    exact after.calm.placementLaw (commit_tableLaw (dark.tableLaw law))
      (commit_placementLaw (dark.tableLaw law) planned'.plan (dark.placementLaw law taken))
  | reset _ _ eq =>
    cases eq
    exact placementLaw_of_regions (s := State.reset) reset_TableLaw reset_PlacementLaw rfl (fun _ => ⟨rfl, rfl⟩) rfl

/-- Settles O56: every move keeps the placement law, on the table, plan and waiting laws, which it keeps too. -/
theorem placementLawKept : Obligations.PlacementLawKept := fun _ _ l plan waits j h =>
  (step_keeps (J := fun _ u => u.TableLaw ∧ u.PlanLaw ∧ u.WaitingLaw ∧ u.PlacementLaw)
    (fun m ⟨l, plan, waits, j⟩ => ⟨m.tableLaw l, m.planLaw plan, m.waitingLaw waits, m.placementLaw l plan waits j⟩)
    (fun _ j => j) ⟨l, plan, waits, j⟩ h).2.2.2
end

end Sys2Proof.Machine
end

