-- ==== Sys2Proof/Proofs/Generations.lean ====
section
/-! PROOFS. The generations (R76): every application advances them by the rule, and a further commit of the same frame start
changes nothing more of the Layout Store. -/

namespace Sys2Proof.Machine

section
variable {p q : PortId} {s t u v : State}

/-! ### One application -/

/-- The rule of the generations reads the slots and the order lists. -/
theorem generationsAdvanced_congr (g : generationsAdvanced s t) (slot : ∀ id, u.slot id = s.slot id)
    (order : ∀ o, (u.lay o).order = (s.lay o).order) (slot' : ∀ id, v.slot id = t.slot id)
    (order' : ∀ o, (v.lay o).order = (t.lay o).order) : generationsAdvanced u v := by
  intro id o k a c e
  rw [order, order', slot]
  exact g id o k a c (slot' id ▸ e)

theorem generationsAdvanced_of_layout (g : generationsAdvanced s t) (before : u.layout = s.layout) (after : v.layout = t.layout) :
    generationsAdvanced u v :=
  generationsAdvanced_congr g (fun _ => by simp only [State.slot, before]) (fun _ => by simp only [State.lay, before])
    (fun _ => by simp only [State.slot, after]) (fun _ => by simp only [State.lay, after])

/-- The generations after an application that began in state s. -/
theorem generationsAdvanced_advance (s t : State) : generationsAdvanced s (advanceGenerations s t) := by
  intro id o k a c e
  have lay : (advanceGenerations s t).lay o = t.lay o := rfl
  rw [slot_advanceGenerations] at e
  cases et : t.slot id with
  | live o' k' a' c' =>
    rw [et] at e
    cases e
    rw [lay]
    refine ⟨fun o0 k0 g0 c0 e0 => ?_, fun none_before => ?_⟩
    · simp only [nextGeneration, e0, listPosition]
      exact ⟨fun same => if_pos same, fun differs => if_neg differs⟩
    · unfold nextGeneration
      cases es : s.slot id with
      | live => rw [es] at none_before; cases none_before
      | _ => rfl
  | _ => rw [et] at e; cases e

/-- A step that makes no region LIVE and moves none. -/
theorem generationsAdvanced_of_kept
    (kept : ∀ id o k g c, t.slot id = .live o k g c → s.slot id = .live o k g c ∧ (t.lay o).order = (s.lay o).order) :
    generationsAdvanced s t := by
  intro id o k g c e
  obtain ⟨e', order⟩ := kept id o k g c e
  rw [e', order]
  refine ⟨fun o0 k0 g0 c0 e0 => ?_, nofun⟩
  cases e0
  exact ⟨fun _ => rfl, fun n => absurd ⟨rfl, rfl⟩ n⟩

theorem generationsAdvanced_same (layout : t.layout = s.layout) : generationsAdvanced s t :=
  generationsAdvanced_of_kept fun id o k g c e => by
    simp only [State.slot, layout] at e
    exact ⟨e, by simp only [State.lay, layout]⟩

theorem commit_generations (s : State) : generationsAdvanced s (commit s) :=
  generationsAdvanced_of_layout (generationsAdvanced_advance s _) rfl (commit_layout s)

/-! ### A further commit -/

/-- Nothing waits at the Layout Store. -/
structure Idle (s : State) : Prop where
  sealedPlan : s.layout.sealedPlan = none
  retiring : s.layout.retiring = []
  sets : ∀ p, (s.lay p).sealedSet = none

theorem commit_idle (s : State) : Idle (commit s) :=
  have ⟨plan, retiring, sets⟩ := commit_clears s
  ⟨plan, retiring, sets⟩

theorem Idle.of_layout (i : Idle s) (layout : t.layout = s.layout) : Idle t :=
  ⟨by rw [layout]; exact i.sealedPlan, by rw [layout]; exact i.retiring, fun p => by
    simp only [State.lay, layout]
    exact i.sets p⟩

theorem retireListed_of_none (none_left : s.layout.retiring = []) : retireListed s = (s.setRetiring [], []) := by
  rw [retireListed, none_left]
  rfl

theorem setRetiring_of_none (none_left : s.layout.retiring = []) : s.setRetiring [] = s := by
  rw [State.setRetiring, ← none_left]

theorem applySets_of_none (sets : ∀ p, (s.lay p).sealedSet = none) : applySets s = ((s, []), []) := by
  have step : ∀ p, applySet p s = (s, []) := fun p => by
    rcases applySet_cases p s with ⟨-, e⟩ | ⟨pr, e, -⟩
    · exact e
    · exact nomatch (sets p).symm.trans e
  simp [applySets, PortId.all, step, sets]

theorem slot_advanceGenerations_self (id : Nat) : (advanceGenerations s s).slot id = s.slot id := by
  rw [slot_advanceGenerations]
  cases e : s.slot id with
  | live o k g c => simp [nextGeneration, e]
  | _ => rfl

/-- The table by its slots. -/
theorem layout_slots_eq (length : t.layout.slots.length = s.layout.slots.length) (slot : ∀ id, t.slot id = s.slot id) :
    t.layout.slots = s.layout.slots := by
  refine List.ext_getElem length fun id lt lt' => ?_
  have same := slot id
  simp only [State.slot, List.getD_eq_getElem?_getD, List.getElem?_eq_getElem lt, List.getElem?_eq_getElem lt',
    Option.getD_some] at same
  exact same

theorem advanceGenerations_self (s : State) : advanceGenerations s s = s := by
  have slots : (advanceGenerations s s).layout.slots = s.layout.slots :=
    layout_slots_eq (mapSlotsFrom_length _ _ _) slot_advanceGenerations_self
  exact congrArg (fun x => s.setSlots x) slots

/-- A commit with nothing to do releases the engines, and the Mark Unit forgets what the last one withdrew. -/
theorem Idle.commit_eq (i : Idle s) : commit s = releaseEngines (s.setWithdrawn []) := by
  unfold commit
  dsimp only
  rw [settleSealed_none i.sealedPlan]
  dsimp only
  rw [retireListed_of_none i.retiring, setRetiring_of_none i.retiring]
  dsimp only
  rw [applySets_of_none i.sets]
  dsimp only [List.foldl_nil]
  rw [advanceGenerations_self]
  simp [Settled.nothing, Settled.notices, storeNotices, handCommitReports, handReports, State.setReports, State.setWithdrawn,
    withdrawnBy]

theorem Idle.commit_layout (i : Idle s) : (commit s).layout = s.layout := by
  rw [i.commit_eq]
  rfl

/-! ### The works of a frame start -/

/-- Works up to the first commit, that commit, and the works after it; what the operand leaves out comes last (log 7). -/
theorem works_reach {F D : State → Prop} (before : ∀ u w, w ≠ .commit → F u → F (doWork u w))
    (after : ∀ u w, D u → D (doWork u w)) (commits : ∀ u, F u → D (commit u)) (now : List FrameWork) (f : F s) :
    D (commitLast now (now.foldl doWork s)) := by
  have done : ∀ (ws : List FrameWork) (u : State), D u → D (ws.foldl doWork u) := fun ws => by
    induction ws with
    | nil => exact fun _ d => d
    | cons w ws ih => exact fun u d => ih _ (after u w d)
  have key : ∀ (ws : List FrameWork) (u : State), F u →
      (FrameWork.commit ∈ ws → D (ws.foldl doWork u)) ∧ (FrameWork.commit ∉ ws → F (ws.foldl doWork u)) := fun ws => by
    induction ws with
    | nil => exact fun u f => ⟨nofun, fun _ => f⟩
    | cons w ws ih =>
      intro u f
      by_cases hw : w = .commit
      · subst hw
        exact ⟨fun _ => done ws _ (commits u f), fun n => absurd List.mem_cons_self n⟩
      · obtain ⟨d, g⟩ := ih _ (before u w hw f)
        exact ⟨fun m => d ((List.mem_cons.mp m).resolve_left (Ne.symm hw)), fun n => g fun m => n (List.mem_cons_of_mem _ m)⟩
  obtain ⟨d, g⟩ := key now s f
  unfold commitLast
  split
  · rename_i m
    exact d (by simpa using m)
  · rename_i n
    exact commits _ (g (by simpa using n))

theorem calmer_doWork {w : FrameWork} (n : w ≠ .commit) (s : State) : Calmer s (doWork s w) := by
  cases w with
  | commit => exact absurd rfl n
  | unit p => exact calmer_takeFrameStart p s
  | timer => exact calmer_takeWarmCount s

/-- What a frame start makes of the Layout Store: what one commit makes of it. -/
theorem frameWork_commits (now : List FrameWork) (s : State) :
    ∃ u, Calmer s u ∧ Idle (frameWork now s) ∧ (frameWork now s).layout = (commit u).layout := by
  have reached := works_reach (F := fun u => Calmer s u)
    (D := fun t => ∃ u, Calmer s u ∧ Idle t ∧ t.layout = (commit u).layout)
    (fun u w n g => ⟨g.calm.trans (calmer_doWork n u).calm, (calmer_doWork n u).marks.trans g.marks,
      fun r => (calmer_doWork n u).runs (g.runs r)⟩)
    (fun t w ⟨u, g, i, e⟩ => by
      by_cases hw : w = .commit
      · subst hw
        exact ⟨u, g, commit_idle t, i.commit_layout.trans e⟩
      · have layout := (calmer_doWork hw t).calm.layout
        exact ⟨u, g, i.of_layout layout, layout.trans e⟩)
    (fun u g => ⟨u, g, commit_idle u, rfl⟩) now (s := s) ⟨.refl s, rfl, id⟩
  obtain ⟨u, g, i, e⟩ := reached
  have rest := ((calm_settleUnits (commitLast now (now.foldl doWork s))).trans (calm_settleWarm _)).layout
  rw [frameWork_eq]
  exact ⟨u, g, i.of_layout rest, rest.trans e⟩

/-! ### The commands -/

theorem coolCountDue_iff : coolCountDue s = true ↔ coolEnds s := by
  simp only [coolCountDue, coolEnds, ← frameOver_iff, Bool.and_eq_true, decide_eq_true_eq]
  exact ⟨fun ⟨⟨⟨a, b⟩, c⟩, d⟩ => ⟨b, a, c, d⟩, fun ⟨b, a, c, d⟩ => ⟨⟨⟨a, b⟩, c⟩, d⟩⟩

/-- The state in which the frame start is raised, before the work of the blocks. -/
def raised (s : State) : State := raiseFrame ((takeReports s).setScan (countFrame s.scan))

theorem raised_calm (s : State) : Calm s (raised s) := by
  have setup : (countFrame s.scan).setup = s.scan.setup := by
    unfold countFrame
    split <;> rfl
  exact ((calm_takeReports s).trans (calm_setScan (by rw [takeReports_scan, setup]))).trans (calm_raiseFrame _)

theorem exec_frameStart (now : List FrameWork) (runs : s.scan.panel ≠ .dark) (ends : frameEnds s) (stays : ¬coolEnds s) :
    exec (.frameStart now) s = .next (frameWork now (raised s)) := by
  have whole : execFrameStart now s = .next (frameWork now (raised s)) := by
    unfold execFrameStart raised
    rw [if_neg (by simp [runs, frameOver_iff.mpr ends]), if_neg (mt coolCountDue_iff.mp stays)]
    dsimp only
    rw [takeReports_scan]
  exact whole

theorem exec_entryIntoDark (noticeFirst : Bool) (ends : coolEnds s) :
    exec (.entryIntoDark noticeFirst) s = .next (enterDark noticeFirst s) := by
  have whole : execEntryIntoDark noticeFirst s = .next (enterDark noticeFirst s) := by
    rw [execEntryIntoDark, if_pos (coolCountDue_iff.mpr ends)]
  exact whole

/-- What RESERVED slots released and regions retired leave of the generations, on the table law. -/
theorem generationsAdvanced_of_fading (law : t.TableLaw)
    (slot : ∀ id, t.slot id = s.slot id ∨ ∀ o k g c, t.slot id ≠ .live o k g c)
    (order : ∀ o, (t.lay o).order = (s.lay o).order ∨ (t.lay o).order = []) : generationsAdvanced s t :=
  generationsAdvanced_of_kept fun id o k g c e => by
    refine ⟨(slot id).elim (fun same => same ▸ e) fun n => absurd e (n o k g c), (order o).resolve_right fun empty => ?_⟩
    have own : (t.slot id).liveOf o = true := by rw [e]; exact Slot.liveOf_iff.mpr ⟨k, g, c, rfl⟩
    have m := (law.at o).listed id (TableOf.lt_24 law (Slot.owner?_of_liveOf own)) own
    rw [empty] at m
    cases m

/-- A port that leaves in a DARK panel changes no generation (R86). -/
theorem left_generations (l : s.TableLaw) (attached : (s.port p).attach = .attached) (dark : s.scan.panel = .dark)
    (reason : LeaveReason) (own : Option Response) :
    generationsAdvanced s (retireIfDark (enterLeaving p reason own s)) := by
  have law := enterLeaving_tableLaw l reason own (p := p) (by simp [attached])
  have left := enterLeaving_left (p := p) (reason := reason) (own := own) (s := s)
  obtain ⟨u, rs, g, eq⟩ := retireIfDark_of_dark (s := enterLeaving p reason own s) (by rw [left.panel.scan]; exact dark)
  have final := retireIfDark_tableLaw law
  rw [eq] at final ⊢
  refine generationsAdvanced_of_fading final (fun id => ?_) fun o => ?_
  · rw [takeReports_slot, show (handReports rs u).slot id = u.slot id from rfl, g.slots]
    split
    · exact .inr nofun
    · rw [State.slot_setRetiring, enterLeaving_slot]
      split
      · exact .inr nofun
      · exact .inl rfl
  · rw [takeReports_lay, show (handReports rs u).lay o = u.lay o from rfl, g.lays]
    split
    · exact .inr rfl
    · rw [State.lay_setRetiring]
      by_cases ho : o = p
      · subst ho
        rw [left.lay]
        exact .inl rfl
      · rw [(Same.enterLeaving ho reason own).lay]
        exact .inl rfl

theorem applyInDark_generations (d : Proposal) (s : State) : generationsAdvanced s (applyInDark p d s) :=
  generationsAdvanced_of_layout (generationsAdvanced_advance s _) rfl (takeReports_layout (handReports _ _))

theorem settleInDark_generations (r : Request) (new : Plan) (mode : PlanMode) (s : State) :
    generationsAdvanced s (settleInDark r new mode s) :=
  generationsAdvanced_of_layout (generationsAdvanced_advance s _) rfl (settleInDark_layout r new mode s)

/-- A request row advances the generations where its block does. -/
theorem serve_generations {k : RequestKind} {b : Bool} {body : Request → State → State}
    (hbody : ∀ r, InHand k p r (dropHead p s) → generationsAdvanced (dropHead p s) (body r (dropHead p s))) :
    generationsAdvanced s (serve k p b body s) := by
  rcases serve_cases k p b body s with h | ⟨r, res, -, -, -, h⟩ | ⟨r, -, -, -, -, h⟩ | ⟨r, hh, hc, hu, -, h⟩ <;> rw [h]
  · exact generationsAdvanced_same rfl
  · exact generationsAdvanced_same rfl
  · exact generationsAdvanced_same rfl
  · exact generationsAdvanced_of_layout (hbody r (inHand_dropHead hh hc hu)) rfl rfl

theorem publish_generations (p : PortId) (s : State) (dark : s.scan.panel = .dark) (r : Request) :
    generationsAdvanced s (publishBody p r s) := by
  unfold publishBody
  split
  · exact generationsAdvanced_same rfl
  · split
    · exact generationsAdvanced_same rfl
    · rw [if_pos dark]
      exact generationsAdvanced_of_layout (applyInDark_generations _ s) rfl rfl

theorem planSet_generations (s : State) (dark : s.scan.panel = .dark) (r : Request) :
    generationsAdvanced s (planSetBody .p0 r s) := by
  unfold planSetBody
  split
  · exact generationsAdvanced_same rfl
  · split
    · exact generationsAdvanced_same rfl
    · rw [if_pos dark]
      exact settleInDark_generations _ _ _ s

theorem eject_generations (s : State) (l : s.TableLaw) (dark : s.scan.panel = .dark) (r : Request) :
    generationsAdvanced s (ejectBody .p0 r s) := by
  unfold ejectBody
  split
  · exact generationsAdvanced_same rfl
  · split
    · exact generationsAdvanced_same rfl
    · split
      · exact generationsAdvanced_same rfl
      · rename_i attached
        exact generationsAdvanced_of_layout (left_generations l (not_not.mp attached) dark .eject none) rfl rfl

/-- Settles O46: a commit, and each application of a DARK panel, ends with the rule of the generations; what comes after
leaves the Layout Store, a further commit too. -/
theorem generationsAdvance : Obligations.GenerationsAdvance := by
  refine ⟨fun now s runs ends stays => ?_, fun noticeFirst s ends => ?_, fun p s dark l c hc => ?_⟩
  · obtain ⟨u, g, -, layout⟩ := frameWork_commits now (raised s)
    exact ⟨_, exec_frameStart now runs ends stays, generationsAdvanced_of_layout (commit_generations u)
      ((raised_calm s).trans g.calm).layout.symm layout⟩
  · obtain ⟨u, before, after⟩ := enterDark_commits noticeFirst s
    exact ⟨_, exec_entryIntoDark noticeFirst ends, generationsAdvanced_of_layout (commit_generations u)
      (((calm_takeReports s).trans (calm_darkened _)).trans before.calm).layout.symm after.calm.layout⟩
  · have taken : ∀ q, (dropHead q s).TableLaw := fun q => SameBlocks.tableLaw (.setPort s q (by rfl)) l
    simp only [List.mem_cons, List.not_mem_nil, or_false] at hc
    rcases hc with rfl | rfl | rfl | rfl
    · exact ⟨_, rfl, serve_generations fun r _ => publish_generations p (dropHead p s) dark r⟩
    · exact ⟨_, rfl, serve_generations fun r _ => planSet_generations (dropHead .p0 s) dark r⟩
    · exact ⟨_, rfl, serve_generations fun r hand => left_generations (taken p) (hand.attached (by decide)) dark .bye _⟩
    · exact ⟨_, rfl, serve_generations fun r _ => eject_generations _ (taken .p0) dark r⟩
end

end Sys2Proof.Machine
end

