-- ==== Sys2Proof/Proofs/Isolation.lean ====
section
/-! PROOFS. The isolation of the ports (R2 to R6): a request of port 1, 2 or 3 leaves every other port, the plan and the panel. -/

namespace Sys2Proof.Machine

/-- A step leaves port q whole: what `Same` says, and its notices, its link and the sealed plan too. -/
structure Isolated (q : PortId) (s t : State) : Prop extends Same q s t where
  portEq : t.port q = s.port q
  linkEq : t.link q = s.link q
  sealedPlan : t.layout.sealedPlan = s.layout.sealedPlan

/-- What the isolation of the other ports from a request of port p asks: nothing waits that the request would take first, and
what the port's lists name is its own. -/
structure Clear (p : PortId) (s : State) : Prop where
  reports : s.marks.reports = []
  warm : s.scan.warmWaiting = false
  retiring : s.layout.retiring = []
  order : ∀ id ∈ (s.lay p).order, (s.slot id).owner? = some p
  draft : ∀ d, (s.lay p).draft = some d → ∀ e ∈ d, (s.slot e.id).owner? = some p

section
variable {p q : PortId} {s t u : State} {r : Request}

theorem Isolated.samePart (h : Isolated q s t) : samePart q s t :=
  ⟨h.portEq, h.lay, h.unit, h.marks, h.slot⟩

theorem Isolated.refl (q : PortId) (s : State) : Isolated q s s := ⟨.refl q s, rfl, rfl, rfl⟩

theorem Isolated.trans (h : Isolated q s t) (g : Isolated q t u) : Isolated q s u :=
  ⟨h.toSame.trans g.toSame, g.portEq.trans h.portEq, g.linkEq.trans h.linkEq, g.sealedPlan.trans h.sealedPlan⟩

/-! ### The steps at port p -/

section
variable (hq : q ≠ p)
include hq

theorem Isolated.setPort (c : PortController) : Isolated q s (s.setPort p c) := ⟨.setPort hq c, by simp [hq], rfl, rfl⟩

theorem Isolated.setLay (l : PortLayout) : Isolated q s (s.setLay p l) := ⟨.setLay hq l, rfl, rfl, rfl⟩

theorem Isolated.setUnit (v : SourceUnit) : Isolated q s (s.setUnit p v) := ⟨.setUnit hq v, rfl, rfl, rfl⟩

theorem Isolated.setLink (l : Link) : Isolated q s (s.setLink p l) :=
  ⟨⟨.refl _, rfl, rfl, rfl, fun _ _ => rfl, .rfl, rfl, rfl, ⟨rfl, rfl, rfl⟩⟩, rfl, by simp [hq], rfl⟩

theorem Isolated.setMarkList (ms : List Mark) : Isolated q s (s.setMarkList p ms) :=
  ⟨⟨.refl _, rfl, rfl, by simp [hq], fun _ _ => rfl, .rfl, rfl, rfl, ⟨rfl, rfl, rfl⟩⟩, rfl, rfl, rfl⟩

theorem Isolated.respond (res : Result) (fields : List Byte) : Isolated q s (respond p r res fields s) := .setPort hq _

theorem Isolated.respondEdit (res : Result) (fields : List Byte) : Isolated q s (respondEdit p r res fields s) := .setPort hq _

theorem Isolated.setDraft (d : Option Proposal) : Isolated q s (setDraft p d s) := .setLay hq _

theorem Isolated.releaseUnnamed : Isolated q s (releaseUnnamed p s) := ⟨.releaseUnnamed hq, rfl, rfl, rfl⟩

/-- A draft is changed and the request is answered. -/
theorem Isolated.edited (d : Option Proposal) (res : Result) (fields : List Byte) :
    Isolated q s (Machine.respondEdit p r res fields (Machine.setDraft p d s)) := (Isolated.setDraft hq d).trans (.respondEdit hq _ _)

theorem Isolated.reserveSlot {id : Nat} (free : lowestFree s = some id) (k : RegionKind) (d : Proposal) :
    Isolated q s (reserveSlot p k id d s) := by
  obtain ⟨lt, is_free⟩ := free_of_lowestFree free
  have slot := reserveSlot_slot (p := p) lt k d
  refine ⟨⟨.refl _, by simp [Machine.reserveSlot, Machine.setDraft, hq], rfl, rfl, fun i own => ?_, .rfl, by simp [Machine.reserveSlot, Machine.setDraft], rfl,
    ⟨rfl, rfl, rfl⟩⟩, rfl, rfl, rfl⟩
  rw [slot] at own ⊢
  split
  · rename_i e
    rw [if_pos e, e, is_free] at own
    exact (own.elim nofun fun o => hq (Option.some.inj o).symm).elim
  · rfl

theorem Isolated.settleUnit : Isolated q s (settleUnit p s) := by
  rw [settleUnit_eq]
  split
  · exact .setUnit hq _
  · exact .refl q s

/-- Reports of port p are taken. -/
theorem Isolated.takeReports (own : ∀ x ∈ s.marks.reports, x.owner = p) : Isolated q s (takeReports s) := by
  have each : ∀ (rs : List Report) (u : State), (∀ x ∈ rs, x.owner = p) → Isolated q u (rs.foldl takeReport u) := fun rs => by
    induction rs with
    | nil => exact fun u _ => .refl q u
    | cons x rs ih =>
      intro u own
      obtain rfl := own x List.mem_cons_self
      refine Isolated.trans ?_ (ih _ fun y m => own y (List.mem_cons_of_mem _ m))
      have told := storeNotices_ne (p := q) (ns := ((u.markList x.owner).filter x.breaks).map fun m =>
        (x.owner, { kind := .markVoid, subject := byteOf m.id, frame := x.frame, count := 1, detail := byteOf m.region }))
        (fun n m => by obtain ⟨_, -, rfl⟩ := List.mem_map.mp m; exact Ne.symm hq)
        (u.setMarkList x.owner ((u.markList x.owner).filter fun m => !x.breaks m))
      exact (Isolated.setMarkList hq _).trans ⟨.storeNotices _, told.1, told.2, congrArg LayoutStore.sealedPlan (storeNotices_only _ _).layout⟩
  have start : Isolated q s (s.setReports []) := ⟨⟨.refl _, rfl, rfl, rfl, fun _ _ => rfl, .rfl, rfl, rfl, ⟨rfl, rfl, rfl⟩⟩, rfl, rfl, rfl⟩
  exact start.trans (each s.marks.reports (s.setReports []) own)
end

theorem Isolated.handReports (rs : List Report) : Isolated q s (handReports rs s) :=
  ⟨⟨.refl _, rfl, rfl, rfl, fun _ _ => rfl, .rfl, rfl, rfl, ⟨rfl, rfl, rfl⟩⟩, rfl, rfl, rfl⟩

theorem Isolated.advanceGenerations (s0 : State) (keeps : ∀ id, (s.slot id).owner? = some q →
    (advanceGenerations s0 s).slot id = s.slot id) : Isolated q s (advanceGenerations s0 s) := by
  have owner : ∀ id, ((Machine.advanceGenerations s0 s).slot id).owner? = (s.slot id).owner? := fun id => by
    rw [slot_advanceGenerations]
    cases s.slot id <;> rfl
  exact ⟨.mapSlots fun id own => keeps id (own.elim (fun o => o) fun o => owner id ▸ o), rfl, rfl, rfl⟩

/-! ### PUBLISH in a DARK panel, and BYE -/

/-- The set of port p, which names its own slots, is applied. -/
theorem Isolated.applySet (hq : q ≠ p) (order : ∀ id ∈ (s.lay p).order, (s.slot id).owner? = some p)
    (set : ∀ pr, (s.lay p).sealedSet = some pr → ∀ e ∈ pr, (s.slot e.id).owner? = some p) :
    Isolated q s (applySet p s).1 ∧ ∀ x ∈ (applySet p s).2, x.owner = p := by
  rcases applySet_cases p s with ⟨-, e⟩ | ⟨pr, hs, e⟩ <;> rw [e]
  · exact ⟨.refl q s, nofun⟩
  · refine ⟨⟨Same.trans (t := s.mapSlots (applyToSlot pr ((s.lay p).order.filter fun id => !names pr id))) (.mapSlots fun id own => ?_)
      (.setLay hq _), rfl, rfl, rfl⟩, fun x m => ?_⟩
    · have slot := applySet_slot hs id
      rw [e, State.slot_setLay] at slot
      rw [slot] at own ⊢
      have mine : (s.slot id).owner? = some q := by
        rcases own with own | own
        · exact own
        · unfold applyToSlot at own
          split at own
          · cases hx : s.slot id <;> rw [hx] at own <;> exact own
          · split at own
            · cases own
            · exact own
      have unnamed : id ∉ pr.ids := fun m => by
        obtain ⟨y, hy, rfl⟩ := List.mem_map.mp m
        exact owner?_ne hq (set pr hs y hy) mine
      rw [applyToSlot, copyIn_eq_none.mpr unnamed]
      dsimp only
      rw [if_neg]
      intro gone
      exact owner?_ne hq (order id (List.mem_of_mem_filter (List.contains_iff_mem.mp gone))) mine
    · rcases List.mem_append.mp m with m | m <;> obtain ⟨_, -, rfl⟩ := List.mem_map.mp m <;> rfl

theorem Isolated.applyInDark (hq : q ≠ p) (c : Clear p s) {d : Proposal} (draft : (s.lay p).draft = some d) :
    Isolated q s (applyInDark p d s) := by
  obtain ⟨u, hu⟩ : ∃ u, s.setLay p { s.lay p with draft := none, sealedSet := some d } = u := ⟨_, rfl⟩
  have lay : u.lay p = { s.lay p with draft := none, sealedSet := some d } := by rw [← hu]; simp
  have begun : Isolated q s u := hu ▸ .setLay hq _
  have slot : ∀ id, u.slot id = s.slot id := fun id => by rw [← hu]; rfl
  obtain ⟨applied, own⟩ := Isolated.applySet (p := p) hq (s := u) (by rw [lay]; exact fun id m => slot id ▸ c.order id m)
    (by rw [lay]; exact fun pr e y m => by cases e; exact slot y.id ▸ c.draft d draft y m)
  have sofar := begun.trans applied
  have advanced : Isolated q (Machine.applySet p u).1 (Machine.advanceGenerations s (Machine.applySet p u).1) := by
    refine .advanceGenerations s fun id mine => ?_
    have same := sofar.slot id (.inr mine)
    rw [slot_advanceGenerations]
    cases e : (Machine.applySet p u).1.slot id with
    | live o k g x =>
      rw [e] at mine same
      obtain rfl : o = q := Option.some.inj mine
      simp [nextGeneration, ← same, listPosition, sofar.lay]
    | _ => rfl
  have reports : ∀ x ∈ (Machine.handReports (Machine.applySet p u).2 (Machine.advanceGenerations s (Machine.applySet p u).1)).marks.reports,
      x.owner = p := by
    have none_before : (Machine.advanceGenerations s (Machine.applySet p u).1).marks.reports = [] :=
      (congrArg MarkUnit.reports (applySet_applied p u).marks).trans (by rw [← hu]; exact c.reports)
    intro x m
    rw [show (Machine.handReports (Machine.applySet p u).2 (Machine.advanceGenerations s (Machine.applySet p u).1)).marks.reports = _ from
      congrArg (· ++ (Machine.applySet p u).2) none_before] at m
    exact own x m
  have whole := ((sofar.trans advanced).trans (.handReports (Machine.applySet p u).2)).trans (Isolated.takeReports hq reports)
  unfold Machine.applyInDark
  rw [hu]
  exact whole

/-- A port that does not leave LEAVING tells nobody. -/
theorem Isolated.tellRetired (hq : q ≠ p) (stays : (s.port p).leaves = none) : Isolated q s (tellRetired p s) := by
  rw [tellRetired_eq, leftNotices, stays]
  exact (Isolated.setPort hq _).trans (.setUnit hq _)

theorem Isolated.setRetiring {ps : List PortId} (h : q ∈ ps ↔ q ∈ s.layout.retiring) : Isolated q s (s.setRetiring ps) :=
  ⟨⟨.refl _, rfl, rfl, rfl, fun _ _ => rfl, h, rfl, rfl, ⟨rfl, rfl, rfl⟩⟩, rfl, rfl, rfl⟩

theorem Isolated.entered (hq : q ≠ p) (hp : p ≠ .p0) (reason : LeaveReason) (own : Option Response) :
    Isolated q s (entered p reason own s) := by
  unfold Machine.entered
  rw [if_neg hp]
  have dropped : Isolated q s (Machine.releaseUnnamed p (s.setLay p { s.lay p with draft := none, sealedSet := none })) :=
    (Isolated.setLay hq _).trans (.releaseUnnamed hq)
  exact (((dropped.trans (.setPort hq _)).trans (.setLink hq _)).trans (.setMarkList hq [])).trans (.setUnit hq _)

theorem Isolated.enterLeaving (hq : q ≠ p) (hp : p ≠ .p0) (reason : LeaveReason) {own : Option Response}
    (stays : ((s.port p).entered (decide (p = .p0)) reason own).leaves = none) : Isolated q s (enterLeaving p reason own s) := by
  have begun := Isolated.entered (s := s) hq hp reason own
  rw [enterLeaving_eq]
  split
  · exact begun.trans (.tellRetired hq (by rw [entered_port, if_pos rfl]; exact stays))
  · exact begun.trans (.setRetiring (by simp [hq]))

/-- The retirement of port p alone in a DARK panel. -/
theorem Isolated.retireIfDark (hq : q ≠ p) (stays : (s.port p).leaves = none) (alone : s.layout.retiring = [] ∨ s.layout.retiring = [p])
    (order : ∀ id ∈ (s.lay p).order, (s.slot id).owner? ≠ some q) (reports : s.marks.reports = []) : Isolated q s (retireIfDark s) := by
  unfold Machine.retireIfDark
  split
  · have retired : Isolated q s (retireListed s).1 ∧ ∀ x ∈ (retireListed s).2, x.owner = p := by
      rcases alone with none_left | one
      · rw [retireListed_of_none none_left, setRetiring_of_none none_left]
        exact ⟨.refl q s, nofun⟩
      · rw [retireListed, one]
        refine ⟨?_, fun x m => by obtain ⟨_, -, rfl⟩ := List.mem_map.mp m; rfl⟩
        have away : Isolated q s (s.setRetiring []) := .setRetiring (by simp [one, hq])
        have freed : Isolated q (s.setRetiring []) (freeSlots (s.lay p).order (s.setRetiring [])) :=
          ⟨.freeSlots order, rfl, rfl, rfl⟩
        exact ((away.trans freed).trans (.setLay hq _)).trans (.tellRetired hq stays)
    have marks : (Machine.handReports (retireListed s).2 (retireListed s).1).marks.reports = (retireListed s).2 := by
      have before : (retireListed s).1.marks.reports = [] := (retireListed_marks s).reports.trans reports
      exact (congrArg (· ++ (retireListed s).2) before).trans (List.nil_append _)
    exact (retired.1.trans (.handReports _)).trans (.takeReports hq (by rw [marks]; exact retired.2))
  · exact .refl q s

theorem Isolated.bye (hq : q ≠ p) (hp : p ≠ .p0) (c : Clear p s) : Isolated q s (byeBody p r s) := by
  have stays : ∀ d : PortController, d.responses ≠ [] → d.leaves = none := fun d n => by
    cases e : d.leaves with
    | none => rfl
    | some why => exact absurd (PortController.leaves_eq_some.mp e).2 n
  have answered : ((s.port p).entered (decide (p = .p0)) .bye (some (r.answer .done s.frameField))).responses ≠ [] := by
    simp [PortController.entered]
  have left := enterLeaving_left (p := p) (reason := .bye) (own := some (r.answer .done s.frameField)) (s := s)
  refine (Isolated.enterLeaving hq hp .bye (stays _ answered)).trans (.retireIfDark hq (stays _ ?_) ?_ ?_ ?_)
  · rw [left.port]
    split
    · exact answered
    · exact answered
  · rw [left.retiring, c.retiring]
    split
    · exact .inl rfl
    · split
      · exact .inl rfl
      · exact .inr rfl
  · rw [left.lay]
    intro id m own
    rw [enterLeaving_slot] at own
    split at own
    · cases own
    · exact owner?_ne hq (c.order id m) own
  · rw [(enterLeaving_marks _ _ s).reports]
    exact c.reports

/-! ### The requests -/

theorem takeWarmCount_of_taken (taken : s.scan.warmWaiting = false) : takeWarmCount s = s := by
  simp [takeWarmCount, taken]

section
variable (hq : q ≠ p)
include hq

theorem Isolated.onDraftRegion {work : Proposal → Nat → State → State} (hw : ∀ d id, Isolated q s (work d id s)) :
    Isolated q s (onDraftRegion p r work s) := by
  unfold Machine.onDraftRegion
  split
  · exact .respondEdit hq _ _
  · split
    · exact .respondEdit hq _ _
    · exact hw _ _

theorem Isolated.publish (c : Clear p s) : Isolated q s (publishBody p r s) := by
  unfold publishBody
  split
  · exact .respondEdit hq _ _
  · rename_i d draft
    split
    · exact .respondEdit hq _ _
    · split
      · exact (Isolated.applyInDark hq c draft).trans (.respondEdit hq _ _)
      · exact (Isolated.setLay hq _).trans (.setPort hq _)

theorem Isolated.begin : Isolated q s (beginBody p r s) := by
  unfold beginBody
  split
  · exact .respondEdit hq _ _
  · exact .edited hq _ _ _
  · exact .edited hq _ _ _

theorem Isolated.create : Isolated q s (createBody p r s) := by
  unfold createBody
  split
  · exact .respondEdit hq _ _
  · split
    · exact .respondEdit hq _ _
    · split
      · exact .respondEdit hq _ _
      · split
        · exact .respondEdit hq _ _
        · split
          · exact .respondEdit hq _ _
          · rename_i free
            exact (Isolated.reserveSlot hq free _ _).trans (.respondEdit hq _ _)

theorem Isolated.place (d : Proposal) (id : Nat) : Isolated q s (placeWork p r d id s) := by
  unfold placeWork
  dsimp only
  split
  · exact .respondEdit hq _ _
  · exact .edited hq _ _ _

theorem Isolated.source (d : Proposal) (id : Nat) : Isolated q s (sourceWork p r d id s) := by
  unfold sourceWork
  dsimp only
  split
  · exact .respondEdit hq _ _
  · split
    · exact .respondEdit hq _ _
    · exact .edited hq _ _ _

theorem Isolated.style (d : Proposal) (id : Nat) : Isolated q s (styleWork p r d id s) := by
  unfold styleWork
  split
  · split
    · exact .respondEdit hq _ _
    · split
      · exact .respondEdit hq _ _
      · exact .edited hq _ _ _
  · exact .respondEdit hq _ _

theorem Isolated.order (d : Proposal) (id : Nat) : Isolated q s (orderWork p r d id s) := by
  unfold orderWork
  split
  · exact .respondEdit hq _ _
  · split
    · exact .respondEdit hq _ _
    · exact .edited hq _ _ _

theorem Isolated.cut (d : Option Proposal) (res : Result) (fields : List Byte) :
    Isolated q s (Machine.respondEdit p r res fields (Machine.releaseUnnamed p (Machine.setDraft p d s))) :=
  ((Isolated.setDraft hq d).trans (.releaseUnnamed hq)).trans (.respondEdit hq _ _)

theorem Isolated.discard : Isolated q s (discardBody p r s) := by
  unfold discardBody
  split
  · exact .respondEdit hq _ _
  · exact .cut hq _ _ _

theorem Isolated.readDraft (d : Proposal) (id : Nat) : Isolated q s (readDraftWork p r d id s) := by
  unfold readDraftWork
  split <;> exact .respondEdit hq _ _

theorem Isolated.hello : Isolated q s (helloBody p r s) := by
  unfold helloBody
  split
  · exact .respond hq _ _
  · split
    · exact ((Isolated.setPort hq _).trans (.setUnit hq _)).trans (.respond hq _ _)
    · exact .respond hq _ _

theorem Isolated.sourceFormat : Isolated q s (sourceFormatBody p r s) := by
  unfold sourceFormatBody
  dsimp only
  split
  · exact .respond hq _ _
  · split
    · exact .respond hq _ _
    · exact ((Isolated.setUnit hq _).trans (.settleUnit hq)).trans (.respond hq _ _)

theorem Isolated.markLive (id : Nat) (c : Copy) : Isolated q s (markLive p r id c s) := by
  unfold Machine.markLive
  split
  · exact .respond hq _ _
  · split
    · exact .respond hq _ _
    · exact (Isolated.setMarkList hq _).trans (.respond hq _ _)

theorem Isolated.mark (c : Clear p s) : Isolated q s (markBody p r s) := by
  unfold markBody
  rw [takeReports_of_none c.reports]
  dsimp only
  split
  · exact .respond hq _ _
  · split
    · exact .respond hq _ _
    · exact .respond hq _ _
    · split
      · exact .markLive hq _ _
      · exact .respond hq _ _

theorem Isolated.unmark (c : Clear p s) : Isolated q s (unmarkBody p r s) := by
  unfold unmarkBody
  rw [takeReports_of_none c.reports]
  dsimp only
  split
  · exact .respond hq _ _
  · split
    · exact (Isolated.setMarkList hq _).trans (.respond hq _ _)
    · exact .respond hq _ _

theorem Isolated.readPort (c : Clear p s) : Isolated q s (readPortBody p r s) := by
  unfold readPortBody
  split
  · exact .respond hq _ _
  · split
    · exact .respond hq _ _
    · rw [takeReports_of_none c.reports]
      exact .respond hq _ _

theorem Isolated.readRegion : Isolated q s (readRegionBody p r s) := by
  unfold readRegionBody
  dsimp only
  split
  · exact .respond hq _ _
  · split <;> exact .respond hq _ _

theorem Isolated.readOrder : Isolated q s (readOrderBody p r s) := by
  unfold readOrderBody
  split
  · exact .respond hq _ _
  · split <;> exact .respond hq _ _

theorem Isolated.hit (c : Clear p s) : Isolated q s (hitBody p r s) := by
  unfold hitBody
  rw [takeWarmCount_of_taken c.warm]
  dsimp only
  split <;> exact .respond hq _ _
end

/-- A request row of port 1, 2 or 3 leaves the other ports where its block does. -/
theorem Isolated.serve (hq : q ≠ p) {k : RequestKind} {b : Bool} {body : Request → State → State} (c : Clear p s)
    (hbody : ∀ r t, (k.planPort = true → p = .p0) → Clear p t → Isolated q t (body r t)) : Isolated q s (serve k p b body s) := by
  rcases serve_cases k p b body s with h | ⟨r, res, -, -, -, h⟩ | ⟨r, -, -, -, -, h⟩ | ⟨r, hh, hc, hu, -, h⟩ <;> rw [h]
  · exact .refl q s
  · exact (Isolated.setPort hq _).trans (.respond hq _ _)
  · exact .setPort hq _
  · exact (Isolated.setPort hq _).trans (hbody r _ (inHand_dropHead hh hc hu).zero ⟨c.reports, c.warm, c.retiring, c.order, c.draft⟩)

/-- Every request of port 1, 2 or 3 leaves the other ports. -/
theorem exec_isolated (hq : q ≠ p) (hp : p ≠ .p0) (c : Clear p s) (k : RequestKind) :
    ∃ t, exec (requestCommand k p) s = .next t ∧ Isolated q s t := by
  cases k with
  | hello => exact ⟨_, rfl, .serve hq c fun _ _ _ _ => .hello hq⟩
  | bye => exact ⟨_, rfl, .serve hq c fun _ _ _ c => .bye hq hp c⟩
  | readPort => exact ⟨_, rfl, .serve hq c fun _ _ _ c => .readPort hq c⟩
  | eject => exact ⟨_, rfl, .serve hq c fun _ _ z _ => absurd (z rfl) hp⟩
  | restart => exact ⟨_, rfl, .serve hq c fun _ _ z _ => absurd (z rfl) hp⟩
  | readRegion => exact ⟨_, rfl, .serve hq c fun _ _ _ _ => .readRegion hq⟩
  | readOrder => exact ⟨_, rfl, .serve hq c fun _ _ _ _ => .readOrder hq⟩
  | hit => exact ⟨_, rfl, .serve hq c fun _ _ _ c => .hit hq c⟩
  | beginDraft => exact ⟨_, rfl, .serve hq c fun _ _ _ _ => .begin hq⟩
  | create => exact ⟨_, rfl, .serve hq c fun _ _ _ _ => .create hq⟩
  | place => exact ⟨_, rfl, .serve hq c fun _ _ _ _ => .onDraftRegion hq fun _ _ => .place hq _ _⟩
  | source => exact ⟨_, rfl, .serve hq c fun _ _ _ _ => .onDraftRegion hq fun _ _ => .source hq _ _⟩
  | style => exact ⟨_, rfl, .serve hq c fun _ _ _ _ => .onDraftRegion hq fun _ _ => .style hq _ _⟩
  | order => exact ⟨_, rfl, .serve hq c fun _ _ _ _ => .onDraftRegion hq fun _ _ => .order hq _ _⟩
  | retire => exact ⟨_, rfl, .serve hq c fun _ _ _ _ => .onDraftRegion hq fun _ _ => .cut hq _ _ _⟩
  | discard => exact ⟨_, rfl, .serve hq c fun _ _ _ _ => .discard hq⟩
  | publish => exact ⟨_, rfl, .serve hq c fun _ _ _ c => .publish hq c⟩
  | readDraft => exact ⟨_, rfl, .serve hq c fun _ _ _ _ => .onDraftRegion hq fun _ _ => .readDraft hq _ _⟩
  | planSet => exact ⟨_, rfl, .serve hq c fun _ _ z _ => absurd (z rfl) hp⟩
  | readPlan => exact ⟨_, rfl, .serve hq c fun _ _ _ _ => .respond hq _ _⟩
  | sourceFormat => exact ⟨_, rfl, .serve hq c fun _ _ _ _ => .sourceFormat hq⟩
  | mark => exact ⟨_, rfl, .serve hq c fun _ _ _ c => .mark hq c⟩
  | unmark => exact ⟨_, rfl, .serve hq c fun _ _ _ c => .unmark hq c⟩
  | readMarks =>
    refine ⟨_, rfl, .serve hq c fun _ _ _ c => ?_⟩
    rw [readMarksBody, takeReports_of_none c.reports]
    exact .respond hq _ _
  | panelSetup => exact ⟨_, rfl, .serve hq c fun _ _ z _ => absurd (z rfl) hp⟩
  | panelOn => exact ⟨_, rfl, .serve hq c fun _ _ z _ => absurd (z rfl) hp⟩
  | panelOff => exact ⟨_, rfl, .serve hq c fun _ _ z _ => absurd (z rfl) hp⟩
  | readPanel =>
    refine ⟨_, rfl, .serve hq c fun _ _ _ c => ?_⟩
    rw [readPanelBody, takeWarmCount_of_taken c.warm]
    exact .respond hq _ _

/-- Settles O60: each request row changes its own port's parts alone. -/
theorem portsAreIsolated : Obligations.PortsAreIsolated := by
  intro k p q s t hp hq reports warm retiring _ order draft h
  obtain ⟨u, e, isolated⟩ := exec_isolated hq hp ⟨reports, warm, retiring, order, draft⟩ k
  cases e.symm.trans h
  exact ⟨isolated.samePart, isolated.linkEq, isolated.plan, isolated.sealedPlan, isolated.panel.scan, isolated.panel.comp⟩
end

end Sys2Proof.Machine
end

