-- ==== Sys2Proof/Proofs/Hearing.lean ====
section
/-! PROOFS. What a port hears of a step: the notices that reach an ATTACHED port, in their order (R159), for the works of a
frame start and the retirement of ports. -/

namespace Sys2Proof.Machine

/-- A Port Controller after a list of notices has reached it. -/
def PortController.told (ns : List Notice) (c : PortController) : PortController := ns.foldl (fun c n => c.stored n) c

/-- The notices of a list that go to port q. -/
def sentTo (q : PortId) (ns : List (PortId × Notice)) : List Notice := (ns.filter fun x => x.1 == q).map Prod.snd

/-- A Port Controller hears these notices: its connection stays, and the notice queue and flag are those after them. -/
structure Heard (ns : List Notice) (c d : PortController) : Prop where
  attach : d.attach = c.attach
  notices : d.notices = (c.told ns).notices
  noticeLost : d.noticeLost = (c.told ns).noticeLost

section
variable {c d e : PortController} {ns ms : List Notice} {p q : PortId} {s t u : State}

theorem PortController.stored_attach (n : Notice) (c : PortController) : (c.stored n).attach = c.attach := by
  unfold PortController.stored
  split
  · rfl
  · split
    · rfl
    · split <;> rfl

theorem PortController.told_attach (ns : List Notice) (c : PortController) : (c.told ns).attach = c.attach := by
  induction ns generalizing c with
  | nil => rfl
  | cons n ns ih => exact (ih _).trans (stored_attach n c)

theorem PortController.told_append (ns ms : List Notice) (c : PortController) : c.told (ns ++ ms) = (c.told ns).told ms :=
  List.foldl_append

theorem PortController.told_congr (ha : c.attach = d.attach) (hn : c.notices = d.notices) (hl : c.noticeLost = d.noticeLost)
    (ns : List Notice) : (c.told ns).notices = (d.told ns).notices ∧ (c.told ns).noticeLost = (d.told ns).noticeLost := by
  induction ns generalizing c d with
  | nil => exact ⟨hn, hl⟩
  | cons n ns ih =>
    obtain ⟨hn', hl'⟩ := stored_congr ha hn hl n
    exact ih ((stored_attach n c).trans (ha.trans (stored_attach n d).symm)) hn' hl'

theorem Heard.refl (c : PortController) : Heard [] c c := ⟨rfl, rfl, rfl⟩

theorem Heard.trans (h : Heard ns c d) (g : Heard ms d e) : Heard (ns ++ ms) c e := by
  obtain ⟨n, l⟩ := PortController.told_congr (c := d) (d := c.told ns)
    (h.attach.trans (PortController.told_attach ns c).symm) h.notices h.noticeLost ms
  exact ⟨g.attach.trans h.attach, by rw [g.notices, n, PortController.told_append],
    by rw [g.noticeLost, l, PortController.told_append]⟩

/-- A step that leaves the notices. -/
theorem Heard.quiet (ha : d.attach = c.attach) (hn : d.notices = c.notices) (hl : d.noticeLost = c.noticeLost) : Heard [] c d :=
  ⟨ha, hn, hl⟩

theorem Heard.of_eq (h : d = c) : Heard [] c d := h ▸ .refl c

theorem Heard.cast (h : Heard ns c d) (e : ns = ms) : Heard ms c d := e ▸ h

theorem Heard.then_quiet (h : Heard ns c d) (g : Heard [] d e) : Heard ns c e := by
  have both := h.trans g
  rwa [List.append_nil] at both

theorem storeNotices_port (ns : List (PortId × Notice)) (s : State) (q : PortId) :
    (storeNotices ns s).port q = (s.port q).told (sentTo q ns) := by
  induction ns generalizing s with
  | nil => rfl
  | cons n ns ih =>
    rw [storeNotices_cons, ih, storeNotice_eq]
    by_cases h : n.1 = q
    · subst h
      simp [sentTo, PortController.told]
    · simp [sentTo, h, Ne.symm h]

theorem heard_storeNotices (ns : List (PortId × Notice)) (s : State) (q : PortId) :
    Heard (sentTo q ns) (s.port q) ((storeNotices ns s).port q) := by
  rw [storeNotices_port]
  exact ⟨PortController.told_attach _ _, rfl, rfl⟩

theorem withNotices_eq (ns : List Notice) (s : State) : withNotices q ns s = (s.port q).told ns := by
  rw [withNotices, storeNotices_port, sentTo]
  congr 1
  induction ns with
  | nil => rfl
  | cons n ns ih => simpa using ih

/-- What the statements say of the notices that reach a port. -/
theorem Heard.told (h : Heard ns (s.port q) (t.port q)) :
    (t.port q).notices = (withNotices q ns s).notices ∧ (t.port q).noticeLost = (withNotices q ns s).noticeLost := by
  rw [withNotices_eq]
  exact ⟨h.notices, h.noticeLost⟩

theorem sentTo_append (ns ms : List (PortId × Notice)) : sentTo q (ns ++ ms) = sentTo q ns ++ sentTo q ms := by
  simp [sentTo]

theorem sentTo_self (ns : List Notice) : sentTo q (ns.map fun n => (q, n)) = ns := by
  induction ns with
  | nil => rfl
  | cons n ns ih => simpa [sentTo] using ih

theorem sentTo_other {ns : List (PortId × Notice)} (h : ∀ n ∈ ns, n.1 ≠ q) : sentTo q ns = [] := by
  simp only [sentTo, List.map_eq_nil_iff, List.filter_eq_nil_iff, beq_iff_eq]
  exact h

/-! ### The retirement of ports (R73, R166) -/

/-- The PORT_LEFT of a port that leaves LEAVING once its regions are retired. -/
def PortController.portLeft (f : FrameNo) (p : PortId) (c : PortController) : Option Notice :=
  c.leaves.map fun why => portLeftNotice f p why

theorem portsLeft_eq (f : FrameNo) (s : State) : portsLeft f s = s.layout.retiring.filterMap fun p => (s.port p).portLeft f p := by
  refine List.filterMap_congr fun p _ => ?_
  unfold PortController.portLeft PortController.leaves
  cases (s.port p).attach <;> cases (s.port p).responses <;> rfl

theorem leftNotices_eq (p : PortId) (s : State) :
    leftNotices p s = ((s.port p).portLeft s.scan.frame p).toList.map fun n => (.p0, n) := by
  unfold leftNotices PortController.portLeft
  cases (s.port p).leaves with
  | none => rfl
  | some why => cases why <;> rfl

/-- A port that is told of its retirement; another one hears of it at port 0 alone. -/
theorem heard_tellRetired (hq : q ≠ p) : Heard (if q = .p0 then ((s.port p).portLeft s.scan.frame p).toList else [])
    (s.port q) ((tellRetired p s).port q) := by
  have heard := heard_storeNotices (leftNotices p s)
    ((s.setPort p ((s.port p).retired (s.entry p).enabled)).setUnit p ((s.unit p).retired (s.port p))) q
  rw [← tellRetired_eq, State.port_setUnit, State.port_setPort, if_neg hq] at heard
  have sent : sentTo q (leftNotices p s) = if q = .p0 then ((s.port p).portLeft s.scan.frame p).toList else [] := by
    rw [leftNotices_eq]
    split
    · rename_i e
      rw [e, sentTo_self]
    · rename_i n
      refine sentTo_other fun x m => ?_
      obtain ⟨_, -, rfl⟩ := List.mem_map.mp m
      exact Ne.symm n
  exact sent ▸ heard

/-- What port q hears of the retirement of ports: at port 0 the PORT_LEFT of each that leaves, in their order (log 33). -/
theorem heard_retireOnes (ps : List PortId) (nodup : ps.Nodup) (hq : q ∉ ps) (x : State × List Report) :
    Heard (if q = .p0 then ps.filterMap fun p => (x.1.port p).portLeft x.1.scan.frame p else []) (x.1.port q)
      ((ps.foldl retireOne x).1.port q) := by
  induction ps generalizing x with
  | nil =>
    rw [List.filterMap_nil, ite_self]
    exact .refl _
  | cons p ps ih =>
    obtain ⟨hp, nodup⟩ := List.nodup_cons.mp nodup
    obtain ⟨hqp, hq⟩ := List.ne_and_not_mem_of_not_mem_cons hq
    have first : Heard (if q = .p0 then ((x.1.port p).portLeft x.1.scan.frame p).toList else []) (x.1.port q)
        ((retireOne x p).1.port q) :=
      heard_tellRetired (s := (freeSlots (x.1.lay p).order x.1).setLay p { x.1.lay p with order := [] }) hqp
    have rest := ih nodup hq (retireOne x p)
    have scan : (retireOne x p).1.scan = x.1.scan := (retireOne_samePanel x p).scan
    have others : ∀ r ∈ ps, ((retireOne x p).1.port r).portLeft (retireOne x p).1.scan.frame r =
        (x.1.port r).portLeft x.1.scan.frame r := fun r m => by
      have alike := (retireOne_retired x.1 x.2 p).ports r
      rw [if_neg (by rintro e; exact hp (List.mem_singleton.mp e ▸ m))] at alike
      rw [PortController.portLeft, alike.leaves, scan]
      rfl
    rw [List.filterMap_congr others] at rest
    have both := first.trans rest
    rw [List.foldl_cons]
    refine both.cast ?_
    by_cases zero : q = .p0
    · rw [if_pos zero, if_pos zero, if_pos zero, List.filterMap_cons]
      cases (x.1.port p).portLeft x.1.scan.frame p <;> rfl
    · rw [if_neg zero, if_neg zero, if_neg zero]
      rfl

theorem heard_retireListed (nodup : s.layout.retiring.Nodup) (hq : q ∉ s.layout.retiring) :
    Heard (if q = .p0 then portsLeft s.scan.frame s else []) (s.port q) ((retireListed s).1.port q) := by
  rw [portsLeft_eq]
  exact heard_retireOnes s.layout.retiring nodup hq (s.setRetiring [], [])

/-! ### The works of a frame start, but for the commit -/

/-- What port q hears of a unit that takes a frame start. -/
theorem heard_takeFrameStart (p q : PortId) (s : State) :
    Heard (if (s.unit p).frameWaiting = true then sentTo q (judgementNotices p (judgement p s).1 (judgement p s).2 s) else [])
      (s.port q) ((takeFrameStart p s).port q) := by
  unfold takeFrameStart
  split
  · exact heard_storeNotices (judgementNotices p (judgement p s).1 (judgement p s).2 s) (s.setUnit p _) q
  · exact .refl _

end

end Sys2Proof.Machine
end

