-- ==== Sys2Proof/Proofs/Settling.lean ====
section
/-! PROOFS. The settling of a plan as one port sees it (R97 to R102): what the steps at the other ports leave of its part, the
notices it hears of them, and the step at the port itself. -/

namespace Sys2Proof.Machine

/-! ### The answer to a PLAN-SET -/

/-- How the response to a PLAN-SET is placed: the deferred one at a commit, or the one to a request in hand while DARK. -/
inductive Payer where
  | deferred
  | direct (r : Request)

/-- Port 0's Port Controller after the response is placed. -/
def Payer.pay : Payer → Result → List Byte → PortController → PortController
  | .deferred, res, fields, c => c.paid .planSet res fields
  | .direct r, res, fields, c => { c with responses := c.responses ++ [r.answer res fields] }

/-- The response is placed at port 0. -/
def Payer.answer (m : Payer) (res : Result) (fields : List Byte) (s : State) : State :=
  s.setPort .p0 (m.pay res fields (s.port .p0))

/-- The request that receives the response. -/
def Payer.Owes (r : Request) (c : PortController) : Payer → Prop
  | .deferred => c.owed .planSet = some r
  | .direct r' => r' = r

section
variable {c d : PortController} {p q : PortId} {s t u : State} {m : Payer} {res : Result} {fields : List Byte}
  {rs : List PortId} {old new : Plan}

theorem placeDeferred_eq_answer : placeDeferred .p0 .planSet = Payer.deferred.answer := by
  funext res fields s
  exact placeDeferred_eq _ _ _ _ _

theorem Payer.pay_attach : (m.pay res fields c).attach = c.attach := by cases m <;> rfl

theorem Payer.pay_heard : Heard [] c (m.pay res fields c) := by cases m <;> exact ⟨rfl, rfl, rfl⟩

theorem Payer.pay_owed : (m.pay res fields c).owed .publish = c.owed .publish := by
  cases m with
  | deferred => exact PortController.owed_paid (by decide) _ _ _
  | direct r => rfl

theorem Payer.pay_responses {r : Request} (o : m.Owes r c) :
    (m.pay res fields c).responses = c.responses ++ [r.answer res fields] := by
  cases m with
  | deferred =>
    have owed : c.owed .planSet = some r := o
    simp [pay, PortController.paid, owed]
  | direct r' =>
    obtain rfl : r' = r := o
    rfl

theorem PortController.Alike.paid (h : c.Alike d) (k : RequestKind) (res : Result) (fields : List Byte) :
    (c.paid k res fields).Alike (d.paid k res fields) := by
  obtain ⟨rest, away⟩ := h
  refine ⟨?_, fun n => congrArg (PortController.paid k res fields) (away n)⟩
  rw [rest]
  rfl

theorem Payer.pay_alike (h : c.Alike d) : (m.pay res fields c).Alike (m.pay res fields d) := by
  cases m with
  | deferred => exact h.paid _ _ _
  | direct r =>
    obtain ⟨rest, away⟩ := h
    refine ⟨?_, fun n => by rw [away n]⟩
    rw [rest]
    rfl

/-! ### What a port hears of the steps at other ports -/

/-- Port q hears nothing but PORT_LEFT, and that only at port 0 and of no port of the list. -/
def HearsLefts (rs : List PortId) (q : PortId) (s t : State) : Prop :=
  ∃ lefts, (∀ n ∈ lefts, n.kind = .portLeft ∧ ∀ r ∈ rs, n.subject ≠ byteOf r.toNat) ∧ (q ≠ .p0 → lefts = []) ∧
    Heard lefts (s.port q) (t.port q)

theorem HearsLefts.of_heard (h : Heard [] (s.port q) (t.port q)) : HearsLefts rs q s t := ⟨[], nofun, fun _ => rfl, h⟩

theorem HearsLefts.of_eq (h : t.port q = s.port q) : HearsLefts rs q s t := .of_heard (.of_eq h)

theorem HearsLefts.trans (h : HearsLefts rs q s t) (g : HearsLefts rs q t u) : HearsLefts rs q s u := by
  obtain ⟨ls, kinds, zero, heard⟩ := h
  obtain ⟨ls', kinds', zero', heard'⟩ := g
  exact ⟨ls ++ ls', fun n m => (List.mem_append.mp m).elim (kinds n) (kinds' n),
    fun z => by rw [zero z, zero' z]; rfl, heard.trans heard'⟩

theorem byteOf_toNat_injective {p r : PortId} (h : byteOf p.toNat = byteOf r.toNat) : p = r := by
  revert h
  cases p <;> cases r <;> decide

theorem PortController.portLeft_eq {f : FrameNo} {n : Notice} (h : n ∈ (c.portLeft f p).toList) :
    n.kind = .portLeft ∧ n.subject = byteOf p.toNat := by
  obtain ⟨why, -, rfl⟩ := Option.map_eq_some_iff.mp (Option.mem_toList.mp h)
  exact ⟨rfl, rfl⟩

theorem hearsLefts_tellRetired (hq : q ≠ p) (hp : p ∉ rs) : HearsLefts rs q s (tellRetired p s) := by
  refine ⟨_, fun n m => ?_, fun z => if_neg z, heard_tellRetired hq⟩
  split at m
  · obtain ⟨kind, subject⟩ := PortController.portLeft_eq m
    exact ⟨kind, fun r hr e => hp (byteOf_toNat_injective (subject.symm.trans e) ▸ hr)⟩
  · cases m

theorem hearsLefts_enterLeaving (hq : q ≠ p) (hp : p ∉ rs) (reason : LeaveReason) (own : Option Response) :
    HearsLefts rs q s (enterLeaving p reason own s) := by
  have first : HearsLefts rs q s (entered p reason own s) := .of_eq (by rw [entered_port, if_neg hq])
  rw [enterLeaving_eq]
  split
  · exact first.trans (hearsLefts_tellRetired hq hp)
  · exact first.trans (.of_eq rfl)

/-! ### The handing over of enablement (R102, R167) -/

/-- What a port that is handed its enablement becomes: the cases of `handIfChanged`. -/
inductive Handing (old new : Plan) (p : PortId) (s : State) : State → Prop
  | enabled (disabled : (s.port p).attach = .disabled) (on : (new.entries.get p).enabled = true) :
      Handing old new p s
        (restUnit p (s.setPort p { s.port p with attach := .detached, noticeLost := false, refusal := .none }))
  | disabled (detached : (s.port p).attach = .detached) (off : (new.entries.get p).enabled = false)
      (requests : (s.port p).requests = []) (responses : (s.port p).responses = []) :
      Handing old new p s (restUnit p (s.setPort p { s.port p with attach := .disabled }))
  | left (differs : (old.entries.get p).enabled ≠ (new.entries.get p).enabled) (off : (new.entries.get p).enabled = false)
      (present : (s.port p).attach = .attached ∨
        ((s.port p).attach = .detached ∧ ((s.port p).requests ≠ [] ∨ (s.port p).responses ≠ []))) :
      Handing old new p s (enterLeaving p .plan none s)
  | stays (held : (old.entries.get p).enabled ≠ (new.entries.get p).enabled →
      ((s.port p).attach = .disabled → (new.entries.get p).enabled = false) ∧
        ((s.port p).attach = .detached ∨ (s.port p).attach = .attached → (new.entries.get p).enabled = true)) :
      Handing old new p s s

theorem handIfChanged_handing (old new : Plan) (p : PortId) (s : State) : Handing old new p s (handIfChanged old new s p) := by
  unfold handIfChanged
  split
  · rename_i same
    exact .stays fun n => absurd same n
  · rename_i differs
    unfold handEnablement
    dsimp only
    split
    · rename_i disabled on
      exact .enabled disabled on
    · rename_i detached off
      split
      · rename_i empty
        simp only [Bool.and_eq_true, List.isEmpty_iff] at empty
        exact .disabled detached off empty.1 empty.2
      · rename_i some_left
        refine .left differs off (.inr ⟨detached, ?_⟩)
        simpa [List.isEmpty_iff, imp_iff_not_or] using some_left
    · rename_i attached off
      exact .left differs off (.inl attached)
    · rename_i disabled detached attached
      refine .stays fun _ => ⟨fun a => by simpa using disabled a, fun a => ?_⟩
      rcases a with a | a
      · simpa using detached a
      · simpa using attached a

/-- A port that is LEAVING stays so when enablement is handed over. -/
theorem handIfChanged_of_leaving {why : LeaveReason} {b : Bool} (h : (s.port p).attach = .leaving why b) :
    handIfChanged old new s p = s := by
  have cases := handIfChanged_handing old new p s
  generalize handIfChanged old new s p = t at cases
  cases cases with
  | enabled disabled _ => simp [h] at disabled
  | disabled detached _ _ _ => simp [h] at detached
  | left _ _ present => simp [h] at present
  | stays _ => rfl

theorem hearsLefts_handIfChanged (hq : q ≠ p) (away : ∀ r ∈ rs, ∃ why, (s.port r).attach = .leaving why false) :
    HearsLefts rs q s (handIfChanged old new s p) := by
  have cases := handIfChanged_handing old new p s
  generalize handIfChanged old new s p = t at cases
  cases cases with
  | enabled _ _ => exact .of_eq (by simp [restUnit, hq])
  | disabled _ _ _ _ => exact .of_eq (by simp [restUnit, hq])
  | left _ _ present =>
    refine hearsLefts_enterLeaving hq (fun m => ?_) _ _
    obtain ⟨why, e⟩ := away p m
    simp [e] at present
  | stays _ => exact .of_eq rfl

/-! ### One port beside another -/

/-- What the settling at other ports leaves of port q, with what it hears: its part but for the slots; and under the table law
the slots too. -/
structure Beside (rs : List PortId) (q : PortId) (s t : State) : Prop where
  port : (s.port q).Alike (t.port q)
  lay : t.lay q = s.lay q
  unit : t.unit q = s.unit q
  marks : t.markList q = s.markList q
  plan : t.layout.plan = s.layout.plan
  panel : SamePanel s t
  heard : HearsLefts rs q s t
  same : s.TableLaw → t.TableLaw ∧ Same q s t

theorem Beside.of_same (g : Same q s t) (heard : HearsLefts rs q s t) (law : s.TableLaw → t.TableLaw) : Beside rs q s t :=
  ⟨g.port, g.lay, g.unit, g.marks, g.plan, g.panel, heard, fun h => ⟨law h, g⟩⟩

theorem Beside.refl (rs : List PortId) (q : PortId) (s : State) : Beside rs q s s := .of_same (.refl q s) (.of_eq rfl) id

theorem Beside.trans (h : Beside rs q s t) (g : Beside rs q t u) : Beside rs q s u where
  port := h.port.trans g.port
  lay := g.lay.trans h.lay
  unit := g.unit.trans h.unit
  marks := g.marks.trans h.marks
  plan := g.plan.trans h.plan
  panel := h.panel.trans g.panel
  heard := h.heard.trans g.heard
  same law := ⟨(g.same (h.same law).1).1, (h.same law).2.trans (g.same (h.same law).1).2⟩

/-- Ports that are LEAVING with regions to retire. -/
def Awaited (rs : List PortId) (s : State) : Prop := ∀ r ∈ rs, ∃ why, (s.port r).attach = .leaving why false

theorem beside_handIfChanged (hq : q ≠ p) (away : Awaited rs s) : Beside rs q s (handIfChanged old new s p) :=
  .of_same (.handIfChanged hq old new) (hearsLefts_handIfChanged hq away) fun h => handIfChanged_tableLaw h old new p

theorem awaited_handIfChanged (away : Awaited rs s) : Awaited rs (handIfChanged old new s p) := fun r m => by
  obtain ⟨why, e⟩ := away r m
  by_cases h : r = p
  · subst h
    exact ⟨why, by rw [handIfChanged_of_leaving e, e]⟩
  · exact ⟨why, (Same.handIfChanged h old new).port.attach.trans e⟩

/-- As `Beside`, with what is collected of the notices of other ports. -/
structure BesideAll (rs : List PortId) (q : PortId) (x y : State × Settled) : Prop extends Beside rs q x.1 y.1 where
  voids : sentTo q y.2.voids = sentTo q x.2.voids
  evictions : sentTo q y.2.evictions = sentTo q x.2.evictions

theorem BesideAll.refl (rs : List PortId) (q : PortId) (x : State × Settled) : BesideAll rs q x x := ⟨.refl rs q x.1, rfl, rfl⟩

theorem BesideAll.trans {x y z : State × Settled} (h : BesideAll rs q x y) (g : BesideAll rs q y z) : BesideAll rs q x z :=
  ⟨h.toBeside.trans g.toBeside, g.voids.trans h.voids, g.evictions.trans h.evictions⟩

/-- The state of a port whose draft and set an EVICT plan has dropped and which was handed its enablement. -/
def evictHanded (old new : Plan) (p : PortId) (s : State) : State :=
  handIfChanged old new (dropProposals p .draftVoid [EditState.idle.byte] s) p

/-- The DRAFT_VOID that an EVICT plan owes a port. -/
def dueVoids (p : PortId) (s : State) : List (PortId × Notice) :=
  if s.editState p = .idle then [] else [(p, noticeNow s .draftVoid (portByte p) 0x00)]

theorem settleEvictPort_unchanged {x : State × Settled} (e : changed old new p = false) :
    settleEvictPort old new x p = x := if_pos e

theorem settleEvictPort_changed {x : State × Settled} (e : changed old new p = true) : settleEvictPort old new x p =
    if (new.entries.get p).enabled && decide (((evictHanded old new p x.1).port p).attach = .attached) then
      evictPort p (evictHanded old new p x.1, { x.2 with voids := x.2.voids ++ dueVoids p x.1 })
    else (evictHanded old new p x.1, { x.2 with voids := x.2.voids ++ dueVoids p x.1 }) := if_neg (by simp [e])

theorem dropProposals_port (res : Result) (fields : List Byte) (s : State) (q : PortId) :
    (dropProposals p res fields s).port q = if q = p then (s.port p).paid .publish res fields else s.port q := by
  rw [dropProposals, placeDeferred_eq, State.port_setPort]
  rfl

theorem beside_dropProposals (hq : q ≠ p) (res : Result) (fields : List Byte) :
    Beside rs q s (dropProposals p res fields s) :=
  .of_same (.dropProposals hq res fields) (.of_eq (by rw [dropProposals_port, if_neg hq])) fun h => dropProposals_tableLaw h res fields

theorem awaited_dropProposals (away : Awaited rs s) (res : Result) (fields : List Byte) :
    Awaited rs (dropProposals p res fields s) := fun r m => by
  obtain ⟨why, e⟩ := away r m
  exact ⟨why, by rw [dropProposals_attach, e]⟩

theorem beside_evictHanded (hq : q ≠ p) (away : Awaited rs s) : Beside rs q s (evictHanded old new p s) :=
  (beside_dropProposals hq _ _).trans (beside_handIfChanged hq (awaited_dropProposals away _ _))

theorem sentTo_dueVoids_other (hq : q ≠ p) : sentTo q (dueVoids p s) = [] := by
  refine sentTo_other fun n m => ?_
  unfold dueVoids at m
  split at m
  · cases m
  · exact List.mem_singleton.mp m ▸ Ne.symm hq

theorem sentTo_evictPort_other (hq : q ≠ p) (x : State × Settled) :
    sentTo q (evictPort p x).2.evictions = sentTo q x.2.evictions := by
  refine (sentTo_append _ _).trans ((congrArg _ (sentTo_other fun n m => ?_)).trans (List.append_nil _))
  obtain ⟨_, -, rfl⟩ := List.mem_map.mp m
  exact Ne.symm hq

theorem evictPort_beside (hq : q ≠ p) (x : State × Settled) (drafts : (x.1.lay p).draft = none) (sets : (x.1.lay p).sealedSet = none) :
    BesideAll rs q x (evictPort p x) where
  port := .refl _
  lay := (evictPort_lay x q).trans (if_neg hq)
  unit := rfl
  marks := rfl
  plan := rfl
  panel := ⟨rfl, rfl, rfl⟩
  heard := .of_eq rfl
  same h := ⟨evictPort_tableLaw x h drafts sets, .evictPort x (h.at p) hq⟩
  voids := rfl
  evictions := sentTo_evictPort_other hq x

theorem evictHanded_lay (old new : Plan) (p : PortId) (s : State) :
    (evictHanded old new p s).lay p = { s.lay p with draft := none, sealedSet := none } := by
  have dropped : (dropProposals p .draftVoid [EditState.idle.byte] s).lay p = { s.lay p with draft := none, sealedSet := none } := by
    rw [dropProposals_lay, if_pos rfl]
  rw [evictHanded, handIfChanged_lay _ _ _ _ (by rw [dropped]) (by rw [dropped]), dropped]

theorem beside_settleEvictPort (hq : q ≠ p) (x : State × Settled) (away : Awaited rs x.1) :
    BesideAll rs q x (settleEvictPort old new x p) := by
  cases e : changed old new p with
  | false => rw [settleEvictPort_unchanged e]; exact .refl rs q x
  | true =>
    have handed : BesideAll rs q x (evictHanded old new p x.1, { x.2 with voids := x.2.voids ++ dueVoids p x.1 }) :=
      ⟨beside_evictHanded hq away, by rw [sentTo_append, sentTo_dueVoids_other hq, List.append_nil], rfl⟩
    rw [settleEvictPort_changed e]
    split
    · exact handed.trans (evictPort_beside hq _ (by rw [evictHanded_lay]) (by rw [evictHanded_lay]))
    · exact handed

theorem awaited_settleEvictPort {x : State × Settled} (away : Awaited rs x.1) : Awaited rs (settleEvictPort old new x p).1 := by
  cases e : changed old new p with
  | false => rw [settleEvictPort_unchanged e]; exact away
  | true =>
    have handed : Awaited rs (evictHanded old new p x.1) := awaited_handIfChanged (awaited_dropProposals away _ _)
    rw [settleEvictPort_changed e]
    split
    · exact handed
    · exact handed

/-! ### Settling as one port sees it -/

/-- Settling in EVICT mode: the answer, the steps at the ports before, the step at port q, the steps behind it. -/
theorem settlePlan_evict_at (m : Payer) (new : Plan) (s : State) (q : PortId) (away : Awaited rs s) :
    ∃ y z : State × Settled, Awaited rs y.1 ∧
      BesideAll rs q (m.answer .done (planFields s none none) (s.setPlan new), .nothing) y ∧
      BesideAll rs q (settleEvictPort s.layout.plan new y q) z ∧
      settlePlan m.answer new .evict s = (z.1, { z.2 with changes := planChanged s.layout.plan new s }) := by
  have start : Awaited rs (m.answer .done (planFields s none none) (s.setPlan new)) := fun r mem => by
    obtain ⟨why, e⟩ := away r mem
    refine ⟨why, ?_⟩
    rw [Payer.answer, State.port_setPort]
    split
    · rename_i zero
      rw [Payer.pay_attach]
      exact zero ▸ e
    · exact e
  obtain ⟨y, i, before, after⟩ := foldl_all_at (X := State × Settled) (I := fun x => Awaited rs x.1) (BesideAll.refl rs q) .trans
    (f := settleEvictPort s.layout.plan new) (fun _ _ i => awaited_settleEvictPort i) q
    (fun x _ i hq => beside_settleEvictPort hq x i) (m.answer .done (planFields s none none) (s.setPlan new), .nothing) start
  exact ⟨y, _, i, before, after, rfl⟩

/-- Settling in KEEP mode without a conflict. -/
theorem settlePlan_keep_at (m : Payer) (new : Plan) (s : State) (q : PortId) (away : Awaited rs s) (fits : keepConflict new s = none) :
    ∃ y z : State, Awaited rs y ∧ Beside rs q (s.setPlan new) y ∧ Beside rs q (handIfChanged s.layout.plan new y q) z ∧
      settlePlan m.answer new .keep s = (m.answer .done (planFields s none none) z,
        { Settled.nothing with changes := planChanged s.layout.plan new s }) := by
  obtain ⟨y, i, before, after⟩ := foldl_all_at (X := State) (I := Awaited rs) (Beside.refl rs q) .trans
    (f := handIfChanged s.layout.plan new) (fun _ _ i => awaited_handIfChanged i) q
    (fun x _ i hq => beside_handIfChanged hq i) (s.setPlan new) away
  refine ⟨y, _, i, before, after, ?_⟩
  simp only [settlePlan, fits]

/-- Settling in KEEP mode with a conflict. -/
theorem settlePlan_refused (m : Payer) {new : Plan} {s : State} {region : Option Nat} (e : keepConflict new s = some (p, region)) :
    settlePlan m.answer new .keep s = (m.answer .planOrphans (planFields s (some p) region) s, .nothing) := by
  simp only [settlePlan, e]

end

end Sys2Proof.Machine
end

