-- ==== Sys2Proof/Proofs/SettlingAttached.lean ====
section
/-! PROOFS. Settling a plan without any law of the state: what it makes of the Source Units, what the ports that stay ATTACHED
hear, and the first conflict of a KEEP plan. -/

namespace Sys2Proof.Machine

section
variable {c d : PortController} {p q : PortId} {s t u : State} {m : Payer} {res : Result} {fields : List Byte}
  {rs : List PortId} {old new : Plan} {mode : PlanMode} {v w : SourceUnit}

/-! ### The response, for the other ports -/

theorem Payer.answer_port : (m.answer res fields s).port q = if q = .p0 then m.pay res fields (s.port .p0) else s.port q :=
  State.port_setPort _ _ _ _

theorem Payer.answer_attach : ((m.answer res fields s).port q).attach = (s.port q).attach := by
  rw [answer_port]
  split
  · rename_i e
    rw [e, pay_attach]
  · rfl

theorem Payer.answer_tableLaw (h : s.TableLaw) : (m.answer res fields s).TableLaw :=
  SameBlocks.tableLaw (.setPort s .p0 pay_attach) h

theorem hearsLefts_answer : HearsLefts rs q s (m.answer res fields s) := by
  refine .of_heard ?_
  rw [Payer.answer_port]
  split
  · rename_i e
    rw [e]
    exact Payer.pay_heard
  · exact .refl _

/-! ### The Source Units -/

/-- A unit is untouched, or silenced because its port left ATTACHED, or at rest. -/
def SourceUnit.Eased (v w : SourceUnit) : Prop := w = v ∨ w = v.silenced ∨ w = v.silenced.undeclared

theorem SourceUnit.Eased.refl (v : SourceUnit) : v.Eased v := .inl rfl

theorem SourceUnit.Eased.of_eq (h : w = v) : v.Eased w := .inl h

theorem SourceUnit.Eased.trans {x : SourceUnit} (h : v.Eased w) (g : w.Eased x) : v.Eased x := by
  rcases h with rfl | rfl | rfl
  · exact g
  · rcases g with rfl | rfl | rfl
    · exact .inr (.inl rfl)
    · exact .inr (.inl rfl)
    · exact .inr (.inr rfl)
  · rcases g with rfl | rfl | rfl <;> exact .inr (.inr rfl)

theorem SourceUnit.Eased.pulsed (h : v.Eased w) : w.pulsed = v.pulsed := by
  rcases h with rfl | rfl | rfl <;> rfl

theorem SourceUnit.Eased.taken (h : v.Eased w) (n : v.frameWaiting = false) : w.frameWaiting = false := by
  rcases h with rfl | rfl | rfl
  · exact n
  · rfl
  · rfl

theorem SourceUnit.retired_eased (c : PortController) (v : SourceUnit) : v.Eased (v.retired c) := by
  unfold SourceUnit.retired
  split
  · exact .inr (.inr rfl)
  · exact .refl v

theorem enterLeaving_eased (reason : LeaveReason) (own : Option Response) : (s.unit p).Eased ((enterLeaving p reason own s).unit p) := by
  rw [(enterLeaving_left (p := p) (reason := reason) (own := own) (s := s)).unit]
  have silenced : (s.unit p).Eased (s.unit p).silenced := .inr (.inl rfl)
  split
  · exact silenced.trans (SourceUnit.retired_eased _ _)
  · exact silenced

theorem handIfChanged_eased : (s.unit p).Eased ((handIfChanged old new s p).unit p) := by
  have cases := handIfChanged_handing old new p s
  generalize handIfChanged old new s p = t at cases
  cases cases with
  | enabled _ _ => exact .inr (.inr (by simp [restUnit]))
  | disabled _ _ _ _ => exact .inr (.inr (by simp [restUnit]))
  | left _ _ _ => exact enterLeaving_eased _ _
  | stays _ => exact .refl _

theorem evictHanded_eased : (s.unit p).Eased ((evictHanded old new p s).unit p) :=
  (SourceUnit.Eased.of_eq (dropProposals_unit _ _ _ _)).trans handIfChanged_eased

theorem settleEvictPort_eased (x : State × Settled) : (x.1.unit p).Eased ((settleEvictPort old new x p).1.unit p) := by
  cases e : changed old new p with
  | false => rw [settleEvictPort_unchanged e]; exact .refl _
  | true =>
    rw [settleEvictPort_changed e]
    split
    · exact evictHanded_eased
    · exact evictHanded_eased

theorem awaited_nil : Awaited [] s := nofun

/-- The outcome of settling as state and collected notices, the plan refused. -/
theorem settlePlan_keep_cases (new : Plan) (s : State) : keepConflict new s = none ∨
    ∃ p region, keepConflict new s = some (p, region) := by
  cases h : keepConflict new s with
  | none => exact .inl rfl
  | some x => exact .inr ⟨x.1, x.2, rfl⟩

theorem settlePlan_eased (m : Payer) (new : Plan) (mode : PlanMode) (s : State) (q : PortId) :
    (s.unit q).Eased ((settlePlan m.answer new mode s).1.unit q) := by
  cases mode with
  | keep =>
    rcases settlePlan_keep_cases new s with fits | ⟨p, region, e⟩
    · obtain ⟨y, z, -, before, after, e⟩ := settlePlan_keep_at m new s q awaited_nil fits
      rw [e]
      exact (SourceUnit.Eased.of_eq before.unit).trans (handIfChanged_eased.trans (.of_eq after.unit))
    · rw [settlePlan_refused m e]
      exact .refl _
  | evict =>
    obtain ⟨y, z, -, before, after, e⟩ := settlePlan_evict_at m new s q awaited_nil
    rw [e]
    exact (SourceUnit.Eased.of_eq before.unit).trans ((settleEvictPort_eased y).trans (.of_eq after.unit))

/-! ### A port that stays ATTACHED -/

theorem evictHanded_of_attached (after : ((evictHanded old new p s).port p).attach = .attached) :
    evictHanded old new p s = dropProposals p .draftVoid [EditState.idle.byte] s := (handIfChanged_of_attached after).1

/-- The step of an EVICT plan at a port that is ATTACHED behind it. -/
theorem settleEvictPort_attached {x : State × Settled} (after : ((settleEvictPort old new x p).1.port p).attach = .attached) :
    (x.1.port p).attach = .attached ∧ (settleEvictPort old new x p).1.unit p = x.1.unit p ∧
      Heard [] (x.1.port p) ((settleEvictPort old new x p).1.port p) := by
  cases e : changed old new p with
  | false =>
    rw [settleEvictPort_unchanged e] at after ⊢
    exact ⟨after, rfl, .refl _⟩
  | true =>
    have port : (settleEvictPort old new x p).1.port p = (evictHanded old new p x.1).port p := by
      rw [settleEvictPort_changed e]
      split <;> rfl
    have unit : (settleEvictPort old new x p).1.unit p = (evictHanded old new p x.1).unit p := by
      rw [settleEvictPort_changed e]
      split <;> rfl
    rw [port] at after ⊢
    rw [unit]
    have dropped := evictHanded_of_attached after
    rw [dropped, dropProposals_attach] at after
    rw [dropped]
    rw [dropProposals_port, if_pos rfl, dropProposals_unit]
    exact ⟨after, rfl, ⟨rfl, rfl, rfl⟩⟩

theorem settlePlan_attached (m : Payer) (new : Plan) (mode : PlanMode) (away : Awaited rs s)
    (after : ((settlePlan m.answer new mode s).1.port q).attach = .attached) :
    (s.port q).attach = .attached ∧ (settlePlan m.answer new mode s).1.unit q = s.unit q ∧
      HearsLefts rs q s (settlePlan m.answer new mode s).1 := by
  cases mode with
  | keep =>
    rcases settlePlan_keep_cases new s with fits | ⟨p, region, e⟩
    · obtain ⟨y, z, -, first, rest, e⟩ := settlePlan_keep_at m new s q away fits
      rw [e] at after ⊢
      have handed : ((handIfChanged s.layout.plan new y q).port q).attach = .attached := by
        rw [← rest.port.attach, ← after]
        exact Payer.answer_attach.symm
      have untouched := (handIfChanged_of_attached handed).1
      rw [untouched] at handed rest
      exact ⟨first.port.attach.symm.trans handed, rest.unit.trans first.unit, (first.heard.trans rest.heard).trans hearsLefts_answer⟩
    · rw [settlePlan_refused m e] at after ⊢
      exact ⟨Payer.answer_attach.symm.trans after, rfl, hearsLefts_answer⟩
  | evict =>
    obtain ⟨y, z, -, first, rest, e⟩ := settlePlan_evict_at m new s q away
    rw [e] at after ⊢
    obtain ⟨attach, unit, heard⟩ := settleEvictPort_attached (rest.port.attach.symm.trans after)
    have start : HearsLefts rs q s (m.answer .done (planFields s none none) (s.setPlan new)) :=
      hearsLefts_answer (s := s.setPlan new)
    exact ⟨Payer.answer_attach.symm.trans (first.port.attach.symm.trans attach), rest.unit.trans (unit.trans first.unit),
      (start.trans first.heard).trans ((HearsLefts.of_heard heard).trans rest.heard)⟩

/-! ### The kinds of the notices of step 1 -/

/-- The kinds of the notices that settling a plan hands on (R99, R101, R103). -/
def NoticeKind.OfPlan (k : NoticeKind) : Prop := k = .draftVoid ∨ k = .regionEvicted ∨ k = .planChanged

/-- What is collected while an EVICT plan is settled. -/
def Settled.Plain (x : Settled) : Prop :=
  (∀ n ∈ x.voids, n.2.kind.OfPlan) ∧ ∀ n ∈ x.evictions, n.2.kind.OfPlan

theorem settleEvictPort_plain {x : State × Settled} (h : x.2.Plain) : (settleEvictPort old new x p).2.Plain := by
  have dues : ∀ n ∈ dueVoids p x.1, n.2.kind.OfPlan := fun n m => by
    unfold dueVoids at m
    split at m
    · cases m
    · exact List.mem_singleton.mp m ▸ .inl rfl
  have handed : Settled.Plain { x.2 with voids := x.2.voids ++ dueVoids p x.1 } :=
    ⟨fun n m => (List.mem_append.mp m).elim (h.1 n) (dues n), h.2⟩
  cases e : changed old new p with
  | false => rw [settleEvictPort_unchanged e]; exact h
  | true =>
    rw [settleEvictPort_changed e]
    split
    · refine ⟨handed.1, fun n m => (List.mem_append.mp m).elim (h.2 n) fun m => ?_⟩
      obtain ⟨_, -, rfl⟩ := List.mem_map.mp m
      exact .inr (.inl rfl)
    · exact handed

theorem settlePlan_kinds (m : Payer) (new : Plan) (mode : PlanMode) (s : State) :
    ∀ n ∈ (settlePlan m.answer new mode s).2.notices, n.2.kind.OfPlan := by
  have changes : ∀ n ∈ planChanged s.layout.plan new s, n.2.kind.OfPlan := fun n m => by
    obtain ⟨_, -, rfl⟩ := List.mem_map.mp m
    exact .inr (.inr rfl)
  have whole : ∀ x : Settled, x.Plain → ∀ cs : List (PortId × Notice), (∀ n ∈ cs, n.2.kind.OfPlan) →
      ∀ n ∈ ({ x with changes := cs } : Settled).notices, n.2.kind.OfPlan := fun x plain cs hc n m => by
    rcases List.mem_append.mp m with m | m
    · exact (List.mem_append.mp m).elim (plain.1 n) (plain.2 n)
    · exact hc n m
  have nothing : Settled.nothing.Plain := ⟨nofun, nofun⟩
  cases mode with
  | keep =>
    rcases settlePlan_keep_cases new s with fits | ⟨p, region, e⟩
    · obtain ⟨_, _, -, -, -, e⟩ := settlePlan_keep_at m new s .p0 awaited_nil fits
      rw [e]
      exact whole _ nothing _ changes
    · rw [settlePlan_refused m e]
      exact whole _ nothing [] nofun
  | evict =>
    have all : ∀ (ps : List PortId) (x : State × Settled), x.2.Plain → (ps.foldl (settleEvictPort s.layout.plan new) x).2.Plain := by
      intro ps
      induction ps with
      | nil => exact fun _ h => h
      | cons p ps ih => exact fun x h => ih _ (settleEvictPort_plain h)
    exact whole _ (all PortId.all (_, .nothing) nothing) _ changes

/-! ### The first conflict of a KEEP plan (R97) -/

/-- Checks 3 to 5 of R97 over one proposal, as the statements word them. -/
theorem proposalConflict_eq_some {e : PlanEntry} {h id : Nat} {pr : Proposal} :
    proposalConflict e h pr = some id ↔ breaksEntry e h pr id := by
  unfold proposalConflict breaksEntry
  cases ht : territoryFault e pr with
  | some i =>
    have bad := territoryFault_eq_some.mp ht
    have not_all : ¬∀ x ∈ pr, insideTerritory e x.copy := fun all => by
      rw [territoryFault_eq_none.mpr all] at ht
      cases ht
    simp only [not_all, false_and, or_false, Option.some.injEq]
    rw [← territoryFault_eq_some, ht, Option.some.injEq]
  | none =>
    have all := territoryFault_eq_none.mp ht
    rw [← territoryFault_eq_some, ht]
    cases hg : guardFault e pr with
    | some i =>
      have bad := guardFault_eq_some.mp hg
      have not_clear : ¬(e.guard = false → ∀ x ∈ pr, x.copy.guarded = false) := fun clear => by
        rw [guardFault_eq_none.mpr clear] at hg
        cases hg
      simp only [not_clear, false_and, and_false, or_false, reduceCtorEq, false_or, Option.some.injEq]
      constructor
      · rintro rfl
        exact ⟨all, bad⟩
      · rintro ⟨-, found⟩
        have := guardFault_eq_some.mpr found
        rw [hg] at this
        exact Option.some.inj this
    | none =>
      have clear := guardFault_eq_none.mp hg
      have not_found : ¬(e.guard = false ∧ firstWith (fun x => x.copy.guarded = true) pr id) := fun found => by
        rw [guardFault_eq_some.mpr found] at hg
        cases hg
      simp only [not_found, reduceCtorEq, false_or, and_false]
      rw [rowShareFault_eq_some]
      exact ⟨fun n => ⟨all, clear, n⟩, fun h => h.2.2⟩

theorem staysEnabled_iff : (s.port p).attach.staysEnabled = true ↔ inUse p s := by
  unfold inUse
  cases (s.port p).attach <;> simp [Attach.staysEnabled]

theorem changed_iff : changed old new p = true ↔ new.entries.get p ≠ old.entries.get p := by
  unfold changed
  rw [decide_eq_true_iff]
  exact ne_comm

theorem portConflict_eq_some {region : Option Nat} : portConflict new s p = some region ↔ orphans new s p region := by
  unfold portConflict orphans
  dsimp only
  cases hc : changed s.layout.plan new p with
  | false =>
    have same : ¬new.entries.get p ≠ s.entry p := fun n => by
      rw [changed_iff.mpr n] at hc
      cases hc
    simp [same]
  | true =>
    have differs : new.entries.get p ≠ s.entry p := changed_iff.mp hc
    simp only [Bool.true_eq_false, if_false, differs, true_and, ne_eq, not_false_eq_true]
    by_cases disables : inUse p s ∧ (new.entries.get p).enabled = false
    · have found : ((s.port p).attach.staysEnabled && !(new.entries.get p).enabled) = true := by
        rw [staysEnabled_iff.mpr disables.1, disables.2]
        rfl
      rw [if_pos found]
      simp only [disables, and_self, true_and, not_true_eq_false, false_and, or_false, Option.some.injEq]
      exact eq_comm
    · have not_found : ((s.port p).attach.staysEnabled && !(new.entries.get p).enabled) = false := by
        rw [← Bool.not_eq_true]
        simp only [Bool.and_eq_true, staysEnabled_iff, Bool.not_eq_true']
        exact disables
      simp only [not_found, Bool.false_eq_true, if_false, disables, false_and, not_false_eq_true, true_and, false_or]
      by_cases exceeds : (new.entries.get p).quota < ownedCount p s
      · simp only [exceeds, if_true, true_and, Option.some.injEq, not_le.mpr exceeds, false_and, or_false]
        exact eq_comm
      · simp only [exceeds, if_false, false_and, not_lt.mp exceeds, true_and, false_or]
        cases live : proposalConflict (new.entries.get p) s.scan.setup.h (liveEntries p s) with
        | some id =>
          have first := proposalConflict_eq_some.mp live
          constructor
          · intro e
            exact ⟨id, (Option.some.inj e).symm, .inl first⟩
          · rintro ⟨i, rfl, broken | ⟨none_broken, -⟩⟩
            · rw [proposalConflict_eq_some.mpr broken] at live
              exact congrArg some live.symm
            · exact absurd first (none_broken id)
        | none =>
          have none_broken : ∀ j, ¬breaksEntry (new.entries.get p) s.scan.setup.h (liveEntries p s) j := fun j b => by
            rw [proposalConflict_eq_some.mpr b] at live
            cases live
          simp only [none_broken, false_or, not_false_eq_true, implies_true, true_and]
          cases (s.lay p).sealedSet with
          | none => simp
          | some pr =>
            simp only [Option.map_eq_some_iff, proposalConflict_eq_some, Option.some.injEq]
            constructor
            · rintro ⟨i, broken, rfl⟩
              exact ⟨i, rfl, pr, rfl, broken⟩
            · rintro ⟨i, rfl, _, rfl, broken⟩
              exact ⟨i, broken, rfl⟩

theorem keepConflict_none_iff : keepConflict new s = none ↔ ∀ p x, ¬orphans new s p x := by
  rw [keepConflict_eq_none]
  refine forall_congr' fun p => ?_
  rw [Option.eq_none_iff_forall_ne_some]
  exact forall_congr' fun x => not_congr portConflict_eq_some

/-- The conflict that a refusal names. -/
theorem keepConflict_of_first {region : Option Nat} (found : orphans new s p region)
    (first : ∀ (j : PortId) x, j.toNat < p.toNat → ¬orphans new s j x) : keepConflict new s = some (p, region) := by
  have here : portConflict new s p = some region := portConflict_eq_some.mpr found
  have before : ∀ j : PortId, j.toNat < p.toNat → portConflict new s j = none := fun j lt =>
    Option.eq_none_iff_forall_ne_some.mpr fun x e => first j x lt (portConflict_eq_some.mp e)
  unfold keepConflict PortId.all
  cases p with
  | p0 => simp [here]
  | p1 => simp [here, before .p0 (by decide)]
  | p2 => simp [here, before .p0 (by decide), before .p1 (by decide)]
  | p3 => simp [here, before .p0 (by decide), before .p1 (by decide), before .p2 (by decide)]

end

end Sys2Proof.Machine
end

