-- ==== Sys2Proof/Proofs/SettlingParts.lean ====
section
/-! PROOFS. Settling a plan under the table and waiting laws: a port that the plan leaves alone, one that waits for its
retirement, one that an EVICT plan changes, and one that is handed its enablement. -/

namespace Sys2Proof.Machine

/-- As `Same`, the live plan aside: port q's part is the same in both states. -/
structure Carried (q : PortId) (s t : State) : Prop where
  port : (s.port q).Alike (t.port q)
  lay : t.lay q = s.lay q
  unit : t.unit q = s.unit q
  marks : t.markList q = s.markList q
  slot : ∀ id, (s.slot id).owner? = some q ∨ (t.slot id).owner? = some q → t.slot id = s.slot id
  retiring : q ∈ t.layout.retiring ↔ q ∈ s.layout.retiring
  panel : SamePanel s t

/-- How a plan is answered when it is settled: its result and its fields. -/
def settleReply (new : Plan) (s : State) : PlanMode → Result × List Byte
  | .keep => match keepConflict new s with
    | some (p, region) => (.planOrphans, planFields s (some p) region)
    | none => (.done, planFields s none none)
  | .evict => (.done, planFields s none none)

section
variable {c d : PortController} {p q : PortId} {s t u : State} {m : Payer} {res : Result} {fields : List Byte}
  {rs : List PortId} {old new : Plan} {mode : PlanMode} {why : LeaveReason}

theorem Same.carried (g : Same q s t) : Carried q s t := ⟨g.port, g.lay, g.unit, g.marks, g.slot, g.retiring, g.panel⟩

theorem Carried.refl (q : PortId) (s : State) : Carried q s s := (Same.refl q s).carried

theorem Carried.trans (h : Carried q s t) (g : Carried q t u) : Carried q s u where
  port := h.port.trans g.port
  lay := g.lay.trans h.lay
  unit := g.unit.trans h.unit
  marks := g.marks.trans h.marks
  slot id own := by
    rcases own with own | own
    · have first := h.slot id (.inl own)
      exact (g.slot id (.inl (by rw [first]; exact own))).trans first
    · have last := g.slot id (.inr own)
      exact last.trans (h.slot id (.inr (by rw [← last]; exact own)))
  retiring := g.retiring.trans h.retiring
  panel := h.panel.trans g.panel

theorem Carried.setPlan (q : PortId) (new : Plan) (s : State) : Carried q s (s.setPlan new) :=
  ⟨.refl _, rfl, rfl, rfl, fun _ _ => rfl, .rfl, ⟨rfl, rfl, rfl⟩⟩

theorem Beside.carried (g : Beside rs q s t) (h : s.TableLaw) : Carried q s t := (g.same h).2.carried

/-- The response placed at port 0 on both sides. -/
theorem Carried.answer (g : Carried q s t) : Carried q (m.answer res fields s) (m.answer res fields t) where
  port := by
    rw [Payer.answer_port, Payer.answer_port]
    split
    · rename_i e
      exact Payer.pay_alike (e ▸ g.port)
    · exact g.port
  lay := g.lay
  unit := g.unit
  marks := g.marks
  slot := g.slot
  retiring := g.retiring
  panel := ⟨g.panel.scan, g.panel.comp, g.panel.pending⟩

theorem Carried.answer_other (hq : q ≠ .p0) : Carried q s (m.answer res fields s) where
  port := .of_eq (by rw [Payer.answer_port, if_neg hq])
  lay := rfl
  unit := rfl
  marks := rfl
  slot _ _ := rfl
  retiring := .rfl
  panel := ⟨rfl, rfl, rfl⟩

theorem settleReply_fits (fits : keepConflict new s = none) : settleReply new s .keep = (.done, planFields s none none) := by
  simp only [settleReply, fits]

theorem settleReply_refused {region : Option Nat} (e : keepConflict new s = some (p, region)) :
    settleReply new s .keep = (.planOrphans, planFields s (some p) region) := by
  simp only [settleReply, e]

/-! ### A port that the plan leaves alone -/

theorem handIfChanged_same (e : (old.entries.get p).enabled = (new.entries.get p).enabled) :
    handIfChanged old new s p = s := if_pos e

theorem settlePlan_kept (h : s.TableLaw) (kept : keptByPlan new mode q s) :
    Carried q (m.answer (settleReply new s mode).1 (settleReply new s mode).2 s) (settlePlan m.answer new mode s).1 := by
  cases mode with
  | keep =>
    rcases settlePlan_keep_cases new s with fits | ⟨p, region, e⟩
    · obtain ⟨y, z, -, before, after, e⟩ := settlePlan_keep_at m new s q awaited_nil fits
      have same : (s.layout.plan.entries.get q).enabled = (new.entries.get q).enabled := by
        rcases kept with entry | ⟨-, enabled | ⟨p, x, found⟩⟩
        · exact congrArg PlanEntry.enabled entry.symm
        · exact enabled.symm
        · exact absurd found (keepConflict_none_iff.mp fits p x)
      rw [handIfChanged_same same] at after
      rw [e, settleReply_fits fits]
      exact (((Carried.setPlan q new s).trans (before.carried h)).trans (after.carried (before.same h).1)).answer
    · rw [settlePlan_refused m e, settleReply_refused e]
      exact .refl q _
  | evict =>
    have entry : new.entries.get q = s.entry q := by
      rcases kept with entry | ⟨keeps, -⟩
      · exact entry
      · cases keeps
    obtain ⟨y, z, -, before, after, e⟩ := settlePlan_evict_at m new s q awaited_nil
    rw [settleEvictPort_unchanged (by rw [changed, entry]; exact decide_eq_false (not_not.mpr rfl))] at after
    rw [e]
    have law : (m.answer .done (planFields s none none) (s.setPlan new)).TableLaw := Payer.answer_tableLaw (s := s.setPlan new) h
    exact ((Carried.setPlan q new s).answer.trans (before.carried law)).trans (after.carried (before.same law).1)

/-! ### A port that waits for its retirement -/

/-- What settling leaves of a port that is LEAVING: all but the answer it may be owed, and its draft and set, which are gone. -/
structure LeftAlone (q : PortId) (s t : State) : Prop where
  attach : (t.port q).attach = (s.port q).attach
  responses : q ≠ .p0 → (t.port q).responses = (s.port q).responses
  lay : t.lay q = s.lay q
  unit : t.unit q = s.unit q
  slot : ∀ id, (s.slot id).liveOf q = true → t.slot id = s.slot id

theorem Carried.leftAlone (g : Carried q s t) : LeftAlone q s t :=
  ⟨g.port.attach, fun _ => g.port.responses, g.lay, g.unit, fun id l => g.slot id (.inl (Slot.owner?_of_liveOf l))⟩

theorem LeftAlone.trans (h : LeftAlone q s t) (g : LeftAlone q t u) : LeftAlone q s u where
  attach := g.attach.trans h.attach
  responses n := (g.responses n).trans (h.responses n)
  lay := g.lay.trans h.lay
  unit := g.unit.trans h.unit
  slot id l := (g.slot id (by rw [h.slot id l]; exact l)).trans (h.slot id l)

theorem leftAlone_answer : LeftAlone q s (m.answer res fields s) where
  attach := Payer.answer_attach
  responses n := by rw [Payer.answer_port, if_neg n]
  lay := rfl
  unit := rfl
  slot _ _ := rfl

/-- A port without a set is owed no PUBLISH. -/
theorem WaitOf.owed_none (j : WaitOf s q) (set : (s.lay q).sealedSet = none) : (s.port q).owed .publish = none := by
  have none_owed := j.owes.publish
  rw [set] at none_owed
  exact List.find?_eq_none.mpr (List.countP_eq_zero.mp none_owed)

/-- A port with a set is owed the PUBLISH. -/
theorem WaitOf.owed_some (j : WaitOf s q) {pr : Proposal} (set : (s.lay q).sealedSet = some pr) :
    ∃ r, (s.port q).owed .publish = some r := by
  have owed := j.owes.publish
  rw [set] at owed
  have some_owed : 0 < deferredOf .publish (s.port q) := by
    rw [owed]
    exact Nat.one_pos
  obtain ⟨r, mem, is⟩ := List.countP_pos_iff.mp some_owed
  exact Option.isSome_iff_exists.mp (List.find?_isSome.mpr ⟨r, mem, is⟩)

theorem PortController.Alike.owed (g : c.Alike d) (k : RequestKind) : d.owed k = c.owed k :=
  congrArg (List.find? _) g.deferred

theorem PortController.paid_of_none {k : RequestKind} (e : c.owed k = none) : (c.paid k res fields).responses = c.responses := by
  simp [paid, e]

theorem PortLayout.dropped_eq {l : PortLayout} (drafts : l.draft = none) (sets : l.sealedSet = none) :
    { l with draft := none, sealedSet := none } = l := by
  cases l
  cases drafts
  cases sets
  rfl

theorem leftAlone_dropProposals (owed : (s.port q).owed .publish = none) (drafts : (s.lay q).draft = none)
    (sets : (s.lay q).sealedSet = none) (res : Result) (fields : List Byte) : LeftAlone q s (dropProposals q res fields s) where
  attach := dropProposals_attach _ _ _
  responses _ := by rw [dropProposals_port, if_pos rfl, PortController.paid_of_none owed]
  lay := by
    rw [dropProposals_lay, if_pos rfl]
    exact PortLayout.dropped_eq drafts sets
  unit := dropProposals_unit _ _ _ _
  slot _ l := (dropProposals_ownKept res fields s).live l

theorem settleEvictPort_leaving {x : State × Settled} {b : Bool} (e : (x.1.port q).attach = .leaving why b) :
    (settleEvictPort old new x q).1 = x.1 ∨ (settleEvictPort old new x q).1 = dropProposals q .draftVoid [EditState.idle.byte] x.1 := by
  cases c : changed old new q with
  | false => rw [settleEvictPort_unchanged c]; exact .inl rfl
  | true =>
    have handed : evictHanded old new q x.1 = dropProposals q .draftVoid [EditState.idle.byte] x.1 :=
      handIfChanged_of_leaving ((dropProposals_attach _ _ _).trans e)
    rw [settleEvictPort_changed c, if_neg (by simp [handed, dropProposals_attach, e])]
    exact .inr handed

theorem settlePlan_leaving (h : s.TableLaw) (j : WaitOf s q) {b : Bool} (e : (s.port q).attach = .leaving why b) :
    LeftAlone q s (settlePlan m.answer new mode s).1 := by
  obtain ⟨drafts, sets⟩ := (h.at q).away (by rw [e]; nofun)
  cases mode with
  | keep =>
    rcases settlePlan_keep_cases new s with fits | ⟨p, region, r⟩
    · obtain ⟨y, z, -, before, after, r⟩ := settlePlan_keep_at m new s q awaited_nil fits
      rw [handIfChanged_of_leaving (before.port.attach.trans e)] at after
      rw [r]
      exact (((Carried.setPlan q new s).trans (before.carried h)).trans
        (after.carried (before.same h).1)).leftAlone.trans leftAlone_answer
    · rw [settlePlan_refused m r]
      exact leftAlone_answer
  | evict =>
    obtain ⟨y, z, -, before, after, r⟩ := settlePlan_evict_at m new s q awaited_nil
    have law : (m.answer .done (planFields s none none) (s.setPlan new)).TableLaw := Payer.answer_tableLaw (s := s.setPlan new) h
    have start : LeftAlone q s y.1 := ((Carried.setPlan q new s).leftAlone.trans leftAlone_answer).trans (before.carried law).leftAlone
    have owed : (y.1.port q).owed .publish = none := by
      rw [before.port.owed, Payer.answer_port]
      split
      · rename_i zero
        rw [Payer.pay_owed]
        exact zero ▸ j.owed_none sets
      · exact j.owed_none sets
    have own : LeftAlone q y.1 (settleEvictPort s.layout.plan new y q).1 := by
      rcases settleEvictPort_leaving (old := s.layout.plan) (new := new) (start.attach.trans e) with same | dropped
      · rw [same]
        exact (Carried.refl q y.1).leftAlone
      · rw [dropped]
        exact leftAlone_dropProposals owed (by rw [start.lay, drafts]) (by rw [start.lay, sets]) _ _
    rw [r]
    exact (start.trans own).trans (after.carried (settleEvictPort_tableLaw _ _ _ _ (before.same law).1)).leftAlone

/-! ### What is placed stays in the response queue -/

theorem PortController.paid_prefix (k : RequestKind) (res : Result) (fields : List Byte) (c : PortController) :
    c.responses <+: (c.paid k res fields).responses := List.prefix_append _ _

theorem PortController.entered_prefix (zero : Bool) (reason : LeaveReason) (own : Option Response) (c : PortController) :
    c.responses <+: (c.entered zero reason own).responses := by
  have dues : c.responses <+: ((if zero then c.paid .planSet .cancelled [] else c).paid .publish .cancelled []).responses := by
    split
    · exact (paid_prefix _ _ _ c).trans (paid_prefix _ _ _ _)
    · exact paid_prefix _ _ _ c
  exact (dues.trans (List.prefix_append _ _)).trans (List.prefix_append _ _)

theorem enterLeaving_prefix (reason : LeaveReason) (own : Option Response) (s : State) :
    (s.port p).responses <+: ((enterLeaving p reason own s).port p).responses := by
  rw [(enterLeaving_left (p := p) (reason := reason) (own := own) (s := s)).port]
  split
  · exact PortController.entered_prefix _ reason own _
  · exact PortController.entered_prefix _ reason own _

theorem handIfChanged_prefix : (s.port p).responses <+: ((handIfChanged old new s p).port p).responses := by
  have cases := handIfChanged_handing old new p s
  generalize handIfChanged old new s p = t at cases
  cases cases with
  | enabled _ _ => simp [restUnit]
  | disabled _ _ _ _ => simp [restUnit]
  | left _ _ _ => exact enterLeaving_prefix _ _ _
  | stays _ => exact List.prefix_refl _

theorem evictHanded_prefix :
    ((s.port p).paid .publish .draftVoid [EditState.idle.byte]).responses <+: ((evictHanded old new p s).port p).responses := by
  have handed := handIfChanged_prefix (old := old) (new := new) (p := p) (s := dropProposals p .draftVoid [EditState.idle.byte] s)
  rwa [dropProposals_port, if_pos rfl] at handed

theorem settleEvictPort_port {x : State × Settled} (e : changed old new p = true) :
    (settleEvictPort old new x p).1.port p = (evictHanded old new p x.1).port p := by
  rw [settleEvictPort_changed e]
  split <;> rfl

theorem settleEvictPort_prefix {x : State × Settled} :
    (x.1.port p).responses <+: ((settleEvictPort old new x p).1.port p).responses := by
  cases e : changed old new p with
  | false =>
    rw [settleEvictPort_unchanged e]
  | true =>
    rw [settleEvictPort_port e]
    exact (PortController.paid_prefix _ _ _ _).trans evictHanded_prefix

/-! ### A port that an EVICT plan changes (R99, R100) -/

theorem settleEvictPort_lay {x : State × Settled} (e : changed old new p = true) :
    ((settleEvictPort old new x p).1.lay p).draft = none ∧ ((settleEvictPort old new x p).1.lay p).sealedSet = none := by
  have handed := evictHanded_lay old new p x.1
  rw [settleEvictPort_changed e]
  split
  · rw [evictPort_lay, if_pos rfl]
    exact ⟨congrArg PortLayout.draft handed, congrArg PortLayout.sealedSet handed⟩
  · exact ⟨congrArg PortLayout.draft handed, congrArg PortLayout.sealedSet handed⟩

theorem settlePlan_evict_drops (differs : new.entries.get q ≠ s.entry q) :
    ((settlePlan m.answer new .evict s).1.lay q).draft = none ∧ ((settlePlan m.answer new .evict s).1.lay q).sealedSet = none := by
  obtain ⟨y, z, -, before, after, r⟩ := settlePlan_evict_at m new s q awaited_nil
  rw [r, after.lay]
  exact settleEvictPort_lay (changed_iff.mpr differs)

/-- The PUBLISH that is owed receives DRAFT_VOID (R62, logs 31 and 32). -/
theorem settlePlan_evict_answers (differs : new.entries.get q ≠ s.entry q) {r : Request} (owed : (s.port q).owed .publish = some r) :
    r.answer .draftVoid [EditState.idle.byte] ∈ ((settlePlan m.answer new .evict s).1.port q).responses := by
  obtain ⟨y, z, -, before, after, e⟩ := settlePlan_evict_at m new s q awaited_nil
  have still : (y.1.port q).owed .publish = some r := by
    rw [before.port.owed, Payer.answer_port]
    split
    · rename_i zero
      rw [Payer.pay_owed]
      exact zero ▸ owed
    · exact owed
  rw [e, after.port.responses, settleEvictPort_port (changed_iff.mpr differs)]
  refine evictHanded_prefix.subset ?_
  simp [PortController.paid, still]

theorem handIfChanged_of_on (attached : (s.port p).attach = .attached) (on : (new.entries.get p).enabled = true) :
    handIfChanged old new s p = s := by
  have cases := handIfChanged_handing old new p s
  generalize handIfChanged old new s p = t at cases
  cases cases with
  | enabled disabled _ => rw [attached] at disabled; cases disabled
  | disabled detached _ _ _ => rw [attached] at detached; cases detached
  | left _ off _ => rw [on] at off; cases off
  | stays _ => rfl

/-- The step of an EVICT plan at an ATTACHED port that it changes and leaves enabled. -/
theorem settleEvictPort_evicts {x : State × Settled} (e : changed old new p = true)
    (attached : (x.1.port p).attach = .attached) (on : (new.entries.get p).enabled = true) :
    settleEvictPort old new x p = evictPort p (dropProposals p .draftVoid [EditState.idle.byte] x.1,
      { x.2 with voids := x.2.voids ++ dueVoids p x.1 }) := by
  have dropped : ((dropProposals p .draftVoid [EditState.idle.byte] x.1).port p).attach = .attached :=
    (dropProposals_attach _ _ _).trans attached
  have handed : evictHanded old new p x.1 = dropProposals p .draftVoid [EditState.idle.byte] x.1 := handIfChanged_of_on dropped on
  rw [settleEvictPort_changed e, handed, if_pos (by simp [dropped, on])]

theorem liveEntries_dropProposals (o : TableOf s p) (res : Result) (fields : List Byte) :
    liveEntries p (dropProposals p res fields s) = liveEntries p s :=
  (dropProposals_ownKept res fields s).liveEntries o (by rw [dropProposals_lay, if_pos rfl])

theorem Carried.liveEntries (g : Carried q s t) (o : TableOf s q) : liveEntries q t = liveEntries q s := by
  have slots : ∀ id ∈ (s.lay q).order, t.slot id = s.slot id := fun id mem => g.slot id (.inl (o.owner mem))
  unfold Machine.liveEntries
  rw [g.lay]
  exact List.filterMap_congr fun id mem => by rw [slots id mem]

/-- The passes over a port's live regions in state s. -/
def evictionOf (new : Plan) (q : PortId) (s : State) : Proposal × List (Nat × Nat) :=
  evict (new.entries.get q) s.scan.setup.h (liveEntries q s)

/-- An EVICT plan at an ATTACHED port that it changes and leaves enabled: the three passes over its regions. -/
theorem settlePlan_evicts (h : s.TableLaw) (differs : new.entries.get q ≠ s.entry q) (attached : (s.port q).attach = .attached)
    (on : (new.entries.get q).enabled = true) :
    ((settlePlan m.answer new .evict s).1.lay q).order = (evictionOf new q s).1.ids ∧
      (∀ x ∈ (evictionOf new q s).2, ((settlePlan m.answer new .evict s).1.slot x.1).liveOf q = false) ∧
      (∀ x ∈ (evictionOf new q s).1, (settlePlan m.answer new .evict s).1.slot x.id = s.slot x.id) ∧
      sentTo q (settlePlan m.answer new .evict s).2.evictions = (evictionOf new q s).2.map fun x =>
        noticeNow s .regionEvicted (byteOf x.1) (byteOf x.2) := by
  obtain ⟨y, z, -, before, after, r⟩ := settlePlan_evict_at m new s q awaited_nil
  have law : (m.answer .done (planFields s none none) (s.setPlan new)).TableLaw := Payer.answer_tableLaw (s := s.setPlan new) h
  have start : LeftAlone q s y.1 := ((Carried.setPlan q new s).leftAlone.trans leftAlone_answer).trans (before.carried law).leftAlone
  have table := (before.same law).1
  have scan : y.1.scan = s.scan := before.panel.scan
  have live : liveEntries q y.1 = liveEntries q s :=
    (before.carried law).liveEntries (State.TableLaw.at law q)
  rw [settleEvictPort_evicts (changed_iff.mpr differs) (start.attach.trans attached) on] at after
  have dropped := dropProposals_tableLaw (p := q) table .draftVoid [EditState.idle.byte]
  have entry : (dropProposals q .draftVoid [EditState.idle.byte] y.1).entry q = new.entries.get q := by
    rw [State.entry, (dropProposals_plans _ _ _).1, before.plan]
    rfl
  have height : (dropProposals q .draftVoid [EditState.idle.byte] y.1).scan = s.scan := by
    rw [dropProposals_scan, scan]
  have same : evict ((dropProposals q .draftVoid [EditState.idle.byte] y.1).entry q)
      (dropProposals q .draftVoid [EditState.idle.byte] y.1).scan.setup.h
      (liveEntries q (dropProposals q .draftVoid [EditState.idle.byte] y.1)) = evictionOf new q s := by
    rw [entry, height, liveEntries_dropProposals (table.at q), live]
    rfl
  have parted := evict_parted (new.entries.get q) s.scan.setup.h (liveEntries q s)
  have carried := after.carried (evictPort_tableLaw _ dropped (by rw [dropProposals_lay, if_pos rfl]) (by rw [dropProposals_lay, if_pos rfl]))
  rw [r]
  refine ⟨?_, fun x mem => ?_, fun x mem => ?_, ?_⟩
  · rw [after.lay, evictPort_lay, if_pos rfl, same]
  · have freed : (evictPort q (dropProposals q .draftVoid [EditState.idle.byte] y.1,
        { y.2 with voids := y.2.voids ++ dueVoids q y.1 })).1.slot x.1 = .free := by
      rw [evictPort_slot, same, if_pos (List.mem_map_of_mem mem)]
    by_contra l
    have own := carried.slot x.1 (.inr (Slot.owner?_of_liveOf (by simpa using l)))
    rw [freed] at own
    rw [own] at l
    exact l rfl
  · have member : x ∈ liveEntries q s := parted.sub.subset mem
    have listed : x.id ∈ (s.lay q).order := by
      rw [← liveEntries_ids (h.at q)]
      exact List.mem_map_of_mem member
    have is_live := (h.at q).live x.id listed
    have kept : (evictPort q (dropProposals q .draftVoid [EditState.idle.byte] y.1,
        { y.2 with voids := y.2.voids ++ dueVoids q y.1 })).1.slot x.id = s.slot x.id := by
      rw [evictPort_kept (dropped.at q) (by rw [same]; exact List.mem_map_of_mem mem)]
      have first := start.slot x.id is_live
      rw [← first]
      exact (dropProposals_ownKept _ _ _).live (by rw [first]; exact is_live)
    rw [← kept]
    exact carried.slot x.id (.inl (by rw [kept]; exact Slot.owner?_of_liveOf is_live))
  · refine after.evictions.trans ((sentTo_append _ _).trans ?_)
    rw [same]
    refine (congrArg₂ _ before.evictions ?_).trans (List.nil_append _)
    have now : ∀ x : Nat × Nat, noticeNow (dropProposals q .draftVoid [EditState.idle.byte] y.1) .regionEvicted (byteOf x.1) (byteOf x.2) =
        noticeNow s .regionEvicted (byteOf x.1) (byteOf x.2) := fun x => by
      rw [noticeNow, noticeNow, height]
    rw [show ((evictionOf new q s).2.map fun x => (q, noticeNow (dropProposals q .draftVoid [EditState.idle.byte] y.1) .regionEvicted
        (byteOf x.1) (byteOf x.2))) = ((evictionOf new q s).2.map fun x => noticeNow s .regionEvicted (byteOf x.1) (byteOf x.2)).map
          fun n => (q, n) by simp [now]]
    exact sentTo_self _

end

end Sys2Proof.Machine
end

