-- ==== Sys2Proof/Proofs/SettlingHanded.lean ====
section
/-! PROOFS. A settled plan carried through the retirement that follows it (R71, R86): the enablement handed over, the evicted
regions, the answer to the PLAN-SET, and the notices of step 1, in the words of the statements. -/

namespace Sys2Proof.Machine

/-- The plan is applied: EVICT, or KEEP without a conflict (R98, R99). -/
def Applies (new : Plan) (s : State) (mode : PlanMode) : Prop := mode = .evict ∨ ∀ p x, ¬orphans new s p x

/-- The state from which port q is handed its enablement. -/
structure HandedFrom (new : Plan) (q : PortId) (s x : State) : Prop where
  attach : (x.port q).attach = (s.port q).attach
  requests : (x.port q).requests = (s.port q).requests
  responses : (s.lay q).sealedSet = none → (x.port q).responses = (s.port q).responses
  owed : (s.lay q).sealedSet = none → (x.port q).owed .publish = none
  order : (x.lay q).order = (s.lay q).order
  plan : x.layout.plan = new
  law : x.TableLaw

section
variable {c d : PortController} {p q : PortId} {s t u v x z : State} {m : Payer} {res : Result} {fields : List Byte}
  {rs : List PortId} {old new : Plan} {mode : PlanMode} {why : LeaveReason}

theorem Applies.fits (a : Applies new s .keep) : keepConflict new s = none :=
  keepConflict_none_iff.mpr (a.resolve_left (by nofun))

theorem handedFrom_setPlan (h : s.TableLaw) (j : WaitOf s q) : HandedFrom new q s (s.setPlan new) :=
  ⟨rfl, rfl, fun _ => rfl, j.owed_none, rfl, rfl, h⟩

theorem PortController.owed_paid_none {k : RequestKind} (e : c.owed k = none) : (c.paid k res fields).owed k = none := by
  have none_owed := List.find?_eq_none.mp e
  exact List.find?_eq_none.mpr fun r mem => none_owed r (List.mem_of_mem_eraseP mem)

theorem HandedFrom.beside (a : HandedFrom new q s x) (g : Beside rs q x z) : HandedFrom new q s z where
  attach := g.port.attach.trans a.attach
  requests := g.port.requests.trans a.requests
  responses n := g.port.responses.trans (a.responses n)
  owed n := (g.port.owed _).trans (a.owed n)
  order := (congrArg PortLayout.order g.lay).trans a.order
  plan := g.plan.trans a.plan
  law := (g.same a.law).1

theorem HandedFrom.answered (a : HandedFrom new q s x) (hq : q ≠ .p0) : HandedFrom new q s (m.answer res fields x) where
  attach := Payer.answer_attach.trans a.attach
  requests := by rw [Payer.answer_port, if_neg hq, a.requests]
  responses n := by rw [Payer.answer_port, if_neg hq, a.responses n]
  owed n := by rw [Payer.answer_port, if_neg hq, a.owed n]
  order := a.order
  plan := a.plan
  law := Payer.answer_tableLaw a.law

theorem HandedFrom.dropped (a : HandedFrom new q s x) (res : Result) (fields : List Byte) : HandedFrom new q s (dropProposals q res fields x) where
  attach := (dropProposals_attach _ _ _).trans a.attach
  requests := by
    rw [dropProposals_port, if_pos rfl]
    exact a.requests
  responses n := by rw [dropProposals_port, if_pos rfl, PortController.paid_of_none (a.owed n), a.responses n]
  owed n := by
    rw [dropProposals_port, if_pos rfl]
    exact PortController.owed_paid_none (a.owed n)
  order := by rw [dropProposals_lay, if_pos rfl, a.order]
  plan := (dropProposals_plans _ _ _).1.trans a.plan
  law := dropProposals_tableLaw a.law _ _

/-- Settling at a port of ports 1 to 3 whose enabled field changes: the handing over, and nothing of it behind. -/
theorem settlePlan_handed (h : s.TableLaw) (j : WaitOf s q) (hq : q ≠ .p0) (applies : Applies new s mode)
    (differs : (new.entries.get q).enabled ≠ (s.entry q).enabled)
    (off : (s.port q).attach = .attached → (new.entries.get q).enabled = false) :
    ∃ x, HandedFrom new q s x ∧ Carried q (handIfChanged s.layout.plan new x q) (settlePlan m.answer new mode s).1 := by
  cases mode with
  | keep =>
    obtain ⟨y, w, -, before, after, e⟩ := settlePlan_keep_at m new s q awaited_nil applies.fits
    have start := (handedFrom_setPlan (new := new) h j).beside before
    rw [e]
    exact ⟨y, start, (after.carried (handIfChanged_tableLaw start.law _ _ _)).trans (.answer_other hq)⟩
  | evict =>
    obtain ⟨y, w, -, before, after, e⟩ := settlePlan_evict_at m new s q awaited_nil
    have start : HandedFrom new q s y.1 := ((handedFrom_setPlan h j).answered hq).beside before.toBeside
    have from_x := start.dropped .draftVoid [EditState.idle.byte]
    have entry : new.entries.get q ≠ s.entry q := fun e => differs (congrArg PlanEntry.enabled e)
    have own : (settleEvictPort s.layout.plan new y q).1 = evictHanded s.layout.plan new q y.1 := by
      rw [settleEvictPort_changed (changed_iff.mpr entry), if_neg]
      rw [Bool.and_eq_true, decide_eq_true_iff]
      rintro ⟨on, attached⟩
      have still := evictHanded_of_attached attached
      rw [still, dropProposals_attach, start.attach] at attached
      exact absurd on (by simp [off attached])
    have rest := after.toBeside
    rw [own] at rest
    rw [e]
    exact ⟨_, from_x, rest.carried (handIfChanged_tableLaw from_x.law _ _ _)⟩

/-! ### The rest of the step -/

/-- What the rest of a commit, or of settling while DARK, may change of a state whose leaving ports are retired: sets are
applied, responses and notices placed, reports handed on or taken, engines released. -/
structure Finishes (v t : State) : Prop where
  grows : ∀ q, (v.port q).responses <+: (t.port q).responses
  attach : ∀ q, (t.port q).attach = (v.port q).attach
  bare : ∀ q, (v.lay q).sealedSet = none → t.lay q = v.lay q ∧
    ({ v.port q with engine := .ready } : PortController).Alike { t.port q with engine := .ready } ∧
    ∀ id, (v.slot id).owner? = some q → (t.slot id).liveCopy? = (v.slot id).liveCopy?
  draft : ∀ q, (t.lay q).draft = (v.lay q).draft
  unit : ∀ q, t.unit q = v.unit q
  marks : ∀ q, v.markList q = [] → t.markList q = []
  plan : t.layout.plan = v.layout.plan
  free : ∀ id, v.slot id = .free → t.slot id = .free

theorem Finishes.requests (g : Finishes v t) (n : (v.lay q).sealedSet = none) : (t.port q).requests = (v.port q).requests :=
  (g.bare q n).2.1.requests

theorem Finishes.responses (g : Finishes v t) (n : (v.lay q).sealedSet = none) : (t.port q).responses = (v.port q).responses :=
  (g.bare q n).2.1.responses

theorem retireListed_lay (z : State) (q : PortId) :
    (retireListed z).1.lay q = if q ∈ z.layout.retiring then { z.lay q with order := [] } else z.lay q :=
  (retireListed_retired z).lays q

theorem retireListed_draft (z : State) (q : PortId) : ((retireListed z).1.lay q).draft = (z.lay q).draft ∧
    ((retireListed z).1.lay q).sealedSet = (z.lay q).sealedSet := by
  rw [retireListed_lay]
  split <;> exact ⟨rfl, rfl⟩

theorem retireListed_responses (z : State) (q : PortId) : ((retireListed z).1.port q).responses = (z.port q).responses := by
  have alike := (retireListed_retired z).ports q
  rw [alike.responses]
  split <;> rfl

theorem retireListed_free {id : Nat} (e : z.slot id = .free) : (retireListed z).1.slot id = .free := by
  rw [(retireListed_retired z).slots]
  split
  · rfl
  · exact e

/-! ### The answer to the PLAN-SET (R93, R180) -/

/-- A state in which settling is done, the sealed plan aside. -/
def settledState (m : Payer) (new : Plan) (mode : PlanMode) (sp : Option SealedPlan) (s : State) : State :=
  (settlePlan m.answer new mode s).1.setSealedPlan sp

theorem Carried.setSealedPlan (q : PortId) (sp : Option SealedPlan) (s : State) : Carried q s (s.setSealedPlan sp) :=
  ⟨.refl _, rfl, rfl, rfl, fun _ _ => rfl, .rfl, ⟨rfl, rfl, rfl⟩⟩

theorem settledState_tableLaw (h : s.TableLaw) (m : Payer) (new : Plan) (mode : PlanMode) (sp : Option SealedPlan) :
    (settledState m new mode sp s).TableLaw :=
  settlePlan_tableLaw (fun _ _ _ => Payer.answer_tableLaw) new mode h

theorem settledState_plan (m : Payer) (new : Plan) (mode : PlanMode) (sp : Option SealedPlan) (s : State) :
    (settledState m new mode sp s).layout.plan = if mode = .keep ∧ keepConflict new s ≠ none then s.layout.plan else new :=
  (settlePlan_plan (answer := m.answer) (fun _ _ _ => rfl) new mode s).1

theorem Applies.plan (a : Applies new s mode) (m : Payer) (sp : Option SealedPlan) :
    (settledState m new mode sp s).layout.plan = new := by
  rw [settledState_plan, if_neg]
  rintro ⟨rfl, n⟩
  exact n a.fits

theorem prefix_cons {α : Type} {xs ys : List α} {a : α} (g : xs ++ [a] <+: ys) : ∃ more, ys = xs ++ a :: more := by
  obtain ⟨more, e⟩ := g
  exact ⟨more, by rw [← e, List.append_assoc]; rfl⟩

theorem settlePlan_answers {r : Request} (attached : (s.port .p0).attach = .attached) (on : new.entries.p0.enabled = true)
    (owes : m.Owes r (s.port .p0)) :
    (s.port .p0).responses ++ [r.answer (settleReply new s mode).1 (settleReply new s mode).2] <+:
      ((settlePlan m.answer new mode s).1.port .p0).responses := by
  have answered : ∀ {u : State} {res : Result} {fields : List Byte}, m.Owes r (u.port .p0) →
      ((m.answer res fields u).port .p0).responses = (u.port .p0).responses ++ [r.answer res fields] := fun o => by
    rw [Payer.answer_port, if_pos rfl, Payer.pay_responses o]
  cases mode with
  | keep =>
    rcases settlePlan_keep_cases new s with fits | ⟨p, region, e⟩
    · obtain ⟨y, w, -, before, after, e⟩ := settlePlan_keep_at m new s .p0 awaited_nil fits
      rw [handIfChanged_of_on (before.port.attach.trans attached) on] at after
      have alike : (s.port .p0).Alike (w.port .p0) := before.port.trans after.port
      have still : m.Owes r (w.port .p0) := by
        cases m with
        | deferred => exact (alike.owed _).trans owes
        | direct _ => exact owes
      rw [e, settleReply_fits fits, answered still, alike.responses]
    · rw [settlePlan_refused m e, settleReply_refused e, answered owes]
  | evict =>
    obtain ⟨y, w, -, before, after, e⟩ := settlePlan_evict_at m new s .p0 awaited_nil
    have start := answered (u := s.setPlan new) (res := .done) (fields := planFields s none none) owes
    rw [e, after.port.responses]
    refine List.IsPrefix.trans ?_ settleEvictPort_prefix
    rw [before.port.responses, start]
    exact List.prefix_refl _

theorem planAnswered_of {r : Request} (fin : Finishes (retireListed z).1 t) {sp : Option SealedPlan}
    (hz : z = settledState m new mode sp s) (attached : (s.port .p0).attach = .attached)
    (on : new.entries.p0.enabled = true) (owes : m.Owes r (s.port .p0)) {port region : Byte}
    (reply : settleReply new s mode = (res, s.frameField ++ [port, region])) : planAnswered r s.scan.frame res port region s t := by
  have told := settlePlan_answers (mode := mode) attached on owes
  have kept : ((settlePlan m.answer new mode s).1.port .p0).responses <+: (t.port .p0).responses := by
    have grows := fin.grows .p0
    rw [retireListed_responses, hz] at grows
    exact grows
  rw [reply] at told
  obtain ⟨more, e⟩ := prefix_cons (told.trans kept)
  exact ⟨more, by rw [e, Request.answer, State.frameField, frameBytes_eq]; rfl⟩

/-! ### Enablement (R102, R167) -/

theorem retired_of_none {on : Bool} {c : PortController} (h : c.responses ≠ []) :
    c.retired on = { c with attach := c.attach.regionsRetired } := by
  refine retired_leaves_none ?_
  unfold PortController.leaves
  split
  · rename_i e
    exact absurd e h
  · rfl

theorem SourceUnit.silenced_retired_monitor (c : PortController) (u : SourceUnit) : (u.silenced.retired c).monitor = .noSignal := by
  unfold SourceUnit.retired
  split <;> rfl

/-- A port whose regions are retired right after its entry into LEAVING. -/
structure Emptied (e : PortController) (q : PortId) (v : State) : Prop where
  port : e.Alike (v.port q)
  lay : v.lay q = { order := [], draft := none, sealedSet := none }
  marks : v.markList q = []
  monitor : (v.unit q).monitor = .noSignal
  waiting : (v.unit q).frameWaiting = false

/-- The port whose entry into LEAVING step 1 has caused, its regions retired (R102, R73). -/
theorem retireListed_entered (hq : q ≠ .p0) (g : Carried q (enterLeaving q .plan none x) z) (hz : z.TableLaw)
    (plan : z.layout.plan = x.layout.plan) :
    Emptied (((x.port q).entered false .plan none).retired (x.entry q).enabled) q (retireListed z).1 := by
  have left := enterLeaving_left (p := q) (reason := .plan) (own := none) (s := x)
  have zero : decide (q = .p0) = false := decide_eq_false hq
  have port := left.port
  have lay := left.lay
  have unit := left.unit
  simp only [zero, Bool.false_eq_true, or_false, if_false] at port lay unit
  have retired := retireListed_retired z
  have marks : (retireListed z).1.markList q = [] := by
    rw [State.markList, retired.marks]
    exact g.marks.trans left.markList
  by_cases none_left : (x.lay q).order = []
  · rw [if_pos none_left] at port unit
    have out : q ∉ z.layout.retiring := fun mem => by
      obtain ⟨why, e⟩ := (hz.at q).retires.mp mem
      rw [g.port.attach, port] at e
      exact retired_attach_ne _ _ _ e
    have same := retireListed_same hz out
    refine ⟨(PortController.Alike.of_eq port).trans (g.port.trans same.port), ?_, marks, ?_, ?_⟩
    · rw [same.lay, g.lay, lay, none_left]
    · rw [same.unit, g.unit, unit]
      exact SourceUnit.silenced_retired_monitor _ _
    · rw [same.unit, g.unit, unit]
      exact (SourceUnit.retired_eased _ _).taken rfl
  · rw [if_neg none_left] at port unit
    have listed : q ∈ z.layout.retiring := (hz.at q).retires.mpr ⟨.plan, by rw [g.port.attach, port, entered_attach]⟩
    have entry : (z.setRetiring []).entry q = x.entry q := congrArg (fun p : Plan => p.entries.get q) plan
    have ports := retired.ports q
    have units := retired.units q
    rw [if_pos listed] at ports units
    rw [entry] at ports
    have before : ((x.port q).entered false .plan none).Alike (z.port q) := (PortController.Alike.of_eq port).trans g.port
    refine ⟨(before.retired _).trans ports, ?_, marks, ?_, ?_⟩
    · rw [retireListed_lay, if_pos listed, g.lay, lay]
    · rw [units]
      show ((z.unit q).retired _).monitor = _
      rw [g.unit, unit]
      exact SourceUnit.silenced_retired_monitor _ _
    · rw [units]
      show ((z.unit q).retired _).frameWaiting = _
      rw [g.unit, unit]
      exact (SourceUnit.retired_eased _ _).taken rfl

/-- What settling makes of the enablement of a port, at the end of the step. -/
theorem enablementHanded_of (h : s.TableLaw) (j : WaitOf s q) (hq : q ≠ .p0) (applies : Applies new s mode)
    (differs : (new.entries.get q).enabled ≠ (s.entry q).enabled) {sp : Option SealedPlan}
    (hz : z = settledState m new mode sp s) (fin : Finishes (retireListed z).1 t) : enablementHanded new s t q := by
  have law : z.TableLaw := hz ▸ settledState_tableLaw h m new mode sp
  have plan : z.layout.plan = new := hz ▸ applies.plan m sp
  have seen : ((s.port q).attach = .attached → (new.entries.get q).enabled = false) →
      ∃ x, HandedFrom new q s x ∧ Carried q (handIfChanged s.layout.plan new x q) z := fun off => by
    obtain ⟨x, from_x, carried⟩ := settlePlan_handed (m := m) h j hq applies differs off
    exact ⟨x, from_x, hz ▸ carried.trans (.setSealedPlan q sp _)⟩
  have aside : ∀ {a : PortController}, a.Alike (z.port q) → a.attach ≠ .attached → (∀ why, a.attach ≠ .leaving why false) →
      (t.port q).attach = a.attach ∧ (t.port q).noticeLost = a.noticeLost ∧ (t.port q).refusal = a.refusal := fun {a} alike away out => by
    have n : q ∉ z.layout.retiring := fun mem => by
      obtain ⟨why, e⟩ := (law.at q).retires.mp mem
      exact out why (alike.attach.symm.trans e)
    have same := retireListed_same law n
    have bare : ((retireListed z).1.lay q).sealedSet = none := by
      rw [same.lay]
      exact ((law.at q).away (by rw [alike.attach]; exact away)).2
    obtain ⟨-, last, -⟩ := fin.bare q bare
    have all := (alike.trans same.port).ready.trans last
    have lost := congrArg PortController.noticeLost (all.2 away)
    exact ⟨all.attach, lost, all.refusal⟩
  have gone : ∀ {x : State}, HandedFrom new q s x → Carried q (enterLeaving q .plan none x) z → (new.entries.get q).enabled = false →
      Emptied (((x.port q).entered false .plan none).retired false) q (retireListed z).1 := fun {x} from_x carried off => by
    have entered := retireListed_entered hq carried law (plan.trans from_x.plan.symm)
    rwa [State.entry, from_x.plan, off] at entered
  have changes : (s.layout.plan.entries.get q).enabled ≠ (new.entries.get q).enabled := Ne.symm differs
  refine ⟨fun disabled on => ?_, fun detached off => ?_, fun attached off => ?_, fun why done leaving => ?_⟩
  · obtain ⟨x, from_x, carried⟩ := seen (fun a => by rw [disabled] at a; cases a)
    have cases := handIfChanged_handing s.layout.plan new q x
    generalize handIfChanged s.layout.plan new x q = w at cases carried
    cases cases with
    | enabled _ _ =>
      have alike := carried.port
      simp only [restUnit, State.port_setUnit, State.port_setPort, if_true] at alike
      exact aside alike (by nofun) (by nofun)
    | disabled detached _ _ _ => rw [from_x.attach, disabled] at detached; cases detached
    | left _ off _ => rw [on] at off; cases off
    | stays held =>
      have off := (held changes).1 (from_x.attach.trans disabled)
      rw [on] at off
      cases off
  · obtain ⟨x, from_x, carried⟩ := seen (fun _ => off)
    have sets : (s.lay q).sealedSet = none := ((h.at q).away (by rw [detached]; nofun)).2
    have cases := handIfChanged_handing s.layout.plan new q x
    generalize handIfChanged s.layout.plan new x q = w at cases carried
    cases cases with
    | enabled disabled _ => rw [from_x.attach, detached] at disabled; cases disabled
    | disabled _ _ requests responses =>
      have alike := carried.port
      simp only [restUnit, State.port_setUnit, State.port_setPort, if_true] at alike
      refine ⟨fun _ _ => (aside alike (by nofun) (by nofun)).1, fun some_left => ?_⟩
      rw [from_x.requests] at requests
      rw [from_x.responses sets] at responses
      exact absurd some_left (by simp [requests, responses])
    | left _ _ present =>
      have some_left : (s.port q).requests ≠ [] ∨ (s.port q).responses ≠ [] := by
        rw [from_x.attach, detached, from_x.requests, from_x.responses sets] at present
        exact (present.resolve_left (by nofun)).2
      refine ⟨fun requests responses => absurd some_left (by simp [requests, responses]), fun _ => ?_⟩
      have emptied := gone from_x carried off
      have bare : ((retireListed z).1.lay q).sealedSet = none := by rw [emptied.lay]
      have responses : ((x.port q).entered false .plan none).responses =
          (s.port q).responses ++ (s.port q).requests.map fun r => r.answer .cancelled [] := by
        simp [PortController.entered, PortController.paid_of_none (from_x.owed sets), from_x.responses sets, from_x.requests]
      have owing : ((x.port q).entered false .plan none).responses ≠ [] := by
        rw [responses]
        rcases some_left with n | n <;> simp [n]
      have port := emptied.port
      rw [retired_of_none owing] at port
      refine ⟨(fin.attach q).trans port.attach, ?_, ?_⟩
      · rw [fin.requests bare, port.requests]
        rfl
      · rw [fin.responses bare, port.responses]
        exact responses
    | stays held =>
      have on := (held changes).2 (.inl (from_x.attach.trans detached))
      rw [off] at on
      cases on
  · obtain ⟨x, from_x, carried⟩ := seen (fun _ => off)
    have cases := handIfChanged_handing s.layout.plan new q x
    generalize handIfChanged s.layout.plan new x q = w at cases carried
    cases cases with
    | enabled disabled _ => rw [from_x.attach, attached] at disabled; cases disabled
    | disabled detached _ _ _ => rw [from_x.attach, attached] at detached; cases detached
    | left _ _ _ =>
      have emptied := gone from_x carried off
      have bare : ((retireListed z).1.lay q).sealedSet = none := by rw [emptied.lay]
      have port := emptied.port
      refine ⟨?_, ?_, fin.marks q emptied.marks, ?_, ?_⟩
      · rw [fin.requests bare, port.requests]
        rfl
      · rw [(fin.bare q bare).1, emptied.lay]
      · rw [fin.unit, emptied.monitor]
      · rw [fin.attach, fin.responses bare, port.attach, port.responses]
        by_cases none_left : ((x.port q).entered false .plan none).responses = []
        · have leaves : ((x.port q).entered false .plan none).leaves = some .plan :=
            PortController.leaves_eq_some.mpr ⟨⟨false, entered_attach false _⟩, none_left⟩
          exact .inr ⟨by simp [PortController.retired, leaves], none_left⟩
        · rw [retired_of_none none_left]
          exact .inl ⟨rfl, none_left⟩
    | stays held =>
      have on := (held changes).2 (.inr (from_x.attach.trans attached))
      rw [off] at on
      cases on
  · obtain ⟨x, from_x, carried⟩ := seen (fun a => by rw [leaving] at a; cases a)
    have there := from_x.attach.trans leaving
    rw [handIfChanged_of_leaving there] at carried
    have attach : (z.port q).attach = .leaving why done := carried.port.attach.trans there
    have ports := ((retireListed_retired z).ports q).attach
    rw [fin.attach, ports]
    split
    · unfold PortController.retired
      dsimp only
      cases hl : ((z.setRetiring []).port q).leaves with
      | some _ => exact .inr (by rw [show (z.setRetiring []).entry q = new.entries.get q from congrArg (fun p : Plan => p.entries.get q) plan])
      | none => exact .inl ⟨true, by rw [show ((z.setRetiring []).port q).attach = _ from attach]; rfl⟩
    · exact .inl ⟨done, attach⟩

end

end Sys2Proof.Machine
end

