-- ==== Sys2Proof/Proofs/SettlingWords.lean ====
section
/-! PROOFS. A settled plan in the words of the statements: `evicted`, `planSettled` and `planNotices`, for a commit and for a
DARK panel alike. -/

namespace Sys2Proof.Machine

section
variable {c d : PortController} {p q : PortId} {s t u v x z : State} {m : Payer} {res : Result} {fields : List Byte}
  {rs : List PortId} {old new : Plan} {mode : PlanMode} {why : LeaveReason} {sp : Option SealedPlan}

/-- An ATTACHED port that the plan leaves enabled stays ATTACHED. -/
theorem settlePlan_stays (attached : (s.port q).attach = .attached) (on : (new.entries.get q).enabled = true) :
    ((settlePlan m.answer new mode s).1.port q).attach = .attached := by
  cases mode with
  | keep =>
    rcases settlePlan_keep_cases new s with fits | ⟨p, region, e⟩
    · obtain ⟨y, w, -, before, after, e⟩ := settlePlan_keep_at m new s q awaited_nil fits
      have there := before.port.attach.trans attached
      rw [handIfChanged_of_on there on] at after
      rw [e]
      exact Payer.answer_attach.trans (after.port.attach.trans there)
    · rw [settlePlan_refused m e]
      exact Payer.answer_attach.trans attached
  | evict =>
    obtain ⟨y, w, -, before, after, e⟩ := settlePlan_evict_at m new s q awaited_nil
    have there : (y.1.port q).attach = .attached :=
      before.port.attach.trans (Payer.answer_attach.trans attached)
    rw [e]
    refine after.port.attach.trans ?_
    cases c : changed s.layout.plan new q with
    | false => rw [settleEvictPort_unchanged c]; exact there
    | true =>
      rw [settleEvictPort_evicts c there on]
      exact (dropProposals_attach _ _ _).trans there

theorem not_retiring_of (h : z.TableLaw) (attached : (z.port q).attach = .attached) : q ∉ z.layout.retiring := fun mem => by
  obtain ⟨why, e⟩ := (h.at q).retires.mp mem
  rw [attached] at e
  cases e

/-- A region that an EVICT plan takes from a port is FREE. -/
theorem settlePlan_free (h : s.TableLaw) {id : Nat} (live : (s.slot id).liveOf q = true)
    (gone : ((settlePlan m.answer new mode s).1.slot id).liveOf q = false) : (settlePlan m.answer new mode s).1.slot id = .free :=
  ((settlePlan_reports (answer := m.answer) (fun _ _ _ => rfl) (fun _ _ _ => Payer.answer_tableLaw) new mode h q).stays id
    live).resolve_left (by simp [gone])

theorem evicted_of (h : s.TableLaw) (differs : new.entries.get q ≠ s.entry q) (hz : z = settledState m new .evict sp s)
    (fin : Finishes (retireListed z).1 t) : evicted new s t q := by
  have law : z.TableLaw := hz ▸ settledState_tableLaw h m new .evict sp
  obtain ⟨drafts, sets⟩ := settlePlan_evict_drops (m := m) differs
  have draft : (z.lay q).draft = none := hz ▸ drafts
  have set : (z.lay q).sealedSet = none := hz ▸ sets
  have bare : ((retireListed z).1.lay q).sealedSet = none := (retireListed_draft z q).2.trans set
  obtain ⟨lay, -, copies⟩ := fin.bare q bare
  refine ⟨?_, by rw [lay, bare], fun r owed => ?_, fun attached on => ?_⟩
  · rw [fin.draft, (retireListed_draft z q).1, draft]
  · have placed := settlePlan_evict_answers (m := m) differs owed
    refine (fin.grows q).subset ?_
    rw [retireListed_responses, hz]
    exact placed
  · obtain ⟨order, freed, kept, -⟩ := settlePlan_evicts (m := m) h differs attached on
    have same := retireListed_same law
      (not_retiring_of law (q := q) (hz ▸ settlePlan_stays (m := m) (mode := .evict) attached on))
    have parted := evict_parted (new.entries.get q) s.scan.setup.h (liveEntries q s)
    have listed : ∀ id ∈ (liveEntries q s).ids, (s.slot id).liveOf q = true := fun id mem => by
      rw [liveEntries_ids (h.at q)] at mem
      exact (h.at q).live id mem
    refine ⟨_, _, evict_passes _ _ _, ?_, fun x mem => ?_, fun x mem => ?_⟩
    · rw [lay, same.lay, hz]
      exact order
    · have live := listed x.1 (parted.names x.1 (List.mem_map_of_mem mem))
      have free : z.slot x.1 = .free := hz ▸ settlePlan_free h live (freed x mem)
      exact fin.free _ (retireListed_free free)
    · have slot : z.slot x.id = s.slot x.id := hz ▸ kept x mem
      have own : (z.slot x.id).owner? = some q := by
        rw [slot]
        exact Slot.owner?_of_liveOf (listed x.id (List.mem_map_of_mem (parted.sub.subset mem)))
      have retired := same.slot x.id (.inl own)
      rw [copies x.id (by rw [retired]; exact own), retired, slot]
      exact copy_of_mem_liveEntries (parted.sub.subset mem)

/-- A KEEP plan leaves every draft (R98). -/
theorem settlePlan_keep_drafts (h : s.TableLaw) (q : PortId) :
    ((settlePlan m.answer new .keep s).1.lay q).draft = (s.lay q).draft := by
  rcases settlePlan_keep_cases new s with fits | ⟨p, region, e⟩
  · obtain ⟨y, w, -, before, after, e⟩ := settlePlan_keep_at m new s q awaited_nil fits
    have own : ((handIfChanged s.layout.plan new y q).lay q).draft = (s.lay q).draft := by
      have cases := handIfChanged_handing s.layout.plan new q y
      generalize handIfChanged s.layout.plan new y q = w at cases
      have start : (y.lay q).draft = (s.lay q).draft := congrArg PortLayout.draft before.lay
      cases cases with
      | enabled _ _ => exact start
      | disabled _ _ _ _ => exact start
      | left differs off present =>
        have attach : (y.port q).attach = (s.port q).attach := before.port.attach
        rw [(enterLeaving_left (p := q) (reason := .plan) (own := none) (s := y)).lay]
        refine Eq.symm ((h.at q).away fun attached => ?_).1
        exact keepConflict_none_iff.mp fits q none
          ⟨fun e => differs (congrArg PlanEntry.enabled e.symm), .inl ⟨⟨.inl attached, off⟩, rfl⟩⟩
      | stays _ => exact start
    rw [e]
    exact (congrArg PortLayout.draft after.lay).trans own
  · rw [settlePlan_refused m e]
    rfl

theorem planSettled_of {r : Request} (h : s.TableLaw) (waits : ∀ q, WaitOf s q) (attached : (s.port .p0).attach = .attached)
    (on : new.entries.p0.enabled = true) (owes : m.Owes r (s.port .p0)) (hz : z = settledState m new mode sp s)
    (fin : Finishes (retireListed z).1 t) : planSettled r new mode s.scan.frame s t := by
  have drafts : mode = .keep → ∀ q, (t.lay q).draft = (s.lay q).draft := fun keep q => by
    rw [fin.draft, (retireListed_draft z q).1, hz, keep]
    exact settlePlan_keep_drafts h q
  have plan : t.layout.plan = if mode = .keep ∧ keepConflict new s ≠ none then s.layout.plan else new := by
    rw [fin.plan, (retireListed_retired z).plan, hz]
    exact settledState_plan m new mode sp s
  have answer {res : Result} {port region : Byte} (reply : settleReply new s mode = (res, s.frameField ++ [port, region])) :
      planAnswered r s.scan.frame res port region s t := planAnswered_of fin hz attached on owes reply
  refine ⟨fun keep => ⟨fun p region found first => ?_, fun fits => ?_⟩, fun evict => ⟨?_, ?_, fun p differs => ?_⟩,
    fun applies p hp differs => enablementHanded_of h (waits p) hp applies differs hz fin⟩
  · subst keep
    have named := keepConflict_of_first found first
    refine ⟨answer ?_, by rw [plan, if_pos ⟨rfl, by simp [named]⟩], drafts rfl⟩
    rw [settleReply_refused named]
    cases region <;> rfl
  · subst keep
    have none_found := keepConflict_none_iff.mpr fits
    refine ⟨answer ?_, by rw [plan, if_neg (by simp [none_found])], drafts rfl⟩
    rw [settleReply_fits none_found]
    rfl
  · subst evict
    exact answer rfl
  · rw [plan, if_neg (by simp [evict])]
  · subst evict
    exact evicted_of h differs hz fin

/-! ### The notices of step 1 (R80, R99, R101, R103) -/

/-- The notices of an applied plan to port q, in their order. -/
def planTold (new : Plan) (q : PortId) (s : State) : PlanMode → List Notice
  | .keep => [noticeNow s .planChanged 0x00 (changedByte s.layout.plan new)]
  | .evict =>
    (if changed s.layout.plan new q then sentTo q (dueVoids q s) else []) ++
      (if changed s.layout.plan new q && (new.entries.get q).enabled then
        (evictionOf new q s).2.map fun x => noticeNow s .regionEvicted (byteOf x.1) (byteOf x.2)
      else []) ++ [noticeNow s .planChanged 0x00 (changedByte s.layout.plan new)]

theorem sentTo_planChanged : sentTo q (planChanged old new s) = [noticeNow s .planChanged 0x00 (changedByte old new)] := by
  unfold planChanged sentTo PortId.all
  cases q <;> rfl

/-- What settling an applied plan hands on for a port that is ATTACHED before and after. -/
theorem settlePlan_tells (h : s.TableLaw) (applies : Applies new s mode) (before : (s.port q).attach = .attached)
    (after : ((settlePlan m.answer new mode s).1.port q).attach = .attached) :
    sentTo q (settlePlan m.answer new mode s).2.notices = planTold new q s mode := by
  cases mode with
  | keep =>
    obtain ⟨_, _, -, -, -, e⟩ := settlePlan_keep_at m new s q awaited_nil applies.fits
    rw [e]
    exact sentTo_planChanged
  | evict =>
    have evictions (differs : new.entries.get q ≠ s.entry q) (on : (new.entries.get q).enabled = true) :
        sentTo q (settlePlan m.answer new .evict s).2.evictions = (evictionOf new q s).2.map fun x =>
          noticeNow s .regionEvicted (byteOf x.1) (byteOf x.2) := by
      obtain ⟨-, -, -, told⟩ := settlePlan_evicts (m := m) h differs before on
      exact told
    obtain ⟨y, w, -, first, rest, e⟩ := settlePlan_evict_at m new s q awaited_nil
    rw [e] at evictions ⊢
    have voids : sentTo q w.2.voids = if changed s.layout.plan new q then sentTo q (dueVoids q s) else [] := by
      rw [rest.voids]
      have due : dueVoids q y.1 = dueVoids q s := by
        unfold dueVoids State.editState noticeNow
        rw [first.lay, first.panel.scan]
        rfl
      have start : sentTo q y.2.voids = [] := first.voids
      cases c : changed s.layout.plan new q with
      | false =>
        rw [settleEvictPort_unchanged c]
        exact start
      | true =>
        have own : (settleEvictPort s.layout.plan new y q).2.voids = y.2.voids ++ dueVoids q y.1 := by
          rw [settleEvictPort_changed c]
          split <;> rfl
        rw [own, sentTo_append, start, due]
        rfl
    have gone : sentTo q w.2.evictions = if changed s.layout.plan new q && (new.entries.get q).enabled then
        (evictionOf new q s).2.map fun x => noticeNow s .regionEvicted (byteOf x.1) (byteOf x.2) else [] := by
      split
      · rename_i both
        obtain ⟨c, on⟩ := Bool.and_eq_true_iff.mp both
        exact evictions (changed_iff.mp c) on
      · rename_i not_both
        rw [rest.evictions]
        refine Eq.trans ?_ first.evictions
        cases c : changed s.layout.plan new q with
        | false => rw [settleEvictPort_unchanged c]
        | true =>
          have off : (new.entries.get q).enabled = false := by
            simpa [c] using not_both
          rw [settleEvictPort_changed c, off]
          rfl
    refine (sentTo_append _ _).trans (congrArg₂ _ ((sentTo_append _ _).trans (congrArg₂ _ voids gone)) sentTo_planChanged)

theorem sentTo_dueVoids : sentTo q (dueVoids q s) = if s.editState q = .idle then [] else [noticeNow s .draftVoid (portByte q) 0x00] := by
  unfold dueVoids
  split
  · rfl
  · exact sentTo_self [_]

/-- What a port has heard, in the words of the statements. -/
theorem planNotices_of {first last lefts : List Notice} (kinds : ∀ n ∈ lefts, n.kind = .portLeft) (zero : q ≠ .p0 → lefts = [])
    (heard : Heard (first ++ lefts ++ planTold new q s mode ++ last) (s.port q) (t.port q)) :
    planNotices new mode s.scan.frame first last s t q := by
  intro kept gone passes none_gone n bits
  refine ⟨lefts, kinds, zero, fun drafts due not_due => ?_⟩
  have byte := changedByte_eq bits
  have told : planTold new q s mode = drafts ++ gone.map (fun x =>
      { kind := .regionEvicted, subject := byteOf x.1, frame := s.scan.frame, count := 1, detail := byteOf x.2 }) ++
      [{ kind := .planChanged, subject := 0x00, frame := s.scan.frame, count := 1, detail := byteOf n }] := by
    cases mode with
    | keep =>
      rw [not_due (by simp), none_gone (by simp), planTold, byte]
      rfl
    | evict =>
      by_cases differs : new.entries.get q ≠ s.entry q
      · have c : changed s.layout.plan new q = true := changed_iff.mpr differs
        have voids : sentTo q (dueVoids q s) = drafts := by
          rw [sentTo_dueVoids]
          split
          · rename_i idle
            exact (not_due fun ⟨_, _, n⟩ => n idle).symm
          · rename_i busy
            exact (due ⟨rfl, differs, busy⟩).symm
        rw [planTold, if_pos c, c, Bool.true_and, voids, byte]
        cases on : (new.entries.get q).enabled with
        | true =>
          obtain ⟨-, gone_eq⟩ := evictionPasses_unique (passes ⟨rfl, differs, on⟩)
          rw [gone_eq, if_pos rfl]
          rfl
        | false =>
          rw [none_gone fun ⟨_, _, e⟩ => by rw [on] at e; cases e]
          rfl
      · have c : changed s.layout.plan new q = false := by
          rw [← Bool.not_eq_true, changed_iff]
          exact differs
        rw [not_due fun ⟨_, d, _⟩ => differs d, none_gone fun ⟨_, d, _⟩ => differs d, planTold, c, byte]
        rfl
  rw [told] at heard
  have both := heard.told
  simpa only [List.append_assoc] using both

end

end Sys2Proof.Machine
end

