-- ==== Sys2Proof/Proofs/SettlingDark.lean ====
section
/-! PROOFS. PLAN-SET: its refusals, the sealing of a plan, and the plan settled at once while the panel is DARK (R86). -/

namespace Sys2Proof.Machine

section
variable {c d : PortController} {p q : PortId} {s t u v x z : State} {m : Payer} {rs : List PortId} {new : Plan} {mode : PlanMode}

/-! ### The retirement that follows, for an ATTACHED port -/

theorem retireOne_attached (y : State × List Report) (attached : (y.1.port q).attach = .attached) :
    ((retireOne y p).1.port q).attach = .attached ∧ HearsLefts [] q y.1 (retireOne y p).1 := by
  have alike := (retireOne_retired y.1 y.2 p).ports q
  have same : (if q ∈ [p] then (y.1.port q).retired (y.1.entry q).enabled else y.1.port q) = y.1.port q := by
    split
    · exact retired_of_attached attached
    · rfl
  rw [same] at alike
  refine ⟨alike.attach.trans attached, ?_⟩
  have first : HearsLefts [] q y.1 ((freeSlots (y.1.lay p).order y.1).setLay p { y.1.lay p with order := [] }) := .of_eq rfl
  refine first.trans ?_
  by_cases hq : q = p
  · subst hq
    have none_leaves : (y.1.port q).leaves = none := by
      unfold PortController.leaves
      rw [attached]
    have still : tellRetired q ((freeSlots (y.1.lay q).order y.1).setLay q { y.1.lay q with order := [] }) =
        (((freeSlots (y.1.lay q).order y.1).setLay q { y.1.lay q with order := [] }).setPort q
          ((y.1.port q).retired (y.1.entry q).enabled)).setUnit q ((y.1.unit q).retired (y.1.port q)) := by
      rw [tellRetired_eq, leftNotices]
      rw [show (((freeSlots (y.1.lay q).order y.1).setLay q { y.1.lay q with order := [] }).port q).leaves = none from none_leaves]
      rfl
    refine .of_eq ?_
    rw [show (retireOne y q).1 = tellRetired q _ from rfl, still, State.port_setUnit, State.port_setPort, if_pos rfl,
      retired_of_attached attached]
    rfl
  · exact hearsLefts_tellRetired hq (by nofun)

theorem hearsLefts_retireListed (attached : (z.port q).attach = .attached) : HearsLefts [] q z (retireListed z).1 := by
  have all : ∀ (ps : List PortId) (y : State × List Report), (y.1.port q).attach = .attached →
      HearsLefts [] q y.1 (ps.foldl retireOne y).1 := by
    intro ps
    induction ps with
    | nil => exact fun y _ => .of_eq rfl
    | cons p ps ih =>
      intro y a
      obtain ⟨attach, heard⟩ := retireOne_attached (p := p) y a
      exact heard.trans (ih _ attach)
  exact (HearsLefts.of_eq rfl).trans (all z.layout.retiring (z.setRetiring [], []) attached)

/-- A port that is ATTACHED behind the retirement was so before it. -/
theorem attached_of_retireListed (after : ((retireListed z).1.port q).attach = .attached) : (z.port q).attach = .attached := by
  have alike := ((retireListed_retired z).ports q).attach
  rw [after] at alike
  split at alike
  · by_contra n
    exact retired_not_attached (c := (z.setRetiring []).port q) n alike.symm
  · exact alike.symm

/-! ### The reports taken -/

/-- What a port hears of the reports taken: MARK_VOID alone (R132). -/
theorem heard_takeReports (s : State) (q : PortId) :
    ∃ ns, (∀ n ∈ ns, n.kind = .markVoid) ∧ Heard ns (s.port q) ((takeReports s).port q) := by
  have all : ∀ (rs : List Report) (u : State),
      ∃ ns, (∀ n ∈ ns, n.kind = .markVoid) ∧ Heard ns (u.port q) ((rs.foldl takeReport u).port q) := by
    intro rs
    induction rs with
    | nil => exact fun u => ⟨[], nofun, .refl _⟩
    | cons r rs ih =>
      intro u
      obtain ⟨ns, kinds, heard⟩ := ih (takeReport u r)
      have first : Heard _ (u.port q) ((takeReport u r).port q) := heard_storeNotices _ (u.setMarkList r.owner _) q
      refine ⟨_, fun n mem => ?_, first.trans heard⟩
      rcases List.mem_append.mp mem with mem | mem
      · obtain ⟨x, hx, rfl⟩ := List.mem_map.mp mem
        obtain ⟨_, -, rfl⟩ := List.mem_map.mp (List.mem_of_mem_filter hx)
        rfl
      · exact kinds n mem
  exact all s.marks.reports (s.setReports [])

theorem advanceGenerations_free (s0 : State) {id : Nat} (e : v.slot id = .free) : (advanceGenerations s0 v).slot id = .free := by
  rw [slot_advanceGenerations, e]

/-- What follows the retirement while DARK. -/
theorem finishes_dark (s0 v : State) (ns : List (PortId × Notice)) (rs : List Report) :
    Finishes v (takeReports (handReports rs (storeNotices ns (advanceGenerations s0 v)))) := by
  have only := storeNotices_only ns (advanceGenerations s0 v)
  have layout : (takeReports (handReports rs (storeNotices ns (advanceGenerations s0 v)))).layout = (advanceGenerations s0 v).layout :=
    (takeReports_layout _).trans only.layout
  have alike : ∀ q, (v.port q).Alike ((takeReports (handReports rs (storeNotices ns (advanceGenerations s0 v)))).port q) :=
    fun q => (storeNotices_alike ns q (advanceGenerations s0 v)).trans (takeReports_alike q _)
  have lay : ∀ q, (takeReports (handReports rs (storeNotices ns (advanceGenerations s0 v)))).lay q = v.lay q := fun q => by
    rw [State.lay, layout]
    rfl
  have slot : ∀ id, (takeReports (handReports rs (storeNotices ns (advanceGenerations s0 v)))).slot id =
      (advanceGenerations s0 v).slot id := fun id => by rw [State.slot, layout, State.slot]
  constructor
  · exact fun q => (alike q).responses ▸ List.prefix_refl _
  · exact fun q => (alike q).attach
  · exact fun q _ => ⟨lay q, (alike q).ready, fun id _ => by rw [slot, liveCopy?_advanceGenerations]⟩
  · exact fun q => by rw [lay]
  · intro q
    rw [takeReports_unit]
    exact only.unit q
  · intro q e
    rw [takeReports_markList]
    have none_left : (handReports rs (storeNotices ns (advanceGenerations s0 v))).markList q = [] :=
      (only.markList q).trans e
    rw [none_left]
    rfl
  · have plan := congrArg LayoutStore.plan layout
    exact plan
  · exact fun id e => by rw [slot, advanceGenerations_free s0 e]

/-! ### A plan settled while DARK -/

theorem settleInDark_eq (r : Request) (new : Plan) (mode : PlanMode) (s : State) :
    ∃ rs, settleInDark r new mode s = takeReports (handReports rs
      (storeNotices (settlePlan (Payer.direct r).answer new mode s).2.notices
        (advanceGenerations s (retireListed (settlePlan (Payer.direct r).answer new mode s).1).1))) := ⟨_, rfl⟩

theorem settleInDark_settled (h : s.TableLaw) (waits : ∀ q, WaitOf s q) (attached : (s.port .p0).attach = .attached)
    (on : new.entries.p0.enabled = true) (r : Request) :
    planSettled r new mode s.scan.frame s (settleInDark r new mode s) := by
  obtain ⟨rs, e⟩ := settleInDark_eq r new mode s
  rw [e]
  exact planSettled_of (m := .direct r) (sp := (settlePlan (Payer.direct r).answer new mode s).1.layout.sealedPlan) h waits
    attached on rfl rfl (finishes_dark s _ _ rs)

/-- What an ATTACHED port hears of a plan settled while DARK. -/
theorem settleInDark_heard (h : s.TableLaw) (r : Request) (applies : Applies new s mode)
    (after : ((settleInDark r new mode s).port q).attach = .attached) :
    ∃ lefts voids, (∀ n ∈ lefts, n.kind = .portLeft) ∧ (q ≠ .p0 → lefts = []) ∧ (∀ n ∈ voids, n.kind = .markVoid) ∧
      Heard (lefts ++ planTold new q s mode ++ voids) (s.port q) ((settleInDark r new mode s).port q) := by
  obtain ⟨rs, e⟩ := settleInDark_eq r new mode s
  rw [e] at after ⊢
  have retired := ((finishes_dark s _ _ rs).attach q).symm.trans after
  have settled := attached_of_retireListed retired
  obtain ⟨before, -, ls, kinds, zero, first⟩ := settlePlan_attached (rs := []) (.direct r) new mode awaited_nil settled
  obtain ⟨ls', kinds', zero', second⟩ := hearsLefts_retireListed settled
  have third := heard_storeNotices (settlePlan (Payer.direct r).answer new mode s).2.notices
    (advanceGenerations s (retireListed (settlePlan (Payer.direct r).answer new mode s).1).1) q
  rw [settlePlan_tells h applies before settled] at third
  obtain ⟨voids, marks, fourth⟩ := heard_takeReports (handReports rs
      (storeNotices (settlePlan (Payer.direct r).answer new mode s).2.notices
        (advanceGenerations s (retireListed (settlePlan (Payer.direct r).answer new mode s).1).1))) q
  refine ⟨ls ++ ls', voids, fun n mem => (List.mem_append.mp mem).elim (fun m => (kinds n m).1) fun m => (kinds' n m).1,
    fun z => by rw [zero z, zero' z]; rfl, marks, ?_⟩
  exact ((first.trans second).trans third).trans fourth

theorem orphans_congr {region : Option Nat} (layout : t.layout = s.layout) (attach : (t.port p).attach = (s.port p).attach)
    (setup : t.scan.setup = s.scan.setup) : orphans new t p region ↔ orphans new s p region := by
  simp only [orphans, inUse, attach, setup, State.entry, State.lay, ownedCount, liveEntries, State.slot, layout]

theorem Applies.congr (a : Applies new s mode) (layout : t.layout = s.layout) (attach : ∀ p, (t.port p).attach = (s.port p).attach)
    (setup : t.scan.setup = s.scan.setup) : Applies new t mode :=
  a.imp_right fun n p x o => n p x ((orphans_congr layout (attach p) setup).mp o)

/-! ### PLAN-SET (R91 to R94, R86) -/

theorem exec_planSet_body {r : Request} {rest : List Request} (h : Takes .planSet .p0 r rest s) (hs : s.layout.sealedPlan = none) :
    exec (.planSet .p0) s = .next (planSetBody .p0 r (taken .p0 rest s)) := by
  refine congrArg Host.Outcome.next ?_
  rw [hs]
  exact serve_takes h (planSetBody .p0)

theorem exec_planSet_blocked {r : Request} {rest : List Request} {sp : SealedPlan} (h : Takes .planSet .p0 r rest s)
    (hs : s.layout.sealedPlan = some sp) : exec (.planSet .p0) s = .next (setEngine .p0 .blocked s) := by
  refine congrArg Host.Outcome.next ?_
  rw [hs]
  exact serve_takes_blocked h (planSetBody .p0)

theorem PlanMode.ofByte?_range {n : Nat} (h : 1 < n) : PlanMode.ofByte? n = none := by
  match n, h with
  | n + 2, _ => rfl

theorem PlanMode.ofByte?_mode {b : Byte} (h : b.toNat ≤ 1) : PlanMode.ofByte? b.toNat = some (if b = 0x01 then .evict else .keep) := by
  rcases Nat.le_one_iff_eq_zero_or_eq_one.mp h with e | e
  · obtain rfl : b = 0x00 := BitVec.eq_of_toNat_eq e
    rfl
  · obtain rfl : b = 0x01 := BitVec.eq_of_toNat_eq e
    rfl

/-- Settles O30: the rows of R91 by the first fault of the plan, the sealing, and the settling at once while DARK. -/
theorem planSetSeals : Obligations.PlanSetSeals := by
  intro r rest s h
  refine ⟨fun hs => ?_, fun hs b more params => ⟨fun big => ?_, fun small => ?_⟩⟩
  · obtain ⟨sp, hs⟩ := Option.ne_none_iff_exists'.mp hs
    exact exec_planSet_blocked h hs
  · have served := exec_planSet_body h hs
    have mode : PlanMode.ofByte? (param8 r.params 0) = none := by
      rw [params]
      exact PlanMode.ofByte?_range big
    simp only [planSetBody, mode] at served
    exact served
  · have served := exec_planSet_body h hs
    have mode : PlanMode.ofByte? (param8 r.params 0) = some (if b = 0x01 then .evict else .keep) := by
      rw [params]
      exact PlanMode.ofByte?_mode small
    simp only [planSetBody, mode] at served
    have refused : ∀ q, planFault s.scan.setup.w s.scan.setup.h (rawEntries r.params) = some q →
        exec (.planSet .p0) s = .next
          (answered .p0 r rest .planInvalid (s.frameNow ++ [byteOf q.toNat, 0xFF]) s) := fun q fault => by
      have fault' : planFault (taken .p0 rest s).scan.setup.w (taken .p0 rest s).scan.setup.h (rawEntries r.params) = some q := fault
      have fields : planFields (taken .p0 rest s) (some q) none = s.frameNow ++ [byteOf q.toNat, 0xFF] := by
        rw [planFields, State.frameField, frameBytes_eq]
        rfl
      simp only [fault', fields] at served
      exact served
    refine ⟨refused, fun i q check first => refused q (planFault_of_check check first),
      fun n => planFault_eq_none_iff.mpr n, fun valid => ?_⟩
    have lawful := paramPlan_lawful valid
    have valid' : planFault (taken .p0 rest s).scan.setup.w (taken .p0 rest s).scan.setup.h (rawEntries r.params) = none := valid
    simp only [valid'] at served
    refine ⟨lawful, fun runs => ?_, fun dark law waits => ?_⟩
    · rw [if_neg (show ¬(taken .p0 rest s).scan.panel = .dark from runs)] at served
      exact served
    · rw [if_pos (show (taken .p0 rest s).scan.panel = .dark from dark)] at served
      have port : ∀ q, ((taken .p0 rest s).port q).attach = (s.port q).attach := fun q => by
        rw [State.port_taken]
        split
        · rename_i e
          rw [e]
        · rfl
      have law' : (taken .p0 rest s).TableLaw := SameBlocks.tableLaw (.setPort s .p0 (by rfl)) law
      have waits' : ∀ q, WaitOf (taken .p0 rest s) q :=
        (waitingLaw_iff.mp (waitingLaw_setPort_of_ready waits .p0 (c := { s.port .p0 with requests := rest }) rfl h.ready)).2
      have attached : ((taken .p0 rest s).port .p0).attach = .attached := (port .p0).trans h.attached
      refine ⟨_, served, settleInDark_settled law' waits' attached lawful.1 r, ?_, ?_, settleInDark_scan _ _ _ _,
        (Chain.still (acts_settleInDark r _ _)).panel.comp, ?_, fun applies p before after => ?_⟩
      · rw [settleInDark_layout]
        refine (retireListed_retired _).sealedPlan.trans ?_
        exact ((settlePlan_plan (answer := respond .p0 r) (fun _ _ _ => rfl) _ _ _).2).elim (fun e => e.trans hs) id
      · rw [settleInDark_layout]
        exact (retireListed_retired _).retiring
      · exact takeReports_reports _
      · have applies' : Applies (paramPlan r.params) (taken .p0 rest s) (if b = 0x01 then .evict else .keep) :=
          Applies.congr applies rfl port rfl
        obtain ⟨lefts, voids, kinds, zero, marks, heard⟩ := settleInDark_heard law' r applies' after
        refine ⟨voids, marks, planNotices_of (first := []) kinds zero ?_⟩
        have start : Heard [] (s.port p) ((taken .p0 rest s).port p) := by
          rw [State.port_taken]
          split
          · rename_i e
            rw [e]
            exact ⟨rfl, rfl, rfl⟩
          · exact .refl _
        exact start.trans heard

end

end Sys2Proof.Machine
end

