-- ==== Sys2Proof/Proofs/CommitParts.lean ====
section
/-! PROOFS. The commit (R71 to R80) as one port sees it: its unit, what it hears, its retirement, its set; in the words of the
statements. -/

namespace Sys2Proof.Machine

/-- The state of a commit behind steps 1 and 2. -/
def afterRetirement (s : State) : State := (retireListed (settleSealed s).1).1

section
variable {c d : PortController} {p q : PortId} {s t u v x z : State} {rs : List PortId} {new : Plan} {mode : PlanMode}
  {sp : SealedPlan} {why : LeaveReason}

theorem settleSealed_eq (e : s.layout.sealedPlan = some sp) : settleSealed s =
    (settledState .deferred sp.plan sp.mode none s, (settlePlan Payer.deferred.answer sp.plan sp.mode s).2) := by
  rw [settleSealed_some e, placeDeferred_eq_answer]
  rfl

theorem afterRetirement_tableLaw (h : s.TableLaw) : (afterRetirement s).TableLaw := retireListed_tableLaw (settleSealed_tableLaw h)

/-! ### The Source Units -/

theorem retireListed_eased (z : State) (q : PortId) : (z.unit q).Eased ((retireListed z).1.unit q) := by
  rw [(retireListed_retired z).units]
  split
  · exact SourceUnit.retired_eased _ _
  · exact .refl _

theorem commit_unit (s : State) (q : PortId) : (commit s).unit q = (afterRetirement s).unit q := by
  rw [State.unit, commit_sources]
  rfl

theorem commit_eased (s : State) (q : PortId) : (s.unit q).Eased ((commit s).unit q) := by
  rw [commit_unit]
  refine SourceUnit.Eased.trans (w := (settleSealed s).1.unit q) ?_ (retireListed_eased _ q)
  cases e : s.layout.sealedPlan with
  | none => rw [settleSealed_none e]; exact .refl _
  | some sp => rw [settleSealed_eq e]; exact settlePlan_eased _ _ _ s q

/-! ### The notices -/

/-- Behind the retirement a port hears the notices of step 1 alone. -/
theorem heard_commit_end (s : State) (q : PortId) :
    Heard (sentTo q (settleSealed s).2.notices) ((afterRetirement s).port q) ((commit s).port q) := by
  have answered : Heard [] ((afterRetirement s).port q) ((committed s).port q) := by
    unfold committed
    rw [applySets_snd, foldl_answerApplied _ ((show PortId.all.Nodup by decide).filter _)]
    have port : (advanceGenerations s (applySets (retireListed (settleSealed s).1).1).1.1).port q = (afterRetirement s).port q := by
      show (applySets (afterRetirement s)).1.1.port q = _
      rw [State.port, (applySets_applied _).ports]
      rfl
    rw [port]
    split
    · exact ⟨rfl, rfl, rfl⟩
    · exact .refl _
  have released : Heard [] ((handCommitReports (commitReports s) (storeNotices (settleSealed s).2.notices (committed s))).port q)
      ((commit s).port q) := by
    rw [commit_eq, releaseEngines_port]
    exact ⟨rfl, rfl, rfl⟩
  exact (answered.trans (heard_storeNotices _ _ q)).then_quiet released

theorem commit_attach (s : State) (q : PortId) : ((commit s).port q).attach = ((afterRetirement s).port q).attach :=
  (heard_commit_end s q).attach

theorem settleSealed_attached (away : Awaited rs s) (after : ((settleSealed s).1.port q).attach = .attached) :
    (s.port q).attach = .attached ∧ (settleSealed s).1.unit q = s.unit q ∧ HearsLefts rs q s (settleSealed s).1 := by
  cases e : s.layout.sealedPlan with
  | none =>
    rw [settleSealed_none e] at after ⊢
    exact ⟨after, rfl, .of_eq rfl⟩
  | some sp =>
    rw [settleSealed_eq e] at after ⊢
    exact settlePlan_attached .deferred sp.plan sp.mode away after

/-- A port that is ATTACHED behind a commit was so before, and its unit is untouched. -/
theorem commit_attached (after : ((commit s).port q).attach = .attached) :
    (s.port q).attach = .attached ∧ ((settleSealed s).1.port q).attach = .attached ∧ (commit s).unit q = s.unit q := by
  rw [commit_attach] at after
  have settled := attached_of_retireListed after
  obtain ⟨before, unit, -⟩ := settleSealed_attached (rs := []) awaited_nil settled
  refine ⟨before, settled, ?_⟩
  rw [commit_unit, afterRetirement, (retireListed_retired _).units]
  split
  · have none_leaves : (((settleSealed s).1.setRetiring []).port q).leaves = none := by
      unfold PortController.leaves
      rw [show (((settleSealed s).1.setRetiring []).port q).attach = _ from settled]
    unfold SourceUnit.retired
    rw [none_leaves]
    exact unit
  · exact unit

/-- The kinds of the notices of a commit. -/
theorem settleSealed_kinds (s : State) : ∀ n ∈ (settleSealed s).2.notices, n.2.kind.OfPlan := by
  cases e : s.layout.sealedPlan with
  | none => rw [settleSealed_none e]; nofun
  | some sp => rw [settleSealed_eq e]; exact settlePlan_kinds _ _ _ s

theorem mem_sentTo {n : Notice} {ns : List (PortId × Notice)} (h : n ∈ sentTo q ns) : ∃ p, (p, n) ∈ ns := by
  obtain ⟨x, mem, rfl⟩ := List.mem_map.mp h
  exact ⟨x.1, List.mem_of_mem_filter mem⟩

/-- What an ATTACHED port hears of a commit: PORT_LEFT, and the notices of step 1. -/
theorem commit_heard (after : ((commit s).port q).attach = .attached) : ∃ lefts, (∀ n ∈ lefts, n.kind = .portLeft) ∧
    (q ≠ .p0 → lefts = []) ∧ Heard (lefts ++ sentTo q (settleSealed s).2.notices) (s.port q) ((commit s).port q) := by
  obtain ⟨-, settled, -⟩ := commit_attached after
  obtain ⟨-, -, ls, kinds, zero, first⟩ := settleSealed_attached (rs := []) awaited_nil settled
  obtain ⟨ls', kinds', zero', second⟩ := hearsLefts_retireListed settled
  exact ⟨ls ++ ls', fun n mem => (List.mem_append.mp mem).elim (fun m => (kinds n m).1) fun m => (kinds' n m).1,
    fun z => by rw [zero z, zero' z]; rfl, (first.trans second).trans (heard_commit_end s q)⟩

/-- The same with the PORT_LEFT of the retirement named. -/
theorem commit_heard_lefts (h : s.TableLaw) (after : ((commit s).port q).attach = .attached) {ls : List Notice}
    (settle : Heard ls (s.port q) ((settleSealed s).1.port q)) :
    Heard (ls ++ (if q = .p0 then portsLeft s.scan.frame (settleSealed s).1 else []) ++ sentTo q (settleSealed s).2.notices)
      (s.port q) ((commit s).port q) := by
  obtain ⟨-, settled, -⟩ := commit_attached after
  have law := settleSealed_tableLaw h
  have second := heard_retireListed law.2.1 (not_retiring_of law settled)
  rw [(settleSealed_samePanel s).scan] at second
  exact (settle.trans second).trans (heard_commit_end s q)

/-- What an ATTACHED port hears of a commit without a sealed plan: at port 0 the PORT_LEFT of each port that leaves (log 33). -/
theorem commit_heard_plain (h : s.TableLaw) (e : s.layout.sealedPlan = none) (after : ((commit s).port q).attach = .attached) :
    Heard (if q = .p0 then portsLeft s.scan.frame s else []) (s.port q) ((commit s).port q) := by
  have still := settleSealed_none e
  have heard := commit_heard_lefts h after (ls := []) (.of_eq (by rw [still]))
  rw [still] at heard
  exact heard.cast (List.append_nil _)

/-- The same for a plan that is refused. -/
theorem commit_heard_refused (h : s.TableLaw) (e : s.layout.sealedPlan = some sp) (keep : sp.mode = .keep)
    (conflict : keepConflict sp.plan s ≠ none) (after : ((commit s).port q).attach = .attached) :
    Heard (if q = .p0 then portsLeft s.scan.frame s else []) (s.port q) ((commit s).port q) := by
  obtain ⟨⟨j, region⟩, named⟩ := Option.ne_none_iff_exists'.mp conflict
  have settled := settleSealed_eq e
  rw [keep, settledState, settlePlan_refused .deferred named] at settled
  have port : ∀ r, (settleSealed s).1.port r = if r = .p0 then (s.port .p0).paid .planSet .planOrphans
      (planFields s (some j) region) else s.port r := fun r => by
    rw [settled]
    exact Payer.answer_port
  have quiet : Heard [] (s.port q) ((settleSealed s).1.port q) := by
    rw [port]
    split
    · rename_i zero
      rw [zero]
      exact ⟨rfl, rfl, rfl⟩
    · exact .refl _
  have heard := commit_heard_lefts h after quiet
  have none_told : sentTo q (settleSealed s).2.notices = [] := by
    rw [settled]
    rfl
  rw [none_told, List.append_nil, List.nil_append] at heard
  refine heard.cast ?_
  by_cases zero : q = .p0
  · rw [if_pos zero, if_pos zero, portsLeft_eq, portsLeft_eq]
    have out := not_retiring_of h (commit_attached after).1
    rw [show (settleSealed s).1.layout.retiring = s.layout.retiring by rw [settled]; rfl]
    exact List.filterMap_congr fun r mem => by
      rw [port, if_neg fun other : r = .p0 => out (by rw [zero, ← other]; exact mem)]
  · rw [if_neg zero, if_neg zero]

/-! ### The rest of a commit -/

/-- The sets applied, as one port sees it. -/
theorem applySets_at (h : v.TableLaw) (q : PortId) : ∃ y, y.TableLaw ∧ Same q v y ∧ Same q (applySet q y).1 (applySets v).1.1 := by
  obtain ⟨y, law, before, after⟩ := foldl_all_at (X := State) (I := State.TableLaw) (R := Same q) (Same.refl q) .trans
    (f := fun u p => (applySet p u).1) (fun x p i => applySet_tableLaw i p) q (fun x p i hq => .applySet (i.at p) hq) v h
  rw [← applySets_eq] at after
  exact ⟨y, law, before, after⟩

theorem commit_liveCopy (s : State) (id : Nat) :
    ((commit s).slot id).liveCopy? = ((applySets (afterRetirement s)).1.1.slot id).liveCopy? := by
  rw [State.slot, commit_layout]
  exact liveCopy?_advanceGenerations s _ id

theorem commit_markList (s : State) (q : PortId) : (commit s).markList q = (afterRetirement s).markList q := by
  have marks : (storeNotices (settleSealed s).2.notices (committed s)).marks = (afterRetirement s).marks :=
    ((storeNotices_only _ _).marks.trans (answerApplied_sameBlocks _ _).marks).trans (applySets_applied _).marks
  have lists := congrArg (fun m : MarkUnit => m.lists.get q) marks
  rw [commit_eq]
  exact lists

theorem answeredSet_none {l : PortLayout} (e : l.sealedSet = none) (frame : List Byte) (c : PortController) :
    c.answeredSet l frame = c := by
  rw [PortController.answeredSet, e]
  rfl

theorem answeredSet_prefix (l : PortLayout) (frame : List Byte) (c : PortController) :
    c.responses <+: (c.answeredSet l frame).responses := by
  unfold PortController.answeredSet
  split
  · exact PortController.paid_prefix _ _ _ _
  · exact List.prefix_refl _

theorem applied_none {l : PortLayout} (e : l.sealedSet = none) : l.applied = l := by
  rw [PortLayout.applied, e]

theorem applied_draft (l : PortLayout) : l.applied.draft = l.draft := by
  unfold PortLayout.applied
  split <;> rfl

theorem afterRetirement_port (s : State) (p : PortId) :
    { ((afterRetirement s).port p).answeredSet ((afterRetirement s).lay p) s.frameField with engine := .ready }.Alike
      ((commit s).port p) := commit_port s p

theorem finishes_commit (h : s.TableLaw) : Finishes (afterRetirement s) (commit s) := by
  have law := afterRetirement_tableLaw h
  constructor
  · intro q
    rw [(commit_port s q).responses]
    exact answeredSet_prefix _ _ _
  · exact commit_attach s
  · intro q bare
    have port := afterRetirement_port s q
    rw [answeredSet_none bare] at port
    refine ⟨(commit_lay s q).trans (applied_none bare), port.ready, fun id own => ?_⟩
    obtain ⟨y, -, before, after⟩ := applySets_at law q
    rw [applySet_lay_none (by rw [before.lay, bare])] at after
    rw [commit_liveCopy, (before.trans after).slot id (.inl own)]
  · intro q
    rw [commit_lay]
    exact applied_draft _
  · exact commit_unit s
  · intro q e
    rw [commit_markList, e]
  · exact (commit_plan s).trans (retireListed_retired _).plan.symm
  · exact (((applySets_reports law .p0).advanced s).of_layout (commit_layout s)).free

/-- A commit settles the sealed plan (R72, R97 to R102). -/
theorem commit_planSettled {r : Request} (h : s.TableLaw) (waits : ∀ q, WaitOf s q) (attached : (s.port .p0).attach = .attached)
    (e : s.layout.sealedPlan = some sp) (on : sp.plan.entries.p0.enabled = true)
    (owed : (s.port .p0).owed .planSet = some r) : planSettled r sp.plan sp.mode s.scan.frame s (commit s) := by
  have fin := finishes_commit h
  rw [afterRetirement, settleSealed_eq e] at fin
  exact planSettled_of h waits attached on (m := .deferred) owed rfl fin

/-- What an ATTACHED port hears of a commit that applies a plan. -/
theorem commit_planTold (h : s.TableLaw) (e : s.layout.sealedPlan = some sp) (applies : Applies sp.plan s sp.mode)
    (after : ((commit s).port q).attach = .attached) : ∃ lefts, (∀ n ∈ lefts, n.kind = .portLeft) ∧ (q ≠ .p0 → lefts = []) ∧
      Heard (lefts ++ planTold sp.plan q s sp.mode) (s.port q) ((commit s).port q) := by
  obtain ⟨before, settled, -⟩ := commit_attached after
  obtain ⟨lefts, kinds, zero, heard⟩ := commit_heard after
  rw [settleSealed_eq e] at settled heard
  have tells := settlePlan_tells (m := .deferred) h applies before settled
  rw [tells] at heard
  exact ⟨lefts, kinds, zero, heard⟩

/-! ### The retirement of the ports listed (R73, R166) -/

theorem settleSealed_leaving (h : s.TableLaw) (j : WaitOf s q) {b : Bool} (e : (s.port q).attach = .leaving why b) :
    LeftAlone q s (settleSealed s).1 := by
  cases sealed : s.layout.sealedPlan with
  | none => rw [settleSealed_none sealed]; exact (Carried.refl q s).leftAlone
  | some sp =>
    rw [settleSealed_eq sealed]
    exact (settlePlan_leaving h j e).trans (Carried.setSealedPlan q none _).leftAlone

theorem commit_portsRetired (h : s.TableLaw) (waits : ∀ q, WaitOf s q) : portsRetired s (commit s) := by
  intro p _ why e
  have law := settleSealed_tableLaw h
  have settled := settleSealed_leaving h (waits p) e
  have fin := finishes_commit h
  have attach : ((settleSealed s).1.port p).attach = .leaving why false := settled.attach.trans e
  have listed : p ∈ (settleSealed s).1.layout.retiring := (law.at p).retires.mpr ⟨why, attach⟩
  have retired := retireListed_retired (settleSealed s).1
  have bare : ((afterRetirement s).lay p).sealedSet = none := by
    rw [afterRetirement, (retireListed_draft _ p).2]
    exact ((law.at p).away (by rw [attach]; nofun)).2
  have responses : ((commit s).port p).responses = ((settleSealed s).1.port p).responses :=
    (fin.responses bare).trans (retireListed_responses _ p)
  have port := retired.ports p
  have unit := retired.units p
  rw [if_pos listed] at port unit
  have entry : ((settleSealed s).1.setRetiring []).entry p = (commit s).entry p :=
    congrArg (fun x : Plan => x.entries.get p) (commit_plan s).symm
  rw [entry] at port
  have attach' : ((commit s).port p).attach = (((settleSealed s).1.port p).retired ((commit s).entry p).enabled).attach :=
    (fin.attach p).trans port.attach
  have unit' : (commit s).unit p = ((settleSealed s).1.unit p).retired ((settleSealed s).1.port p) := (fin.unit p).trans unit
  refine ⟨?_, fun id k g c live => ?_, fun n => responses.trans (settled.responses n), fun owing => ?_, fun none_left => ?_⟩
  · rw [(fin.bare p bare).1, afterRetirement, retireListed_lay, if_pos listed]
  · have is_live : (s.slot id).liveOf p = true := Slot.liveOf_iff.mpr ⟨k, g, c, live⟩
    have there : ((settleSealed s).1.slot id).liveOf p = true := by
      rw [settled.slot id is_live]
      exact is_live
    refine fin.free id ?_
    rw [afterRetirement, retired.slots, if_pos]
    exact ⟨p, listed, (law.at p).listed id (TableOf.lt_24 law (Slot.owner?_of_liveOf there)) there⟩
  · rw [responses] at owing
    have none_leaves : ((settleSealed s).1.port p).leaves = none := by
      cases hl : ((settleSealed s).1.port p).leaves with
      | none => rfl
      | some w => exact absurd (PortController.leaves_eq_some.mp hl).2 owing
    rw [attach', retired_of_none owing, attach, unit', SourceUnit.retired, none_leaves, settled.unit]
    exact ⟨rfl, rfl, rfl⟩
  · rw [responses] at none_left
    have leaves : ((settleSealed s).1.port p).leaves = some why := PortController.leaves_eq_some.mpr ⟨⟨false, attach⟩, none_left⟩
    rw [attach', unit', SourceUnit.retired, PortController.retired, leaves]
    exact ⟨rfl, rfl, rfl, rfl, rfl, rfl, rfl, rfl, rfl⟩

/-! ### The sets applied (R74, R75, R77) -/

/-- Step 1 has left a port's set and connection, with the responses `before` placed. -/
structure Waits (p : PortId) (before : List Response) (s m : State) : Prop where
  lay : m.lay p = s.lay p
  owed : (m.port p).owed .publish = (s.port p).owed .publish
  responses : (m.port p).responses = (s.port p).responses ++ before
  listed : p ∉ m.layout.retiring

theorem commit_setApplied (h : s.TableLaw) (j : WaitOf s p) {before : List Response} (w : Waits p before s (settleSealed s).1) :
    setApplied p before s (commit s) := by
  have law := settleSealed_tableLaw h
  have same := retireListed_same law w.listed
  have lay : (afterRetirement s).lay p = s.lay p := same.lay.trans w.lay
  have responses : ((afterRetirement s).port p).responses = (s.port p).responses ++ before := same.port.responses.trans w.responses
  have owed : ((afterRetirement s).port p).owed .publish = (s.port p).owed .publish := (same.port.owed _).trans w.owed
  have port := afterRetirement_port s p
  refine ⟨fun none_set => ?_, fun pr set => ?_⟩
  · have bare : ((afterRetirement s).lay p).sealedSet = none := by rw [lay, none_set]
    have fin := finishes_commit h
    exact ⟨(fin.bare p bare).1.trans lay, (fin.responses bare).trans responses⟩
  · obtain ⟨r, hr⟩ := j.owed_some set
    have is_publish : (r.code == RequestKind.publish.code) = true := List.find?_some (p := fun r : Request => r.code == _) hr
    have set' : ((afterRetirement s).lay p).sealedSet = some pr := by rw [lay, set]
    refine ⟨?_, fun e mem => ?_, r, List.mem_of_find?_eq_some hr, beq_iff_eq.mp is_publish, ?_⟩
    · rw [commit_lay, show ((retireListed (settleSealed s).1).1.lay p) = s.lay p from lay, PortLayout.applied, set]
    · obtain ⟨y, tables, before', after⟩ := applySets_at (afterRetirement_tableLaw h) p
      have sets : (y.lay p).sealedSet = some pr := by rw [before'.lay, set']
      obtain ⟨k, g, live, -⟩ := applySet_copies (tables.at p) sets mem
      rw [commit_liveCopy, after.slot e.id (.inl (by rw [live]; rfl)), live]
      rfl
    · have edit : ((afterRetirement s).lay p).applied.editState.byte = if (s.lay p).draft = none then 0x00 else 0x01 := by
        rw [PortLayout.applied, set']
        cases hd : (s.lay p).draft <;> simp [PortLayout.editState, lay, hd, EditState.byte]
      have frame : (commit s).frameNow = s.frameField := by
        rw [State.frameField, frameBytes_eq, State.frameNow, State.frameLow, State.frameHigh, (commit_samePanel s).scan]
      rw [port.responses]
      show (((afterRetirement s).port p).answeredSet ((afterRetirement s).lay p) s.frameField).responses = _
      rw [PortController.answeredSet, set', Option.isSome_some, if_pos rfl, PortController.paid, owed, hr, edit, frame]
      show ((afterRetirement s).port p).responses ++ _ = _
      rw [responses]
      rfl

theorem commit_setsApplied (h : s.TableLaw) (waits : ∀ q, WaitOf s q) (e : s.layout.sealedPlan = none) : setsApplied s (commit s) := by
  have still := settleSealed_none e
  refine ⟨by rw [commit_plan, still], commit_withdrawnKept h, fun p out => commit_setApplied h (waits p) ?_⟩
  rw [still]
  exact ⟨rfl, rfl, (List.append_nil _).symm, out⟩

/-- A port 0 behind a sealed plan is owed the PLAN-SET. -/
theorem WaitOf.owed_plan (j : WaitOf s .p0) (e : s.layout.sealedPlan = some sp) : ∃ r, (s.port .p0).owed .planSet = some r := by
  have owed := j.planSet
  rw [e] at owed
  have some_owed : 0 < deferredOf .planSet (s.port .p0) := by
    rw [owed]
    exact Nat.one_pos
  obtain ⟨r, mem, is⟩ := List.countP_pos_iff.mp some_owed
  exact Option.isSome_iff_exists.mp (List.find?_isSome.mpr ⟨r, mem, is⟩)

theorem commit_setsStillApplied (h : s.TableLaw) (waits : ∀ q, WaitOf s q) (e : s.layout.sealedPlan = some sp) :
    setsStillApplied sp.plan sp.mode s (commit s) := by
  refine ⟨commit_withdrawnKept h, fun p out kept => ?_⟩
  have carried : Carried p (Payer.deferred.answer (settleReply sp.plan s sp.mode).1 (settleReply sp.plan s sp.mode).2 s)
      (settleSealed s).1 := by
    rw [settleSealed_eq e]
    exact (settlePlan_kept h kept).trans (.setSealedPlan p none _)
  obtain ⟨r, owed⟩ := (waits .p0).owed_plan e
  have start : Waits p (if p = .p0 then [r.answer (settleReply sp.plan s sp.mode).1 (settleReply sp.plan s sp.mode).2] else []) s
      (Payer.deferred.answer (settleReply sp.plan s sp.mode).1 (settleReply sp.plan s sp.mode).2 s) := by
    refine ⟨rfl, ?_, ?_, out⟩ <;> rw [Payer.answer_port]
    · split
      · rename_i zero
        rw [Payer.pay_owed, zero]
      · rfl
    · split
      · rename_i zero
        rw [Payer.pay_responses (m := .deferred) owed, zero]
      · exact (List.append_nil _).symm
  refine ⟨_, ?_, commit_setApplied h (waits p) ⟨carried.lay.trans start.lay, (carried.port.owed _).trans start.owed,
    carried.port.responses.trans start.responses, fun mem => start.listed (carried.retiring.mp mem)⟩⟩
  split <;> rfl

end

end Sys2Proof.Machine
end

