-- ==== Sys2Proof/Proofs/EntryIntoDark.lean ====
section
/-! PROOFS. The words of a commit between the states around it: what reads the same before the works of a frame start and behind
them; and the entry into DARK (R146, R84). -/

namespace Sys2Proof.Machine

/-- A Source Unit at rest. -/
structure SourceUnit.Rests (v : SourceUnit) : Prop where
  showing : v.showing = none
  filling : v.filling = .empty
  monitor : v.monitor = .noSignal
  good : v.good = 0
  missed : v.missed = 0
  fsync : v.fsync = false

/-- What a unit of a port that is not ATTACHED keeps while the works behind the commit are done. -/
structure SourceUnit.Keeps (v w : SourceUnit) : Prop where
  sw : w.sw = v.sw
  sh : w.sh = v.sh
  monitor : v.monitor = .noSignal → w.monitor = .noSignal
  rests : v.Rests → w.Rests

/-- A state t behind the commit that gave c: the Layout Store, the mark lists and all of the ports but notices are those of c. -/
structure Trails (c t : State) : Prop where
  layout : t.layout = c.layout
  port : ∀ q, (c.port q).Alike (t.port q)
  lists : ∀ q, t.markList q = c.markList q
  frame : t.scan.frame = c.scan.frame
  unit : ∀ q, (c.port q).attach ≠ .attached → (c.unit q).Keeps (t.unit q)

section
variable {p q : PortId} {b c s t u v x z : State} {new : Plan} {mode : PlanMode} {sp : SealedPlan} {why : LeaveReason}
  {f : FrameNo} {r : Request} {region : Option Nat}

theorem SourceUnit.Keeps.refl (v : SourceUnit) : v.Keeps v := ⟨rfl, rfl, id, id⟩

theorem SourceUnit.Keeps.trans {v w x : SourceUnit} (h : v.Keeps w) (g : w.Keeps x) : v.Keeps x :=
  ⟨g.sw.trans h.sw, g.sh.trans h.sh, fun m => g.monitor (h.monitor m), fun m => g.rests (h.rests m)⟩

theorem Trails.refl (c : State) : Trails c c := ⟨rfl, fun _ => .refl _, fun _ => rfl, rfl, fun _ _ => .refl _⟩

theorem Trails.trans (h : Trails c t) (g : Trails t u) : Trails c u where
  layout := g.layout.trans h.layout
  port q := (h.port q).trans (g.port q)
  lists q := (g.lists q).trans (h.lists q)
  frame := g.frame.trans h.frame
  unit q n := (h.unit q n).trans (g.unit q (by rw [(h.port q).attach]; exact n))

theorem Trails.lay (h : Trails c t) (q : PortId) : t.lay q = c.lay q := by rw [State.lay, h.layout, State.lay]

theorem Trails.slot (h : Trails c t) (id : Nat) : t.slot id = c.slot id := by rw [State.slot, h.layout, State.slot]

theorem Trails.entry (h : Trails c t) (q : PortId) : t.entry q = c.entry q := by rw [State.entry, h.layout, State.entry]

theorem Trails.frameNow (h : Trails c t) : t.frameNow = c.frameNow := by
  rw [State.frameNow, State.frameLow, State.frameHigh, h.frame, State.frameNow, State.frameLow, State.frameHigh]

theorem trails_storeNotices (ns : List (PortId × Notice)) (s : State) : Trails s (storeNotices ns s) where
  layout := (storeNotices_only ns s).layout
  port q := storeNotices_alike ns q s
  lists := (storeNotices_only ns s).markList
  frame := congrArg ScanTimer.frame (storeNotices_only ns s).scan
  unit q _ := by
    rw [(storeNotices_only ns s).unit]
    exact .refl _

theorem Calm.lay (h : Calm s b) (q : PortId) : b.lay q = s.lay q := by rw [State.lay, h.layout, State.lay]

theorem Calm.slot (h : Calm s b) (id : Nat) : b.slot id = s.slot id := by rw [State.slot, h.layout, State.slot]

theorem Calm.entry (h : Calm s b) (q : PortId) : b.entry q = s.entry q := by rw [State.entry, h.layout, State.entry]

theorem Calm.attach (h : Calm s b) (q : PortId) : (b.port q).attach = (s.port q).attach := (h.port q).attach

theorem Calm.liveEntries (h : Calm s b) (q : PortId) : liveEntries q b = liveEntries q s := by
  simp only [Machine.liveEntries, h.lay, h.slot]

theorem Calm.orphans (h : Calm s b) : orphans new b p region ↔ orphans new s p region :=
  orphans_congr h.layout (h.attach p) h.setup

theorem Applies.calm (a : Applies new s mode) (h : Calm s b) : Applies new b mode := a.congr h.layout h.attach h.setup

/-! ### The words of a commit, between s before it and t behind it -/

theorem portsRetired_between (h : Calm s b) (g : Trails c t) (w : portsRetired b c) : portsRetired s t := by
  intro p mem why e
  obtain ⟨order, freed, kept, owing, none_left⟩ := w p (by rw [h.layout]; exact mem) why ((h.attach p).trans e)
  have responses := (g.port p).responses
  have sizes := h.size p
  refine ⟨?_, fun id k gen copy live => ?_, fun n => ?_, fun some_left => ?_, fun none_there => ?_⟩
  · rw [g.lay, order]
  · rw [g.slot]
    exact freed id k gen copy ((h.slot id).trans live)
  · rw [responses, kept n, (h.port p).responses]
  · rw [responses] at some_left
    obtain ⟨attach, sw, sh⟩ := owing some_left
    have keeps := g.unit p (by rw [attach]; nofun)
    exact ⟨(g.port p).attach.trans attach, keeps.sw.trans (sw.trans sizes.1), keeps.sh.trans (sh.trans sizes.2)⟩
  · rw [responses] at none_there
    obtain ⟨attach, sw, sh, showing, filling, monitor, good, missed, fsync⟩ := none_left none_there
    have keeps := g.unit p (by rw [attach]; split <;> nofun)
    have rests := keeps.rests ⟨showing, filling, monitor, good, missed, fsync⟩
    rw [(g.port p).attach, attach, g.entry]
    exact ⟨rfl, keeps.sw.trans sw, keeps.sh.trans sh, rests.showing, rests.filling, rests.monitor, rests.good, rests.missed,
      rests.fsync⟩

theorem planAnswered_between {res : Result} {port region : Byte} (h : Calm s b) (g : Trails c t)
    (w : planAnswered r f res port region b c) : planAnswered r f res port region s t := by
  obtain ⟨more, e⟩ := w
  exact ⟨more, by rw [(g.port .p0).responses, e, (h.port .p0).responses]⟩

theorem evicted_between (h : Calm s b) (g : Trails c t) (w : evicted new b c p) : evicted new s t p := by
  obtain ⟨draft, set, voided, passes⟩ := w
  refine ⟨by rw [g.lay, draft], by rw [g.lay, set], fun x owed => ?_, fun attached on => ?_⟩
  · rw [(g.port p).responses]
    exact voided x (by rw [(h.port p).deferred]; exact owed)
  · obtain ⟨kept, gone, cut, order, freed, copies⟩ := passes ((h.attach p).trans attached) on
    rw [h.setup, h.liveEntries] at cut
    exact ⟨kept, gone, cut, by rw [g.lay, order], fun x m => by rw [g.slot, freed x m], fun x m => by rw [g.slot, copies x m]⟩

theorem enablementHanded_between (h : Calm s b) (g : Trails c t) (w : enablementHanded new b c p) : enablementHanded new s t p := by
  have attach := (g.port p).attach
  have away : ∀ {a : Attach}, (c.port p).attach = a → a ≠ .attached → t.port p = c.port p := fun e n =>
    (g.port p).2 (by rw [e]; exact n)
  simp only [enablementHanded, h.attach, (h.port p).requests, (h.port p).responses] at w
  obtain ⟨on, off, left, leaving⟩ := w
  refine ⟨fun a e => ?_, fun a e => ?_, fun a e => ?_, fun why done a => ?_⟩
  · obtain ⟨detached, rest⟩ := on a e
    rw [away detached (by nofun)]
    exact ⟨detached, rest⟩
  · obtain ⟨none_left, some_left⟩ := off a e
    refine ⟨fun m n => by rw [attach, none_left m n], fun m => ?_⟩
    obtain ⟨l, requests, responses⟩ := some_left m
    exact ⟨attach.trans l, (g.port p).requests.trans requests, (g.port p).responses.trans responses⟩
  · obtain ⟨requests, order, list, monitor, ends⟩ := left a e
    have keeps : (c.unit p).Keeps (t.unit p) := g.unit p (by
      rcases ends with ⟨l, -⟩ | ⟨l, -⟩
      · rw [l]; nofun
      · rw [l]; nofun)
    refine ⟨(g.port p).requests.trans requests, by rw [g.lay, order], (g.lists p).trans list, keeps.monitor monitor, ?_⟩
    rw [attach, (g.port p).responses]
    exact ends
  · rw [attach]
    exact leaving why done a

theorem planSettled_between (h : Calm s b) (g : Trails c t) (w : planSettled r new mode f b c) : planSettled r new mode f s t := by
  simp only [planSettled, h.orphans, h.entry, h.lay, h.layout] at w
  obtain ⟨keep, evict, handed⟩ := w
  refine ⟨fun e => ⟨fun p region found first => ?_, fun fits => ?_⟩, fun e => ?_, fun a p n differs => ?_⟩
  · obtain ⟨told, plan, drafts⟩ := (keep e).1 p region found first
    exact ⟨planAnswered_between h g told, by rw [g.layout, plan], fun q => by rw [g.lay, drafts]⟩
  · obtain ⟨told, plan, drafts⟩ := (keep e).2 fits
    exact ⟨planAnswered_between h g told, by rw [g.layout, plan], fun q => by rw [g.lay, drafts]⟩
  · obtain ⟨told, plan, changes⟩ := evict e
    exact ⟨planAnswered_between h g told, by rw [g.layout, plan], fun p differs => evicted_between h g (changes p differs)⟩
  · exact enablementHanded_between h g (handed a p n differs)

theorem setApplied_between {before : List Response} (h : Calm s b) (g : Trails c t) (w : setApplied p before b c) :
    setApplied p before s t := by
  simp only [setApplied, h.lay, (h.port p).responses, (h.port p).deferred] at w
  obtain ⟨none_set, some_set⟩ := w
  refine ⟨fun e => ?_, fun pr e => ?_⟩
  · obtain ⟨lay, responses⟩ := none_set e
    exact ⟨by rw [g.lay, lay], (g.port p).responses.trans responses⟩
  · obtain ⟨lay, copies, r, mem, code, responses⟩ := some_set pr e
    refine ⟨by rw [g.lay, lay], fun e m => by rw [g.slot, copies e m], r, mem, code, ?_⟩
    rw [g.frameNow]
    exact (g.port p).responses.trans responses

theorem withdrawnKept_between (h : Calm s b) (g : Trails c t) (same : t.marks.withdrawn = c.marks.withdrawn)
    (w : withdrawnKept b c) : withdrawnKept s t := fun p id => by
  rw [same, g.slot, ← h.slot]
  exact w p id

theorem setsApplied_between (h : Calm s b) (g : Trails c t) (same : t.marks.withdrawn = c.marks.withdrawn)
    (w : setsApplied b c) : setsApplied s t := by
  obtain ⟨plan, withdrawn, sets⟩ := w
  exact ⟨by rw [g.layout, plan, h.layout], withdrawnKept_between h g same withdrawn,
    fun p n => setApplied_between h g (sets p (by rw [h.layout]; exact n))⟩

theorem setsStillApplied_between (h : Calm s b) (g : Trails c t) (same : t.marks.withdrawn = c.marks.withdrawn)
    (w : setsStillApplied new mode b c) : setsStillApplied new mode s t := by
  obtain ⟨withdrawn, sets⟩ := w
  refine ⟨withdrawnKept_between h g same withdrawn, fun p n kept => ?_⟩
  obtain ⟨before, length, applied⟩ := sets p (by rw [h.layout]; exact n) (by
    simpa only [keptByPlan, h.entry, h.orphans] using kept)
  exact ⟨before, length, setApplied_between h g applied⟩

theorem planTold_calm (h : Calm s b) (frame : b.scan.frame = s.scan.frame) : planTold new q b mode = planTold new q s mode := by
  have note : ∀ k x y, noticeNow b k x y = noticeNow s k x y := fun k x y => by rw [noticeNow, noticeNow, frame]
  cases mode with
  | keep => simp only [planTold, note, h.layout]
  | evict =>
    have due : dueVoids q b = dueVoids q s := by
      unfold dueVoids State.editState
      rw [h.lay, note]
    simp only [planTold, note, h.layout, due, evictionOf, h.setup, h.liveEntries]

theorem portsLeft_congr (retiring : t.layout.retiring = s.layout.retiring)
    (port : ∀ r ∈ s.layout.retiring, (s.port r).Alike (t.port r)) (f : FrameNo) : portsLeft f t = portsLeft f s := by
  rw [portsLeft_eq, portsLeft_eq, retiring]
  exact List.filterMap_congr fun r m => by rw [PortController.portLeft, (port r m).leaves, PortController.portLeft]

/-! ### Entry into DARK (R146) -/

theorem forceAll_unit (s : State) (q : PortId) :
    (forceAll s).unit q = { (s.unit q).forced with fsync := false, frameWaiting := false } := by
  unfold forceAll PortId.all
  cases q <;> rfl

theorem forceAll_port (s : State) (q : PortId) : (forceAll s).port q = s.port q := rfl

theorem forceAll_trails (s : State) : Trails s (forceAll s) where
  layout := rfl
  port _ := .refl _
  lists _ := rfl
  frame := rfl
  unit q _ := by
    rw [forceAll_unit]
    exact ⟨rfl, rfl, fun _ => rfl, fun _ => ⟨rfl, rfl, rfl, rfl, rfl, rfl⟩⟩

theorem trails_announcePanel (left : PanelState) (s : State) : Trails s (announcePanel left s) := trails_storeNotices _ _

theorem heard_announcePanel (left : PanelState) (s : State) (q : PortId) :
    Heard [noticeNow s .panelState s.scan.panel.byte left.byte] (s.port q) ((announcePanel left s).port q) := by
  have heard := heard_storeNotices (PortId.all.map fun p => (p, noticeNow s .panelState s.scan.panel.byte left.byte)) s q
  have sent : sentTo q (PortId.all.map fun p => (p, noticeNow s .panelState s.scan.panel.byte left.byte)) =
      [noticeNow s .panelState s.scan.panel.byte left.byte] := by
    unfold sentTo PortId.all
    cases q <;> rfl
  exact sent ▸ heard

/-- The state in which the commit of an entry into DARK begins. -/
def darkBefore (noticeFirst : Bool) (s : State) : State :=
  if noticeFirst then announcePanel .cooling (darkened (takeReports s)) else darkened (takeReports s)

/-- The PANEL_STATE of an entry into DARK (R147). -/
def darkNotice (s : State) : Notice :=
  { kind := .panelState, subject := 0x00, frame := s.scan.frame, count := 1, detail := 0x03 }

theorem darkBefore_calm (noticeFirst : Bool) (s : State) : Calm s (darkBefore noticeFirst s) := by
  have dark : Calm s (darkened (takeReports s)) := (calm_takeReports s).trans (calm_darkened _)
  unfold darkBefore
  split
  · exact dark.trans (calmer_announcePanel _ _).calm
  · exact dark

theorem darkBefore_samePanel (noticeFirst : Bool) (s : State) : SamePanel (darkened (takeReports s)) (darkBefore noticeFirst s) := by
  unfold darkBefore
  split
  · have only := storeNotices_only (PortId.all.map fun p => (p, noticeNow (darkened (takeReports s)) .panelState
      (darkened (takeReports s)).scan.panel.byte PanelState.cooling.byte)) (darkened (takeReports s))
    exact ⟨only.scan, only.comp, only.pending⟩
  · exact .refl _

theorem darkened_scan (s : State) : (darkened (takeReports s)).scan =
    { s.scan with panel := .dark, cool := 0, pos := none, coolingFrame := false } := by
  show { (takeReports s).scan with panel := .dark, cool := 0, pos := none, coolingFrame := false } = _
  rw [takeReports_scan]

/-- What follows the commit of an entry into DARK, but for the forcing of the units. -/
def darkAfter (noticeFirst : Bool) (c : State) : State := if noticeFirst then c else announcePanel .cooling c

theorem enterDark_parts (noticeFirst : Bool) (s : State) :
    enterDark noticeFirst s = forceAll (darkAfter noticeFirst (commit (darkBefore noticeFirst s))) := by
  rw [enterDark_eq]
  unfold darkAfter darkBefore
  cases noticeFirst
  · rw [if_neg Bool.false_ne_true, if_neg Bool.false_ne_true, if_neg Bool.false_ne_true]
  · rw [if_pos rfl, if_pos rfl, if_pos rfl]

theorem darkAfter_only (noticeFirst : Bool) (c : State) : NoticesOnly c (darkAfter noticeFirst c) := by
  unfold darkAfter
  split
  · exact .refl c
  · exact storeNotices_only _ c

theorem darkAfter_trails (noticeFirst : Bool) (c : State) : Trails c (darkAfter noticeFirst c) := by
  unfold darkAfter
  split
  · exact .refl c
  · exact trails_announcePanel _ c

theorem enterDark_scan (noticeFirst : Bool) (s : State) :
    (enterDark noticeFirst s).scan = { s.scan with panel := .dark, cool := 0, pos := none, coolingFrame := false } ∧
      (enterDark noticeFirst s).comp = { list := [], output := .idle } := by
  have before := darkBefore_samePanel noticeFirst s
  have after := commit_samePanel (darkBefore noticeFirst s)
  rw [← darkened_scan, enterDark_parts]
  generalize commit (darkBefore noticeFirst s) = c at after
  have only := darkAfter_only noticeFirst c
  exact ⟨only.scan.trans (after.scan.trans before.scan), only.comp.trans (after.comp.trans before.comp)⟩

theorem enterDark_trails (noticeFirst : Bool) (s : State) :
    Trails (commit (darkBefore noticeFirst s)) (enterDark noticeFirst s) := by
  rw [enterDark_parts]
  exact (darkAfter_trails _ _).trans (forceAll_trails _)

theorem enterDark_withdrawn (noticeFirst : Bool) (s : State) :
    (enterDark noticeFirst s).marks.withdrawn = (commit (darkBefore noticeFirst s)).marks.withdrawn := by
  rw [enterDark_parts]
  generalize commit (darkBefore noticeFirst s) = c
  exact congrArg MarkUnit.withdrawn (darkAfter_only noticeFirst c).marks

theorem enterDark_unit (noticeFirst : Bool) (s : State) (q : PortId) : (enterDark noticeFirst s).unit q =
    { ((commit (darkBefore noticeFirst s)).unit q).forced with fsync := false, frameWaiting := false } := by
  rw [enterDark_parts, forceAll_unit, (darkAfter_only _ _).unit]

/-- What an ATTACHED port hears of an entry into DARK: the PANEL_STATE before or behind the notices of the commit. -/
theorem enterDark_heard {ns : List Notice} (noticeFirst : Bool) (none_waits : s.marks.reports = [])
    (told : Heard ns ((darkBefore noticeFirst s).port q) ((commit (darkBefore noticeFirst s)).port q)) :
    Heard ((if noticeFirst then [darkNotice s] else []) ++ ns ++ (if noticeFirst then [] else [darkNotice s])) (s.port q)
      ((enterDark noticeFirst s).port q) := by
  have scan : (commit (darkBefore noticeFirst s)).scan = { s.scan with panel := .dark, cool := 0, pos := none, coolingFrame := false } := by
    rw [(commit_samePanel _).scan, (darkBefore_samePanel noticeFirst s).scan, darkened_scan]
  rw [enterDark_parts, forceAll_port]
  generalize commit (darkBefore noticeFirst s) = c at told scan
  have start : (darkened (takeReports s)).port q = s.port q := by
    rw [takeReports_of_none none_waits]
    rfl
  have first : Heard (if noticeFirst then [darkNotice s] else []) (s.port q) ((darkBefore noticeFirst s).port q) := by
    unfold darkBefore
    split
    · have heard := heard_announcePanel .cooling (darkened (takeReports s)) q
      rw [noticeNow, darkened_scan, start] at heard
      exact heard
    · exact .of_eq start
  have last : Heard (if noticeFirst then [] else [darkNotice s]) (c.port q) ((darkAfter noticeFirst c).port q) := by
    unfold darkAfter
    split
    · exact .refl _
    · have heard := heard_announcePanel .cooling c q
      rw [noticeNow, scan] at heard
      exact heard
  exact (first.trans told).trans last

theorem exec_frameStart_dark (ends : coolEnds s) (now : List FrameWork) : exec (.frameStart now) s = .next (enterDark false s) := by
  have due := coolCountDue_iff.mpr ends
  have parts := due
  simp only [coolCountDue, Bool.and_eq_true, decide_eq_true_iff] at parts
  obtain ⟨⟨⟨cooling, over_⟩, -⟩, -⟩ := parts
  show execFrameStart now s = _
  rw [execFrameStart, cooling, over_, due]
  rfl

/-- Settles O48: one commit between two notices, and what it makes read between the states around it. -/
theorem entryIntoDarkEnds : Obligations.EntryIntoDarkEnds := by
  intro noticeFirst s
  refine ⟨fun stays => ?_, fun ends => ⟨fun now => ?_, _, exec_entryIntoDark noticeFirst ends, ?_⟩⟩
  · show execEntryIntoDark noticeFirst s = _
    rw [execEntryIntoDark, if_neg (by rw [coolCountDue_iff]; exact stays)]
  · rw [exec_frameStart_dark ends now, exec_entryIntoDark false ends]
  obtain ⟨scan, comp⟩ := enterDark_scan noticeFirst s
  have calm := darkBefore_calm noticeFirst s
  have trails := enterDark_trails noticeFirst s
  obtain ⟨sealed, retiring, sets⟩ := commit_clears (darkBefore noticeFirst s)
  have frame : (darkBefore noticeFirst s).scan.frame = s.scan.frame := by
    rw [(darkBefore_samePanel noticeFirst s).scan, darkened_scan]
  refine ⟨by rw [scan], by rw [scan], by rw [scan], by rw [scan], by rw [scan], comp, by rw [trails.layout, sealed],
    by rw [trails.layout, retiring], fun p => ?_, fun law waiting => ?_⟩
  · rw [enterDark_unit, trails.lay, (trails.port p).engine, (commit_port _ p).engine]
    refine ⟨sets p, rfl, rfl, rfl, rfl, rfl, rfl, rfl, fun attached => ?_⟩
    rw [(trails.port p).attach] at attached
    obtain ⟨-, -, unit⟩ := commit_attached attached
    rw [unit]
    exact calm.size p
  have waits : ∀ q, WaitOf (darkBefore noticeFirst s) q := fun q => calm.waitOf ((waitingLaw_iff.mp waiting).2 q)
  have table := calm.tableLaw law
  have same := enterDark_withdrawn noticeFirst s
  refine ⟨fun none_sealed => ?_, fun sp e on attached => ⟨?_, fun r owed => ?_⟩,
    portsRetired_between calm trails (commit_portsRetired table waits), fun reports p before after => ⟨fun refused => ?_, fun sp e on applies => ?_⟩⟩
  · exact setsApplied_between calm trails same (commit_setsApplied table waits (by rw [calm.layout, none_sealed]))
  · exact setsStillApplied_between calm trails same (commit_setsStillApplied table waits (by rw [calm.layout, e]))
  · have settled := commit_planSettled table waits ((calm.attach .p0).trans attached) (by rw [calm.layout, e]) on
      (((calm.port .p0).owed _).trans owed)
    rw [frame] at settled
    exact planSettled_between calm trails settled
  · have attached : ((commit (darkBefore noticeFirst s)).port p).attach = .attached := (trails.port p).attach.symm.trans after
    have told : Heard (if p = .p0 then portsLeft s.scan.frame s else []) ((darkBefore noticeFirst s).port p)
        ((commit (darkBefore noticeFirst s)).port p) := by
      have lefts_eq : (if p = .p0 then portsLeft s.scan.frame (darkBefore noticeFirst s) else []) =
          if p = .p0 then portsLeft s.scan.frame s else [] := by
        rw [portsLeft_congr (congrArg LayoutStore.retiring calm.layout) fun r _ => calm.port r]
      cases e : s.layout.sealedPlan with
      | none =>
        have e' : (darkBefore noticeFirst s).layout.sealedPlan = none := by rw [calm.layout, e]
        exact (commit_heard_plain table e' attached).cast (frame ▸ lefts_eq)
      | some sp =>
        have e' : (darkBefore noticeFirst s).layout.sealedPlan = some sp := by rw [calm.layout, e]
        obtain ⟨keep, q, x, found⟩ := refused sp e
        have conflict : keepConflict sp.plan (darkBefore noticeFirst s) ≠ none := fun n =>
          keepConflict_none_iff.mp n q x (calm.orphans.mpr found)
        exact (commit_heard_refused table e' keep conflict attached).cast
          (frame ▸ lefts_eq)
    exact (enterDark_heard noticeFirst reports told).told
  · have attached : ((commit (darkBefore noticeFirst s)).port p).attach = .attached := (trails.port p).attach.symm.trans after
    obtain ⟨lefts, kinds, zero, heard⟩ := commit_planTold table (by rw [calm.layout, e]) (Applies.calm applies calm) attached
    rw [planTold_calm calm frame] at heard
    have all := enterDark_heard noticeFirst reports heard
    exact planNotices_of kinds zero (all.cast (by simp [List.append_assoc]; rfl))

end

end Sys2Proof.Machine
end

