-- ==== Sys2Proof/Proofs/FrameWorks.lean ====
section
/-! PROOFS. The works of a frame start around its commit (R69, R139): what is done before it leaves what the commit reads, and
what is done behind it leaves what the commit made; and the settling of a sealed plan at a frame start (R97 to R103). -/

namespace Sys2Proof.Machine

/-- The works of a frame start: those listed, and the commit behind them where it is not among them (R69). -/
def allWorks (now : List FrameWork) : List FrameWork := if now.contains .commit then now else now ++ [.commit]

/-- The commit of a frame start stands between `before` and `behind`; what is listed behind it is in `now`. -/
structure CommitAt (now before behind : List FrameWork) : Prop where
  all : allWorks now = before ++ .commit :: behind
  first : FrameWork.commit ∉ before
  listed : now = before ++ .commit :: behind ∨ (now = before ∧ behind = [])

section
variable {p q : PortId} {b c s t u v x z : State} {sp : SealedPlan} {now before behind ws : List FrameWork} {w : FrameWork}

theorem commitLast_all (now : List FrameWork) (s : State) :
    commitLast now (now.foldl doWork s) = (allWorks now).foldl doWork s := by
  unfold commitLast allWorks
  split
  · rfl
  · rw [List.foldl_append]
    rfl

theorem frameWork_all (now : List FrameWork) (s : State) :
    frameWork now s = settleWarm (settleUnits ((allWorks now).foldl doWork s)) := by
  rw [frameWork_eq, commitLast_all]

theorem exists_commitAt (now : List FrameWork) : ∃ before behind, CommitAt now before behind := by
  by_cases m : FrameWork.commit ∈ now
  · obtain ⟨before, behind, e, n⟩ := List.eq_append_cons_of_mem m
    exact ⟨before, behind, by rw [allWorks, if_pos (by simpa using m), e], n, .inl e⟩
  · exact ⟨now, [], by rw [allWorks, if_neg (by simpa using m)], m, .inr ⟨rfl, rfl⟩⟩

/-- In an order that names no work twice, what stands behind a work is not that work. -/
theorem distinct_append (d : FrameWork.distinct (before ++ w :: behind) = true) : w ∉ before ∧ w ∉ behind := by
  induction before with
  | nil =>
    simp only [List.nil_append, FrameWork.distinct, Bool.and_eq_true, Bool.not_eq_true', List.contains_eq_mem,
      decide_eq_false_iff_not] at d
    exact ⟨nofun, d.1⟩
  | cons x xs ih =>
    simp only [List.cons_append, FrameWork.distinct, Bool.and_eq_true, Bool.not_eq_true', List.contains_eq_mem,
      decide_eq_false_iff_not] at d
    obtain ⟨fresh, rest⟩ := d
    obtain ⟨i, j⟩ := ih rest
    exact ⟨fun m => (List.mem_cons.mp m).elim (fun e => fresh (e ▸ by simp)) i, j⟩

theorem CommitAt.once (g : CommitAt now before behind) (d : FrameWork.distinct now = true) : FrameWork.commit ∉ behind := by
  rcases g.listed with e | ⟨-, e⟩
  · exact (distinct_append (e ▸ d)).2
  · rw [e]
    exact nofun

/-! ### Before the commit -/

theorem Calmer.refl (s : State) : Calmer s s := ⟨.refl s, rfl, id⟩

theorem Calmer.trans (h : Calmer s t) (g : Calmer t u) : Calmer s u :=
  ⟨h.calm.trans g.calm, g.marks.trans h.marks, fun n => g.runs (h.runs n)⟩

theorem calmer_works (ws : List FrameWork) (n : FrameWork.commit ∉ ws) (s : State) : Calmer s (ws.foldl doWork s) := by
  induction ws generalizing s with
  | nil => exact .refl s
  | cons w ws ih =>
    exact (calmer_doWork (fun e => n (e ▸ List.mem_cons_self)) s).trans (ih (fun m => n (List.mem_cons_of_mem _ m)) _)

theorem doWork_frame (w : FrameWork) (s : State) : (doWork s w).scan.frame = s.scan.frame := by
  cases w with
  | commit => exact congrArg ScanTimer.frame (commit_samePanel s).scan
  | unit p => exact congrArg ScanTimer.frame (takeFrameStart_layout p s).2.2.scan
  | timer => exact takeWarmCount_frame s

theorem works_frame_number (ws : List FrameWork) (s : State) : (ws.foldl doWork s).scan.frame = s.scan.frame := by
  induction ws generalizing s with
  | nil => rfl
  | cons w ws ih => exact (ih _).trans (doWork_frame w s)

/-! ### Behind the commit -/

theorem SourceUnit.keeps_taking (v : SourceUnit) : v.Keeps (v.taking false) where
  sw := rfl
  sh := rfl
  monitor := id
  rests r := ⟨r.showing, r.filling, r.monitor, r.good, r.missed, rfl⟩

theorem trails_takeFrameStart (p : PortId) (s : State) : Trails s (takeFrameStart p s) where
  layout := (takeFrameStart_layout p s).1
  port := (calm_takeFrameStart p s).port
  lists q := by rw [State.markList, (takeFrameStart_layout p s).2.1, State.markList]
  frame := doWork_frame (.unit p) s
  unit q away := by
    rcases takeFrameStart_cases p s with ⟨-, e⟩ | ⟨-, only⟩
    · rw [e]
      exact .refl _
    · rw [only.unit]
      by_cases hq : q = p
      · subst hq
        have still : running q s = false := Bool.eq_false_iff.mpr fun r => away (running_iff.mp r).1
        rw [State.unit_setUnit, if_pos rfl, judgement_still still, decide_eq_false away]
        exact SourceUnit.keeps_taking _
      · rw [State.unit_setUnit, if_neg hq]
        exact .refl _

theorem trails_takeWarmCount (s : State) : Trails s (takeWarmCount s) where
  layout := takeWarmCount_layout s
  port := (calm_takeWarmCount s).port
  lists q := by rw [State.markList, takeWarmCount_marks, State.markList]
  frame := takeWarmCount_frame s
  unit q _ := by
    rw [show (takeWarmCount s).unit q = s.unit q by rw [State.unit, takeWarmCount_sources, State.unit]]
    exact .refl _

theorem trails_settleUnit (p : PortId) (s : State) : Trails s (settleUnit p s) := by
  unfold settleUnit
  split
  · exact trails_takeFrameStart p s
  · exact .refl s

theorem trails_settleUnits (s : State) : Trails s (settleUnits s) :=
  foldl_related .refl (fun _ _ _ => .trans) (fun s p => trails_settleUnit p s) PortId.all s

theorem trails_settleWarm (s : State) : Trails s (settleWarm s) := by
  unfold settleWarm
  split
  · exact .refl s
  · exact trails_takeWarmCount s

theorem Idle.commit_trails (i : Idle s) (ready : ∀ q, (s.port q).engine = .ready) : Trails s (commit s) := by
  rw [i.commit_eq]
  exact ⟨rfl, fun q => .of_eq (by rw [releaseEngines_port, ← ready q]; rfl), fun _ => rfl, rfl, fun _ _ => .refl _⟩

/-- What is done behind the commit of a frame start. -/
structure Done (c t : State) : Prop where
  trails : Trails c t
  idle : Idle t
  ready : ∀ q, (t.port q).engine = .ready

theorem Done.then (d : Done c t) (g : Trails t u) : Done c u :=
  ⟨d.trails.trans g, d.idle.of_layout g.layout, fun q => (g.port q).engine.trans (d.ready q)⟩

theorem done_commit (s : State) : Done (commit s) (commit s) :=
  ⟨.refl _, commit_idle s, fun q => (commit_port s q).engine⟩

theorem Done.work (d : Done c t) (w : FrameWork) : Done c (doWork t w) := by
  cases w with
  | commit => exact d.then (d.idle.commit_trails d.ready)
  | unit p => exact d.then (trails_takeFrameStart p t)
  | timer => exact d.then (trails_takeWarmCount t)

theorem Done.works (d : Done c t) (ws : List FrameWork) : Done c (ws.foldl doWork t) := by
  induction ws generalizing t with
  | nil => exact d
  | cons w ws ih => exact ih (d.work w)

theorem settleUnits_marks (s : State) : (settleUnits s).marks = s.marks := (settleUnits_only s).2.2.2.1

/-- The state in which a frame start commits, and what the works behind the commit leave of it. -/
structure Committed (now : List FrameWork) (s u : State) : Prop where
  calmer : Calmer s u
  frame : u.scan.frame = s.scan.frame
  done : Done (commit u) (frameWork now s)
  withdrawn : FrameWork.distinct now = true → (frameWork now s).marks.withdrawn = (commit u).marks.withdrawn

theorem CommitAt.committed (g : CommitAt now before behind) (s : State) : Committed now s (before.foldl doWork s) where
  calmer := calmer_works before g.first s
  frame := works_frame_number before s
  done := by
    rw [frameWork_all, g.all, List.foldl_append]
    exact (((done_commit _).works behind).then (trails_settleUnits _)).then (trails_settleWarm _)
  withdrawn d := by
    rw [frameWork_all, g.all, List.foldl_append, (calmer_settleWarm _).marks, settleUnits_marks]
    exact congrArg MarkUnit.withdrawn (calmer_works behind (g.once d) _).marks

theorem raised_frame (s : State) : (raised s).scan.frame = s.scan.frame + 1 := by
  have frame : ∀ y : ScanTimer, (countFrame y).frame = y.frame := fun y => by
    unfold countFrame
    split <;> rfl
  rw [raised, raiseFrame_eq]
  show (countFrame s.scan).frame + 1 = _
  rw [frame]

/-! ### The settling of the sealed plan at a frame start -/

theorem keepConflict_none_calm {new : Plan} (h : Calm s u) : keepConflict new u = none ↔ keepConflict new s = none := by
  rw [keepConflict_none_iff, keepConflict_none_iff]
  exact forall_congr' fun p => forall_congr' fun y => not_congr h.orphans

theorem commit_settles (e : s.layout.sealedPlan = some sp) :
    (commit s).layout.plan = if sp.mode = .keep ∧ keepConflict sp.plan s ≠ none then s.layout.plan else sp.plan := by
  rw [commit_plan, settleSealed_eq e]
  exact settledState_plan _ _ _ _ _

theorem commit_draft (s : State) (p : PortId) : ((commit s).lay p).draft = ((settleSealed s).1.lay p).draft := by
  rw [commit_lay, applied_draft]
  exact (retireListed_draft _ p).1

theorem commit_drops (e : s.layout.sealedPlan = some sp) (evict : sp.mode = .evict) (differs : sp.plan.entries.get p ≠ s.entry p) :
    ((commit s).lay p).draft = none := by
  rw [commit_draft, settleSealed_eq e, evict]
  exact (settlePlan_evict_drops (m := .deferred) differs).1

/-- A KEEP plan that is refused is answered so. -/
theorem commit_refuses {r : Request} (e : s.layout.sealedPlan = some sp) (keep : sp.mode = .keep)
    (conflict : keepConflict sp.plan s ≠ none) (owed : (s.port .p0).owed .planSet = some r) :
    ∃ x ∈ ((commit s).port .p0).responses, x.tag = r.tag ∧ x.code = r.code ∧ x.result = .planOrphans := by
  obtain ⟨⟨q, region⟩, found⟩ := Option.ne_none_iff_exists'.mp conflict
  have answered : ((settleSealed s).1.port .p0).responses =
      (s.port .p0).responses ++ [r.answer .planOrphans (planFields s (some q) region)] := by
    rw [settleSealed_eq e, settledState, keep, settlePlan_refused _ found]
    show ((Payer.deferred.answer _ _ s).port .p0).responses = _
    rw [Payer.answer_port, if_pos rfl]
    exact Payer.pay_responses (m := .deferred) owed
  have grows : ((afterRetirement s).port .p0).responses <+: ((commit s).port .p0).responses := by
    rw [(commit_port s .p0).responses]
    exact answeredSet_prefix _ _ _
  rw [afterRetirement, retireListed_responses, answered] at grows
  exact ⟨_, grows.subset (List.mem_append_right _ (List.mem_singleton_self _)), rfl, rfl, rfl⟩

theorem raised_port (none_waits : s.marks.reports = []) (q : PortId) : (raised s).port q = s.port q := by
  rw [raised, raiseFrame_eq, takeReports_of_none none_waits]
  rfl

theorem frameWork_port (now : List FrameWork) (s : State) (q : PortId) :
    (frameWork now s).port q = ((allWorks now).foldl doWork s).port q := by
  have units : ∀ x : State, (settleUnits x).port q = x.port q := fun x => by rw [State.port, (settleUnits_only x).1, State.port]
  have warm : ∀ x : State, (settleWarm x).port q = x.port q := fun x => by
    rw [settleWarm_eq]
    split <;> rfl
  rw [frameWork_all, warm, units]

theorem frameWork_nil_port (x : State) (q : PortId) : (frameWork [] x).port q = (commit x).port q := frameWork_port [] x q

theorem all_heard {ms ns : List Notice} {c d e : PortController} (same : e = d) (h : Heard (ms ++ ns) c d) :
    Heard ([] ++ ms ++ ns ++ []) c e := by
  rw [same, List.nil_append, List.append_nil]
  exact h

theorem planNotices_calm {new : Plan} {mode : PlanMode} {f : FrameNo} {first last : List Notice} (h : Calm s u)
    (port : u.port q = s.port q) (g : planNotices new mode f first last u t q) : planNotices new mode f first last s t q := by
  simp only [planNotices, changedBits, h.entry, h.liveEntries, h.setup, State.editState, h.lay, withNotices_eq, port] at g ⊢
  exact g

/-- Settles O45: the commit settles the plan, and the works before and behind it leave what it reads and what it makes. -/
theorem frameStartSettlesPlan : Obligations.FrameStartSettlesPlan := by
  intro now sp s runs ends stays waits_plan
  obtain ⟨before, behind, place⟩ := exists_commitAt now
  have made := place.committed (raised s)
  refine ⟨_, exec_frameStart now runs ends stays, ?_⟩
  generalize hu : before.foldl doWork (raised s) = u at made
  have calm : Calm s u := (raised_calm s).trans made.calmer.calm
  have trails := made.done.trails
  have frame : u.scan.frame = s.scan.frame + 1 := made.frame.trans (raised_frame s)
  have e : u.layout.sealedPlan = some sp := by rw [calm.layout, waits_plan]
  have plan := commit_settles e
  refine ⟨fun evict => ⟨?_, fun p differs => ?_⟩, fun keep => ⟨fun fits => ?_, fun conflict => ⟨?_, fun r owed => ?_⟩⟩,
    fun law waiting on attached => ?_⟩
  · rw [trails.layout, plan, if_neg (by rw [evict]; exact fun n => nomatch n.1)]
  · rw [trails.lay]
    exact commit_drops e evict (by rw [calm.entry]; exact differs)
  · rw [trails.layout, plan, if_neg fun n => n.2 ((keepConflict_none_calm calm).mpr fits)]
  · rw [trails.layout, plan, if_pos ⟨keep, mt (keepConflict_none_calm calm).mp conflict⟩, calm.layout]
  · rw [(trails.port .p0).responses]
    exact commit_refuses e keep (mt (keepConflict_none_calm calm).mp conflict) (((calm.port .p0).owed _).trans owed)
  · have waits : ∀ q, WaitOf u q := fun q => calm.waitOf ((waitingLaw_iff.mp waiting).2 q)
    have table := calm.tableLaw law
    refine ⟨fun r owed => ?_, fun distinct => ?_, fun none_listed reports applies p _ after => ?_⟩
    · have settled := commit_planSettled table waits ((calm.attach .p0).trans attached) e on
        (((calm.port .p0).owed _).trans owed)
      rw [frame] at settled
      exact planSettled_between calm trails settled
    · exact setsStillApplied_between calm trails (made.withdrawn distinct) (commit_setsStillApplied table waits e)
    · subst none_listed
      have nothing_before : before = [] := by
        rcases place.listed with l | ⟨l, -⟩
        · exact absurd l (by simp)
        · exact l.symm
      subst nothing_before
      have start : raised s = u := hu
      subst start
      have attached : ((commit (raised s)).port p).attach = .attached := (trails.port p).attach.symm.trans after
      obtain ⟨lefts, kinds, zero, heard⟩ := commit_planTold table e (Applies.calm applies calm) attached
      have told := planNotices_of kinds zero (all_heard (frameWork_nil_port (raised s) p) heard)
      rw [frame] at told
      exact planNotices_calm (raised_calm s) (raised_port reports p) told

end

end Sys2Proof.Machine
end

