-- ==== Sys2Proof/Proofs/UnitsAtFrameStart.lean ====
section
/-! PROOFS. One Source Unit through the works of a frame start (R113, R114, R117): where its own work stands in the order, or
where the order leaves it out. -/

namespace Sys2Proof.Machine

section
variable {p q : PortId} {b c s t u v x y z : State} {now before behind ws : List FrameWork} {w : FrameWork} {e : PlanEntry}

theorem raised_unit (s : State) (p : PortId) : (raised s).unit p =
    { s.unit p with pulsed := false, frameWaiting := decide ((s.port p).attach = .attached) } := by
  rw [raised, raiseFrame_eq]
  have unit : ∀ r, ((takeReports s).setScan (countFrame s.scan)).unit r = s.unit r := fun r => by
    show (takeReports s).unit r = _
    rw [State.unit, takeReports_sources, State.unit]
  have attach : ∀ r, (((takeReports s).setScan (countFrame s.scan)).port r).attach = (s.port r).attach := fun r =>
    ((calm_takeReports s).port r).attach
  simp only [unit, attach]
  cases p <;> rfl

/-! ### One work -/

theorem takeFrameStart_unit (attached : (s.port p).attach = .attached) (waits : (s.unit p).frameWaiting = true) :
    (takeFrameStart p s).unit p = (judgement p s).1.taking true := by
  unfold takeFrameStart
  rw [if_pos waits, (storeNotices_only _ _).unit, State.unit_setUnit, if_pos rfl, decide_eq_true attached]

theorem takeFrameStart_other (n : p ≠ q) (s : State) : (takeFrameStart q s).unit p = s.unit p := by
  rcases takeFrameStart_cases q s with ⟨-, e⟩ | ⟨-, only⟩
  · rw [e]
  · rw [only.unit, State.unit_setUnit, if_neg n]

theorem takeFrameStart_taken (taken : (s.unit p).frameWaiting = false) : takeFrameStart p s = s := by
  rw [takeFrameStart, taken]
  rfl

theorem takeFrameStart_skip (n : p ≠ q ∨ (s.unit p).frameWaiting = false) : (takeFrameStart q s).unit p = s.unit p := by
  by_cases h : p = q
  · subst h
    rw [takeFrameStart_taken (n.resolve_left fun g => g rfl)]
  · exact takeFrameStart_other h s

theorem takeWarmCount_unit (s : State) (p : PortId) : (takeWarmCount s).unit p = s.unit p := by
  rw [State.unit, takeWarmCount_sources, State.unit]

theorem doWork_attached (after : ((doWork s w).port q).attach = .attached) : (s.port q).attach = .attached := by
  by_cases h : w = .commit
  · subst h
    exact (commit_attached after).1
  · exact ((calmer_doWork h s).calm.port q).attach.symm.trans after

theorem works_attached (ws : List FrameWork) (after : ((ws.foldl doWork s).port q).attach = .attached) :
    (s.port q).attach = .attached := by
  induction ws generalizing s with
  | nil => exact after
  | cons w ws ih => exact doWork_attached (ih after)

theorem work_ne (n : w ≠ .unit p ∨ (s.unit p).frameWaiting = false) {r : PortId} (h : w = .unit r) :
    p ≠ r ∨ (s.unit p).frameWaiting = false :=
  n.imp_left fun g e => g (e ▸ h)

/-- A work of another block, and its own once it has taken the frame start, leave a unit, but that a commit may take its port
out of ATTACHED. -/
theorem doWork_eased (n : w ≠ .unit p ∨ (s.unit p).frameWaiting = false) : (s.unit p).Eased ((doWork s w).unit p) := by
  cases w with
  | commit => exact commit_eased s p
  | unit r => exact .of_eq (takeFrameStart_skip (work_ne n rfl))
  | timer => exact .of_eq (takeWarmCount_unit s p)

theorem doWork_unit (n : w ≠ .unit p ∨ (s.unit p).frameWaiting = false) (after : ((doWork s w).port p).attach = .attached) :
    (doWork s w).unit p = s.unit p := by
  cases w with
  | commit => exact (commit_attached after).2.2
  | unit r => exact takeFrameStart_skip (work_ne n rfl)
  | timer => exact takeWarmCount_unit s p

/-! ### A list of works -/

theorem works_eased (n : .unit p ∉ ws ∨ (s.unit p).frameWaiting = false) : (s.unit p).Eased ((ws.foldl doWork s).unit p) := by
  induction ws generalizing s with
  | nil => exact .refl _
  | cons w ws ih =>
    have one := doWork_eased (w := w) (n.imp_left fun g e => g (e ▸ List.mem_cons_self))
    exact one.trans (ih (n.imp (fun g m => g (List.mem_cons_of_mem _ m)) one.taken))

theorem works_unit (n : .unit p ∉ ws ∨ (s.unit p).frameWaiting = false)
    (after : ((ws.foldl doWork s).port p).attach = .attached) : (ws.foldl doWork s).unit p = s.unit p := by
  induction ws generalizing s with
  | nil => rfl
  | cons w ws ih =>
    have one := doWork_unit (w := w) (n.imp_left fun g e => g (e ▸ List.mem_cons_self)) (works_attached ws after)
    exact (ih (n.imp (fun g m => g (List.mem_cons_of_mem _ m)) fun g => by rw [one, g]) after).trans one

theorem works_unit_taking (first : .unit p ∉ before) (waits : (s.unit p).frameWaiting = true)
    (after : (((before ++ .unit p :: behind).foldl doWork s).port p).attach = .attached) :
    ((before ++ .unit p :: behind).foldl doWork s).unit p = (judgement p (before.foldl doWork s)).1.taking true ∧
      (before.foldl doWork s).unit p = s.unit p ∧ ((before.foldl doWork s).port p).attach = .attached := by
  rw [List.foldl_append, List.foldl_cons] at after ⊢
  have taken := works_attached behind after
  have attached : ((before.foldl doWork s).port p).attach = .attached := doWork_attached taken
  have same := works_unit (.inl first) attached
  have one := takeFrameStart_unit attached (by rw [same, waits])
  exact ⟨(works_unit (.inr (congrArg SourceUnit.frameWaiting one)) after).trans one, same, attached⟩

/-! ### What the frame start leaves to the end -/

theorem settleUnit_unit (p : PortId) (s : State) (q : PortId) (n : p ≠ q) : (settleUnit q s).unit p = s.unit p := by
  rcases settleUnit_cases q s with ⟨-, e⟩ | ⟨-, e⟩
  · rw [e, takeFrameStart_other n]
  · rw [e]

theorem settleUnits_unit (p : PortId) (s : State) : (settleUnits s).unit p = (settleUnit p s).unit p := by
  obtain ⟨y, -, ⟨unit, port, layout⟩, after⟩ := foldl_all_at (I := fun _ : State => True)
    (R := fun a b : State => b.unit p = a.unit p ∧ b.port p = a.port p ∧ b.layout = a.layout)
    (fun _ => ⟨rfl, rfl, rfl⟩) (fun f g => ⟨g.1.trans f.1, g.2.1.trans f.2.1, g.2.2.trans f.2.2⟩) (f := fun s p => settleUnit p s)
    (fun _ _ _ => trivial) p
    (fun a r _ n => ⟨settleUnit_unit p a r n, by rw [settleUnit_eq]; split <;> rfl, (trails_settleUnit r a).layout⟩)
    s trivial
  have judged : judgement p y = judgement p s := by
    unfold judgement running State.entry
    rw [unit, port, layout]
  rw [settleUnits, after.1, settleUnit_eq, settleUnit_eq, judged, unit, port]
  split
  · rw [State.unit_setUnit, State.unit_setUnit, if_pos rfl, if_pos rfl]
  · exact unit

theorem settleUnit_taking (attached : (s.port p).attach = .attached) (waits : (s.unit p).frameWaiting = true) :
    (settleUnit p s).unit p =
      if (judgement p s).2 = none then (judgement p s).1.taking true else s.unit p := by
  unfold settleUnit
  split
  · exact takeFrameStart_unit attached waits
  · rfl

theorem settleUnit_taken (taken : (s.unit p).frameWaiting = false) : settleUnit p s = s := by
  unfold settleUnit
  rw [takeFrameStart_taken taken, ite_self]

theorem settleWarm_unit (s : State) (p : PortId) : (settleWarm s).unit p = s.unit p := by
  unfold settleWarm
  split
  · rfl
  · exact takeWarmCount_unit s p

/-- A unit after a frame start it has taken: judged by an entry, its pulse given. -/
structure Judged (e : PlanEntry) (u v : SourceUnit) : Prop where
  judged : judgedTo e u v
  fsync : v.fsync = true
  pulsed : v.pulsed = true
  taken : v.frameWaiting = false

theorem judged_taking {u : SourceUnit} (attached : (s.port p).attach = .attached) (unit : s.unit p = u) :
    Judged (s.entry p) u ((judgement p s).1.taking true) := by
  subst unit
  exact ⟨judgedTo_judgement attached, rfl, rfl, rfl⟩

/-- A unit at which the frame start waits once the works are done: taken where it reaches no count, waiting on where it does. -/
structure JudgedOrWaits (e : PlanEntry) (u v : SourceUnit) : Prop where
  takes : ¬(1 ≤ u.sh ∧ reachesCount e u) → Judged e u v
  waits : 1 ≤ u.sh ∧ reachesCount e u → v = u

theorem settleUnits_settled {u : SourceUnit} (attached : (s.port p).attach = .attached) (unit : s.unit p = u)
    (waits : u.frameWaiting = true) : JudgedOrWaits (s.entry p) u ((settleUnits s).unit p) := by
  subst unit
  have raises := judgement_raises_iff attached
  rw [settleUnits_unit, settleUnit_taking attached waits]
  constructor
  · intro n
    rw [if_pos (raises.mpr n)]
    exact judged_taking attached rfl
  · intro r
    rw [if_neg fun n => raises.mp n r]

theorem settleUnits_taken (taken : (s.unit p).frameWaiting = false) : (settleUnits s).unit p = s.unit p := by
  rw [settleUnits_unit, settleUnit_taken taken]

/-! ### The whole frame start -/

theorem frameWork_unit (now : List FrameWork) (s : State) (p : PortId) :
    (frameWork now s).unit p = (settleUnits ((allWorks now).foldl doWork s)).unit p := by
  rw [frameWork_all, settleWarm_unit]

theorem frameWork_attach (now : List FrameWork) (s : State) (p : PortId) :
    ((frameWork now s).port p).attach = (((allWorks now).foldl doWork s).port p).attach := by
  rw [frameWork_port]

theorem frameWork_entry (now : List FrameWork) (s : State) (p : PortId) :
    (frameWork now s).entry p = ((allWorks now).foldl doWork s).entry p := by
  rw [frameWork_all, ((trails_settleUnits _).trans (trails_settleWarm _)).entry]

theorem allWorks_mem (n : w ≠ .commit) : w ∈ allWorks now ↔ w ∈ now := by
  unfold allWorks
  split
  · rfl
  · simp [n]

theorem allWorks_append (e : now = before ++ w :: behind) : ∃ more, allWorks now = before ++ w :: more := by
  unfold allWorks
  split
  · exact ⟨behind, e⟩
  · exact ⟨behind ++ [.commit], by rw [e]; simp⟩

/-- The entry that a work reads: behind the commit that of the plan the commit leaves. -/
theorem works_entry (split : allWorks now = before ++ behind) (s : State) (p : PortId) :
    (before.foldl doWork s).entry p = if .commit ∈ before then (frameWork now s).entry p else s.entry p := by
  split
  · rename_i m
    obtain ⟨early, late, e, n⟩ := List.eq_append_cons_of_mem m
    rw [frameWork_entry, split, e, List.foldl_append, List.foldl_append, List.foldl_append, List.foldl_cons]
    have one := (done_commit (early.foldl doWork s)).works late
    exact (one.trails.entry p).trans ((one.works behind).trails.entry p).symm
  · rename_i n
    exact (calmer_works before n s).calm.entry p

theorem frameWork_unlisted (n : .unit p ∉ now) (waits : (s.unit p).frameWaiting = true)
    (after : ((frameWork now s).port p).attach = .attached) :
    JudgedOrWaits ((frameWork now s).entry p) (s.unit p) ((frameWork now s).unit p) := by
  rw [frameWork_attach] at after
  rw [frameWork_unit, frameWork_entry]
  exact settleUnits_settled after (works_unit (.inl fun m => n ((allWorks_mem (by simp)).mp m)) after) waits

theorem frameWork_listed (e : now = before ++ .unit p :: behind) (first : .unit p ∉ before) (waits : (s.unit p).frameWaiting = true)
    (after : ((frameWork now s).port p).attach = .attached) :
    Judged (if .commit ∈ before then (frameWork now s).entry p else s.entry p) (s.unit p) ((frameWork now s).unit p) := by
  obtain ⟨more, all⟩ := allWorks_append e
  have entry := works_entry all s p
  rw [frameWork_attach, all] at after
  obtain ⟨taking, same, attached⟩ := works_unit_taking first waits after
  rw [frameWork_unit, all, settleUnits_taken (by rw [taking]; rfl), taking, ← entry]
  exact judged_taking attached same

/-- A unit that takes the frame start before the commit has pulsed, also where the commit then takes its port out of ATTACHED. -/
theorem frameWork_pulsed (e : now = before ++ .unit p :: behind) (early : .commit ∉ before)
    (attached : (s.port p).attach = .attached) (waits : (s.unit p).frameWaiting = true) :
    ((frameWork now s).unit p).pulsed = true := by
  obtain ⟨front, more, all, first, none_commits⟩ : ∃ front more, allWorks now = front ++ .unit p :: more ∧ .unit p ∉ front ∧
      FrameWork.commit ∉ front := by
    by_cases m : .unit p ∈ before
    · obtain ⟨front, rest, split, first⟩ := List.eq_append_cons_of_mem m
      obtain ⟨more, all⟩ := allWorks_append (w := .unit p) (before := front) (behind := rest ++ .unit p :: behind)
        (e.trans (by rw [split, List.append_assoc, List.cons_append]))
      exact ⟨front, more, all, first, fun m => early (split ▸ List.mem_append_left _ m)⟩
    · obtain ⟨more, all⟩ := allWorks_append e
      exact ⟨before, more, all, m, early⟩
  have calm := calmer_works front none_commits s
  have there : ((front.foldl doWork s).port p).attach = .attached := (calm.calm.attach p).trans attached
  have same := works_unit (.inl first) there
  have one := takeFrameStart_unit there (by rw [same, waits])
  have taken : ((doWork (front.foldl doWork s) (.unit p)).unit p).frameWaiting = false := congrArg SourceUnit.frameWaiting one
  have eased := works_eased (ws := more) (.inr taken)
  rw [frameWork_unit, all, List.foldl_append, List.foldl_cons, settleUnits_taken (eased.taken taken), eased.pulsed]
  exact congrArg SourceUnit.pulsed one

theorem frameWork_not_pulsed (taken : (s.unit p).frameWaiting = false) (quiet : (s.unit p).pulsed = false) :
    ((frameWork now s).unit p).pulsed = false := by
  have eased := works_eased (ws := allWorks now) (.inr taken)
  rw [frameWork_unit, settleUnits_taken (eased.taken taken), eased.pulsed, quiet]

end

end Sys2Proof.Machine
end

