-- ==== Sys2Proof/Proofs/NoticesOfWorks.lean ====
section
/-! PROOFS. What an ATTACHED port hears of the works of a frame start (R116, R147, R166), and what they leave of the scan. -/

namespace Sys2Proof.Machine

/-- The Scan Timer once it has taken a warm count that waits (R143). -/
def ScanTimer.counted (t : ScanTimer) : ScanTimer :=
  if t.warmWaiting then
    if t.setup.warm ≤ t.warm + 1 then { t with panel := .live, warm := 0, warmWaiting := false }
    else { t with warm := t.warm + 1, warmWaiting := false }
  else t

/-- The notice of a warm count that completes the warm value (R147). -/
def warmTold (t : ScanTimer) : List Notice :=
  if t.warmWaiting = true ∧ t.setup.warm ≤ t.warm + 1 then
    [{ kind := .panelState, subject := 0x02, frame := t.frame, count := 1, detail := t.panel.byte }]
  else []

/-- A notice of the Source Unit of port p. -/
def Notice.ofUnit (p : PortId) (n : Notice) : Bool :=
  (n.kind == .sourceLocked || n.kind == .sourceLost) && n.subject == byteOf p.toNat

/-- What a port hears of works done from a state: of a unit that is not among them, or has taken the frame start, nothing, and
of the panel the completed warm count. -/
structure Told (ws : List FrameWork) (q : PortId) (s : State) (ns : List Notice) : Prop where
  heard : Heard ns (s.port q) ((ws.foldl doWork s).port q)
  units : ∀ p, (.unit p ∉ ws ∨ (s.unit p).frameWaiting = false) → (ns.filter fun n => n.ofUnit p) = []
  panel : (ns.filter fun n => n.kind == .panelState) = if .timer ∈ ws then warmTold s.scan else []

section
variable {p q : PortId} {b c s t u x y z : State} {now before behind ws vs : List FrameWork} {w : FrameWork} {e : PlanEntry}
  {ns ms : List Notice}

/-! ### The scan -/

theorem scan_takeWarmCount (s : State) : (takeWarmCount s).scan = s.scan.counted := by
  unfold ScanTimer.counted
  rcases takeWarmCount_cases s with ⟨n, e⟩ | ⟨w, r, e⟩ | ⟨w, r, e⟩
  · rw [e, n]
    rfl
  · rw [e, if_pos w, if_pos r]
    exact (storeNotices_only _ _).scan
  · rw [e, if_pos w, if_neg (by omega)]
    rfl

theorem ScanTimer.counted_waits (y : ScanTimer) : y.counted.warmWaiting = false := by
  unfold ScanTimer.counted
  split
  · split <;> rfl
  · rename_i n
    exact Bool.eq_false_iff.mpr n

theorem ScanTimer.counted_of_none {y : ScanTimer} (n : y.warmWaiting = false) : y.counted = y := by
  rw [ScanTimer.counted, n]
  rfl

theorem ScanTimer.counted_twice (y : ScanTimer) : y.counted.counted = y.counted := counted_of_none y.counted_waits

theorem doWork_scan (w : FrameWork) (s : State) : (doWork s w).scan = if w = .timer then s.scan.counted else s.scan := by
  cases w with
  | commit => exact (commit_samePanel s).scan
  | unit p => exact (takeFrameStart_layout p s).2.2.scan
  | timer => exact scan_takeWarmCount s

theorem works_scan (ws : List FrameWork) (s : State) :
    (ws.foldl doWork s).scan = if .timer ∈ ws then s.scan.counted else s.scan := by
  induction ws generalizing s with
  | nil => rfl
  | cons w ws ih =>
    rw [List.foldl_cons, ih, doWork_scan]
    by_cases h : w = .timer
    · subst h
      simp [ScanTimer.counted_twice]
    · simp [h, Ne.symm h]

theorem works_comp (ws : List FrameWork) (s : State) : (ws.foldl doWork s).comp = s.comp := by
  induction ws generalizing s with
  | nil => rfl
  | cons w ws ih =>
    rw [List.foldl_cons, ih]
    cases w with
    | commit => exact (commit_samePanel s).comp
    | unit p => exact (takeFrameStart_layout p s).2.2.comp
    | timer => exact takeWarmCount_comp s

theorem frameWork_scan (now : List FrameWork) (s : State) : (frameWork now s).scan =
    if .timer ∈ now then s.scan.counted
    else if s.scan.setup.warm ≤ s.scan.warm + 1 then s.scan else s.scan.counted := by
  have units : (settleUnits ((allWorks now).foldl doWork s)).scan = if .timer ∈ now then s.scan.counted else s.scan := by
    rw [(settleUnits_only _).2.2.2.2.scan, works_scan]
    exact if_congr (allWorks_mem (by simp)) rfl rfl
  rw [frameWork_all, settleWarm]
  split at units
  · split
    · exact units
    · rw [scan_takeWarmCount, units, ScanTimer.counted_twice]
  · rw [units]
    split
    · exact units
    · rw [scan_takeWarmCount, units]

theorem frameWork_comp (now : List FrameWork) (s : State) : (frameWork now s).comp = s.comp := by
  have warm : ∀ x : State, (settleWarm x).comp = x.comp := fun x => by
    rw [settleWarm_eq]
    split <;> rfl
  rw [frameWork_all, warm, (settleUnits_only _).2.2.2.2.comp, works_comp]

/-! ### One work -/

theorem warmTold_counted (y : ScanTimer) : warmTold y.counted = [] := by
  rw [warmTold, y.counted_waits, if_neg (by simp)]

theorem heard_takeWarmCount (s : State) (q : PortId) : Heard (warmTold s.scan) (s.port q) ((takeWarmCount s).port q) := by
  unfold takeWarmCount warmTold
  cases waits : s.scan.warmWaiting with
  | false => exact .refl _
  | true =>
    by_cases r : s.scan.setup.warm ≤ s.scan.warm + 1
    · simp only [if_true, if_pos r, true_and]
      exact heard_announcePanel s.scan.panel (s.setScan { s.scan with panel := .live, warm := 0, warmWaiting := false }) q
    · simp only [if_true, if_neg r, true_and]
      exact .refl _

theorem kind_of_judgementNotices {v : SourceUnit} {k : Option NoticeKind} {r : PortId} {n : PortId × Notice}
    (m : n ∈ judgementNotices r v k s) :
    (n.2.kind = .sourceLocked ∨ n.2.kind = .sourceLost) ∧ n.2.subject = byteOf r.toNat := by
  unfold judgementNotices at m
  split at m
  · rw [List.mem_singleton.mp m]
    exact ⟨.inl rfl, rfl⟩
  · split at m
    · rw [List.mem_singleton.mp m]
      exact ⟨.inr rfl, rfl⟩
    · rcases List.mem_cons.mp m with h | h
      · rw [h]
        exact ⟨.inr rfl, rfl⟩
      · rw [List.mem_singleton.mp h]
        exact ⟨.inr rfl, rfl⟩
  · cases m

/-- What a port hears of one unit's work. -/
def unitTold (q p : PortId) (s : State) : List Notice :=
  if (s.unit p).frameWaiting = true then sentTo q (judgementNotices p (judgement p s).1 (judgement p s).2 s) else []

theorem kind_of_unitTold {n : Notice} {r : PortId} (m : n ∈ unitTold q r s) :
    (n.kind = .sourceLocked ∨ n.kind = .sourceLost) ∧ n.subject = byteOf r.toNat := by
  unfold unitTold at m
  split at m
  · obtain ⟨p, m⟩ := mem_sentTo m
    exact kind_of_judgementNotices m
  · cases m

theorem told_unit (r q : PortId) (s : State) : Told [.unit r] q s (unitTold q r s) where
  heard := heard_takeFrameStart r q s
  units p n := by
    by_cases h : p = r
    · subst h
      have taken := n.resolve_left fun g => g (List.mem_singleton_self _)
      rw [unitTold, taken]
      rfl
    · refine List.filter_eq_nil_iff.mpr fun m mem own => ?_
      have subject := (kind_of_unitTold mem).2
      simp only [Notice.ofUnit, Bool.and_eq_true, beq_iff_eq] at own
      exact h (byteOf_toNat_injective (own.2.symm.trans subject))
  panel := by
    rw [if_neg (by simp), List.filter_eq_nil_iff]
    intro m mem own
    rcases (kind_of_unitTold mem).1 with k | k <;> rw [k] at own <;> cases own

theorem kind_of_warmTold {y : ScanTimer} {n : Notice} (m : n ∈ warmTold y) : n.kind = .panelState := by
  unfold warmTold at m
  split at m
  · rw [List.mem_singleton.mp m]
  · cases m

theorem told_timer (q : PortId) (s : State) : Told [.timer] q s (warmTold s.scan) where
  heard := heard_takeWarmCount s q
  units p _ := by
    refine List.filter_eq_nil_iff.mpr fun m mem own => ?_
    rw [Notice.ofUnit, kind_of_warmTold mem] at own
    cases own
  panel := by
    rw [if_pos (List.mem_singleton_self _), List.filter_eq_self]
    exact fun m mem => by rw [kind_of_warmTold mem]; rfl

/-- A commit speaks of ports that leave and of the plan alone. -/
theorem told_commit (heard : Heard ns (s.port q) ((commit s).port q)) (kinds : ∀ n ∈ ns, n.kind = .portLeft ∨ n.kind.OfPlan) :
    Told [.commit] q s ns where
  heard := heard
  units p _ := by
    refine List.filter_eq_nil_iff.mpr fun m mem own => ?_
    rcases kinds m mem with k | k | k | k <;> rw [Notice.ofUnit, k] at own <;> cases own
  panel := by
    rw [if_neg (by simp), List.filter_eq_nil_iff]
    intro m mem own
    rcases kinds m mem with k | k | k | k <;> rw [k] at own <;> cases own

theorem told_nil (q : PortId) (s : State) : Told [] q s [] := ⟨.refl _, fun _ _ => rfl, rfl⟩

theorem Told.append (h : Told ws q s ns) (g : Told vs q (ws.foldl doWork s) ms) : Told (ws ++ vs) q s (ns ++ ms) where
  heard := by
    rw [List.foldl_append]
    exact h.heard.trans g.heard
  units p n := by
    have taken : .unit p ∉ vs ∨ ((ws.foldl doWork s).unit p).frameWaiting = false :=
      n.imp (fun a m => a (List.mem_append_right _ m)) fun f => (works_eased (.inr f)).taken f
    rw [List.filter_append, h.units p (n.imp_left fun a m => a (List.mem_append_left _ m)), g.units p taken]
    rfl
  panel := by
    rw [List.filter_append, h.panel, g.panel, works_scan]
    by_cases a : FrameWork.timer ∈ ws
    · simp [a, warmTold_counted]
    · simp [a]

/-! ### A list of works -/

theorem Idle.heard_commit (i : Idle s) (q : PortId) : Heard [] (s.port q) ((commit s).port q) := by
  rw [i.commit_eq, releaseEngines_port]
  exact .quiet rfl rfl rfl

/-- What a port that is ATTACHED behind the works hears of them; of a departure only where one of them commits what waits. -/
theorem works_told (ws : List FrameWork) (after : ((ws.foldl doWork s).port q).attach = .attached) : ∃ ns, Told ws q s ns ∧
    (.commit ∉ ws ∨ Idle s → ∀ n ∈ ns, n.kind ≠ .portLeft) := by
  induction ws generalizing s with
  | nil => exact ⟨[], told_nil q s, fun _ => nofun⟩
  | cons w ws ih =>
    obtain ⟨ms, told, lefts⟩ := ih after
    have attached := works_attached ws after
    have one : ∃ ns, Told [w] q s ns ∧ (w ≠ .commit ∨ Idle s → ∀ n ∈ ns, n.kind ≠ .portLeft) := by
      cases w with
      | commit =>
        by_cases i : Idle s
        · exact ⟨[], told_commit (i.heard_commit q) nofun, fun _ => nofun⟩
        · obtain ⟨ls, kinds, -, heard⟩ := commit_heard attached
          refine ⟨_, told_commit heard fun n m => ?_, fun n => absurd rfl (n.resolve_right i)⟩
          refine (List.mem_append.mp m).imp (kinds n) fun g => ?_
          obtain ⟨r, g⟩ := mem_sentTo g
          exact settleSealed_kinds s _ g
      | unit r =>
        refine ⟨_, told_unit r q s, fun _ n m k => ?_⟩
        rcases (kind_of_unitTold m).1 with h | h <;> rw [h] at k <;> cases k
      | timer => exact ⟨_, told_timer q s, fun _ n m k => by rw [kind_of_warmTold m] at k; cases k⟩
    obtain ⟨ns, first, left⟩ := one
    refine ⟨ns ++ ms, first.append told, fun n m g => ?_⟩
    rcases List.mem_append.mp g with g | g
    · exact left (n.imp_left fun a h => a (h ▸ List.mem_cons_self)) m g
    · refine lefts ?_ m g
      rcases n with a | i
      · exact .inl fun h => a (List.mem_cons_of_mem _ h)
      · by_cases h : w = .commit
        · subst h
          exact .inr (i.of_layout i.commit_layout)
        · exact .inr (i.of_layout (calmer_doWork h s).calm.layout)

end

end Sys2Proof.Machine
end

