-- ==== Sys2Proof/Proofs/FrameStartCommits.lean ====
section
/-! PROOFS. A frame start: the frame number, the count of the panel state, the commit of whatever waits, and the PORT_LEFT of
each port on the retirement list (R139, R143, R146, R166). -/

namespace Sys2Proof.Machine

section
variable {p q : PortId} {b c s t u x y z : State} {now before behind ws vs : List FrameWork} {w : FrameWork}
  {ns ms : List Notice} {why : LeaveReason}

/-! ### The scan -/

theorem raised_scan (s : State) : (raised s).scan = { countFrame s.scan with frame := s.scan.frame + 1, pos := none } := by
  have frame : (countFrame s.scan).frame = s.scan.frame := by
    unfold countFrame
    split <;> rfl
  rw [raised, raiseFrame_eq]
  show ({ countFrame s.scan with frame := (countFrame s.scan).frame + 1, pos := none } : ScanTimer) = _
  rw [frame]

theorem ScanTimer.counted_fields (y : ScanTimer) :
    y.counted.frame = y.frame ∧ y.counted.pos = y.pos ∧ y.counted.setup = y.setup := by
  unfold ScanTimer.counted
  split
  · split <;> exact ⟨rfl, rfl, rfl⟩
  · exact ⟨rfl, rfl, rfl⟩

/-- The Scan Timer behind a frame start, as it stood at its raise or with the warm count taken. -/
theorem frameWork_scan_or (now : List FrameWork) (s : State) :
    (frameWork now s).scan = s.scan ∨ (frameWork now s).scan = s.scan.counted := by
  rw [frameWork_scan]
  split
  · exact .inr rfl
  · split
    · exact .inl rfl
    · exact .inr rfl

theorem frameWork_scan_of_none (n : s.scan.warmWaiting = false) (now : List FrameWork) : (frameWork now s).scan = s.scan := by
  rcases frameWork_scan_or now s with e | e
  · exact e
  · rw [e, ScanTimer.counted_of_none n]

theorem countFrame_setup (y : ScanTimer) : (countFrame y).setup = y.setup := by
  unfold countFrame
  split <;> rfl

theorem frameWork_number (now : List FrameWork) (s : State) :
    (frameWork now (raised s)).scan.frame = s.scan.frame + 1 ∧ (frameWork now (raised s)).scan.pos = none ∧
      (frameWork now (raised s)).scan.setup = s.scan.setup := by
  obtain ⟨frame, pos, setup⟩ := ScanTimer.counted_fields (raised s).scan
  rcases frameWork_scan_or now (raised s) with e | e
  · rw [e, raised_scan]
    exact ⟨rfl, rfl, countFrame_setup _⟩
  · rw [e, frame, pos, setup, raised_scan]
    exact ⟨rfl, rfl, countFrame_setup _⟩

theorem countFrame_warming {y : ScanTimer} (h : y.panel = .warming) : countFrame y = { y with warmWaiting := true } := by
  unfold countFrame
  split <;> simp_all

theorem countFrame_cooling {y : ScanTimer} (h : y.panel = .cooling) : countFrame y =
    { y with cool := if y.coolingFrame then y.cool + 1 else y.cool, coolingFrame := true } := by
  unfold countFrame
  split <;> simp_all

theorem countFrame_live {y : ScanTimer} (h : y.panel = .live) : countFrame y = y := by
  unfold countFrame
  split <;> simp_all

/-- The warm count of a frame start: below the warm value it is taken; at the warm value it is where the order has it, and
waits where not. -/
theorem frameWork_warming (h : s.scan.panel = .warming) (now : List FrameWork) :
    (s.scan.warm + 1 < s.scan.setup.warm → (frameWork now (raised s)).scan.panel = .warming ∧
      (frameWork now (raised s)).scan.warm = s.scan.warm + 1 ∧ (frameWork now (raised s)).scan.warmWaiting = false) ∧
    (s.scan.setup.warm ≤ s.scan.warm + 1 →
      (.timer ∈ now → (frameWork now (raised s)).scan.panel = .live ∧ (frameWork now (raised s)).scan.warm = 0 ∧
        (frameWork now (raised s)).scan.warmWaiting = false) ∧
      (.timer ∉ now → (frameWork now (raised s)).scan.panel = .warming ∧
        (frameWork now (raised s)).scan.warm = s.scan.warm ∧ (frameWork now (raised s)).scan.warmWaiting = true)) := by
  rw [frameWork_scan, raised_scan, countFrame_warming h, ScanTimer.counted]
  refine ⟨fun below => ?_, fun reached => ⟨fun listed => ?_, fun unlisted => ?_⟩⟩
  · have n : ¬s.scan.setup.warm ≤ s.scan.warm + 1 := by omega
    rw [if_pos rfl, if_neg n, if_neg n, ite_self]
    exact ⟨h, rfl, rfl⟩
  · rw [if_pos listed, if_pos rfl, if_pos reached]
    exact ⟨rfl, rfl, rfl⟩
  · rw [if_neg unlisted, if_pos reached]
    exact ⟨h, rfl, rfl⟩

/-! ### The PORT_LEFT of the retirement list -/

theorem filter_portLeft {ps : List PortId} (nodup : ps.Nodup) (mem : p ∈ ps) (f : FrameNo) (c : PortId → PortController) :
    ((ps.filterMap fun r => (c r).portLeft f r).filter fun n => n.kind == .portLeft && n.subject == byteOf p.toNat) =
      ((c p).portLeft f p).toList := by
  have none_of : ∀ rs : List PortId, p ∉ rs →
      ((rs.filterMap fun r => (c r).portLeft f r).filter fun n => n.kind == .portLeft && n.subject == byteOf p.toNat) = [] :=
    fun rs n => List.filter_eq_nil_iff.mpr fun m mem own => by
      obtain ⟨r, there, e⟩ := List.mem_filterMap.mp mem
      have subject := (PortController.portLeft_eq (Option.mem_toList.mpr e)).2
      simp only [Bool.and_eq_true, beq_iff_eq] at own
      exact n (byteOf_toNat_injective (own.2.symm.trans subject) ▸ there)
  obtain ⟨early, late, e⟩ := List.append_of_mem mem
  subst e
  obtain ⟨-, -, apart⟩ := List.nodup_append.mp nodup
  have n1 : p ∉ early := fun m => apart p m p List.mem_cons_self rfl
  have n2 : p ∉ late := (List.nodup_cons.mp (List.nodup_append.mp nodup).2.1).1
  rw [List.filterMap_append, List.filter_append, none_of early n1, List.nil_append, List.filterMap_cons]
  cases found : (c p).portLeft f p with
  | none => exact none_of late n2
  | some n =>
    obtain ⟨kind, subject⟩ := PortController.portLeft_eq (Option.mem_toList.mpr found)
    simp only [Option.toList_some]
    rw [List.filter_cons_of_pos (by rw [kind, subject]; simp), none_of late n2]

/-- What a commit tells an ATTACHED port; of the ports on the retirement list port 0 hears of each that leaves, once. -/
theorem commit_heard_listed (h : s.TableLaw) (waits : ∀ r, WaitOf s r) (after : ((commit s).port q).attach = .attached) :
    ∃ ns, Heard ns (s.port q) ((commit s).port q) ∧ (∀ n ∈ ns, n.kind = .portLeft ∨ n.kind.OfPlan) ∧
      (q = .p0 → ∀ p ∈ s.layout.retiring, ∀ why, (s.port p).attach = .leaving why false →
        (ns.filter fun n => n.kind == .portLeft && n.subject == byteOf p.toNat) =
          if ((commit s).port p).responses = [] then [portLeftNotice s.scan.frame p why] else []) := by
  have away : Awaited s.layout.retiring s := fun r m => (h.at r).retires.mp m
  obtain ⟨-, settled, -⟩ := commit_attached after
  obtain ⟨-, -, ls, kinds, -, settle⟩ := settleSealed_attached away settled
  have plans : ∀ n ∈ sentTo q (settleSealed s).2.notices, n.kind.OfPlan := fun n m => by
    obtain ⟨r, m⟩ := mem_sentTo m
    exact settleSealed_kinds s _ m
  have law := settleSealed_tableLaw h
  refine ⟨_, commit_heard_lefts h after settle, fun n m => ?_, fun zero p listed why e => ?_⟩
  · rcases List.mem_append.mp m with m | m
    · rcases List.mem_append.mp m with m | m
      · exact .inl (kinds n m).1
      · split at m
        · rw [portsLeft_eq] at m
          obtain ⟨r, -, found⟩ := List.mem_filterMap.mp m
          exact .inl (PortController.portLeft_eq (Option.mem_toList.mpr found)).1
        · cases m
    · exact .inr (plans n m)
  · have alone := settleSealed_leaving h (waits p) e
    have attach : ((settleSealed s).1.port p).attach = .leaving why false := alone.attach.trans e
    have bare : ((afterRetirement s).lay p).sealedSet = none := by
      rw [afterRetirement, (retireListed_draft _ p).2]
      exact ((law.at p).away (by rw [attach]; nofun)).2
    have responses : ((commit s).port p).responses = ((settleSealed s).1.port p).responses :=
      ((finishes_commit h).responses bare).trans (retireListed_responses _ p)
    have none_first : (ls.filter fun n => n.kind == .portLeft && n.subject == byteOf p.toNat) = [] :=
      List.filter_eq_nil_iff.mpr fun n m own => by
        simp only [Bool.and_eq_true, beq_iff_eq] at own
        exact (kinds n m).2 p listed own.2
    have none_last : ((sentTo q (settleSealed s).2.notices).filter fun n => n.kind == .portLeft && n.subject == byteOf p.toNat) = [] :=
      List.filter_eq_nil_iff.mpr fun n m own => by
        rcases plans n m with k | k | k <;> rw [k] at own <;> cases own
    rw [List.filter_append, List.filter_append, none_first, none_last, if_pos zero, portsLeft_eq,
      filter_portLeft law.2.1 ((law.at p).retires.mpr ⟨why, attach⟩), responses, PortController.portLeft, PortController.leaves, attach]
    cases ((settleSealed s).1.port p).responses <;> rfl

/-! ### The whole frame start -/

theorem filter_of_none_left (h : ∀ n ∈ ns, n.kind ≠ .portLeft) (p : PortId) :
    (ns.filter fun n => n.kind == .portLeft && n.subject == byteOf p.toNat) = [] :=
  List.filter_eq_nil_iff.mpr fun n m own => by
    simp only [Bool.and_eq_true, beq_iff_eq] at own
    exact h n m own.1

theorem frameWork_told (h : s.TableLaw) (waits : ∀ r, WaitOf s r) (after : ((frameWork now s).port q).attach = .attached) :
    ∃ ns, Told (allWorks now) q s ns ∧ (q = .p0 → ∀ p ∈ s.layout.retiring, ∀ why, (s.port p).attach = .leaving why false →
      (ns.filter fun n => n.kind == .portLeft && n.subject == byteOf p.toNat) =
        if ((frameWork now s).port p).responses = [] then [portLeftNotice s.scan.frame p why] else []) := by
  obtain ⟨before, behind, place⟩ := exists_commitAt now
  have made := place.committed s
  have calm := made.calmer.calm
  have frame := made.frame
  have trails := made.done.trails
  rw [frameWork_attach, place.all, List.foldl_append] at after
  have committed : ((commit (before.foldl doWork s)).port q).attach = .attached := works_attached behind after
  obtain ⟨n1, first, left1⟩ := works_told before (commit_attached committed).1
  obtain ⟨n2, heard, kinds, left2⟩ := commit_heard_listed (calm.tableLaw h) (fun r => calm.waitOf (waits r)) committed
  obtain ⟨n3, last, left3⟩ := works_told behind (s := commit (before.foldl doWork s)) after
  refine ⟨n1 ++ (n2 ++ n3), ?_, fun zero p listed why e => ?_⟩
  · rw [place.all]
    exact first.append (Told.append (ws := [.commit]) (told_commit heard kinds) last)
  · rw [List.filter_append, List.filter_append, filter_of_none_left (left1 (.inl place.first)) p,
      filter_of_none_left (left3 (.inr (commit_idle _))) p,
      left2 zero p (by rw [calm.layout]; exact listed) why ((calm.attach p).trans e), frame, (trails.port p).responses]
    simp

theorem raised_waits (attached : (s.port p).attach = .attached) : ((raised s).unit p).frameWaiting = true := by
  rw [raised_unit]
  exact decide_eq_true attached

theorem raised_heard (h : Heard ns ((raised s).port q) (t.port q)) :
    (t.port q).notices = (withNotices q ns (takeReports s)).notices ∧
      (t.port q).noticeLost = (withNotices q ns (takeReports s)).noticeLost := by
  have port : (raised s).port q = (takeReports s).port q := by
    rw [raised, raiseFrame_eq]
    rfl
  rw [port] at h
  exact h.told

theorem frameWork_attached (after : ((frameWork now (raised s)).port q).attach = .attached) : (s.port q).attach = .attached := by
  rw [frameWork_attach] at after
  exact ((raised_calm s).attach q).symm.trans (works_attached _ after)

theorem warmTold_raised (still : s.scan.warmWaiting = false) : warmTold (raised s).scan =
    if s.scan.panel = .warming ∧ s.scan.setup.warm ≤ s.scan.warm + 1 then
      [{ kind := .panelState, subject := 0x02, frame := s.scan.frame + 1, count := 1, detail := 0x01 }]
    else [] := by
  rw [raised_scan, warmTold]
  cases panel : s.scan.panel with
  | warming => simp [countFrame_warming panel, panel, PanelState.byte]
  | cooling => simp [countFrame_cooling panel, still]
  | live => simp [countFrame_live panel, still]
  | dark => simp [countFrame, panel, still]

/-- Settles O43: the Scan Timer's count, the one commit that finds something waiting, each unit's place in the order, and the
notices filtered by what they speak of. -/
theorem frameStartCommits : Obligations.FrameStartCommits := by
  intro now s
  refine ⟨fun idle => ?_, fun runs ends stays still => ⟨_, exec_frameStart now runs ends stays, ?_⟩,
    fun runs ends stays law waiting still => ⟨_, _, rfl, exec_frameStart now runs ends stays, ?_⟩⟩
  · show execFrameStart now s = _
    rw [execFrameStart, if_pos]
    rcases idle with dark | n
    · simp [dark]
    · simp [Bool.eq_false_iff.mpr (mt frameOver_iff.mp n)]
  · obtain ⟨before, behind, place⟩ := exists_commitAt now
    have done := (place.committed (raised s)).done
    obtain ⟨frame, pos, setup⟩ := frameWork_number now s
    have comp : (frameWork now (raised s)).comp = { list := [], output := .blank } := by
      rw [frameWork_comp, raised, raiseFrame_eq]
    refine ⟨frame, pos, setup, comp, done.idle.sealedPlan, done.idle.retiring, fun p => ⟨done.idle.sets p, done.ready p⟩,
      fun live => ?_, fun cooling => ?_, fun warming => frameWork_warming warming now, fun p attached => ?_, fun p => ⟨fun away => ?_,
        fun attached a b listed early => frameWork_pulsed listed early (((raised_calm s).attach p).trans attached) (raised_waits attached)⟩⟩
    · have scan : (raised s).scan = { s.scan with frame := s.scan.frame + 1, pos := none } := by rw [raised_scan, countFrame_live live]
      rw [frameWork_scan_of_none (by rw [scan]; exact still), scan]
      exact ⟨live, rfl, rfl⟩
    · have scan := raised_scan s
      rw [countFrame_cooling cooling] at scan
      rw [frameWork_scan_of_none (by rw [scan]; exact still), scan]
      refine ⟨cooling, rfl, ?_⟩
      show (if _ then _ else _) = _
      split <;> rfl
    · have waits := raised_waits (frameWork_attached attached)
      by_cases listed : .unit p ∈ now
      · obtain ⟨a, b, split, first⟩ := List.eq_append_cons_of_mem listed
        have judged := frameWork_listed split first waits attached
        exact .inl ⟨judged.fsync, judged.pulsed, judged.taken⟩
      · have settled := frameWork_unlisted listed waits attached
        by_cases reach : 1 ≤ ((raised s).unit p).sh ∧ reachesCount ((frameWork now (raised s)).entry p) ((raised s).unit p)
        · rw [settled.waits reach]
          exact .inr ⟨listed, waits, reach⟩
        · have judged := settled.takes reach
          exact .inl ⟨judged.fsync, judged.pulsed, judged.taken⟩
    · exact frameWork_not_pulsed (by rw [raised_unit]; exact decide_eq_false away) (by rw [raised_unit])
  · obtain ⟨before, behind, place⟩ := exists_commitAt now
    have made := place.committed (raised s)
    have raise := raised_calm s
    have calm := raise.trans made.calmer.calm
    have waits : ∀ q, WaitOf s q := (waitingLaw_iff.mp waiting).2
    refine ⟨portsRetired_between calm made.done.trails
      (commit_portsRetired (calm.tableLaw law) fun q => calm.waitOf (waits q)), fun q _ after => ?_⟩
    obtain ⟨ns, told, lefts⟩ := frameWork_told (raise.tableLaw law) (fun q => raise.waitOf (waits q)) after
    refine ⟨ns, ?_, fun zero p listed why e => ?_, raised_heard (by rw [frameWork_port]; exact told.heard)⟩
    · rw [told.panel, warmTold_raised still]
      by_cases m : FrameWork.timer ∈ now
      · rw [if_pos ((allWorks_mem (by simp)).mpr m)]
        simp [m]
      · rw [if_neg (mt (allWorks_mem (by simp)).mp m)]
        simp [m]
    · rw [lefts zero p (by rw [raise.layout]; exact listed) why ((raise.attach p).trans e), raised_frame]

end

end Sys2Proof.Machine
end

