-- ==== Sys2Proof/Proofs/FrameStartApplies.lean ====
section
/-! PROOFS. A frame start that settles no plan: the sets applied, and the notices of its works in their order, each as the state
it was raised in gives it (R74, R116, R147, R166). -/

namespace Sys2Proof.Machine

section
variable {p q r : PortId} {b c s t u x y z : State} {now before behind ws vs : List FrameWork} {w : FrameWork}
  {ns ms : List Notice} {e : PlanEntry} {v : SourceUnit} {f : FrameNo}

/-! ### The notices of a judgement -/

theorem sentTo_locked (n : Notice) : sentTo q [(p, n)] = if q = p then [n] else [] := by
  unfold sentTo
  by_cases h : q = p
  · simp [h]
  · simp [h, Ne.symm h]

theorem sentTo_lost (n : Notice) : sentTo q (if p = .p0 then [(p, n)] else [(p, n), (.p0, n)]) =
    if q = p ∨ q = .p0 then [n] else [] := by
  unfold sentTo
  cases p <;> cases q <;> rfl

theorem judgedNotices_missed (missed : ∀ pic, v.filling ≠ .ready pic) : judgedNotices f p e v q =
    if v.monitor = .locked ∧ (q = p ∨ q = .p0) ∧ e.tolerance ≤ min 15 (v.missed + 1) then
      [{ kind := .sourceLost, subject := byteOf p.toNat, frame := f, count := 1, detail := byteOf (min 15 (v.missed + 1)) }]
    else [] := by
  unfold judgedNotices
  cases filling : v.filling with
  | ready pic => exact absurd filling (missed pic)
  | empty => cases v.monitor <;> simp
  | receiving rows => cases v.monitor <;> simp

theorem sentTo_missed (missed : ∀ pic, v.filling ≠ .ready pic) (e : PlanEntry) (s : State) :
    sentTo q (judgementNotices p (v.onMissed e.tolerance).1 (v.onMissed e.tolerance).2 s) =
      judgedNotices s.scan.frame p e v q := by
  have none_sent : sentTo q ([] : List (PortId × Notice)) = [] := rfl
  rw [judgedNotices_missed missed]
  unfold SourceUnit.onMissed
  cases monitor : v.monitor with
  | locked =>
    by_cases h : e.tolerance ≤ min Config.missedCeiling (v.missed + 1)
    · have reached : e.tolerance ≤ min 15 (v.missed + 1) := h
      simp only [if_pos h, true_and, and_iff_left reached]
      exact sentTo_lost _
    · have short : ¬e.tolerance ≤ min 15 (v.missed + 1) := h
      simp only [if_neg h, short, and_false, if_false]
      rfl
  | noSignal => simp [judgementNotices, none_sent]
  | acquiring => simp [judgementNotices, none_sent]
  | lost => simp [judgementNotices, none_sent]

/-- What a port hears of the judgement of a unit by an entry. -/
theorem sentTo_judged (e : PlanEntry) (v : SourceUnit) (s : State) :
    sentTo q (judgementNotices p (v.judged e).1 (v.judged e).2 s) = judgedNotices s.scan.frame p e v q := by
  have none_sent : sentTo q ([] : List (PortId × Notice)) = [] := rfl
  unfold SourceUnit.judged
  cases filling : v.filling with
  | ready pic =>
    simp only [SourceUnit.onFresh, SourceUnit.exchanged]
    cases monitor : v.monitor with
    | noSignal =>
      by_cases h : e.lockCount = 1
      · simp [judgementNotices, judgedNotices, filling, monitor, h, sentTo_locked, noticeNow, portByte]
      · simp [judgementNotices, judgedNotices, filling, monitor, h, none_sent]
    | acquiring =>
      by_cases h : e.lockCount ≤ min 7 (v.good + 1)
      · simp [judgementNotices, judgedNotices, filling, monitor, h, sentTo_locked, noticeNow, portByte, Config.goodCeiling]
      · simp [judgementNotices, judgedNotices, filling, monitor, h, none_sent, Config.goodCeiling]
    | locked => simp [judgementNotices, judgedNotices, filling, monitor, none_sent]
    | lost => simp [judgementNotices, judgedNotices, filling, monitor, none_sent]
  | empty => exact sentTo_missed (by rw [filling]; nofun) e s
  | receiving rows => exact sentTo_missed (by rw [filling]; nofun) e s

/-- What a port hears of an ATTACHED port's unit at which the frame start waits. -/
theorem unitTold_eq (attached : (s.port p).attach = .attached) (waits : (s.unit p).frameWaiting = true) :
    unitTold q p s = if 1 ≤ (s.unit p).sh then judgedNotices s.scan.frame p (s.entry p) (s.unit p) q else [] := by
  rw [unitTold, if_pos waits]
  split
  · rename_i runs
    rw [judgement_running (running_iff.mpr ⟨attached, runs⟩), sentTo_judged]
  · rename_i still
    rw [judgement_still (Bool.eq_false_iff.mpr fun h => still (running_iff.mp h).2)]
    rfl

theorem unitTold_taken (taken : (s.unit p).frameWaiting = false) : unitTold q p s = [] := by
  rw [unitTold, taken]
  rfl

/-! ### An order that names no work twice -/

theorem distinct_nodup (d : FrameWork.distinct ws = true) : ws.Nodup := by
  induction ws with
  | nil => exact .nil
  | cons w ws ih =>
    simp only [FrameWork.distinct, Bool.and_eq_true, Bool.not_eq_true', List.contains_eq_mem, decide_eq_false_iff_not] at d
    exact List.nodup_cons.mpr ⟨d.1, ih d.2⟩

theorem allWorks_eq (now : List FrameWork) : allWorks now = if .commit ∈ now then now else now ++ [.commit] :=
  if_congr (by simp) rfl rfl

theorem allWorks_nodup (d : FrameWork.distinct now = true) : (allWorks now).Nodup := by
  have nodup := distinct_nodup d
  rw [allWorks_eq]
  split
  · exact nodup
  · rename_i n
    exact List.nodup_append.mpr ⟨nodup, List.nodup_singleton _, fun a m b h => by
      rw [List.mem_singleton.mp h]
      exact fun g => n (g ▸ m)⟩

/-! ### A commit without a sealed plan -/

theorem commit_stays (h : s.TableLaw) (e : s.layout.sealedPlan = none) (attached : (s.port q).attach = .attached) :
    ((commit s).port q).attach = .attached := by
  have port := (retireListed_retired s).ports q
  rw [if_neg (not_retiring_of h attached)] at port
  rw [commit_attach, afterRetirement, settleSealed_none e, port.attach]
  exact attached

theorem works_stays (h : s.TableLaw) (e : s.layout.sealedPlan = none) (ws : List FrameWork)
    (attached : (s.port q).attach = .attached) : ((ws.foldl doWork s).port q).attach = .attached := by
  by_cases m : FrameWork.commit ∈ ws
  · obtain ⟨early, late, split, n⟩ := List.eq_append_cons_of_mem m
    have calm := (calmer_works early n s).calm
    have done := (done_commit (early.foldl doWork s)).works late
    rw [split, List.foldl_append]
    exact (done.trails.port q).attach.trans
      (commit_stays (calm.tableLaw h) (by rw [calm.layout, e]) ((calm.attach q).trans attached))
  · exact ((calmer_works ws m s).calm.attach q).trans attached

theorem works_plan (e : s.layout.sealedPlan = none) (ws : List FrameWork) : (ws.foldl doWork s).layout.plan = s.layout.plan := by
  by_cases m : FrameWork.commit ∈ ws
  · obtain ⟨early, late, split, n⟩ := List.eq_append_cons_of_mem m
    have layout := (calmer_works early n s).calm.layout
    have e' : (early.foldl doWork s).layout.sealedPlan = none := by rw [layout, e]
    have done := (done_commit (early.foldl doWork s)).works late
    have plan : (commit (early.foldl doWork s)).layout.plan = s.layout.plan := by
      rw [commit_plan, settleSealed_none e', layout]
    rw [split, List.foldl_append]
    exact (congrArg LayoutStore.plan done.trails.layout).trans plan
  · rw [(calmer_works ws m s).calm.layout]

/-! ### The notices of each work -/

theorem judgedNotices_raised : judgedNotices f p e ((raised s).unit p) q = judgedNotices f p e (s.unit p) q := by
  rw [raised_unit]
  rfl

/-- What a work of the frame start tells an ATTACHED port, where it is done for the first time. -/
theorem workNotices_told (law : s.TableLaw) (plan : s.layout.sealedPlan = none) (still : s.scan.warmWaiting = false)
    (fresh : w ∉ ws) (attached : (s.port q).attach = .attached) :
    Heard (workNotices s q w) ((ws.foldl doWork (raised s)).port q) ((doWork (ws.foldl doWork (raised s)) w).port q) := by
  have raise := raised_calm s
  have law' := raise.tableLaw law
  have plan' : (raised s).layout.sealedPlan = none := by rw [raise.layout, plan]
  have frame : (ws.foldl doWork (raised s)).scan.frame = s.scan.frame + 1 := (works_frame_number ws _).trans (raised_frame s)
  have stays : ∀ r, (s.port r).attach = .attached → ((ws.foldl doWork (raised s)).port r).attach = .attached := fun r a =>
    works_stays law' plan' ws ((raise.attach r).trans a)
  cases w with
  | commit =>
    have calm := raise.trans (calmer_works ws fresh (raised s)).calm
    have told := commit_heard_plain (calm.tableLaw law) (by rw [calm.layout, plan])
      (commit_stays (calm.tableLaw law) (by rw [calm.layout, plan]) (stays q attached))
    rw [frame, portsLeft_congr (congrArg LayoutStore.retiring calm.layout) fun r _ => calm.port r] at told
    exact told
  | unit p =>
    refine (heard_takeFrameStart p q _).cast (show unitTold q p _ = _ from ?_)
    by_cases there : (s.port p).attach = .attached
    · have unit := works_unit (.inl fresh) (stays p there)
      have entry : (ws.foldl doWork (raised s)).entry p = s.entry p := by
        rw [State.entry, works_plan plan', raise.layout, State.entry]
      rw [unitTold_eq (stays p there) (by rw [unit]; exact raised_waits there), unit, entry, frame, judgedNotices_raised, workNotices]
      exact if_congr (by rw [raised_unit]; simp [there]) rfl rfl
    · have taken : ((raised s).unit p).frameWaiting = false := by
        rw [raised_unit]
        exact decide_eq_false there
      rw [unitTold_taken ((works_eased (.inr taken)).taken taken), workNotices, if_neg fun g => there g.1]
  | timer =>
    have told := heard_takeWarmCount (ws.foldl doWork (raised s)) q
    rw [works_scan, if_neg fresh, warmTold_raised still] at told
    exact told

theorem worksNotices_told (law : s.TableLaw) (plan : s.layout.sealedPlan = none) (still : s.scan.warmWaiting = false)
    (nodup : ws.Nodup) (attached : (s.port q).attach = .attached) :
    Heard (ws.flatMap (workNotices s q)) ((raised s).port q) ((ws.foldl doWork (raised s)).port q) := by
  induction ws using List.reverseRecOn with
  | nil => exact .refl _
  | append_singleton ws w ih =>
    obtain ⟨first, -, apart⟩ := List.nodup_append.mp nodup
    have fresh : w ∉ ws := fun m => apart w m w (List.mem_singleton_self w) rfl
    rw [List.flatMap_append, List.foldl_append, List.flatMap_singleton]
    exact (ih first).trans (workNotices_told law plan still fresh attached)

/-- Settles O44: the commit applies the sets; each work of an order that names none twice tells what the raised state gives it. -/
theorem frameStartAppliesSets : Obligations.FrameStartAppliesSets := by
  intro now s distinct runs ends stays plan law waiting
  refine ⟨_, _, rfl, exec_frameStart now runs ends stays, ?_⟩
  obtain ⟨before, behind, place⟩ := exists_commitAt now
  have made := place.committed (raised s)
  have raise := raised_calm s
  have calm := raise.trans made.calmer.calm
  have trails := made.done.trails
  have waits := (waitingLaw_iff.mp waiting).2
  have table := calm.tableLaw law
  have waits' : ∀ q, WaitOf (before.foldl doWork (raised s)) q := fun q => calm.waitOf (waits q)
  refine ⟨setsApplied_between calm trails (made.withdrawn distinct) (commit_setsApplied table waits' (by rw [calm.layout, plan])),
    portsRetired_between calm trails (commit_portsRetired table waits'), fun still q attached => ⟨?_, ?_⟩⟩
  · rw [frameWork_attach]
    exact works_stays (raise.tableLaw law) (by rw [raise.layout, plan]) _ ((raise.attach q).trans attached)
  · have told := worksNotices_told law plan still (allWorks_nodup distinct) attached
    rw [← frameWork_port, allWorks_eq] at told
    exact raised_heard told

end

end Sys2Proof.Machine
end

