-- ==== Sys2Proof/Proofs/FrameStartJudges.lean ====
section
/-! PROOFS. A frame start judges the unit of an ATTACHED port by the table, wherever the order has it, and tells of a count that
it reaches (R113, R114, R116). -/

namespace Sys2Proof.Machine

section
variable {p q : PortId} {s t : State} {now before behind : List FrameWork} {e : PlanEntry} {v : SourceUnit}

theorem judgedTo_raised : judgedTo e ((raised s).unit p) v ↔ judgedTo e (s.unit p) v := by
  rw [raised_unit]
  rfl

theorem reachesCount_raised : reachesCount e ((raised s).unit p) ↔ reachesCount e (s.unit p) := by
  rw [raised_unit]
  rfl

theorem raised_sh : ((raised s).unit p).sh = (s.unit p).sh := by rw [raised_unit]

theorem raised_entry (s : State) (p : PortId) : (raised s).entry p = s.entry p := (raised_calm s).entry p

theorem filter_unitTold (s : State) : ((unitTold q p s).filter fun n => n.ofUnit p) = unitTold q p s :=
  List.filter_eq_self.mpr fun n m => by
    obtain ⟨kind, subject⟩ := kind_of_unitTold m
    rcases kind with k | k <;> simp [Notice.ofUnit, k, subject]

/-- Of a unit at its first place in the order an ATTACHED port hears what its judgement there raises, and nothing else. -/
theorem frameWork_hears (listed : now = before ++ .unit p :: behind) (first : .unit p ∉ before)
    (attached : (s.port p).attach = .attached) (waits : (s.unit p).frameWaiting = true) (runs : 1 ≤ (s.unit p).sh)
    (there : ((frameWork now s).port p).attach = .attached ∨ .commit ∉ before)
    (after : ((frameWork now s).port q).attach = .attached) : ∃ ns, Heard ns (s.port q) ((frameWork now s).port q) ∧
      (ns.filter fun n => n.ofUnit p) =
        judgedNotices s.scan.frame p (if .commit ∈ before then (frameWork now s).entry p else s.entry p) (s.unit p) q := by
  obtain ⟨more, all⟩ := allWorks_append listed
  have entry := works_entry all s p
  have present : ((before.foldl doWork s).port p).attach = .attached := by
    rcases there with a | n
    · rw [frameWork_attach, all, List.foldl_append] at a
      exact works_attached _ a
    · exact ((calmer_works before n s).calm.attach p).trans attached
  have same := works_unit (.inl first) present
  have taken : ((doWork (before.foldl doWork s) (.unit p)).unit p).frameWaiting = false :=
    congrArg SourceUnit.frameWaiting (takeFrameStart_unit present (by rw [same, waits]))
  rw [frameWork_attach, all, List.foldl_append] at after
  obtain ⟨n1, early, -⟩ := works_told before (works_attached _ after)
  obtain ⟨n3, late, -⟩ := works_told more (s := doWork (before.foldl doWork s) (.unit p)) after
  have told := early.append (Told.append (ws := [.unit p]) (told_unit p q _) late)
  refine ⟨n1 ++ (unitTold q p (before.foldl doWork s) ++ n3), ?_, ?_⟩
  · rw [frameWork_port, all]
    exact told.heard
  · rw [List.filter_append, List.filter_append, early.units p (.inl first), late.units p (.inr taken), filter_unitTold,
      List.nil_append, List.append_nil, unitTold_eq present (by rw [same, waits]), same, if_pos runs, entry, works_frame_number]

/-- Settles O36: the unit is judged at its first place in the order, or at the end where the order leaves it out. -/
theorem frameStartJudges : Obligations.FrameStartJudges := by
  intro now p s runs ends stays attached source _
  have present : ((raised s).port p).attach = .attached := ((raised_calm s).attach p).trans attached
  have waits := raised_waits attached
  refine ⟨fun unlisted => ⟨_, exec_frameStart now runs ends stays, fun after => ?_⟩,
    ⟨_, exec_frameStart _ runs ends stays, frameWork_pulsed (before := []) rfl nofun present waits, fun after => ?_⟩,
    fun a b first listed => ⟨_, _, rfl, exec_frameStart now runs ends stays, fun after => ?_, fun there q _ after => ?_⟩⟩
  · have settled := frameWork_unlisted unlisted waits after
    refine ⟨fun short => judgedTo_raised.mp (settled.takes fun r => short (reachesCount_raised.mp r.2)).judged, fun reached => ?_⟩
    rw [settled.waits ⟨by rw [raised_sh]; exact source, reachesCount_raised.mpr reached⟩, raised_unit, decide_eq_true attached]
  · have judged := (frameWork_listed (before := []) rfl nofun waits after).judged
    rw [judgedTo_raised, if_neg nofun, raised_entry] at judged
    exact judged.2 source
  · have judged := (frameWork_listed listed first waits after).judged
    rw [judgedTo_raised, raised_entry] at judged
    exact judged
  · obtain ⟨ns, heard, own⟩ := frameWork_hears listed first present waits (by rw [raised_sh]; exact source) there after
    rw [judgedNotices_raised, raised_frame, raised_entry] at own
    exact ⟨ns, own, raised_heard heard⟩

end

end Sys2Proof.Machine
end

