-- ==== Sys2Proof/Proofs/PanelOnStarts.lean ====
section
/-! PROOFS. PANEL-ON while DARK: WARMING is entered and a frame start raised at once, its works around the PANEL_STATE notice
(R142, R147). -/

namespace Sys2Proof.Machine

/-- A port has a notice in its queue, or its notice-lost flag is set. -/
def PortController.Has (n : Notice) (c : PortController) : Prop :=
  (∃ m ∈ c.notices, m.kind = n.kind ∧ m.subject = n.subject ∧ m.frame = n.frame ∧ m.detail = n.detail) ∨ c.noticeLost = true

/-- The works behind the PANEL_STATE notice, the commit among them where the order lists none. -/
def lateWorks (now : List FrameWork) : List FrameWork :=
  if now.contains .commit then worksAfter now else worksAfter now ++ [.commit]

/-- The state in which the PANEL_STATE notice of WARMING goes out. -/
def warmedEarly (now : List FrameWork) (s : State) : State := (worksBefore now).foldl doWork (warmed (takeReports s))

section
variable {p q : PortId} {b c d : PortController} {s t u x y z : State} {now before behind ws vs : List FrameWork} {w : FrameWork}
  {ns ms : List Notice} {n m : Notice} {e : PlanEntry} {v : SourceUnit} {r : Request}

/-! ### A notice that is told stands in the queue, or the flag is set -/

theorem coalesceInto_split {l l' : List Notice} (h : coalesceInto n l = some l') :
    ∃ front m back, l = front ++ m :: back ∧ m.agrees n = true ∧ l' = front ++ m.again n :: back := by
  induction l generalizing l' with
  | nil => cases h
  | cons a l ih =>
    unfold coalesceInto at h
    split at h
    · rename_i agrees
      exact ⟨[], a, l, rfl, agrees, (Option.some.inj h).symm⟩
    · obtain ⟨l2, h2, e⟩ := Option.map_eq_some_iff.mp h
      obtain ⟨front, m, back, e1, agrees, e2⟩ := ih h2
      exact ⟨a :: front, m, back, by rw [e1]; rfl, agrees, by rw [← e, e2]; rfl⟩

theorem stored_has (attached : c.attach = .attached) (n : Notice) : (c.stored n).Has n := by
  unfold PortController.stored
  rw [if_neg (not_not.mpr attached)]
  split
  · rename_i l h
    obtain ⟨front, m, back, -, agrees, e⟩ := coalesceInto_split h
    simp only [Notice.agrees, Bool.and_eq_true, beq_iff_eq] at agrees
    exact .inl ⟨m.again n, e ▸ List.mem_append_right _ List.mem_cons_self, agrees.1, agrees.2, rfl, rfl⟩
  · split
    · exact .inl ⟨_, List.mem_append_right _ (List.mem_singleton_self _), rfl, rfl, rfl, rfl⟩
    · exact .inr rfl

theorem stored_keeps (h : c.Has n) (other : m.kind ≠ n.kind) : (c.stored m).Has n := by
  unfold PortController.stored
  split
  · exact h
  · rcases h with ⟨a, there, kind, rest⟩ | lost
    · split
      · rename_i l h
        obtain ⟨front, x, back, e, agrees, e'⟩ := coalesceInto_split h
        simp only [Notice.agrees, Bool.and_eq_true, beq_iff_eq] at agrees
        have stays : a ∈ front ∨ a ∈ back := by
          rw [e] at there
          rcases List.mem_append.mp there with g | g
          · exact .inl g
          · refine .inr ((List.mem_cons.mp g).resolve_left fun same => other ?_)
            rw [← agrees.1, ← same, kind]
        refine .inl ⟨a, ?_, kind, rest⟩
        rw [e']
        exact List.mem_append.mpr (stays.imp_right (List.mem_cons_of_mem _))
      · split
        · exact .inl ⟨a, List.mem_append_left _ there, kind, rest⟩
        · exact .inr rfl
    · split
      · exact .inr lost
      · split
        · exact .inr lost
        · exact .inr rfl

theorem told_keeps (h : c.Has n) (others : ∀ m ∈ ms, m.kind ≠ n.kind) : (c.told ms).Has n := by
  induction ms generalizing c with
  | nil => exact h
  | cons m ms ih =>
    exact ih (stored_keeps h (others m List.mem_cons_self)) fun a g => others a (List.mem_cons_of_mem _ g)

theorem Heard.has (h : Heard (ns ++ ([n] ++ ms)) c d) (attached : c.attach = .attached) (others : ∀ m ∈ ms, m.kind ≠ n.kind) :
    d.Has n := by
  have has : (c.told (ns ++ ([n] ++ ms))).Has n := by
    rw [PortController.told_append, PortController.told_append]
    exact told_keeps (stored_has ((PortController.told_attach _ _).trans attached) n) others
  unfold PortController.Has at has ⊢
  rw [h.notices, h.noticeLost]
  exact has

/-! ### The works of a frame start with nothing to commit -/

theorem Idle.doWork_same (i : Idle s) (w : FrameWork) :
    (doWork s w).layout = s.layout ∧ ∀ q, ((doWork s w).port q).attach = (s.port q).attach := by
  by_cases h : w = .commit
  · subst h
    refine ⟨i.commit_layout, fun q => ?_⟩
    show ((commit s).port q).attach = _
    rw [i.commit_eq, releaseEngines_port]
    rfl
  · exact ⟨(calmer_doWork h s).calm.layout, (calmer_doWork h s).calm.attach⟩

theorem Idle.works_same (i : Idle s) (ws : List FrameWork) :
    (ws.foldl doWork s).layout = s.layout ∧ ∀ q, ((ws.foldl doWork s).port q).attach = (s.port q).attach := by
  induction ws generalizing s with
  | nil => exact ⟨rfl, fun _ => rfl⟩
  | cons w ws ih =>
    obtain ⟨layout, attach⟩ := i.doWork_same w
    obtain ⟨layout', attach'⟩ := ih (i.of_layout layout)
    exact ⟨layout'.trans layout, fun q => (attach' q).trans (attach q)⟩

theorem Idle.works (i : Idle s) (ws : List FrameWork) : Idle (ws.foldl doWork s) := i.of_layout (i.works_same ws).1

theorem Idle.doWork_unit (i : Idle s) (h : w ≠ .unit p ∨ (s.unit p).frameWaiting = false) : (doWork s w).unit p = s.unit p := by
  cases w with
  | commit =>
    show (commit s).unit p = _
    rw [i.commit_eq]
    rfl
  | unit q => exact takeFrameStart_skip (work_ne h rfl)
  | timer => exact takeWarmCount_unit s p

theorem Idle.works_unit (i : Idle s) (h : .unit p ∉ ws ∨ (s.unit p).frameWaiting = false) :
    (ws.foldl doWork s).unit p = s.unit p := by
  induction ws generalizing s with
  | nil => rfl
  | cons w ws ih =>
    have one := i.doWork_unit (w := w) (h.imp_left fun g e => g (e ▸ List.mem_cons_self))
    exact (ih (i.of_layout (i.doWork_same w).1) (h.imp (fun g m => g (List.mem_cons_of_mem _ m)) fun g => by rw [one, g])).trans one

theorem Idle.works_judged (i : Idle s) (listed : .unit p ∈ ws) (attached : (s.port p).attach = .attached)
    (waits : (s.unit p).frameWaiting = true) : Judged (s.entry p) (s.unit p) ((ws.foldl doWork s).unit p) := by
  obtain ⟨front, back, e, first⟩ := List.eq_append_cons_of_mem listed
  rw [e]
  obtain ⟨taking, same, present⟩ := works_unit_taking (behind := back) first waits (((i.works_same _).2 p).trans attached)
  have entry : (front.foldl doWork s).entry p = s.entry p := by rw [State.entry, (i.works_same front).1, State.entry]
  rw [taking, ← entry]
  exact judged_taking present same

/-- Of a list of commits with nothing to commit a port hears nothing. -/
theorem Idle.works_silent (i : Idle s) (units : ∀ p, .unit p ∉ ws) (timer : .timer ∉ ws) (q : PortId) :
    Heard [] (s.port q) ((ws.foldl doWork s).port q) := by
  induction ws generalizing s with
  | nil => exact .refl _
  | cons w ws ih =>
    have one : Heard [] (s.port q) ((doWork s w).port q) := by
      cases w with
      | commit => exact i.heard_commit q
      | unit p => exact absurd List.mem_cons_self (units p)
      | timer => exact absurd List.mem_cons_self timer
    exact one.then_quiet (ih (i.of_layout (i.doWork_same w).1) (fun p m => units p (List.mem_cons_of_mem _ m))
      fun m => timer (List.mem_cons_of_mem _ m))

theorem works_idle (m : .commit ∈ ws) (s : State) : Idle (ws.foldl doWork s) := by
  obtain ⟨front, back, e, -⟩ := List.eq_append_cons_of_mem m
  rw [e, List.foldl_append]
  exact ((done_commit (front.foldl doWork s)).works back).idle

/-! ### The two parts of the order -/

theorem worksBefore_timer (now : List FrameWork) : .timer ∉ worksBefore now := fun m => by
  have h := List.mem_takeWhile_imp m
  cases h

theorem lateWorks_mem : w ∈ lateWorks now ↔ w ∈ worksAfter now ∨ (w = .commit ∧ .commit ∉ now) := by
  unfold lateWorks
  by_cases h : FrameWork.commit ∈ now
  · simp [h]
  · simp [h]

theorem lateWorks_timer (now : List FrameWork) : .timer ∉ lateWorks now := fun m => by
  rcases lateWorks_mem.mp m with h | ⟨h, -⟩
  · cases (List.mem_filter.mp h).2
  · cases h

theorem parts_mem (n : w ≠ .timer) : w ∈ worksBefore now ∨ w ∈ worksAfter now ↔ w ∈ now := by
  have split : worksBefore now ++ (now.dropWhile fun w => w != .timer) = now := List.takeWhile_append_dropWhile
  have after : w ∈ worksAfter now ↔ w ∈ now.dropWhile fun w => w != .timer := by
    rw [worksAfter, List.mem_filter]
    simp [n]
  rw [after, ← List.mem_append, split]

theorem unit_listed : FrameWork.unit p ∈ worksBefore now ∨ .unit p ∈ lateWorks now ↔ .unit p ∈ now := by
  rw [lateWorks_mem, ← parts_mem (now := now) (w := .unit p) (by simp)]
  simp

theorem commit_listed (now : List FrameWork) : FrameWork.commit ∈ worksBefore now ∨ .commit ∈ lateWorks now := by
  by_cases h : FrameWork.commit ∈ now
  · exact ((parts_mem (by simp)).mpr h).imp_right fun g => lateWorks_mem.mpr (.inl g)
  · exact .inr (lateWorks_mem.mpr (.inr ⟨rfl, h⟩))

theorem startWarming_parts (now : List FrameWork) (s : State) :
    startWarming now s = settleUnits ((lateWorks now).foldl doWork (announcePanel .dark (warmedEarly now s))) := by
  have late : ∀ z : State, commitLast now ((worksAfter now).foldl doWork z) = (lateWorks now).foldl doWork z := fun z => by
    unfold commitLast lateWorks
    split
    · rfl
    · rw [List.foldl_append]
      rfl
  rw [startWarming_eq, late]
  rfl

/-! ### The state that WARMING begins in -/

theorem warmed_calm (s : State) : Calm s (warmed (takeReports s)) :=
  (calm_takeReports s).trans ((calm_setScan (s := takeReports s) (x := { (takeReports s).scan with
    panel := .warming, warm := 0, coolingFrame := false, warmWaiting := false }) rfl).trans (calm_raiseFrame _))

theorem warmed_scan (s : State) : (warmed (takeReports s)).scan =
    { s.scan with panel := .warming, warm := 0, frame := s.scan.frame + 1, pos := none, coolingFrame := false, warmWaiting := false } := by
  rw [warmed, raiseFrame_eq]
  show ({ (takeReports s).scan with
    panel := .warming, warm := 0, frame := (takeReports s).scan.frame + 1, pos := none, coolingFrame := false, warmWaiting := false } :
      ScanTimer) = _
  rw [takeReports_scan]

theorem warmed_unit (s : State) (p : PortId) : (warmed (takeReports s)).unit p =
    { s.unit p with pulsed := false, frameWaiting := decide ((s.port p).attach = .attached) } := by
  have unit : ∀ r, (takeReports s).unit r = s.unit r := fun r => by rw [State.unit, takeReports_sources, State.unit]
  have attach := (calm_takeReports s).attach
  rw [warmed, raiseFrame_eq]
  cases p <;> simp [State.unit_setScan, unit, attach] <;> rfl

theorem warmed_port (s : State) (q : PortId) : (warmed (takeReports s)).port q = (takeReports s).port q := by
  rw [warmed, raiseFrame_eq]
  rfl

theorem announcePanel_samePanel (s : State) : SamePanel s (announcePanel .dark s) :=
  ⟨(storeNotices_only _ s).scan, (storeNotices_only _ s).comp, (storeNotices_only _ s).pending⟩

theorem startWarming_scan (now : List FrameWork) (s : State) : (startWarming now s).scan =
    { s.scan with panel := .warming, warm := 0, frame := s.scan.frame + 1, pos := none, coolingFrame := false, warmWaiting := false } := by
  rw [startWarming_parts, (settleUnits_only _).2.2.2.2.scan, works_scan, if_neg (lateWorks_timer now),
    (announcePanel_samePanel _).scan, warmedEarly, works_scan, if_neg (worksBefore_timer now), warmed_scan]

theorem startWarming_comp (now : List FrameWork) (s : State) : (startWarming now s).comp = { list := [], output := .blank } := by
  rw [startWarming_parts, (settleUnits_only _).2.2.2.2.comp, works_comp, (announcePanel_samePanel _).comp, warmedEarly, works_comp,
    warmed, raiseFrame_eq]

theorem announcePanel_idle (i : Idle s) : Idle (announcePanel .dark s) := i.of_layout (trails_announcePanel .dark s).layout

theorem startWarming_idle (now : List FrameWork) (s : State) : Idle (startWarming now s) := by
  rw [startWarming_parts]
  refine Idle.of_layout (s := (lateWorks now).foldl doWork (announcePanel .dark (warmedEarly now s))) ?_ (trails_settleUnits _).layout
  rcases commit_listed now with m | m
  · exact (announcePanel_idle (works_idle m _)).works _
  · exact works_idle m _

/-- The state behind the PANEL_STATE notice of WARMING. -/
def warmedLate (now : List FrameWork) (s : State) : State := announcePanel .dark (warmedEarly now s)

theorem warmed_idle (i : Idle s) : Idle (warmed (takeReports s)) := i.of_layout (warmed_calm s).layout

theorem warmedLate_unit (now : List FrameWork) (s : State) (p : PortId) : (warmedLate now s).unit p = (warmedEarly now s).unit p :=
  (storeNotices_only _ _).unit p

/-- With nothing to commit the works leave the Layout Store and the attach states. -/
theorem warmedLate_same (i : Idle s) (now : List FrameWork) :
    (warmedLate now s).layout = s.layout ∧ ∀ q, ((warmedLate now s).port q).attach = (s.port q).attach := by
  obtain ⟨layout, attach⟩ := (warmed_idle i).works_same (worksBefore now)
  have trails := trails_announcePanel .dark (warmedEarly now s)
  exact ⟨trails.layout.trans (layout.trans (warmed_calm s).layout),
    fun q => (trails.port q).attach.trans ((attach q).trans ((warmed_calm s).attach q))⟩

theorem startWarming_same (i : Idle s) (now : List FrameWork) :
    (startWarming now s).layout = s.layout ∧ ∀ q, ((startWarming now s).port q).attach = (s.port q).attach := by
  obtain ⟨layout, attach⟩ := warmedLate_same i now
  obtain ⟨layout', attach'⟩ := (i.of_layout layout).works_same (lateWorks now)
  have trails := trails_settleUnits ((lateWorks now).foldl doWork (warmedLate now s))
  rw [startWarming_parts]
  exact ⟨trails.layout.trans (layout'.trans layout), fun q => (trails.port q).attach.trans ((attach' q).trans (attach q))⟩

/-! ### The units -/

/-- A unit that none of the works before the notice takes. -/
theorem warmedLate_skip (i : Idle s) (h : .unit p ∉ worksBefore now ∨ (s.port p).attach ≠ .attached) :
    (warmedLate now s).unit p = { s.unit p with pulsed := false, frameWaiting := decide ((s.port p).attach = .attached) } := by
  have start := warmed_unit s p
  have skip := (warmed_idle i).works_unit (ws := worksBefore now) (p := p)
    (h.imp_right fun n => by rw [start]; exact decide_eq_false n)
  rw [warmedLate_unit, warmedEarly, skip, start]

theorem startWarming_away (i : Idle s) (away : (s.port p).attach ≠ .attached) (now : List FrameWork) :
    (startWarming now s).unit p = { s.unit p with pulsed := false, frameWaiting := false } := by
  have skip := warmedLate_skip (now := now) i (.inr away)
  have taken : ((warmedLate now s).unit p).frameWaiting = false := by
    rw [skip]
    exact decide_eq_false away
  have late := (i.of_layout (warmedLate_same i now).1).works_unit (ws := lateWorks now) (.inr taken)
  rw [startWarming_parts]
  show (settleUnits ((lateWorks now).foldl doWork (warmedLate now s))).unit p = _
  rw [settleUnits_taken (by rw [late]; exact taken), late, skip, decide_eq_false away]

/-- A unit of an ATTACHED port as the frame start of PANEL-ON finds it. -/
def SourceUnit.awaiting (u : SourceUnit) : SourceUnit := { u with pulsed := false, frameWaiting := true }

theorem startWarming_unlisted (i : Idle s) (attached : (s.port p).attach = .attached) (n : .unit p ∉ now) :
    JudgedOrWaits (s.entry p) (s.unit p).awaiting ((startWarming now s).unit p) := by
  have skip := warmedLate_skip (now := now) i (.inl fun m => n (unit_listed.mp (.inl m)))
  rw [decide_eq_true attached] at skip
  have idle := i.of_layout (warmedLate_same i now).1
  obtain ⟨layout, attach⟩ := idle.works_same (lateWorks now)
  have late := idle.works_unit (ws := lateWorks now) (p := p) (.inl fun m => n (unit_listed.mp (.inr m)))
  have settled := settleUnits_settled (s := (lateWorks now).foldl doWork (warmedLate now s)) (p := p)
    ((attach p).trans (((warmedLate_same i now).2 p).trans attached)) (late.trans skip) rfl
  rw [startWarming_parts]
  rwa [State.entry, layout, (warmedLate_same i now).1, ← State.entry] at settled

theorem startWarming_listed (i : Idle s) (attached : (s.port p).attach = .attached) (listed : .unit p ∈ now) :
    Judged (s.entry p) (s.unit p).awaiting ((startWarming now s).unit p) := by
  have idle := i.of_layout (warmedLate_same i now).1
  have judged : Judged (s.entry p) (s.unit p).awaiting (((lateWorks now).foldl doWork (warmedLate now s)).unit p) := by
    by_cases early : .unit p ∈ worksBefore now
    · have start : (warmed (takeReports s)).unit p = (s.unit p).awaiting := by
        rw [warmed_unit, decide_eq_true attached]
        rfl
      have judged := (warmed_idle i).works_judged early (((warmed_calm s).attach p).trans attached) (by rw [start]; rfl)
      rw [start, (warmed_calm s).entry] at judged
      rw [idle.works_unit (.inr (by rw [warmedLate_unit]; exact judged.taken)), warmedLate_unit]
      exact judged
    · have skip := warmedLate_skip (now := now) i (.inl early)
      rw [decide_eq_true attached] at skip
      have judged := idle.works_judged (ws := lateWorks now) ((unit_listed.mpr listed).resolve_left early)
        (((warmedLate_same i now).2 p).trans attached) (by rw [skip])
      rwa [skip, State.entry, (warmedLate_same i now).1, ← State.entry] at judged
  rw [startWarming_parts]
  show Judged _ _ ((settleUnits ((lateWorks now).foldl doWork (warmedLate now s))).unit p)
  rw [settleUnits_taken judged.taken]
  exact judged

/-! ### The notices -/

/-- The PANEL_STATE notice of WARMING. -/
def warmingNotice (s : State) : Notice :=
  { kind := .panelState, subject := 0x01, frame := s.scan.frame + 1, count := 1, detail := 0x00 }

theorem heard_warmingNotice (now : List FrameWork) (s : State) (q : PortId) :
    Heard [warmingNotice s] ((warmedEarly now s).port q) ((warmedLate now s).port q) := by
  have heard := heard_announcePanel .dark (warmedEarly now s) q
  have scan : (warmedEarly now s).scan = (warmed (takeReports s)).scan := by
    rw [warmedEarly, works_scan, if_neg (worksBefore_timer now)]
  rw [noticeNow, scan, warmed_scan] at heard
  exact heard

theorem startWarming_port (now : List FrameWork) (s : State) (q : PortId) :
    (startWarming now s).port q = ((lateWorks now).foldl doWork (warmedLate now s)).port q := by
  rw [startWarming_parts]
  show (settleUnits ((lateWorks now).foldl doWork (warmedLate now s))).port q = _
  rw [State.port, (settleUnits_only _).1, State.port]

theorem startWarming_has (i : Idle s) (attached : (s.port q).attach = .attached) (now : List FrameWork) :
    ((startWarming now s).port q).Has (warmingNotice s) := by
  have start : ((warmed (takeReports s)).port q).attach = .attached := ((warmed_calm s).attach q).trans attached
  have idle := i.of_layout (warmedLate_same i now).1
  obtain ⟨n1, early, -⟩ := works_told (worksBefore now) ((((warmed_idle i).works_same _).2 q).trans start)
  obtain ⟨n2, late, -⟩ := works_told (lateWorks now)
    (((idle.works_same (lateWorks now)).2 q).trans (((warmedLate_same i now).2 q).trans attached))
  have panel := late.panel
  rw [if_neg (lateWorks_timer now), List.filter_eq_nil_iff] at panel
  rw [startWarming_port]
  exact (early.heard.trans ((heard_warmingNotice now s q).trans late.heard)).has start
    fun m there kind => panel m there (by rw [kind]; rfl)

theorem startWarming_heard (i : Idle s) (units : ∀ p, .unit p ∉ now) (reports : s.marks.reports = []) (q : PortId) :
    Heard [warmingNotice s] (s.port q) ((startWarming now s).port q) := by
  have start := warmed_port s q
  rw [takeReports_of_none reports] at start
  have early := (warmed_idle i).works_silent (ws := worksBefore now) (fun p m => units p (unit_listed.mp (.inl m)))
    (worksBefore_timer now) q
  have late := (i.of_layout (warmedLate_same i now).1).works_silent (ws := lateWorks now)
    (fun p m => units p (unit_listed.mp (.inr m))) (lateWorks_timer now) q
  rw [startWarming_port, ← start]
  rw [takeReports_of_none reports] at early
  have mid := heard_warmingNotice now s q
  rw [warmedEarly, takeReports_of_none reports] at mid
  exact early.trans (mid.trans late)

/-! ### PANEL-ON -/

theorem exec_panelOn {rest : List Request} (h : Takes .panelOn .p0 r rest s) :
    exec (.panelOn .p0 now) s = .next (panelOnBody .p0 now r (taken .p0 rest s)) :=
  congrArg Host.Outcome.next (serve_takes h (panelOnBody .p0 now))

theorem panelOnBody_dark (still : s.scan.warmWaiting = false) (dark : s.scan.panel = .dark) : panelOnBody .p0 now r s =
    respond .p0 r .done (startWarming now s).frameField (startWarming now s) := by
  simp only [panelOnBody, takeWarmCount_none still, dark]

theorem panelOnBody_cooling (still : s.scan.warmWaiting = false) (cooling : s.scan.panel = .cooling) :
    panelOnBody .p0 now r s = respond .p0 r .wrongState s.frameField s := by
  simp only [panelOnBody, takeWarmCount_none still, cooling]

theorem panelOnBody_running (still : s.scan.warmWaiting = false) (on : s.scan.panel = .warming ∨ s.scan.panel = .live) :
    panelOnBody .p0 now r s = respond .p0 r .already s.frameField s := by
  rcases on with h | h <;> simp only [panelOnBody, takeWarmCount_none still, h]

/-- The response of PANEL-ON changes nothing but port 0's responses. -/
theorem heard_respond (r : Request) (res : Result) (fields : List Byte) (s : State) (q : PortId) :
    Heard [] (s.port q) ((respond .p0 r res fields s).port q) := by
  unfold respond
  rw [State.port_setPort]
  split
  · rename_i h
    subst h
    exact .quiet rfl rfl rfl
  · exact .refl _

theorem heard_taken (rest : List Request) (s : State) (q : PortId) : Heard [] (s.port q) ((taken .p0 rest s).port q) := by
  cases q
  · exact .quiet rfl rfl rfl
  · exact .refl _
  · exact .refl _
  · exact .refl _

/-- Settles O41: with nothing to commit the works of the frame start around the PANEL_STATE notice judge the units alone. -/
theorem panelOnStartsWarming : Obligations.PanelOnStartsWarming := by
  intro now r rest s h still
  refine ⟨fun on => ?_, fun cooling => ?_, fun dark => ⟨_, exec_panelOn h, ?_⟩⟩
  · rw [exec_panelOn h, panelOnBody_running (s := taken .p0 rest s) still on, State.frameField_taken, respond_eq_replied]
    rfl
  · rw [exec_panelOn h, panelOnBody_cooling (s := taken .p0 rest s) still cooling, State.frameField_taken, respond_eq_replied]
    rfl
  rw [panelOnBody_dark (s := taken .p0 rest s) still dark]
  have idle := startWarming_idle now (taken .p0 rest s)
  have scan := startWarming_scan now (taken .p0 rest s)
  rw [State.scan_taken] at scan
  refine ⟨?_, startWarming_comp now _, idle.sealedPlan, idle.retiring, idle.sets,
    ⟨((startWarming now (taken .p0 rest s)).port .p0).responses, ?_⟩, fun plan retiring sets => ?_⟩
  · show (startWarming now (taken .p0 rest s)).scan = _
    rw [scan, ← still]
  · rw [State.frameField_eq_frameNow]
    rfl
  have i : Idle (taken .p0 rest s) := ⟨plan, retiring, sets⟩
  obtain ⟨layout, attach⟩ := startWarming_same i now
  have attach_taken : ∀ p, ((taken .p0 rest s).port p).attach = (s.port p).attach := fun p => (heard_taken rest s p).attach
  generalize hz : startWarming now (taken .p0 rest s) = z at *
  refine ⟨congrArg LayoutStore.plan layout, fun p => ⟨?_, ?_, fun away => ?_, fun attached => ⟨fun taking => ?_, fun unlisted runs reaches => ?_, ?_,
    fun units reports => ?_⟩⟩⟩
  · show z.lay p = _
    rw [State.lay, layout]
    rfl
  · exact (heard_respond r .done _ z p).attach.trans ((attach p).trans (attach_taken p))
  · show z.unit p = _
    rw [← hz]
    exact startWarming_away i (by rw [attach_taken]; exact away) now
  · show judgedTo _ _ (z.unit p)
    have present : ((taken .p0 rest s).port p).attach = .attached := (attach_taken p).trans attached
    rw [← hz]
    by_cases listed : .unit p ∈ now
    · exact (startWarming_listed i present listed).judged
    · refine ((startWarming_unlisted i present listed).takes fun both => ?_).judged
      rcases taking with m | still_source | short
      · exact listed m
      · exact absurd (show 1 ≤ (s.unit p).sh from both.1) (by omega)
      · exact short both.2
  · show z.unit p = _
    rw [← hz]
    exact (startWarming_unlisted i ((attach_taken p).trans attached) unlisted).waits ⟨runs, reaches⟩
  · have has := startWarming_has i ((attach_taken p).trans attached) now
    rw [hz] at has
    have quiet := heard_respond r .done z.frameField z p
    rw [quiet.notices, quiet.noticeLost]
    exact has
  · have heard := startWarming_heard i units reports p
    rw [hz] at heard
    exact (((heard_taken rest s p).trans heard).then_quiet (heard_respond r .done z.frameField z p)).told

end

end Sys2Proof.Machine
end
